-- ==== Sys2Proof/Word.lean ====
section
/-! DEFINITION. The widths of the block: 32-bit registers, bytes of IN, 16-bit samples of OUT, bit strings
(spec 00_scope.md R7, R9; 10_state.md; 20_memory.md R60, R61). -/

namespace Sys2Proof

/-- A byte of the input memory IN (20_memory.md R60). -/
abbrev Byte := BitVec 8

/-- A 16-bit sample of the output memory OUT (20_memory.md R61). -/
abbrev Sample := BitVec 16

/-- A host register: every register is 32 bits wide (10_state.md). -/
abbrev Word := BitVec 32

/-- A bit string; its head is the next bit a pump delivers (00_scope.md R9). -/
abbrev Bits := List Bool

end Sys2Proof
end

