-- ==== Sys2Proof/Config.lean ====
section
/-! DEFINITION. What an implementation fixes (spec 00_scope.md R6) and the free values of the model
(93_implementation_defined.md part 1). Every parameter of R6 is a field of `Params`, the block's configuration argument,
which State carries unchanged; `Config` holds the values the spec takes; the free values are opaque. -/

namespace Sys2Proof

namespace Config

/-! The values the spec takes (00_scope.md R6). Those that shape a type, the slot counts and a table's array lengths, are
the places State has and the operand types of Syntax range over; the block's own counts are `Params`' fields, and what
lies past them does not exist (log 25). -/

/-- NS, the byte-stream slots. -/
abbrev ns : Nat := 4

/-- NP, the bit-pump slots. -/
abbrev np : Nat := 2

/-- NT, the Huffman table slots. -/
abbrev nt : Nat := 4

/-- CW, the width of the bit cache. -/
def cacheWidth : Nat := 64

/-- MAX_GET_BITS. -/
def maxGetBits : Nat := 32

/-- FILL_THRESHOLD. -/
def fillThreshold : Nat := 32

/-- HT_MAX_LEN. -/
abbrev htMaxLen : Nat := 16

/-- HT_MAX_VALUES. -/
abbrev htMaxValues : Nat := 256

/-- SV0_MAX_ROWS. -/
def sv0MaxRows : Nat := 65535

end Config

/-- The value a difference of Huffman length 16 takes: the OPEN parameter DIFF16_VALUE (00_scope.md R6). -/
inductive Diff16 where
  | minus32768
  | plus32768
  deriving DecidableEq, Repr

/-- The byte order of a host's byte view of an OUT sample: the OPEN parameter OUT_HOST_BYTE_ORDER
(20_memory.md R67). -/
inductive ByteOrder where
  | little
  | big
  deriving DecidableEq, Repr

/-- The parameters the block is built with (00_scope.md R6; 92_eei_decisions.md, OPEN parameters). A model takes each as
an argument: they stand in State, and no step changes them. -/
structure Params where
  /-- NS, the byte-stream slots of the block. -/
  ns : Nat
  /-- NP, the bit-pump slots of the block. -/
  np : Nat
  /-- NT, the Huffman table slots of the block. -/
  nt : Nat
  /-- IN_SIZE, the bytes of IN. -/
  inSize : Nat
  /-- OUT_SIZE, the samples of OUT. -/
  outSize : Nat
  /-- CW, the width of the bit cache. -/
  cacheWidth : Nat
  /-- MAX_GET_BITS, the most bits one command reads. -/
  maxGetBits : Nat
  /-- FILL_THRESHOLD: a fill fetches only below this many cached bits (42_bitpump.md R141). -/
  fillThreshold : Nat
  /-- OVERREAD_SLACK, in bytes. -/
  overreadSlack : Nat
  /-- HT_MAX_LEN, the longest code. -/
  htMaxLen : Nat
  /-- HT_MAX_VALUES, the most leaf values of a table. -/
  htMaxValues : Nat
  /-- DIFF16_VALUE. -/
  diff16 : Diff16
  /-- PX_MAX_W, the widest image PX_DECODE accepts. -/
  pxMaxW : Nat
  /-- PX_MAX_H, the highest image PX_DECODE accepts. -/
  pxMaxH : Nat
  /-- SV0_MAX_ROWS, the most rows of the stripe table. -/
  sv0MaxRows : Nat
  /-- OUT_HOST_BYTE_ORDER. -/
  outOrder : ByteOrder
  /-- N_INST, how many instances share IN and OUT (60_exceptions.md R273). State is one of them; the others are the
  agents of the event `peerWrite` (log 5). -/
  nInst : Nat
  deriving DecidableEq, Repr

/-- The parameters that are decisions of the spec have the values it takes (00_scope.md R6;
92_eei_decisions.md D4, D17, D21, D26). -/
def Params.decided (p : Params) : Bool :=
  decide (p.ns = Config.ns ∧ p.np = Config.np ∧ p.nt = Config.nt ∧ p.cacheWidth = Config.cacheWidth ∧
    p.maxGetBits = Config.maxGetBits ∧ p.fillThreshold = Config.fillThreshold ∧ p.htMaxLen = Config.htMaxLen ∧
    p.htMaxValues = Config.htMaxValues ∧ p.sv0MaxRows = Config.sv0MaxRows)

/-- The OPEN parameters are in their ranges (92_eei_decisions.md, OPEN parameters), and the others have the spec's
values. -/
def Params.legal (p : Params) : Bool :=
  decide (1 ≤ p.inSize ∧ p.inSize ≤ 2 ^ 32 ∧ 1 ≤ p.outSize ∧ p.outSize ≤ 2 ^ 32 ∧ 2 ≤ p.pxMaxW ∧ 1 ≤ p.pxMaxH ∧
    1 ≤ p.nInst) && p.decided

namespace Config

/-- The parameters of `State.reset`: the spec's values and defaults, and for IN_SIZE, OUT_SIZE and OUT_HOST_BYTE_ORDER,
which have none, the model's choice. DESIGN CHOICE, unsafe for a statement that rests on them: log 3. -/
def resetParams : Params where
  ns := ns
  np := np
  nt := nt
  inSize := 2 ^ 32
  outSize := 2 ^ 32
  cacheWidth := cacheWidth
  maxGetBits := maxGetBits
  fillThreshold := fillThreshold
  overreadSlack := 0
  htMaxLen := htMaxLen
  htMaxValues := htMaxValues
  diff16 := .minus32768
  pxMaxW := 8384
  pxMaxH := 6208
  sv0MaxRows := sv0MaxRows
  outOrder := .little
  nInst := 1

/-! The free values. Each is uninterpreted: nothing can evaluate it, and a statement holds whatever it is. -/

/-- The contents of IN before any write the model sees, by address: the argument of 70_reset_and_hazards.md R293 and
93_implementation_defined.md I12 (log 4, safe). -/
opaque inInitial : Nat → Byte

/-- The contents of OUT before anything is written, by sample index: any value (R293, I12; log 4, safe). -/
opaque outInitial : Nat → Sample

/-- What the block reads from a byte of IN that the host raced it for: any value, by draw and address
(20_memory.md R77, I1; log 8, safe). -/
opaque racedByte : Nat → Nat → Byte

/-- A sample of OUT that is any value, by draw and index: a raced access (20_memory.md R78, I2), a failed macro
command's region (40_control.md R103, I3), an abandoned one's (70_reset_and_hazards.md R290, I5), one no host read of
STATUS has made visible (R298). Logs 6, 10, 11, 30; safe. -/
opaque freeSample : Nat → Nat → Sample

/-- Which of several tied prefix pairs HT_LOAD_PENTAX reports, by draw (43_huffman.md R169 names none; log 16, safe). -/
opaque tieChoice : Nat → Nat

end Config

end Sys2Proof
end

