-- ==== Sys2Proof/Syntax.lean ====
section
/-! DEFINITION. The 41 commands of the block, one constructor per row of spec/opcode_table.json
(30_encoding.md R86). Operands that stand in the command word are the constructors' arguments; wider operands come
from ARG0..ARG3 and the configuration registers (R81). -/

namespace Sys2Proof

/-- A byte-stream slot number, k < NS (30_encoding.md R82). -/
abbrev StreamIx := Fin Config.ns

/-- A bit-pump slot number, p < NP (30_encoding.md R82). -/
abbrev PumpIx := Fin Config.np

/-- A Huffman table slot number, t < NT (30_encoding.md R82). -/
abbrev TableIx := Fin Config.nt

/-- A Fuji gradient-set index, j < 3 (30_encoding.md R82). -/
abbrev GradSet := Fin 3

/-- The three pump modes (42_bitpump.md, mode table). -/
inductive PumpMode where
  | msb
  | jpeg
  | msb32
  deriving DecidableEq, Repr, Inhabited

/-- The commands (30_encoding.md R86). -/
inductive Instr where
  | nop
  | bsInit (k : StreamIx) (be : Bool)
  | bsGetU8 (k : StreamIx)
  | bsGetU16 (k : StreamIx)
  | bsGetU32 (k : StreamIx)
  | bsGetI32 (k : StreamIx)
  | bsGetF32 (k : StreamIx)
  | bsPeekU8 (k : StreamIx)
  | bsPeekU16 (k : StreamIx)
  | bsPeekU32 (k : StreamIx)
  | bsSkip (k : StreamIx)
  | bsGetStream (src dst : StreamIx)
  | bsGetSubstream (src dst : StreamIx)
  | bsHasPrefix (k : StreamIx) (n : BitVec 4)
  | bsSkipPrefix (k : StreamIx) (n : BitVec 4)
  | bsRebase (k : StreamIx)
  | bsCheck (k : StreamIx)
  | bpInit (p : PumpIx) (k : StreamIx) (mode : PumpMode)
  | bpFill (p : PumpIx)
  | bpGetBits (p : PumpIx) (n : BitVec 6)
  | bpPeekBits (p : PumpIx) (n : BitVec 6)
  | bpSkipBits (p : PumpIx) (n : BitVec 6)
  | htReset (t : TableIx)
  | htSetCounts (t : TableIx)
  | htSetValues (t : TableIx) (k : StreamIx) (n : BitVec 9)
  | htSetup (t : TableIx) (dng16 : Bool)
  | htDecodeSym (t : TableIx) (p : PumpIx)
  | htDecodeDiff (t : TableIx) (p : PumpIx)
  | htLoadPentaxLegacy (t : TableIx)
  | htLoadPentax (t : TableIx) (k : StreamIx)
  | ljDecode (p : PumpIx)
  | pxDecode (p : PumpIx) (t : TableIx)
  | sv0Stripes (offs raw : StreamIx)
  | sv0Decode (p : PumpIx) (mode : PumpMode)
  | fjInit (rb : BitVec 5)
  | fjGradReset
  | fjSampleEven (p : PumpIx) (j : GradSet)
  | fjSampleOdd (p : PumpIx) (j : GradSet)
  | fjEndStrip
  | fjStripWidth (i : BitVec 16)
  | fjStripOffset (i : BitVec 16)
  deriving DecidableEq, Repr

end Sys2Proof
end

