-- ==== Sys2Proof/WellFormed.lean ====
section
/-! DEFINITION. Which terms of `Instr` are commands: the immediate sub-field values that 30_encoding.md R86 marks
illegal are refused (R84 item 4), and a mode of 3 is no `PumpMode`. Which of them a block of given parameters has: its
slots and operand values are within its own counts (R82). -/

namespace Sys2Proof

/-- A prefix length is 1..8 (30_encoding.md R86, rows 0x1C and 0x1D). -/
def prefixLengthOk (n : BitVec 4) : Bool := decide (1 ≤ n.toNat ∧ n.toNat ≤ 8)

/-- A bit count is 0..32 (30_encoding.md R86, rows 0x32..0x34). -/
def bitCountOk (n : BitVec 6) : Bool := decide (n.toNat ≤ Config.maxGetBits)

/-- A value count is 1..256 (30_encoding.md R86, row 0x42). -/
def valueCountOk (n : BitVec 9) : Bool := decide (1 ≤ n.toNat ∧ n.toNat ≤ Config.htMaxValues)

/-- The well-formed commands. -/
def Instr.wf (i : Instr) : Bool :=
  match i with
  | .nop => true
  | .bsInit _ _ => true
  | .bsGetU8 _ => true
  | .bsGetU16 _ => true
  | .bsGetU32 _ => true
  | .bsGetI32 _ => true
  | .bsGetF32 _ => true
  | .bsPeekU8 _ => true
  | .bsPeekU16 _ => true
  | .bsPeekU32 _ => true
  | .bsSkip _ => true
  | .bsGetStream _ _ => true
  | .bsGetSubstream _ _ => true
  | .bsHasPrefix _ n => prefixLengthOk n
  | .bsSkipPrefix _ n => prefixLengthOk n
  | .bsRebase _ => true
  | .bsCheck _ => true
  | .bpInit _ _ _ => true
  | .bpFill _ => true
  | .bpGetBits _ n => bitCountOk n
  | .bpPeekBits _ n => bitCountOk n
  | .bpSkipBits _ n => bitCountOk n
  | .htReset _ => true
  | .htSetCounts _ => true
  | .htSetValues _ _ n => valueCountOk n
  | .htSetup _ _ => true
  | .htDecodeSym _ _ => true
  | .htDecodeDiff _ _ => true
  | .htLoadPentaxLegacy _ => true
  | .htLoadPentax _ _ => true
  | .ljDecode _ => true
  | .pxDecode _ _ => true
  | .sv0Stripes _ _ => true
  | .sv0Decode _ _ => true
  | .fjInit _ => true
  | .fjGradReset => true
  | .fjSampleEven _ _ => true
  | .fjSampleOdd _ _ => true
  | .fjEndStrip => true
  | .fjStripWidth _ => true
  | .fjStripOffset _ => true

/-- A stream slot of the block (30_encoding.md R82). -/
def Params.hasStream (par : Params) (k : StreamIx) : Bool := decide (k.val < par.ns)

/-- A pump slot of the block (30_encoding.md R82). -/
def Params.hasPump (par : Params) (p : PumpIx) : Bool := decide (p.val < par.np)

/-- A table slot of the block (30_encoding.md R82). -/
def Params.hasTable (par : Params) (t : TableIx) : Bool := decide (t.val < par.nt)

/-- The commands a block of these parameters has: every slot operand names a slot of it (30_encoding.md R82), a bit count
is at most MAX_GET_BITS and a value count at most HT_MAX_VALUES (00_scope.md R6). -/
def Instr.fits (par : Params) (i : Instr) : Bool :=
  match i with
  | .nop => true
  | .bsInit k _ => par.hasStream k
  | .bsGetU8 k => par.hasStream k
  | .bsGetU16 k => par.hasStream k
  | .bsGetU32 k => par.hasStream k
  | .bsGetI32 k => par.hasStream k
  | .bsGetF32 k => par.hasStream k
  | .bsPeekU8 k => par.hasStream k
  | .bsPeekU16 k => par.hasStream k
  | .bsPeekU32 k => par.hasStream k
  | .bsSkip k => par.hasStream k
  | .bsGetStream src dst => par.hasStream src && par.hasStream dst
  | .bsGetSubstream src dst => par.hasStream src && par.hasStream dst
  | .bsHasPrefix k _ => par.hasStream k
  | .bsSkipPrefix k _ => par.hasStream k
  | .bsRebase k => par.hasStream k
  | .bsCheck k => par.hasStream k
  | .bpInit p k _ => par.hasPump p && par.hasStream k
  | .bpFill p => par.hasPump p
  | .bpGetBits p n => par.hasPump p && decide (n.toNat ≤ par.maxGetBits)
  | .bpPeekBits p n => par.hasPump p && decide (n.toNat ≤ par.maxGetBits)
  | .bpSkipBits p n => par.hasPump p && decide (n.toNat ≤ par.maxGetBits)
  | .htReset t => par.hasTable t
  | .htSetCounts t => par.hasTable t
  | .htSetValues t k n => par.hasTable t && par.hasStream k && decide (n.toNat ≤ par.htMaxValues)
  | .htSetup t _ => par.hasTable t
  | .htDecodeSym t p => par.hasTable t && par.hasPump p
  | .htDecodeDiff t p => par.hasTable t && par.hasPump p
  | .htLoadPentaxLegacy t => par.hasTable t
  | .htLoadPentax t k => par.hasTable t && par.hasStream k
  | .ljDecode p => par.hasPump p
  | .pxDecode p t => par.hasPump p && par.hasTable t
  | .sv0Stripes a b => par.hasStream a && par.hasStream b
  | .sv0Decode p _ => par.hasPump p
  | .fjInit _ => true
  | .fjGradReset => true
  | .fjSampleEven p _ => par.hasPump p
  | .fjSampleOdd p _ => par.hasPump p
  | .fjEndStrip => true
  | .fjStripWidth _ => true
  | .fjStripOffset _ => true

end Sys2Proof
end

