-- ==== Sys2Proof/Decode.lean ====
section
/-! DEFINITION. The decode check of 30_encoding.md R84 and the opcode map R86: a total function from a 32-bit command
word to a command or a named reason why there is none, and the encoder. A command is the word in CMD, not bytes of a
memory (10_state.md R20), so the decoder takes the word. -/

namespace Sys2Proof

/-- The four fields of a command word (30_encoding.md R80). -/
structure Fields where
  /-- OPC, bits [31:24]. -/
  opc : BitVec 8
  /-- A, bits [23:20]. -/
  a : BitVec 4
  /-- B, bits [19:16]. -/
  b : BitVec 4
  /-- IMM, bits [15:0]. -/
  imm : BitVec 16
  deriving DecidableEq, Repr

/-- The fields of a word (30_encoding.md R80). -/
def fieldsOf (w : Word) : Fields where
  opc := w.extractLsb' 24 8
  a := w.extractLsb' 20 4
  b := w.extractLsb' 16 4
  imm := w.extractLsb' 0 16

/-- The word of the fields, `OPC << 24 | A << 20 | B << 16 | IMM` (30_encoding.md R87). -/
def wordOf (f : Fields) : Word := f.opc ++ f.a ++ f.b ++ f.imm

/-- Why a word is no command (30_encoding.md R84, items 1 to 4). -/
inductive DecodeError where
  /-- Item 1: OPC is not in the table. -/
  | reservedOpcode
  /-- Item 2: a field or an IMM bit marked "0" is not zero. -/
  | nonzeroField
  /-- Item 3: a slot or index operand is out of range. -/
  | operandRange
  /-- Item 4: an immediate sub-field holds a value its row marks illegal. -/
  | illegalImmediate
  deriving DecidableEq, Repr

/-- What decoding answers. -/
abbrev Decoded (α : Type) := Except DecodeError α

/-- R84 item 2 as a step of a decoder. -/
def needZero {n : Nat} (x : BitVec n) : Decoded Unit :=
  if x = 0#n then .ok () else .error .nonzeroField

/-- A field as a number below `bound` (R82, R84 item 3). -/
def needBelow {n : Nat} (bound : Nat) (x : BitVec n) : Decoded (Fin bound) :=
  if h : x.toNat < bound then .ok ⟨x.toNat, h⟩ else .error .operandRange

/-- R84 item 4 as a step of a decoder. -/
def needLegal (ok : Bool) : Decoded Unit :=
  if ok then .ok () else .error .illegalImmediate

/-- IMM[1:0] as a pump mode; 3 is illegal (R86, rows 0x30 and 0x53). -/
def modeOf (m : BitVec 2) : Decoded PumpMode :=
  match m.toNat with
  | 0 => .ok .msb
  | 1 => .ok .jpeg
  | 2 => .ok .msb32
  | _ => .error .illegalImmediate

/-- The IMM encoding of a pump mode (R86, row 0x30). -/
def modeBits (m : PumpMode) : BitVec 2 :=
  match m with
  | .msb => 0#2
  | .jpeg => 1#2
  | .msb32 => 2#2

/-! The operand shapes of R86's rows. -/

/-- A row whose A, B and IMM are all 0. -/
def bareForm (f : Fields) (i : Instr) : Decoded Instr := do
  needZero f.a
  needZero f.b
  needZero f.imm
  return i

/-- A row with one slot in A, B and IMM 0. -/
def slotForm (bound : Nat) (f : Fields) (mk : Fin bound → Instr) : Decoded Instr := do
  let x ← needBelow bound f.a
  needZero f.b
  needZero f.imm
  return mk x

/-- A row with a slot in A and a slot or index in B, IMM 0. -/
def slotPairForm (boundA boundB : Nat) (f : Fields) (mk : Fin boundA → Fin boundB → Instr) : Decoded Instr := do
  let x ← needBelow boundA f.a
  let y ← needBelow boundB f.b
  needZero f.imm
  return mk x y

/-- A row with a slot in A and a flag in IMM[0]. -/
def slotFlagForm (bound : Nat) (f : Fields) (mk : Fin bound → Bool → Instr) : Decoded Instr := do
  let x ← needBelow bound f.a
  needZero f.b
  needZero (f.imm.extractLsb' 1 15)
  return mk x (f.imm.getLsbD 0)

/-- A row with a stream slot in A and a prefix length in IMM[3:0]. -/
def prefixForm (f : Fields) (mk : StreamIx → BitVec 4 → Instr) : Decoded Instr := do
  let k ← needBelow Config.ns f.a
  needZero f.b
  needZero (f.imm.extractLsb' 4 12)
  needLegal (prefixLengthOk (f.imm.extractLsb' 0 4))
  return mk k (f.imm.extractLsb' 0 4)

/-- A row with a pump slot in A and a bit count in IMM[5:0]. -/
def bitsForm (f : Fields) (mk : PumpIx → BitVec 6 → Instr) : Decoded Instr := do
  let p ← needBelow Config.np f.a
  needZero f.b
  needZero (f.imm.extractLsb' 6 10)
  needLegal (bitCountOk (f.imm.extractLsb' 0 6))
  return mk p (f.imm.extractLsb' 0 6)

/-- A row with A and B 0 and the strip index in IMM[15:0]. -/
def stripForm (f : Fields) (mk : BitVec 16 → Instr) : Decoded Instr := do
  needZero f.a
  needZero f.b
  return mk f.imm

/-- BP_INIT: pump in A, stream in B, mode in IMM[1:0]. -/
def bpInitForm (f : Fields) : Decoded Instr := do
  let p ← needBelow Config.np f.a
  let k ← needBelow Config.ns f.b
  needZero (f.imm.extractLsb' 2 14)
  let m ← modeOf (f.imm.extractLsb' 0 2)
  return .bpInit p k m

/-- HT_SET_VALUES: table in A, stream in B, count in IMM[8:0]. -/
def setValuesForm (f : Fields) : Decoded Instr := do
  let t ← needBelow Config.nt f.a
  let k ← needBelow Config.ns f.b
  needZero (f.imm.extractLsb' 9 7)
  needLegal (valueCountOk (f.imm.extractLsb' 0 9))
  return .htSetValues t k (f.imm.extractLsb' 0 9)

/-- SV0_DECODE: pump in A, B 0, mode in IMM[1:0]. -/
def sv0DecodeForm (f : Fields) : Decoded Instr := do
  let p ← needBelow Config.np f.a
  needZero f.b
  needZero (f.imm.extractLsb' 2 14)
  let m ← modeOf (f.imm.extractLsb' 0 2)
  return .sv0Decode p m

/-- FJ_INIT: A and B 0, the raw depth in IMM[4:0]. -/
def fjInitForm (f : Fields) : Decoded Instr := do
  needZero f.a
  needZero f.b
  needZero (f.imm.extractLsb' 5 11)
  return .fjInit (f.imm.extractLsb' 0 5)

/-- The opcode map (30_encoding.md R86); every other opcode is reserved (R85). -/
def decodeFields (f : Fields) : Decoded Instr :=
  match f.opc with
  | 0x00#8 => bareForm f .nop
  | 0x10#8 => slotFlagForm Config.ns f .bsInit
  | 0x11#8 => slotForm Config.ns f .bsGetU8
  | 0x12#8 => slotForm Config.ns f .bsGetU16
  | 0x13#8 => slotForm Config.ns f .bsGetU32
  | 0x14#8 => slotForm Config.ns f .bsGetI32
  | 0x15#8 => slotForm Config.ns f .bsGetF32
  | 0x16#8 => slotForm Config.ns f .bsPeekU8
  | 0x17#8 => slotForm Config.ns f .bsPeekU16
  | 0x18#8 => slotForm Config.ns f .bsPeekU32
  | 0x19#8 => slotForm Config.ns f .bsSkip
  | 0x1A#8 => slotPairForm Config.ns Config.ns f .bsGetStream
  | 0x1B#8 => slotPairForm Config.ns Config.ns f .bsGetSubstream
  | 0x1C#8 => prefixForm f .bsHasPrefix
  | 0x1D#8 => prefixForm f .bsSkipPrefix
  | 0x1E#8 => slotForm Config.ns f .bsRebase
  | 0x1F#8 => slotForm Config.ns f .bsCheck
  | 0x30#8 => bpInitForm f
  | 0x31#8 => slotForm Config.np f .bpFill
  | 0x32#8 => bitsForm f .bpGetBits
  | 0x33#8 => bitsForm f .bpPeekBits
  | 0x34#8 => bitsForm f .bpSkipBits
  | 0x40#8 => slotForm Config.nt f .htReset
  | 0x41#8 => slotForm Config.nt f .htSetCounts
  | 0x42#8 => setValuesForm f
  | 0x43#8 => slotFlagForm Config.nt f .htSetup
  | 0x44#8 => slotPairForm Config.nt Config.np f .htDecodeSym
  | 0x45#8 => slotPairForm Config.nt Config.np f .htDecodeDiff
  | 0x46#8 => slotForm Config.nt f .htLoadPentaxLegacy
  | 0x47#8 => slotPairForm Config.nt Config.ns f .htLoadPentax
  | 0x50#8 => slotForm Config.np f .ljDecode
  | 0x51#8 => slotPairForm Config.np Config.nt f .pxDecode
  | 0x52#8 => slotPairForm Config.ns Config.ns f .sv0Stripes
  | 0x53#8 => sv0DecodeForm f
  | 0x60#8 => fjInitForm f
  | 0x61#8 => bareForm f .fjGradReset
  | 0x62#8 => slotPairForm Config.np 3 f .fjSampleEven
  | 0x63#8 => slotPairForm Config.np 3 f .fjSampleOdd
  | 0x64#8 => bareForm f .fjEndStrip
  | 0x65#8 => stripForm f .fjStripWidth
  | 0x66#8 => stripForm f .fjStripOffset
  | _ => .error .reservedOpcode

/-- The decode check of a command word against the opcode map, with the spec's slot counts (30_encoding.md R84, R86). -/
def decode (w : Word) : Decoded Instr := decodeFields (fieldsOf w)

/-- The decode check of a block of given parameters: its operands are within that block's counts too (30_encoding.md R82,
R84; log 25). -/
def decodeIn (par : Params) (w : Word) : Decoded Instr := do
  let i ← decode w
  if i.fits par then return i else .error .operandRange

/-- The number of a slot as a slot of a block: below the block's count, and one of the n places State has. -/
def slotOf (count n x : Nat) : Option (Fin n) :=
  if h : x < n then if x < count then some ⟨x, h⟩ else none else none

/-- The word the host writes to CMD for an instruction whose table bits are `w`: one 32-bit word, no operand words
(30_encoding.md R80), so the bits above `nbits` are zero. -/
def commandWord (nbits w : Nat) : Word := BitVec.ofNat 32 (w % 2 ^ nbits)

/-- The instruction the decoder reads from table bits. -/
def decodeTableWord (nbits w : Nat) : Option Instr := (decode (commandWord nbits w)).toOption

/-! The encoder, from the same rows. -/

/-- A slot number as a 4-bit field. -/
def slotField {n : Nat} (x : Fin n) : BitVec 4 := BitVec.ofNat 4 x.val

/-- A flag as IMM[0]. -/
def flagField (e : Bool) : BitVec 16 := if e then 1#16 else 0#16

/-- The fields of a command (30_encoding.md R86). -/
def encodeFields (i : Instr) : Fields :=
  match i with
  | .nop => ⟨0x00#8, 0#4, 0#4, 0#16⟩
  | .bsInit k be => ⟨0x10#8, slotField k, 0#4, flagField be⟩
  | .bsGetU8 k => ⟨0x11#8, slotField k, 0#4, 0#16⟩
  | .bsGetU16 k => ⟨0x12#8, slotField k, 0#4, 0#16⟩
  | .bsGetU32 k => ⟨0x13#8, slotField k, 0#4, 0#16⟩
  | .bsGetI32 k => ⟨0x14#8, slotField k, 0#4, 0#16⟩
  | .bsGetF32 k => ⟨0x15#8, slotField k, 0#4, 0#16⟩
  | .bsPeekU8 k => ⟨0x16#8, slotField k, 0#4, 0#16⟩
  | .bsPeekU16 k => ⟨0x17#8, slotField k, 0#4, 0#16⟩
  | .bsPeekU32 k => ⟨0x18#8, slotField k, 0#4, 0#16⟩
  | .bsSkip k => ⟨0x19#8, slotField k, 0#4, 0#16⟩
  | .bsGetStream src dst => ⟨0x1A#8, slotField src, slotField dst, 0#16⟩
  | .bsGetSubstream src dst => ⟨0x1B#8, slotField src, slotField dst, 0#16⟩
  | .bsHasPrefix k n => ⟨0x1C#8, slotField k, 0#4, n.setWidth 16⟩
  | .bsSkipPrefix k n => ⟨0x1D#8, slotField k, 0#4, n.setWidth 16⟩
  | .bsRebase k => ⟨0x1E#8, slotField k, 0#4, 0#16⟩
  | .bsCheck k => ⟨0x1F#8, slotField k, 0#4, 0#16⟩
  | .bpInit p k m => ⟨0x30#8, slotField p, slotField k, (modeBits m).setWidth 16⟩
  | .bpFill p => ⟨0x31#8, slotField p, 0#4, 0#16⟩
  | .bpGetBits p n => ⟨0x32#8, slotField p, 0#4, n.setWidth 16⟩
  | .bpPeekBits p n => ⟨0x33#8, slotField p, 0#4, n.setWidth 16⟩
  | .bpSkipBits p n => ⟨0x34#8, slotField p, 0#4, n.setWidth 16⟩
  | .htReset t => ⟨0x40#8, slotField t, 0#4, 0#16⟩
  | .htSetCounts t => ⟨0x41#8, slotField t, 0#4, 0#16⟩
  | .htSetValues t k n => ⟨0x42#8, slotField t, slotField k, n.setWidth 16⟩
  | .htSetup t d => ⟨0x43#8, slotField t, 0#4, flagField d⟩
  | .htDecodeSym t p => ⟨0x44#8, slotField t, slotField p, 0#16⟩
  | .htDecodeDiff t p => ⟨0x45#8, slotField t, slotField p, 0#16⟩
  | .htLoadPentaxLegacy t => ⟨0x46#8, slotField t, 0#4, 0#16⟩
  | .htLoadPentax t k => ⟨0x47#8, slotField t, slotField k, 0#16⟩
  | .ljDecode p => ⟨0x50#8, slotField p, 0#4, 0#16⟩
  | .pxDecode p t => ⟨0x51#8, slotField p, slotField t, 0#16⟩
  | .sv0Stripes a b => ⟨0x52#8, slotField a, slotField b, 0#16⟩
  | .sv0Decode p m => ⟨0x53#8, slotField p, 0#4, (modeBits m).setWidth 16⟩
  | .fjInit rb => ⟨0x60#8, 0#4, 0#4, rb.setWidth 16⟩
  | .fjGradReset => ⟨0x61#8, 0#4, 0#4, 0#16⟩
  | .fjSampleEven p j => ⟨0x62#8, slotField p, slotField j, 0#16⟩
  | .fjSampleOdd p j => ⟨0x63#8, slotField p, slotField j, 0#16⟩
  | .fjEndStrip => ⟨0x64#8, 0#4, 0#4, 0#16⟩
  | .fjStripWidth i => ⟨0x65#8, 0#4, 0#4, i⟩
  | .fjStripOffset i => ⟨0x66#8, 0#4, 0#4, i⟩

/-- The command word of an instruction (30_encoding.md R87). -/
def encode (i : Instr) : Word := wordOf (encodeFields i)

end Sys2Proof
end

