-- ==== Sys2Proof/Machine/State.lean ====
section
/-! DEFINITION. Everything the spec gives the block (10_state.md), the two memories (20_memory.md), the build parameters
(00_scope.md R6) and the model's own fields, as plain data; and the state after reset (70_reset_and_hazards.md R292). -/

namespace Sys2Proof.Machine

/-! ## Registers -/

/-- STATUS (10_state.md R24); its reserved bits read 0 and ignore writes. -/
structure Status where
  busy : Bool
  done : Bool
  err : Bool
  cmdLost : Bool
  wrLost : Bool
  deriving DecidableEq, Repr

/-- IRQ_EN (10_state.md R25). -/
structure IrqEnable where
  doneIe : Bool
  errIe : Bool
  deriving DecidableEq, Repr

/-- The error codes (60_exceptions.md R260); codes 7..255 are never written. -/
inductive ErrCode where
  | none
  | illegal
  | state
  | ioBounds
  | ioOverflow
  | corrupt
  | unsupported
  deriving DecidableEq, Repr

/-- The error registers (10_state.md R29). -/
structure ErrRegs where
  code : ErrCode
  cmd : Word
  row : Word
  col : Word
  comp : Word
  val : Word
  deriving DecidableEq, Repr

/-- The registers the host writes and commands only read: ARG0..ARG3 (10_state.md R30), the image descriptor (R31),
the LJpeg configuration (R32) and the Fuji neighbours and geometry (R33). -/
structure HostRegs where
  arg0 : Word
  arg1 : Word
  arg2 : Word
  arg3 : Word
  imgBase : Word
  imgPitch : Word
  imgW : Word
  imgH : Word
  ljCfg : Word
  ljSamp : Word
  ljFrame : Word
  ljTileXy : Word
  ljTileWh : Word
  ljTbl : Word
  ljPred01 : Word
  ljPred23 : Word
  fjNb0 : Word
  fjNb1 : Word
  fjNb2 : Word
  fjGeom0 : Word
  fjGeom1 : Word
  deriving DecidableEq, Repr

/-! ## Slots and contexts -/

/-- A byte-stream slot (10_state.md R35). -/
structure StreamSlot where
  valid : Bool
  off : Word
  size : Word
  pos : Word
  be : Bool
  deriving DecidableEq, Repr, Inhabited

/-- A bit-pump slot (10_state.md R37). `ended` is the spec's `end`, and F is `cache.length`. -/
structure Pump where
  valid : Bool
  mode : PumpMode
  off : Word
  size : Word
  inpos : Word
  cache : Bits
  pad : Nat
  ended : Bool
  marker : Bool
  endpos : Word
  /-- The bits delivered since BP_INIT, an integer below 2^36 (log 14). -/
  consumed : BitVec 36
  /-- The model's own: IN addresses of the unconsumed part of the window that the host rewrote, whose bytes this pump
  reads as any value (20_memory.md R77; log 8). -/
  raced : List Nat
  deriving DecidableEq, Repr, Inhabited

/-- The construction states of a Huffman table (10_state.md R40). -/
inductive TableState where
  | empty
  | counts
  | values
  | ready
  deriving DecidableEq, Repr

/-- A Huffman table slot (10_state.md R40). The entry of length L stands at index L - 1. -/
structure HuffTable where
  state : TableState
  count : Vector Byte Config.htMaxLen
  nvalues : Nat
  values : Vector Byte Config.htMaxValues
  first : Vector Nat Config.htMaxLen
  index : Vector Nat Config.htMaxLen
  dng16 : Bool
  deriving DecidableEq, Repr

/-- One stripe: SV0.soff[r] and SV0.ssize[r] (10_state.md R42). -/
structure Stripe where
  off : Word
  size : Word
  deriving DecidableEq, Repr

/-- The Samsung stripe table (10_state.md R42); SV0.rows is the number of stripes it lists. -/
structure Sv0 where
  ready : Bool
  stripes : List Stripe
  /-- The model's own: IN addresses inside the stripes that the host wrote after SV0_STRIPES sliced them, whose bytes
  SV0_DECODE's pumps read as any value (20_memory.md R77; log 27). -/
  raced : List Nat
  deriving DecidableEq, Repr

/-- A gradient accumulator pair (10_state.md R43). -/
structure GradPair where
  v1 : Nat
  v2 : Nat
  deriving DecidableEq, Repr

/-- One array of gradient pairs: three sets of 41 (10_state.md R43). -/
abbrev GradArray := Vector (Vector GradPair 41) 3

/-- The Fuji context (10_state.md R43). -/
structure Fuji where
  valid : Bool
  rawBits : Nat
  qp : Vector Nat 5
  totalValues : Nat
  maxBits : Nat
  maxDiff : Nat
  minValue : Nat
  ge : GradArray
  go : GradArray
  errcnt : Word
  deriving DecidableEq, Repr

/-! ## Memories and the outside -/

/-- IN: the bytes written, by strictly rising address; an unlisted byte has not been written since the model began
(20_memory.md R60). -/
abbrev InMemory := List Host.Cell

/-- OUT: the samples written, by strictly rising index (20_memory.md R61). -/
abbrev OutMemory := List (Nat × Sample)

/-- An image region: the samples `OUTIDX(r, c)` for r below `height` and c below `width` (20_memory.md R78). -/
structure ImageRegion where
  base : Word
  pitch : Word
  width : Word
  height : Word
  deriving DecidableEq, Repr

/-- The width of a host access to the register space (10_state.md R44). -/
inductive AccessWidth where
  | byte
  | half
  | word
  deriving DecidableEq, Repr

/-- A move of an agent (00_scope.md R16): the host's accesses, another instance's writes, the reset input, or the
sequencer's turn. -/
inductive Event where
  /-- The sequencer takes its step, if a command is accepted. -/
  | sequencer
  /-- The host reads the register space at a byte offset 0x000..0x3FF. -/
  | regRead (width : AccessWidth) (offset : BitVec 10)
  /-- The host writes the register space at a byte offset 0x000..0x3FF. -/
  | regWrite (width : AccessWidth) (offset : BitVec 10) (value : Word)
  /-- The host reads a byte of IN. -/
  | inRead (addr : Nat)
  /-- The host writes a byte of IN. -/
  | inWrite (addr : Nat) (value : Byte)
  /-- The host reads a sample of OUT. -/
  | outRead (idx : Nat)
  /-- The host writes a sample of OUT. -/
  | outWrite (idx : Nat) (value : Sample)
  /-- Another instance writes a sample of OUT (60_exceptions.md R273, R274); with N_INST = 1 there is none. -/
  | peerWrite (idx : Nat) (value : Sample)
  /-- A byte of the host's byte view of OUT is read (20_memory.md R67; which address names which byte is log 29). -/
  | outByteRead (addr : Nat)
  /-- A byte of the host's byte view of OUT is written (20_memory.md R67; log 29). -/
  | outByteWrite (addr : Nat) (value : Byte)
  /-- The reset input is asserted (70_reset_and_hazards.md R290). -/
  | resetInput
  deriving DecidableEq, Repr

/-! ## The state -/

/-- The block, its memories, its parameters and what its surroundings do next. -/
structure State where
  /-- The build parameters (00_scope.md R6); no step changes them. -/
  par : Params
  /-- STATUS. -/
  status : Status
  /-- IRQ_EN. -/
  irqEn : IrqEnable
  /-- CMD (10_state.md R26). -/
  cmd : Word
  /-- RES (10_state.md R27). -/
  res : Word
  /-- CMDCNT (10_state.md R28). -/
  cmdcnt : Word
  /-- ERR_CODE .. ERR_VAL. -/
  err : ErrRegs
  /-- ARG0 .. FJ_GEOM1. -/
  regs : HostRegs
  /-- S[k]. -/
  streams : Vector StreamSlot Config.ns
  /-- P[p]. -/
  pumps : Vector Pump Config.np
  /-- T[t]. -/
  tables : Vector HuffTable Config.nt
  /-- SV0. -/
  sv0 : Sv0
  /-- FJ. -/
  fuji : Fuji
  /-- IN. -/
  inMem : InMemory
  /-- The model's own: IN addresses the host rewrote in a race, which the whole block reads as any value until the host
  writes them again with no race (20_memory.md R77; log 8). -/
  inRaced : List Nat
  /-- OUT. -/
  outMem : OutMemory
  /-- The model's own: OUT indices written from outside in the region of the busy macro command (20_memory.md R78;
  log 10). -/
  outRaced : List Nat
  /-- The model's own: the image regions of the macro commands that have ended and that no host read of STATUS has shown
  ended; their samples are not visible to the host yet (20_memory.md R72, 70_reset_and_hazards.md R298; log 30). -/
  unseen : List ImageRegion
  /-- The model's own: the moves still to come, in order; when none is listed only the sequencer moves (log 1). -/
  events : List Event
  /-- The model's own: what the last host read returned (log 18). -/
  hostData : Word
  /-- The model's own: how often free values have been drawn (log 17). -/
  draws : Nat
  deriving DecidableEq, Repr

/-- Why the machine stops. Neither happens in a state of the invariants R36 and R39 with a schedule that stays inside
the memories. -/
inductive Fault where
  /-- Raised by a command or a host access that would touch IN at an address not below IN_SIZE, which does not exist
  (00_scope.md R11, 20_memory.md R60). Safe: log 19. -/
  | noSuchInByte (addr : Nat)
  /-- Raised by a command or an outside access that would touch OUT at an index not below OUT_SIZE, which does not
  exist (00_scope.md R11, 20_memory.md R61). Safe: log 19. -/
  | noSuchOutSample (idx : Nat)
  deriving DecidableEq, Repr

/-- Why a step has no meaning. -/
inductive Refusal where
  /-- Raised by exec's arm of a command that has no meaning yet; no arm is left in this state. Safe. -/
  | notModelled (mnemonic : String)
  /-- Raised by a host access to the register space that is narrower than 32 bits or misaligned: "a model refuses
  it" (10_state.md R44, 93_implementation_defined.md I6). Safe: log 13. -/
  | hostAccessShape (width : AccessWidth) (offset : BitVec 10)
  deriving DecidableEq, Repr

/-! ## Reset values (70_reset_and_hazards.md R292) -/

/-- STATUS after reset. -/
def Status.reset : Status := ⟨false, false, false, false, false⟩

/-- The error registers after reset. -/
def ErrRegs.reset : ErrRegs := ⟨.none, 0, 0, 0, 0, 0⟩

/-- ARG0..ARG3, IMG_*, LJ_* and FJ_NB*, FJ_GEOM* after reset. -/
def HostRegs.reset : HostRegs := ⟨0, 0, 0, 0, 0, 0, 0, 0, 0, 0, 0, 0, 0, 0, 0, 0, 0, 0, 0, 0, 0⟩

/-- A stream slot after reset. -/
def StreamSlot.reset : StreamSlot := ⟨false, 0, 0, 0, false⟩

/-- A pump slot after reset. -/
def Pump.reset : Pump := ⟨false, .msb, 0, 0, 0, [], 0, false, false, 0, 0, []⟩

/-- A Huffman table slot after reset, and after HT_RESET (43_huffman.md R160). -/
def HuffTable.reset : HuffTable :=
  ⟨.empty, Vector.replicate Config.htMaxLen 0, 0, Vector.replicate Config.htMaxValues 0,
    Vector.replicate Config.htMaxLen 0, Vector.replicate Config.htMaxLen 0, false⟩

/-- The stripe table after reset. -/
def Sv0.reset : Sv0 := ⟨false, [], []⟩

/-- A gradient array with every pair the same. -/
def GradArray.filled (g : GradPair) : GradArray := Vector.replicate 3 (Vector.replicate 41 g)

/-- The Fuji context after reset. -/
def Fuji.reset : Fuji :=
  ⟨false, 0, Vector.replicate 5 0, 0, 0, 0, 0, GradArray.filled ⟨0, 0⟩, GradArray.filled ⟨0, 0⟩, 0⟩

/-- The machine right after reset (70_reset_and_hazards.md R292, R293): every register and slot at its reset value, both
memories with nothing listed, nothing scheduled. -/
def State.reset : State where
  par := Config.resetParams
  status := .reset
  irqEn := ⟨false, false⟩
  cmd := 0
  res := 0
  cmdcnt := 0
  err := .reset
  regs := .reset
  streams := Vector.replicate Config.ns .reset
  pumps := Vector.replicate Config.np .reset
  tables := Vector.replicate Config.nt .reset
  sv0 := .reset
  fuji := .reset
  inMem := []
  inRaced := []
  outMem := []
  outRaced := []
  unseen := []
  events := []
  hostData := 0
  draws := 0

end Sys2Proof.Machine

/-- The pump slot a failed macro command leaves, by draw: any value (40_control.md R103, I3; log 6, safe). -/
opaque Sys2Proof.Config.freePump : Nat → Sys2Proof.Machine.Pump
end

