-- ==== Sys2Proof/Machine/Ops.lean ====
section
/-! DEFINITION. The operations every command shares: numbers and bit strings (spec 00_scope.md R8, R9), the memories
(R11), `raise` (R12), the image descriptor (10_state.md R31), completion (40_control.md R101), error entry and its
return (60_exceptions.md R263, R266), what a failed command leaves (40_control.md R103), reset
(70_reset_and_hazards.md R290), and bounded loops. -/

namespace Sys2Proof.Machine

/-! ## Numbers and bit strings -/

/-- `u32(v)`: v mod 2^32 (00_scope.md R8). -/
def u32 (v : Int) : Word := BitVec.ofInt 32 v

/-- `u16(v)`: v mod 2^16 (00_scope.md R8). -/
def u16 (v : Int) : Sample := BitVec.ofInt 16 v

/-- A bit as a number. -/
def bitNat (b : Bool) : Nat := if b then 1 else 0

/-- `val(B)`: the unsigned integer whose most significant bit is the first bit (00_scope.md R9). -/
def bitsVal (b : Bits) : Nat := b.foldl (fun acc x => 2 * acc + bitNat x) 0

/-- The n bits of v, most significant first. -/
def bitsOf (n v : Nat) : Bits := (List.range n).map (fun i => v.testBit (n - 1 - i))

/-- `bits8(b)` (00_scope.md R9). -/
def bits8 (b : Byte) : Bits := bitsOf 8 b.toNat

/-- `bits32(w)` (00_scope.md R9). -/
def bits32 (w : Word) : Bits := bitsOf 32 w.toNat

/-- `zeros(n)` (00_scope.md R9). -/
def zeros (n : Nat) : Bits := List.replicate n false

/-- The value of bytes in little-endian order (20_memory.md R65). -/
def leValue : List Byte → Nat
  | [] => 0
  | b :: r => b.toNat + 256 * leValue r

/-- The value of bytes in big-endian order (20_memory.md R65). -/
def beValue (l : List Byte) : Nat := leValue l.reverse

/-- The value of bytes in a declared byte order (20_memory.md R65). -/
def orderedValue (be : Bool) (l : List Byte) : Nat := if be then beValue l else leValue l

/-- `sext_N(v)`: the N-bit value v read as signed (00_scope.md R8). -/
def sext (n v : Nat) : Int := if 2 ^ n ≤ 2 * v then (v : Int) - (2 : Int) ^ n else v

/-! ## The memories as lists in canonical form -/

/-- The entry at an address; none if nothing is listed there. -/
def Memory.get {w : Nat} (m : List (Nat × BitVec w)) (a : Nat) : Option (BitVec w) :=
  match m with
  | [] => none
  | (b, v) :: r => if a = b then some v else Memory.get r a

/-- Stores a value, keeping the addresses strictly rising. -/
def Memory.put {w : Nat} (m : List (Nat × BitVec w)) (a : Nat) (v : BitVec w) : List (Nat × BitVec w) :=
  match m with
  | [] => [(a, v)]
  | (b, x) :: r => if a < b then (a, v) :: (b, x) :: r else if a = b then (a, v) :: r else (b, x) :: Memory.put r a v

/-- Every address is above `lo`, and the addresses strictly rise. -/
def Memory.risesAbove {w : Nat} (lo : Nat) (m : List (Nat × BitVec w)) : Bool :=
  match m with
  | [] => true
  | (b, _) :: r => decide (lo < b) && Memory.risesAbove b r

/-- The canonical form: addresses strictly rise. An unlisted address holds nothing the model stored, so no entry can
equal it (log 4). -/
def Memory.wf {w : Nat} (m : List (Nat × BitVec w)) : Bool :=
  match m with
  | [] => true
  | (b, _) :: r => Memory.risesAbove b r

/-- Every listed address exists in a memory of `size` cells. -/
def Memory.within {w : Nat} (size : Nat) (m : List (Nat × BitVec w)) : Bool := m.all (fun c => decide (c.1 < size))

/-! ## Raising an error -/

/-- What `raise E(info)` carries (00_scope.md R12); an absent field is 0. -/
structure ErrInfo where
  code : ErrCode
  row : Int
  col : Int
  comp : Int
  val : Int
  deriving DecidableEq, Repr

/-- Why a command's pseudocode stops early. -/
inductive Stop where
  /-- `raise` (00_scope.md R12). -/
  | raised (e : ErrInfo)
  /-- A memory access that does not exist (log 19). -/
  | fault (f : Fault)
  deriving DecidableEq, Repr

/-- A command's pseudocode: a result, or why it stopped. -/
abbrev Eff (α : Type) := Except Stop α

/-- `raise E(row, col, comp, val)` (00_scope.md R12). -/
def raiseError {α : Type} (code : ErrCode) (row : Int := 0) (col : Int := 0) (comp : Int := 0) (val : Int := 0) :
    Eff α :=
  .error (.raised ⟨code, row, col, comp, val⟩)

/-- Raises unless the condition holds. -/
def require (ok : Bool) (e : ErrInfo) : Eff Unit := if ok then .ok () else .error (.raised e)

/-- Runs the body for i, i+1, .., i+n-1 in order, stopping at the first stop. -/
def forUp {σ : Type} (body : Nat → σ → Eff σ) : Nat → Nat → σ → Eff σ
  | 0, _, x => .ok x
  | n + 1, i, x =>
    match body i x with
    | .ok y => forUp body n (i + 1) y
    | .error e => .error e

/-! ## IN -/

/-- One byte of IN as the block reads it (00_scope.md R11, 20_memory.md R60). A byte the host raced the block for is
any value (20_memory.md R77): `raced` lists the addresses the reading pump adds to the block's own. A byte nothing has
written is the model's argument (70_reset_and_hazards.md R293). -/
def readIn (s : State) (raced : List Nat) (a : Nat) : Eff Byte :=
  if a < s.par.inSize then
    if s.inRaced.elem a || raced.elem a then .ok (Config.racedByte s.draws a)
    else .ok ((Memory.get s.inMem a).getD (Config.inInitial a))
  else .error (.fault (.noSuchInByte a))

/-- `MemRead(IN, a, n)` (00_scope.md R11). -/
def readInBytes (s : State) (raced : List Nat) (a : Nat) : Nat → Eff (List Byte)
  | 0 => .ok []
  | n + 1 => do
    let b ← readIn s raced a
    let r ← readInBytes s raced (a + 1) n
    return b :: r

/-! ## OUT and the image descriptor -/

/-- A sample of OUT; one nothing has written is any value (70_reset_and_hazards.md R293). -/
def outSample (m : OutMemory) (i : Nat) : Sample := (Memory.get m i).getD (Config.outInitial i)

/-- `MemRead(OUT, i, 2)` (00_scope.md R11). -/
def readOut (par : Params) (m : OutMemory) (i : Nat) : Eff Sample :=
  if i < par.outSize then .ok (outSample m i) else .error (.fault (.noSuchOutSample i))

/-- `MemWrite(OUT, i, 2, v)` (00_scope.md R11). -/
def writeOut (par : Params) (m : OutMemory) (i : Nat) (v : Sample) : Eff OutMemory :=
  if i < par.outSize then .ok (Memory.put m i v) else .error (.fault (.noSuchOutSample i))

/-- `OUTIDX(r, c)` (00_scope.md R13). -/
def outIdx (g : HostRegs) (r c : Nat) : Nat := g.imgBase.toNat + r * g.imgPitch.toNat + c

/-- IMGCHK (10_state.md R31). -/
def imgChk (s : State) : Eff Unit := do
  let w := s.regs.imgW.toNat
  let h := s.regs.imgH.toNat
  let p := s.regs.imgPitch.toNat
  let b := s.regs.imgBase.toNat
  require (!(decide (w = 0 ∨ h = 0))) ⟨.corrupt, h, w, 0, 0⟩
  require (!(decide (p < w))) ⟨.corrupt, 0, 0, 0, p⟩
  require (!(decide (b + (h - 1) * p + w > s.par.outSize))) ⟨.ioBounds, 0, 0, 0, b⟩

/-- The image region the image descriptor names (20_memory.md R78). -/
def HostRegs.image (g : HostRegs) : ImageRegion := ⟨g.imgBase, g.imgPitch, g.imgW, g.imgH⟩

/-- Whether a sample index is `OUTIDX(r, c)` for some r < IMG_H and c < IMG_W of a region (20_memory.md R78). -/
def ImageRegion.holds (g : ImageRegion) (i : Nat) : Bool :=
  let d := i - g.base.toNat
  let r := min (d / g.pitch.toNat) (g.height.toNat - 1)
  decide (0 < g.height.toNat ∧ g.base.toNat ≤ i ∧ d - r * g.pitch.toNat < g.width.toNat)

/-- Makes n samples from an index on any value, as far as OUT reaches. -/
def spoilRow (outSize draw start : Nat) : Nat → OutMemory → OutMemory
  | 0, m => m
  | n + 1, m =>
    let m' := spoilRow outSize draw start n m
    if start + n < outSize then Memory.put m' (start + n) (Config.freeSample draw (start + n)) else m'

/-- Makes the first n rows of the image region any value. -/
def spoilRows (g : HostRegs) (outSize draw : Nat) : Nat → OutMemory → OutMemory
  | 0, m => m
  | n + 1, m => spoilRow outSize draw (outIdx g n 0) g.imgW.toNat (spoilRows g outSize draw n m)

/-- OUT with the image region any value (40_control.md R103; 70_reset_and_hazards.md R290). -/
def spoilRegion (g : HostRegs) (outSize draw : Nat) (m : OutMemory) : OutMemory :=
  spoilRows g outSize draw g.imgH.toNat m

/-- OUT with the samples an outside agent wrote during a busy macro command any value (20_memory.md R78). -/
def settleRaced (draw : Nat) (raced : List Nat) (m : OutMemory) : OutMemory :=
  raced.foldl (fun acc i => Memory.put acc i (Config.freeSample draw i)) m

/-! ## Slots -/

/-- `S[k] <- v`. -/
def State.setStream (s : State) (k : StreamIx) (v : StreamSlot) : State := { s with streams := s.streams.set k v }

/-- `S[k].pos <- pos`. -/
def State.setPos (s : State) (k : StreamIx) (pos : Nat) : State :=
  s.setStream k { s.streams[k] with pos := BitVec.ofNat 32 pos }

/-- `P[p] <- v`. -/
def State.setPump (s : State) (p : PumpIx) (v : Pump) : State := { s with pumps := s.pumps.set p v }

/-- `T[t] <- v`. -/
def State.setTable (s : State) (t : TableIx) (v : HuffTable) : State := { s with tables := s.tables.set t v }

/-- `x[RES] <- u32(v)` (10_state.md R27). -/
def State.setRes (s : State) (v : Int) : State := { s with res := u32 v }

/-- SCHK(k) (41_bytestream.md R110): the slot, if it is valid. -/
def schk (s : State) (k : StreamIx) : Eff StreamSlot :=
  if s.streams[k].valid then .ok s.streams[k] else raiseError .state (comp := k.val)

/-- PCHK(p) (42_bitpump.md R146): the slot, if it is valid. -/
def pchk (s : State) (p : PumpIx) : Eff Pump :=
  if s.pumps[p].valid then .ok s.pumps[p] else raiseError .state (comp := p.val)

/-- TCHK(t) (43_huffman.md R171): the table, if it is READY. -/
def tchk (s : State) (t : TableIx) : Eff HuffTable :=
  if s.tables[t].state = .ready then .ok s.tables[t] else raiseError .state (comp := t.val)

/-- Where a pump whose data has ended stands, by mode (10_state.md R39). -/
def Pump.endPlaceOk (p : Pump) : Bool :=
  match p.mode with
  | .jpeg => decide (p.endpos = p.inpos)
  | .msb => decide (p.inpos = p.size ∧ p.endpos = p.size)
  | .msb32 => decide (p.inpos = p.size ∧ p.endpos = p.size)

/-- A pump slot within R37's field ranges and, when valid, R39's invariants (10_state.md), but for the one about the
byte of IN at a marker, which is no fact of the slot alone. -/
def Pump.legal (par : Params) (p : Pump) : Bool :=
  decide (p.cache.length ≤ par.cacheWidth) && decide (p.pad ≤ p.cache.length) &&
  (!p.valid ||
    (decide (p.off.toNat + p.size.toNat ≤ par.inSize) && decide (p.inpos.toNat ≤ p.size.toNat) &&
      (p.ended || decide (p.pad = 0)) && (!p.marker || p.ended) && (!p.ended || p.endPlaceOk)))

/-- Any value a pump slot can hold (40_control.md R103): the draw, where it is a legal slot (log 7). The model's own race
marks `raced` are drawn with it, so that pump may read as free a byte nobody raced for, until BP_INIT (log 7). -/
def freePumpSlot (par : Params) (draw : Nat) : Pump :=
  if (Config.freePump draw).legal par then Config.freePump draw else Pump.reset

/-! ## How a command ends -/

/-- Completion (40_control.md R101): BUSY 0, DONE 1, CMDCNT + 1. The draw counter moves on. -/
def State.complete (s : State) : State :=
  { s with
    status := { s.status with busy := false, done := true }
    cmdcnt := s.cmdcnt + 1
    draws := s.draws + 1 }

/-- Error entry (60_exceptions.md R263): the block's exception entry. -/
def State.enterError (s : State) (e : ErrInfo) : State :=
  { s with
    err := ⟨e.code, s.cmd, u32 e.row, u32 e.col, u32 e.comp, u32 e.val⟩
    status := { s.status with err := true, busy := false }
    draws := s.draws + 1 }

/-- CTRL.ERR_CLR (60_exceptions.md R266): the return from an error. With ERR = 0 it has no effect. -/
def State.clearError (s : State) : State :=
  if s.status.err then
    { s with status := { s.status with err := false }, err := { s.err with code := .none } }
  else s

/-- How a primitive command ends: precise on error (40_control.md R103). -/
def finishPrimitive (s : State) (r : Eff State) : Host.Outcome State Fault Refusal :=
  match r with
  | .ok t => .next t.complete
  | .error (.raised e) => .next (s.enterError e)
  | .error (.fault f) => .fault f

/-- The image region a macro command has just written, until a host read of STATUS shows its end
(70_reset_and_hazards.md R298; log 30). -/
def State.hideRegion (s : State) : List ImageRegion := s.unseen.insert s.regs.image

/-- The image region any value (40_control.md R103). -/
def State.spoilImage (s : State) : State :=
  { s with
    outMem := settleRaced s.draws s.outRaced (spoilRegion s.regs s.par.outSize s.draws s.outMem)
    outRaced := []
    unseen := s.hideRegion }

/-- What a decoding macro command that raises an error leaves: its image region and its pump any value
(40_control.md R103). -/
def State.spoilMacro (s : State) (p : PumpIx) : State := s.spoilImage.setPump p (freePumpSlot s.par s.draws)

/-- What outside writes during a macro command leave once it completes (20_memory.md R78). -/
def State.settleMacro (s : State) : State :=
  { s with outMem := settleRaced s.draws s.outRaced s.outMem, outRaced := [], unseen := s.hideRegion }

/-- SV0.ready cleared: what SV0_STRIPES does first and keeps even on an error, and what a failed SV0_DECODE leaves
(40_control.md R103, 46_samsung.md R210, R211). -/
def State.clearReady (s : State) : State := { s with sv0 := { s.sv0 with ready := false } }

/-- How a decoding macro command on pump p ends. -/
def finishMacro (s : State) (p : PumpIx) (r : Eff State) : Host.Outcome State Fault Refusal :=
  match r with
  | .ok t => .next t.settleMacro.complete
  | .error (.raised e) => .next ((s.spoilMacro p).enterError e)
  | .error (.fault f) => .fault f

/-- Whether the opcode in CMD is SV0_STRIPES or SV0_DECODE, whose rules clear SV0.ready on every error, E_ILLEGAL among
them (46_samsung.md R210, R211, R215; 40_control.md R103). -/
def clearsReady (cmd : Word) : Bool := decide ((fieldsOf cmd).opc = 0x52#8 ∨ (fieldsOf cmd).opc = 0x53#8)

/-- E_ILLEGAL for the word in CMD. It changes only the error state (30_encoding.md R84), and SV0.ready where the opcode's
own rule has every error of that command clear it. Where R103 and R211 leave OUT and a pump any value, R84's words that
the error changes nothing hold. DEDUCED, unsafe: log 28. -/
def State.raiseIllegal (s : State) : State :=
  (if clearsReady s.cmd then s.clearReady else s).enterError ⟨.illegal, 0, 0, 0, s.cmd.toNat⟩

/-- R84 item 4 for a term of `Instr` that is no command (log 20). -/
def requireLegal (s : State) (ok : Bool) : Eff Unit := require ok ⟨.illegal, 0, 0, 0, s.cmd.toNat⟩

/-! ## Reset -/

/-- Whether a command is a decoding macro command (40_control.md R103). -/
def isDecodingMacro (i : Instr) : Bool :=
  match i with
  | .ljDecode _ => true
  | .pxDecode _ _ => true
  | .sv0Decode _ _ => true
  | _ => false

/-- Whether the accepted command is a decoding macro command. A word with opcode 0x50, 0x51 or 0x53 that fails the decode
check is none: it reads and writes no state (30_encoding.md R84), so a host access to OUT meets no race and a reset
abandons nothing. The spec does not say so. DEDUCED, unsafe: logs 10, 11, 28. -/
def State.macroBusy (s : State) : Bool :=
  s.status.busy &&
    match decodeIn s.par s.cmd with
    | .ok i => isDecodingMacro i
    | .error _ => false

/-- Hardware and soft reset (70_reset_and_hazards.md R290, R291): every register and slot takes its reset value; IN and
OUT keep theirs (R293), except that an abandoned macro command leaves its region any value. -/
def State.resetBlock (s : State) : State :=
  { State.reset with
    par := s.par
    inMem := s.inMem
    inRaced := s.inRaced
    outMem :=
      if s.macroBusy then settleRaced s.draws s.outRaced (spoilRegion s.regs s.par.outSize s.draws s.outMem)
      else s.outMem
    unseen := s.unseen
    events := s.events
    hostData := s.hostData
    draws := s.draws + 1 }

end Sys2Proof.Machine
end

