-- ==== Sys2Proof/Machine/Operands.lean ====
section
/-! DEFINITION. The operand forms that do not stand in the command word: the fields of ARG0..ARG3 and of the
configuration registers (spec 30_encoding.md R81; 10_state.md R30-R33). -/

namespace Sys2Proof.Machine

/-- `v[lo+n-1:lo]` of a register, zero-extended (00_scope.md R7). -/
def field (v : Word) (lo n : Nat) : Nat := (v.extractLsb' lo n).toNat

/-- Byte i of a register: bits 8i+7..8i. -/
def byteOf (v : Word) (i : Nat) : Byte := v.extractLsb' (8 * i) 8

/-- The register ARG_j, j < 4. -/
def HostRegs.arg (g : HostRegs) (j : Nat) : Word :=
  match j with
  | 0 => g.arg0
  | 1 => g.arg1
  | 2 => g.arg2
  | _ => g.arg3

/-- Byte i of the sixteen bytes ARG0..ARG3 hold, ARG0[7:0] first. -/
def HostRegs.argByte (g : HostRegs) (i : Nat) : Byte := byteOf (g.arg (i / 4)) (i % 4)

/-- The prefix bytes P[0..n-1] of BS_HAS_PREFIX and BS_SKIP_PREFIX (41_bytestream.md R124). -/
def HostRegs.prefixBytes (g : HostRegs) (n : Nat) : List Byte := (List.range n).map g.argByte

/-- The counts of HT_SET_COUNTS: ARG0[7:0] is length 1 and ARG3[31:24] length 16 (43_huffman.md R161). -/
def HostRegs.codeCounts (g : HostRegs) : Vector Byte Config.htMaxLen := Vector.ofFn (fun i => g.argByte i.val)

/-! LJpeg configuration (10_state.md R32). -/

/-- LJ_CFG[2:0], the component count N. -/
def HostRegs.ljN (g : HostRegs) : Nat := field g.ljCfg 0 3

/-- LJ_CFG[6:4], the predictor selection PSV. -/
def HostRegs.ljPsv (g : HostRegs) : Nat := field g.ljCfg 4 3

/-- The horizontal sampling factor of component i. -/
def HostRegs.ljHi (g : HostRegs) (i : Nat) : Nat := field g.ljSamp (8 * i) 4

/-- The vertical sampling factor of component i. -/
def HostRegs.ljVi (g : HostRegs) (i : Nat) : Nat := field g.ljSamp (8 * i + 4) 4

/-- FW, the frame width in blocks. -/
def HostRegs.ljFw (g : HostRegs) : Nat := field g.ljFrame 0 16

/-- FH, the frame height in rows. -/
def HostRegs.ljFh (g : HostRegs) : Nat := field g.ljFrame 16 16

/-- TX, the first output sample column. -/
def HostRegs.ljTx (g : HostRegs) : Nat := field g.ljTileXy 0 16

/-- TY, the first output row. -/
def HostRegs.ljTy (g : HostRegs) : Nat := field g.ljTileXy 16 16

/-- TW, the tile width in samples. -/
def HostRegs.ljTw (g : HostRegs) : Nat := field g.ljTileWh 0 16

/-- TH, the tile height in rows. -/
def HostRegs.ljTh (g : HostRegs) : Nat := field g.ljTileWh 16 16

/-- The table slot LJ_TBL names for component i; it may be out of range. -/
def HostRegs.ljTblOf (g : HostRegs) (i : Nat) : Nat := field g.ljTbl (4 * i) 4

/-- The initial predictors of components 0..3. -/
def HostRegs.ljPreds (g : HostRegs) : List Sample :=
  [g.ljPred01.extractLsb' 0 16, g.ljPred01.extractLsb' 16 16, g.ljPred23.extractLsb' 0 16,
    g.ljPred23.extractLsb' 16 16]

/-! Fuji neighbours and geometry (10_state.md R33). -/

/-- Ra. -/
def HostRegs.ra (g : HostRegs) : Nat := field g.fjNb0 0 16

/-- Rb. -/
def HostRegs.rb (g : HostRegs) : Nat := field g.fjNb0 16 16

/-- Rc. -/
def HostRegs.rc (g : HostRegs) : Nat := field g.fjNb1 0 16

/-- Rd. -/
def HostRegs.rd (g : HostRegs) : Nat := field g.fjNb1 16 16

/-- Rf. -/
def HostRegs.rf (g : HostRegs) : Nat := field g.fjNb2 0 16

/-- Rg. -/
def HostRegs.rg (g : HostRegs) : Nat := field g.fjNb2 16 16

/-- BLOCK_SIZE. -/
def HostRegs.blockSize (g : HostRegs) : Nat := field g.fjGeom0 0 16

/-- BLOCKS_IN_ROW. -/
def HostRegs.blocksInRow (g : HostRegs) : Nat := field g.fjGeom0 16 16

/-- RAW_WIDTH. -/
def HostRegs.rawWidth (g : HostRegs) : Nat := field g.fjGeom1 0 16

end Sys2Proof.Machine
end

