-- ==== Sys2Proof/Machine/Flags.lean ====
section
/-! DEFINITION. The flags and status words a program can observe (spec 10_state.md R46) and the interrupt output
(60_exceptions.md R270). The block has no arithmetic condition codes (R46). -/

namespace Sys2Proof.Machine

/-- STATUS as a word (10_state.md R24). -/
def Status.word (f : Status) : Word :=
  BitVec.ofNat 32 (bitNat f.busy + 2 * bitNat f.done + 4 * bitNat f.err + 8 * bitNat f.cmdLost + 16 * bitNat f.wrLost)

/-- A host write to STATUS: write-1-to-clear on DONE, CMD_LOST and WR_LOST, no effect on the other bits (R24). -/
def Status.acknowledge (f : Status) (v : Word) : Status :=
  { f with
    done := f.done && !v.getLsbD 1
    cmdLost := f.cmdLost && !v.getLsbD 3
    wrLost := f.wrLost && !v.getLsbD 4 }

/-- IRQ_EN as a word (10_state.md R25). -/
def IrqEnable.word (e : IrqEnable) : Word := BitVec.ofNat 32 (bitNat e.doneIe + 2 * bitNat e.errIe)

/-- The level-sensitive interrupt output (60_exceptions.md R270). -/
def State.irq (s : State) : Bool := (s.status.done && s.irqEn.doneIe) || (s.status.err && s.irqEn.errIe)

/-- The number of an error code (60_exceptions.md R260). -/
def ErrCode.number (c : ErrCode) : Nat :=
  match c with
  | .none => 0
  | .illegal => 1
  | .state => 2
  | .ioBounds => 3
  | .ioOverflow => 4
  | .corrupt => 5
  | .unsupported => 6

/-- PARAM (10_state.md R22). -/
def paramWord (par : Params) : Word :=
  BitVec.ofNat 32 (par.ns + 2 ^ 4 * par.np + 2 ^ 8 * par.nt + 2 ^ 16 * par.sv0MaxRows)

/-- ID (10_state.md R21). -/
def idWord : Word := 0x42530001#32

/-- S_CFG (10_state.md R35). -/
def StreamSlot.cfgWord (v : StreamSlot) : Word := BitVec.ofNat 32 (bitNat v.valid + 2 * bitNat v.be)

/-- The number of a pump mode (10_state.md R37). -/
def modeNumber (m : PumpMode) : Nat :=
  match m with
  | .msb => 0
  | .jpeg => 1
  | .msb32 => 2

/-- P_STAT (10_state.md R38): F and PAD are 7-bit fields. -/
def Pump.statWord (p : Pump) : Word :=
  BitVec.ofNat 32
    (bitNat p.valid + 2 * modeNumber p.mode + 8 * bitNat p.ended + 16 * bitNat p.marker +
      2 ^ 8 * (p.cache.length % 2 ^ 7) + 2 ^ 16 * (p.pad % 2 ^ 7))

/-- P_CONSUMED (10_state.md R38). -/
def Pump.consumedWord (p : Pump) : Word := BitVec.ofNat 32 p.consumed.toNat

/-- P_CACHE_HI, the leading bits of a cache of width CW (10_state.md R38). -/
def Pump.cacheHi (width : Nat) (p : Pump) : Word := BitVec.ofNat 32 (bitsVal ((p.cache ++ zeros width).take 32))

/-- P_CACHE_LO, the next bits of a cache of width CW (10_state.md R38). -/
def Pump.cacheLo (width : Nat) (p : Pump) : Word :=
  BitVec.ofNat 32 (bitsVal (((p.cache ++ zeros width).drop 32).take 32))

/-- The number of a table state (10_state.md R40). -/
def TableState.number (t : TableState) : Nat :=
  match t with
  | .empty => 0
  | .counts => 1
  | .values => 2
  | .ready => 3

/-- T_STAT (10_state.md R41): NVALUES is a 9-bit field. -/
def HuffTable.statWord (t : HuffTable) : Word :=
  BitVec.ofNat 32 (t.state.number + 4 * bitNat t.dng16 + 2 ^ 16 * (t.nvalues % 2 ^ 9))

/-- FJ_STAT (10_state.md R33): RAW_BITS is a 5-bit and MAX_BITS an 8-bit field. -/
def Fuji.statWord (f : Fuji) : Word :=
  BitVec.ofNat 32 (bitNat f.valid + 2 ^ 8 * (f.rawBits % 2 ^ 5) + 2 ^ 16 * (f.maxBits % 2 ^ 8))

/-- SV0.rows (10_state.md R42). -/
def Sv0.rows (v : Sv0) : Nat := v.stripes.length

/-- SV0_STAT (10_state.md R34). -/
def Sv0.statWord (v : Sv0) : Word := BitVec.ofNat 32 (bitNat v.ready + 2 ^ 16 * (v.rows % 2 ^ 16))

end Sys2Proof.Machine
end

