-- ==== Sys2Proof/Machine/HostPort.lean ====
section
/-! DEFINITION. What the host does to the block: the register map (spec 10_state.md R20-R47), the launch protocol
(40_control.md R101, R102, R104), error clear and reset (60_exceptions.md R266, 70_reset_and_hazards.md R290, R291),
and its accesses to IN and OUT with their races (20_memory.md R67, R72, R77, R78). -/

namespace Sys2Proof.Machine

/-- The registers of the map (10_state.md R21-R41). -/
inductive HostReg where
  | id
  | param
  | ctrl
  | status
  | irqEn
  | cmd
  | res
  | cmdcnt
  | errCode
  | errCmd
  | errRow
  | errCol
  | errComp
  | errVal
  | arg0
  | arg1
  | arg2
  | arg3
  | imgBase
  | imgPitch
  | imgW
  | imgH
  | ljCfg
  | ljSamp
  | ljFrame
  | ljTileXy
  | ljTileWh
  | ljTbl
  | ljPred01
  | ljPred23
  | fjNb0
  | fjNb1
  | fjNb2
  | fjGeom0
  | fjGeom1
  | fjStat
  | fjErrcnt
  | sv0Stat
  | sOff (k : StreamIx)
  | sSize (k : StreamIx)
  | sPos (k : StreamIx)
  | sCfg (k : StreamIx)
  | pOff (p : PumpIx)
  | pSize (p : PumpIx)
  | pInpos (p : PumpIx)
  | pStat (p : PumpIx)
  | pEndpos (p : PumpIx)
  | pConsumed (p : PumpIx)
  | pCacheHi (p : PumpIx)
  | pCacheLo (p : PumpIx)
  | tStat (t : TableIx)
  deriving DecidableEq, Repr

/-- The fixed registers below 0x100, in the order of their offsets from 0x000; none where an offset is reserved. -/
def fixedRegs : List (Option HostReg) :=
  [some .id, some .param, some .ctrl, some .status, some .irqEn, some .cmd, some .res, some .cmdcnt,
    some .errCode, some .errCmd, some .errRow, some .errCol, some .errComp, some .errVal, none, none] ++
  [some .arg0, some .arg1, some .arg2, some .arg3, some .imgBase, some .imgPitch, some .imgW, some .imgH,
    some .ljCfg, some .ljSamp, some .ljFrame, some .ljTileXy, some .ljTileWh, some .ljTbl, some .ljPred01,
    some .ljPred23] ++
  [some .fjNb0, some .fjNb1, some .fjNb2, some .fjGeom0, some .fjGeom1, some .fjStat, some .fjErrcnt, some .sv0Stat]

/-- The four registers of a stream slot, +0x0 .. +0xC (R35). -/
def streamReg (k : StreamIx) (word : Nat) : HostReg :=
  match word with
  | 0 => .sOff k
  | 1 => .sSize k
  | 2 => .sPos k
  | _ => .sCfg k

/-- The eight registers of a pump slot, +0x00 .. +0x1C (R38). -/
def pumpReg (p : PumpIx) (word : Nat) : HostReg :=
  match word with
  | 0 => .pOff p
  | 1 => .pSize p
  | 2 => .pInpos p
  | 3 => .pStat p
  | 4 => .pEndpos p
  | 5 => .pConsumed p
  | 6 => .pCacheHi p
  | _ => .pCacheLo p

/-- The register of a block at a byte offset; none where the offset names no register (R44). -/
def regAt (par : Params) (offset : Nat) : Option HostReg :=
  if offset < 0x100 then (fixedRegs[offset / 4]?).getD none
  else if offset < 0x200 then
    (slotOf par.ns Config.ns ((offset - 0x100) / 0x10)).map (fun k => streamReg k (offset % 0x10 / 4))
  else if offset < 0x300 then
    (slotOf par.np Config.np ((offset - 0x200) / 0x20)).map (fun p => pumpReg p (offset % 0x20 / 4))
  else (slotOf par.nt Config.nt ((offset - 0x300) / 4)).map .tStat

/-- What a host read of a register returns; reading changes nothing (R45). -/
def readReg (s : State) (r : HostReg) : Word :=
  match r with
  | .id => idWord
  | .param => paramWord s.par
  | .ctrl => 0
  | .status => s.status.word
  | .irqEn => s.irqEn.word
  | .cmd => s.cmd
  | .res => s.res
  | .cmdcnt => s.cmdcnt
  | .errCode => BitVec.ofNat 32 s.err.code.number
  | .errCmd => s.err.cmd
  | .errRow => s.err.row
  | .errCol => s.err.col
  | .errComp => s.err.comp
  | .errVal => s.err.val
  | .arg0 => s.regs.arg0
  | .arg1 => s.regs.arg1
  | .arg2 => s.regs.arg2
  | .arg3 => s.regs.arg3
  | .imgBase => s.regs.imgBase
  | .imgPitch => s.regs.imgPitch
  | .imgW => s.regs.imgW
  | .imgH => s.regs.imgH
  | .ljCfg => s.regs.ljCfg
  | .ljSamp => s.regs.ljSamp
  | .ljFrame => s.regs.ljFrame
  | .ljTileXy => s.regs.ljTileXy
  | .ljTileWh => s.regs.ljTileWh
  | .ljTbl => s.regs.ljTbl
  | .ljPred01 => s.regs.ljPred01
  | .ljPred23 => s.regs.ljPred23
  | .fjNb0 => s.regs.fjNb0
  | .fjNb1 => s.regs.fjNb1
  | .fjNb2 => s.regs.fjNb2
  | .fjGeom0 => s.regs.fjGeom0
  | .fjGeom1 => s.regs.fjGeom1
  | .fjStat => s.fuji.statWord
  | .fjErrcnt => s.fuji.errcnt
  | .sv0Stat => s.sv0.statWord
  | .sOff k => s.streams[k].off
  | .sSize k => s.streams[k].size
  | .sPos k => s.streams[k].pos
  | .sCfg k => s.streams[k].cfgWord
  | .pOff p => s.pumps[p].off
  | .pSize p => s.pumps[p].size
  | .pInpos p => s.pumps[p].inpos
  | .pStat p => s.pumps[p].statWord
  | .pEndpos p => s.pumps[p].endpos
  | .pConsumed p => s.pumps[p].consumedWord
  | .pCacheHi p => s.pumps[p].cacheHi s.par.cacheWidth
  | .pCacheLo p => s.pumps[p].cacheLo s.par.cacheWidth
  | .tStat t => s.tables[t].statWord

/-- LJ_CFG's writable bits: [3] and [31:7] are reserved (R32). -/
def ljCfgMask : Word := 0x00000077#32

/-- LJ_TBL's writable bits: [31:16] are reserved (R32). -/
def ljTblMask : Word := 0x0000FFFF#32

/-- FJ_GEOM1's writable bits: [31:16] are reserved (R33). -/
def fjGeom1Mask : Word := 0x0000FFFF#32

/-- The effect of a host write on the read-write registers other than CMD and IRQ_EN; none for the other registers. -/
def HostRegs.write (g : HostRegs) (r : HostReg) (v : Word) : Option HostRegs :=
  match r with
  | .arg0 => some { g with arg0 := v }
  | .arg1 => some { g with arg1 := v }
  | .arg2 => some { g with arg2 := v }
  | .arg3 => some { g with arg3 := v }
  | .imgBase => some { g with imgBase := v }
  | .imgPitch => some { g with imgPitch := v }
  | .imgW => some { g with imgW := v }
  | .imgH => some { g with imgH := v }
  | .ljCfg => some { g with ljCfg := v &&& ljCfgMask }
  | .ljSamp => some { g with ljSamp := v }
  | .ljFrame => some { g with ljFrame := v }
  | .ljTileXy => some { g with ljTileXy := v }
  | .ljTileWh => some { g with ljTileWh := v }
  | .ljTbl => some { g with ljTbl := v &&& ljTblMask }
  | .ljPred01 => some { g with ljPred01 := v }
  | .ljPred23 => some { g with ljPred23 := v }
  | .fjNb0 => some { g with fjNb0 := v }
  | .fjNb1 => some { g with fjNb1 := v }
  | .fjNb2 => some { g with fjNb2 := v }
  | .fjGeom0 => some { g with fjGeom0 := v }
  | .fjGeom1 => some { g with fjGeom1 := v &&& fjGeom1Mask }
  | _ => none

/-- A write to CTRL (10_state.md R23): SOFT_RESET, else ERR_CLR; it takes effect while BUSY too (40_control.md R104). -/
def State.writeCtrl (s : State) (v : Word) : State :=
  if v.getLsbD 0 then s.resetBlock else if v.getLsbD 1 then s.clearError else s

/-- A write to CMD (40_control.md R101, R102): accepted when BUSY = 0 and ERR = 0, dropped otherwise. -/
def State.writeCmd (s : State) (v : Word) : State :=
  if s.status.busy || s.status.err then { s with status := { s.status with cmdLost := true } }
  else { s with cmd := v, status := { s.status with busy := true, done := false } }

/-- A write to a read-write register other than CMD, with what it stores when not busy (40_control.md R104). -/
def State.writeUnlessBusy (s t : State) : State :=
  if s.status.busy then { s with status := { s.status with wrLost := true } } else t

/-- A host write of a word to a register (10_state.md; 40_control.md R101-R104). A write to a read-only register is
ignored and flags nothing, busy or not (10_state.md R45, 92_eei_decisions.md D51; log 12). A write of IRQ_EN while BUSY
= 1 is dropped and sets WR_LOST, as R104 says; R108 calls it available while BUSY = 1 (log 31: DEDUCED). -/
def State.writeReg (s : State) (r : HostReg) (v : Word) : State :=
  match r with
  | .ctrl => s.writeCtrl v
  | .status => { s with status := s.status.acknowledge v }
  | .cmd => s.writeCmd v
  | .irqEn => s.writeUnlessBusy { s with irqEn := ⟨v.getLsbD 0, v.getLsbD 1⟩ }
  | r =>
    match s.regs.write r v with
    | some g => s.writeUnlessBusy { s with regs := g }
    | none => s

/-- Whether a host access to the register space has the shape the spec gives a meaning (10_state.md R44). -/
def aligned (width : AccessWidth) (offset : BitVec 10) : Bool :=
  decide (width = .word ∧ offset.toNat % 4 = 0)

/-- What a host read of a register shows the host: a read of STATUS that returns BUSY = 0 and DONE = 1 or ERR = 1 makes
the samples of every ended macro command visible (20_memory.md R72; log 30). -/
def State.observe (s : State) (r : HostReg) : State :=
  { s with
    unseen :=
      if r = .status ∧ s.status.busy = false ∧ (s.status.done = true ∨ s.status.err = true) then [] else s.unseen }

/-- A host read of the register space. It changes no state of the block (10_state.md R45). -/
def hostReadReg (s : State) (width : AccessWidth) (offset : BitVec 10) : Host.Outcome State Fault Refusal :=
  if aligned width offset then
    match regAt s.par offset.toNat with
    | some r => .next { s.observe r with hostData := readReg s r }
    | none => .next { s with hostData := 0 }
  else .refused (.hostAccessShape width offset)

/-- A host write of the register space. -/
def hostWriteReg (s : State) (width : AccessWidth) (offset : BitVec 10) (v : Word) :
    Host.Outcome State Fault Refusal :=
  if aligned width offset then
    match regAt s.par offset.toNat with
    | some r => .next (s.writeReg r v)
    | none => .next s
  else .refused (.hostAccessShape width offset)

/-! ## IN -/

/-- Whether an address lies in a window of a size from an offset. -/
def inWindow (off size : Word) (a : Nat) : Bool := decide (off.toNat ≤ a ∧ a < off.toNat + size.toNat)

/-- Whether an address lies in the window of a valid stream or pump slot (20_memory.md R77). -/
def State.liveWindow (s : State) (a : Nat) : Bool :=
  s.streams.toList.any (fun v => v.valid && inWindow v.off v.size a) ||
  s.pumps.toList.any (fun p => p.valid && inWindow p.off p.size a)

/-- The place in its window from which a pump's data is not consumed (20_memory.md R77): the bytes whose bits stand in
the cache lie between it and the cursor. An MSB32 word counts whole until its last bit is consumed, and each cached byte
of a JPEG pump as the two places of a stuffed pair (log 8). -/
def Pump.unconsumedFrom (p : Pump) : Nat :=
  let bits := p.cache.length - p.pad
  match p.mode with
  | .msb => p.inpos.toNat - (bits + 7) / 8
  | .msb32 => min p.inpos.toNat (4 * ((p.inpos.toNat + 3) / 4) - 4 * ((bits + 31) / 32))
  | .jpeg => p.inpos.toNat - 2 * ((bits + 7) / 8)

/-- The place in its window where the data a pump can still fetch ends: a pump whose data has ended fills no more
(42_bitpump.md R141). -/
def Pump.fetchEnd (p : Pump) : Nat := if p.ended then p.inpos.toNat else p.size.toNat

/-- Whether an address lies in the part of a valid pump's window whose data is not consumed, fetched or still to be
filled from (20_memory.md R75, R77). -/
def Pump.unconsumed (p : Pump) (a : Nat) : Bool :=
  p.valid && decide (p.off.toNat + p.unconsumedFrom ≤ a ∧ a < p.off.toNat + p.fetchEnd)

/-- Whether an address lies in a stripe of the ready stripe table, a window SV0_DECODE's pumps will fill from
(20_memory.md R77; log 27). -/
def Sv0.willRead (v : Sv0) (a : Nat) : Bool := v.ready && v.stripes.any (fun x => inWindow x.off x.size a)

/-- Whether a host write of a byte of IN is a race, after which every value the block derives from the byte is any value
(20_memory.md R77): in the window of a valid stream or pump of the busy block, or, busy or idle, in a window a pump fills
from, before its data is consumed. -/
def State.racesIn (s : State) (a : Nat) : Bool :=
  (s.status.busy && s.liveWindow a) || s.pumps.toList.any (fun p => p.unconsumed a) || s.sv0.willRead a

/-- The pump's own record of the race, which lasts as long as its window (log 8). -/
def Pump.noteRace (p : Pump) (a : Nat) : Pump := if p.unconsumed a then { p with raced := p.raced.insert a } else p

/-- The stripe table's own record of the race, which lasts as long as the table (log 27). -/
def Sv0.noteRace (v : Sv0) (a : Nat) : Sv0 := { v with raced := if v.willRead a then v.raced.insert a else v.raced }

/-- A host write of a byte of IN (20_memory.md R60, R72, R77). A write that is no race ends an earlier one (log 8). -/
def hostWriteIn (s : State) (a : Nat) (v : Byte) : Host.Outcome State Fault Refusal :=
  if a < s.par.inSize then
    .next { s with
      inMem := Memory.put s.inMem a v
      inRaced :=
        if s.racesIn a then s.inRaced.insert a else s.inRaced.filter (fun b => decide (b ≠ a))
      pumps := s.pumps.map (fun p => p.noteRace a)
      sv0 := s.sv0.noteRace a }
  else .fault (.noSuchInByte a)

/-- A host read of a byte of IN. -/
def hostReadIn (s : State) (a : Nat) : Host.Outcome State Fault Refusal :=
  if a < s.par.inSize then
    .next { s with hostData := ((Memory.get s.inMem a).getD (Config.inInitial a)).setWidth 32 }
  else .fault (.noSuchInByte a)

/-! ## OUT -/

/-- Whether a sample lies in the region of the busy macro command (20_memory.md R78). -/
def State.busyRegion (s : State) (i : Nat) : Bool := s.macroBusy && s.regs.image.holds i

/-- Whether a sample lies in the region of an ended macro command whose end the host has not seen
(70_reset_and_hazards.md R298). -/
def State.unseenSample (s : State) (i : Nat) : Bool := s.unseen.any (fun g => g.holds i)

/-- A sample of OUT as a host read sees it: any value in the region of the busy macro command (20_memory.md R78), and
in that of an ended one until a read of STATUS has shown the end (R72, 70_reset_and_hazards.md R298; log 30). -/
def State.outsideSample (s : State) (i : Nat) : Sample :=
  if s.busyRegion i || s.unseenSample i then Config.freeSample s.draws i else outSample s.outMem i

/-- An outside write of a sample of OUT. In the region of the busy macro command the sample is any value after that
command (20_memory.md R78); in that of an ended one whose end the host has not seen nothing orders the two writes (R72),
so the sample is any value (log 30). -/
def State.writeSample (s : State) (i : Nat) (v : Sample) : State :=
  { s with
    outMem := Memory.put s.outMem i (if s.unseenSample i then Config.freeSample s.draws i else v)
    outRaced := if s.busyRegion i then s.outRaced.insert i else s.outRaced
    draws := s.draws + 1 }

/-- Whether a byte address of the host's view of OUT is a sample's high byte (20_memory.md R67). The spec gives the
order of a sample's two bytes only; that sample i stands at the byte addresses 2i and 2i + 1 is the model's choice.
DESIGN CHOICE, unsafe: log 29. -/
def highByte (order : ByteOrder) (addr : Nat) : Bool :=
  match order with
  | .little => decide (addr % 2 = 1)
  | .big => decide (addr % 2 = 0)

/-- One byte of a sample. -/
def sampleByte (high : Bool) (v : Sample) : Byte := if high then v.extractLsb' 8 8 else v.extractLsb' 0 8

/-- A sample with one byte replaced and the other kept: what writing a byte alone does. DESIGN CHOICE, unsafe: the spec
gives the byte view no partial writes (log 29). -/
def withSampleByte (high : Bool) (v : Sample) (b : Byte) : Sample :=
  if high then b ++ v.extractLsb' 0 8 else v.extractLsb' 8 8 ++ b

/-- A host read of a sample of OUT. -/
def outsideRead (s : State) (i : Nat) : Host.Outcome State Fault Refusal :=
  if i < s.par.outSize then
    .next { s with hostData := (s.outsideSample i).setWidth 32, draws := s.draws + 1 }
  else .fault (.noSuchOutSample i)

/-- An outside write of a sample of OUT. -/
def outsideWrite (s : State) (i : Nat) (v : Sample) : Host.Outcome State Fault Refusal :=
  if i < s.par.outSize then .next (s.writeSample i v) else .fault (.noSuchOutSample i)

/-- A read of a byte of the host's byte view of OUT (20_memory.md R67; the address is log 29's choice). -/
def outsideReadByte (s : State) (addr : Nat) : Host.Outcome State Fault Refusal :=
  if addr / 2 < s.par.outSize then
    .next { s with
      hostData := (sampleByte (highByte s.par.outOrder addr) (s.outsideSample (addr / 2))).setWidth 32
      draws := s.draws + 1 }
  else .fault (.noSuchOutSample (addr / 2))

/-- Another instance's write of a sample of OUT (60_exceptions.md R273, R274). Without another instance nothing
moves. -/
def peerWrite (s : State) (i : Nat) (v : Sample) : Host.Outcome State Fault Refusal :=
  if 1 < s.par.nInst then outsideWrite s i v else .next s

/-- A write of a byte of the host's byte view of OUT (20_memory.md R67; the address, and that the sample's other byte is
kept, are log 29's choices). -/
def outsideWriteByte (s : State) (addr : Nat) (b : Byte) : Host.Outcome State Fault Refusal :=
  if addr / 2 < s.par.outSize then
    .next (s.writeSample (addr / 2) (withSampleByte (highByte s.par.outOrder addr) (outSample s.outMem (addr / 2)) b))
  else .fault (.noSuchOutSample (addr / 2))

/-! ## One move of the surroundings -/

/-- One move of an agent other than the sequencer. -/
def outsideMove (s : State) (e : Event) : Host.Outcome State Fault Refusal :=
  match e with
  | .sequencer => .next s
  | .regRead width offset => hostReadReg s width offset
  | .regWrite width offset v => hostWriteReg s width offset v
  | .inRead a => hostReadIn s a
  | .inWrite a v => hostWriteIn s a v
  | .outRead i => outsideRead s i
  | .outWrite i v => outsideWrite s i v
  | .peerWrite i v => peerWrite s i v
  | .outByteRead addr => outsideReadByte s addr
  | .outByteWrite addr b => outsideWriteByte s addr b
  | .resetInput => .next s.resetBlock

end Sys2Proof.Machine
end

