-- ==== Sys2Proof/Machine/BitPump.lean ====
section
/-! DEFINITION. The bit-pump procedures and commands (spec 42_bitpump.md). The procedures work on a copy of the pump,
which a command stores only when it completes (40_control.md R103). -/

namespace Sys2Proof.Machine

/-! ## FILL (42_bitpump.md R141) -/

/-- A byte of the pump's window. -/
def Pump.byteAt (s : State) (p : Pump) (i : Nat) : Eff Byte := readIn s p.raced (p.off.toNat + i)

/-- A padding fetch: n more padding bits. -/
def Pump.padded (p : Pump) (n : Nat) : Pump := { p with pad := p.pad + n }

/-- Whether the 0xFF at the cursor is a stuffed literal: a 0x00 follows it inside the window (42_bitpump.md R141). -/
def stuffedAt (s : State) (p : Pump) : Eff Bool :=
  if p.inpos.toNat + 1 < p.size.toNat then do
    let c ← p.byteAt s (p.inpos.toNat + 1)
    return decide (c = 0#8)
  else return false

/-- NEXTBYTE (42_bitpump.md R141). -/
def nextByte (s : State) (p : Pump) : Eff (Byte × Pump) :=
  if p.ended then .ok (0, p.padded 8)
  else if p.size.toNat ≤ p.inpos.toNat then .ok (0, { p with ended := true, endpos := p.size }.padded 8)
  else do
    let b ← p.byteAt s p.inpos.toNat
    if p.mode = .jpeg ∧ b = 0xFF#8 then
      let stuffed ← stuffedAt s p
      if stuffed then return (0xFF#8, { p with inpos := p.inpos + 2 })
      else return (0, { p with ended := true, marker := true, endpos := p.inpos }.padded 8)
    else return (b, { p with inpos := p.inpos + 1 })

/-- The bytes of the next word of an MSB32 window, at most four (42_bitpump.md R141). -/
def wordBytes (s : State) (p : Pump) : Eff (List Byte) :=
  readInBytes s p.raced (p.off.toNat + p.inpos.toNat) (min 4 (p.size.toNat - p.inpos.toNat))

/-- NEXTWORD (42_bitpump.md R141): the missing high bytes of a partial final word are 0. -/
def nextWord (s : State) (p : Pump) : Eff (Word × Pump) :=
  if p.size.toNat ≤ p.inpos.toNat then
    .ok (0, { p with ended := true, endpos := if p.ended then p.endpos else p.size }.padded 32)
  else do
    let l ← wordBytes s p
    return (BitVec.ofNat 32 (leValue l), { p with inpos := p.inpos + BitVec.ofNat 32 l.length })

/-- One byte fetched into the cache. -/
def fetchByte (s : State) (p : Pump) : Eff Pump := do
  let (b, q) ← nextByte s p
  return { q with cache := q.cache ++ bits8 b }

/-- One word fetched into the cache. -/
def fetchWord (s : State) (p : Pump) : Eff Pump := do
  let (w, q) ← nextWord s p
  return { q with cache := q.cache ++ bits32 w }

/-- Four bytes fetched into the cache. -/
def fetchFourBytes (s : State) (p : Pump) : Eff Pump := forUp (fun _ q => fetchByte s q) 4 0 p

/-- FILL(p) (42_bitpump.md R141). -/
def fill (s : State) (p : Pump) : Eff Pump :=
  if s.par.fillThreshold ≤ p.cache.length then .ok p
  else
    match p.mode with
    | .msb32 => fetchWord s p
    | .msb => fetchFourBytes s p
    | .jpeg => fetchFourBytes s p

/-! ## Reading bits (42_bitpump.md R146) -/

/-- Whether delivering n more bits would pass DATA_BITS + 8·OVERREAD_SLACK; a JPEG pump has no such bound. -/
def overreads (par : Params) (p : Pump) (n : Nat) : Bool :=
  match p.mode with
  | .msb => decide (p.consumed.toNat + n > 8 * p.size.toNat + 8 * par.overreadSlack)
  | .msb32 => decide (p.consumed.toNat + n > 32 * ((p.size.toNat + 3) / 4) + 8 * par.overreadSlack)
  | .jpeg => false

/-- The pump error of this file (42_bitpump.md, error info convention). -/
def pumpBounds (ix : PumpIx) (p : Pump) (n : Nat) : ErrInfo :=
  ⟨.ioBounds, p.inpos.toNat, n, ix.val, (p.consumed.toNat % 2 ^ 32 : Nat)⟩

/-- The pump after delivering n bits: the padding stays the trailing bits of the cache. -/
def Pump.deliver (p : Pump) (n : Nat) : Pump :=
  { p with
    cache := p.cache.drop n
    pad := min p.pad (p.cache.drop n).length
    consumed := p.consumed + BitVec.ofNat 36 n }

/-- PGET(p, n) (42_bitpump.md R146). -/
def pget (s : State) (ix : PumpIx) (p : Pump) (n : Nat) : Eff (Nat × Pump) := do
  let q ← fill s p
  require (!overreads s.par q n) (pumpBounds ix q n)
  return (bitsVal (q.cache.take n), q.deliver n)

/-- PPEEK(p, n) (42_bitpump.md R146). -/
def ppeek (s : State) (p : Pump) (n : Nat) : Eff (Nat × Pump) := do
  let q ← fill s p
  return (bitsVal (q.cache.take n), q)

/-- PSKIP(p, n) (42_bitpump.md R146). -/
def pskip (s : State) (ix : PumpIx) (p : Pump) (n : Nat) : Eff Pump := do
  let (_, q) ← pget s ix p n
  return q

/-- A pump at the start of a window (42_bitpump.md R140). -/
def freshPump (mode : PumpMode) (off size : Word) : Pump :=
  ⟨true, mode, off, size, 0, [], 0, false, false, 0, 0, []⟩

/-! ## The commands -/

/-- BP_INIT (42_bitpump.md R140). -/
def bpInit (p : PumpIx) (k : StreamIx) (mode : PumpMode) (s : State) : Eff State := do
  let v ← schk s k
  return s.setPump p (freshPump mode (v.off + v.pos) (v.size - v.pos))

/-- BP_INIT (42_bitpump.md R140). -/
def execBpInit (p : PumpIx) (k : StreamIx) (mode : PumpMode) (s : State) : Host.Outcome State Fault Refusal :=
  finishPrimitive s (bpInit p k mode s)

/-- BP_FILL (42_bitpump.md R142). -/
def bpFill (p : PumpIx) (s : State) : Eff State := do
  let v ← pchk s p
  let q ← fill s v
  return s.setPump p q

/-- BP_FILL (42_bitpump.md R142). -/
def execBpFill (p : PumpIx) (s : State) : Host.Outcome State Fault Refusal :=
  finishPrimitive s (bpFill p s)

/-- BP_GET_BITS (42_bitpump.md R143). -/
def bpGetBits (p : PumpIx) (n : BitVec 6) (s : State) : Eff State := do
  requireLegal s (bitCountOk n)
  let v ← pchk s p
  let (x, q) ← pget s p v n.toNat
  return (s.setPump p q).setRes x

/-- BP_GET_BITS (42_bitpump.md R143). -/
def execBpGetBits (p : PumpIx) (n : BitVec 6) (s : State) : Host.Outcome State Fault Refusal :=
  finishPrimitive s (bpGetBits p n s)

/-- BP_PEEK_BITS (42_bitpump.md R144). -/
def bpPeekBits (p : PumpIx) (n : BitVec 6) (s : State) : Eff State := do
  requireLegal s (bitCountOk n)
  let v ← pchk s p
  let (x, q) ← ppeek s v n.toNat
  return (s.setPump p q).setRes x

/-- BP_PEEK_BITS (42_bitpump.md R144). -/
def execBpPeekBits (p : PumpIx) (n : BitVec 6) (s : State) : Host.Outcome State Fault Refusal :=
  finishPrimitive s (bpPeekBits p n s)

/-- BP_SKIP_BITS (42_bitpump.md R145). -/
def bpSkipBits (p : PumpIx) (n : BitVec 6) (s : State) : Eff State := do
  requireLegal s (bitCountOk n)
  let v ← pchk s p
  let q ← pskip s p v n.toNat
  return s.setPump p q

/-- BP_SKIP_BITS (42_bitpump.md R145). -/
def execBpSkipBits (p : PumpIx) (n : BitVec 6) (s : State) : Host.Outcome State Fault Refusal :=
  finishPrimitive s (bpSkipBits p n s)

end Sys2Proof.Machine
end

