-- ==== Sys2Proof/Machine/ByteStream.lean ====
section
/-! DEFINITION. The byte-stream commands (spec 41_bytestream.md). -/

namespace Sys2Proof.Machine

/-! ## Shared procedures -/

/-- The bounds error of this file: the cursor, the requested length, the slot and the window size. -/
def streamBounds (k : StreamIx) (v : StreamSlot) (n : Nat) : ErrInfo :=
  ⟨.ioBounds, v.pos.toNat, n, k.val, v.size.toNat⟩

/-- Raises E_IO_BOUNDS unless n bytes remain at the cursor. -/
def needRemaining (k : StreamIx) (v : StreamSlot) (n : Nat) : Eff Unit :=
  require (decide (v.pos.toNat + n ≤ v.size.toNat)) (streamBounds k v n)

/-- The n bytes at a window offset of a slot. -/
def windowBytes (s : State) (v : StreamSlot) (at_ n : Nat) : Eff (List Byte) :=
  readInBytes s [] (v.off.toNat + at_) n

/-- The n bytes at a window offset as a number in the slot's byte order (20_memory.md R65). -/
def windowValue (s : State) (v : StreamSlot) (at_ n : Nat) : Eff Nat := do
  let l ← windowBytes s v at_ n
  return orderedValue v.be l

/-- RD(k, n) (41_bytestream.md R111). -/
def streamRead (s : State) (k : StreamIx) (v : StreamSlot) (n : Nat) : Eff Nat := do
  needRemaining k v n
  windowValue s v v.pos.toNat n

/-- The shape of BS_GET_*: SCHK, RD, RES, advance. -/
def streamGet (s : State) (k : StreamIx) (n : Nat) : Eff State := do
  let v ← schk s k
  let x ← streamRead s k v n
  return (s.setRes x).setPos k (v.pos.toNat + n)

/-- The shape of BS_PEEK_*: SCHK, RD, RES. -/
def streamPeek (s : State) (k : StreamIx) (n : Nat) : Eff State := do
  let v ← schk s k
  let x ← streamRead s k v n
  return s.setRes x

/-- A fresh stream over a window: valid, cursor at its start. A window start of exactly 2^32, which only an empty
window can have, is kept mod 2^32 (log 15). -/
def freshStream (off size : Nat) (be : Bool) : StreamSlot :=
  ⟨true, BitVec.ofNat 32 off, BitVec.ofNat 32 size, 0, be⟩

/-- Whether the next n bytes are the prefix bytes; too few bytes is a mismatch (41_bytestream.md R124, R125). -/
def prefixMatches (s : State) (v : StreamSlot) (n : Nat) : Eff Bool :=
  if v.pos.toNat + n ≤ v.size.toNat then do
    let l ← windowBytes s v v.pos.toNat n
    return decide (l = s.regs.prefixBytes n)
  else return false

/-! ## The commands -/

/-- BS_INIT (41_bytestream.md R112). -/
def bsInit (k : StreamIx) (be : Bool) (s : State) : Eff State := do
  let off := s.regs.arg0.toNat
  let size := s.regs.arg1.toNat
  require (decide (off + size ≤ s.par.inSize)) ⟨.ioBounds, off, size, k.val, (s.par.inSize % 2 ^ 32 : Nat)⟩
  return s.setStream k (freshStream off size be)

/-- BS_INIT (41_bytestream.md R112). -/
def execBsInit (k : StreamIx) (be : Bool) (s : State) : Host.Outcome State Fault Refusal :=
  finishPrimitive s (bsInit k be s)

/-- BS_GET_U8 (41_bytestream.md R113). -/
def execBsGetU8 (k : StreamIx) (s : State) : Host.Outcome State Fault Refusal :=
  finishPrimitive s (streamGet s k 1)

/-- BS_GET_U16 (41_bytestream.md R114). -/
def execBsGetU16 (k : StreamIx) (s : State) : Host.Outcome State Fault Refusal :=
  finishPrimitive s (streamGet s k 2)

/-- BS_GET_U32 (41_bytestream.md R115). -/
def execBsGetU32 (k : StreamIx) (s : State) : Host.Outcome State Fault Refusal :=
  finishPrimitive s (streamGet s k 4)

/-- BS_GET_I32 (41_bytestream.md R116): the bits of BS_GET_U32. -/
def execBsGetI32 (k : StreamIx) (s : State) : Host.Outcome State Fault Refusal :=
  finishPrimitive s (streamGet s k 4)

/-- BS_GET_F32 (41_bytestream.md R117): the raw bits. -/
def execBsGetF32 (k : StreamIx) (s : State) : Host.Outcome State Fault Refusal :=
  finishPrimitive s (streamGet s k 4)

/-- BS_PEEK_U8 (41_bytestream.md R118). -/
def execBsPeekU8 (k : StreamIx) (s : State) : Host.Outcome State Fault Refusal :=
  finishPrimitive s (streamPeek s k 1)

/-- BS_PEEK_U16 (41_bytestream.md R119). -/
def execBsPeekU16 (k : StreamIx) (s : State) : Host.Outcome State Fault Refusal :=
  finishPrimitive s (streamPeek s k 2)

/-- BS_PEEK_U32 (41_bytestream.md R120). -/
def execBsPeekU32 (k : StreamIx) (s : State) : Host.Outcome State Fault Refusal :=
  finishPrimitive s (streamPeek s k 4)

/-- BS_SKIP (41_bytestream.md R121). -/
def bsSkip (k : StreamIx) (s : State) : Eff State := do
  let v ← schk s k
  let n := s.regs.arg0.toNat
  needRemaining k v n
  return s.setPos k (v.pos.toNat + n)

/-- BS_SKIP (41_bytestream.md R121). -/
def execBsSkip (k : StreamIx) (s : State) : Host.Outcome State Fault Refusal :=
  finishPrimitive s (bsSkip k s)

/-- BS_GET_STREAM (41_bytestream.md R122): the source advances first, so that with source = destination the new
stream stands. -/
def bsGetStream (src dst : StreamIx) (s : State) : Eff State := do
  let v ← schk s src
  let n := s.regs.arg0.toNat
  needRemaining src v n
  return (s.setPos src (v.pos.toNat + n)).setStream dst (freshStream (v.off.toNat + v.pos.toNat) n v.be)

/-- BS_GET_STREAM (41_bytestream.md R122). -/
def execBsGetStream (src dst : StreamIx) (s : State) : Host.Outcome State Fault Refusal :=
  finishPrimitive s (bsGetStream src dst s)

/-- BS_GET_SUBSTREAM (41_bytestream.md R123). -/
def bsGetSubstream (src dst : StreamIx) (s : State) : Eff State := do
  let v ← schk s src
  let o := s.regs.arg0.toNat
  let n := s.regs.arg1.toNat
  require (decide (o + n ≤ v.size.toNat)) ⟨.ioBounds, o, n, src.val, v.size.toNat⟩
  return s.setStream dst (freshStream (v.off.toNat + o) n v.be)

/-- BS_GET_SUBSTREAM (41_bytestream.md R123). -/
def execBsGetSubstream (src dst : StreamIx) (s : State) : Host.Outcome State Fault Refusal :=
  finishPrimitive s (bsGetSubstream src dst s)

/-- BS_HAS_PREFIX (41_bytestream.md R124). -/
def bsHasPrefix (k : StreamIx) (n : BitVec 4) (s : State) : Eff State := do
  requireLegal s (prefixLengthOk n)
  let v ← schk s k
  let hit ← prefixMatches s v n.toNat
  return s.setRes (bitNat hit)

/-- BS_HAS_PREFIX (41_bytestream.md R124). -/
def execBsHasPrefix (k : StreamIx) (n : BitVec 4) (s : State) : Host.Outcome State Fault Refusal :=
  finishPrimitive s (bsHasPrefix k n s)

/-- BS_SKIP_PREFIX (41_bytestream.md R125). -/
def bsSkipPrefix (k : StreamIx) (n : BitVec 4) (s : State) : Eff State := do
  requireLegal s (prefixLengthOk n)
  let v ← schk s k
  let hit ← prefixMatches s v n.toNat
  if hit then return (s.setPos k (v.pos.toNat + n.toNat)).setRes 1
  else return s.setRes 0

/-- BS_SKIP_PREFIX (41_bytestream.md R125). -/
def execBsSkipPrefix (k : StreamIx) (n : BitVec 4) (s : State) : Host.Outcome State Fault Refusal :=
  finishPrimitive s (bsSkipPrefix k n s)

/-- BS_REBASE (41_bytestream.md R126). -/
def bsRebase (k : StreamIx) (s : State) : Eff State := do
  let v ← schk s k
  let np := s.regs.arg0.toNat
  let ns := s.regs.arg1.toNat
  needRemaining k v ns
  require (decide (np ≤ v.off.toNat + v.pos.toNat)) ⟨.ioBounds, v.pos.toNat, ns, k.val, np⟩
  require (decide (np + ns ≤ 2 ^ 32 - 1)) ⟨.ioOverflow, np, ns, k.val, 0⟩
  return s.setStream k
    { freshStream (v.off.toNat + v.pos.toNat - np) (np + ns) v.be with pos := BitVec.ofNat 32 np }

/-- BS_REBASE (41_bytestream.md R126). -/
def execBsRebase (k : StreamIx) (s : State) : Host.Outcome State Fault Refusal :=
  finishPrimitive s (bsRebase k s)

/-- BS_CHECK (41_bytestream.md R127). -/
def bsCheck (k : StreamIx) (s : State) : Eff State := do
  let v ← schk s k
  let m := s.regs.arg0.toNat
  let e := s.regs.arg1.toNat
  require (decide (m * e ≤ 2 ^ 32 - 1)) ⟨.ioOverflow, v.pos.toNat, e, k.val, m⟩
  needRemaining k v (m * e)
  return s

/-- BS_CHECK (41_bytestream.md R127). -/
def execBsCheck (k : StreamIx) (s : State) : Host.Outcome State Fault Refusal :=
  finishPrimitive s (bsCheck k s)

end Sys2Proof.Machine
end

