-- ==== Sys2Proof/Machine/Control.lean ====
section
/-! DEFINITION. The control command (spec 40_control.md R100). -/

namespace Sys2Proof.Machine

/-- NOP (40_control.md R100): only the completion state changes. -/
def execNop (s : State) : Host.Outcome State Fault Refusal := finishPrimitive s (.ok s)

end Sys2Proof.Machine
end

