-- ==== Sys2Proof/Machine/FujiContext.lean ====
section
/-! DEFINITION. The Fuji gradient-context commands (spec 47_fuji.md). -/

namespace Sys2Proof.Machine

/-! ## Procedures -/

/-- FJ.qp[i] as an integer. -/
def Fuji.q (f : Fuji) (i : Fin 5) : Int := (f.qp[i] : Nat)

/-- QT(d), the quantized gradient; the conditions are tested in this order (47_fuji.md R231). -/
def Fuji.quantize (f : Fuji) (d : Int) : Int :=
  if d ≤ -f.q 3 then -4
  else if d ≤ -f.q 2 then -3
  else if d ≤ -f.q 1 then -2
  else if d < 0 then -1
  else if d = 0 then 0
  else if d < f.q 1 then 1
  else if d < f.q 2 then 2
  else if d < f.q 3 then 3
  else 4

/-- The signed gradient of two differences (47_fuji.md R233, R234). -/
def Fuji.gradient (f : Fuji) (d e : Int) : Int := f.quantize d * 9 + f.quantize e

/-- The pair index of a gradient, at most 40 in absolute value (47_fuji.md R231). -/
def gradIndex (grad : Int) : Fin 41 := Fin.ofNat 41 grad.natAbs

/-- NCHK: each listed neighbour in order (47_fuji.md R239). -/
def neighbourCheck (f : Fuji) : List Nat → Eff Unit
  | [] => .ok ()
  | r :: rest => do
    require (decide ((r : Int) ≤ f.q 4)) ⟨.corrupt, 0, 0, 0, r⟩
    neighbourCheck f rest

/-- WRAP(v) (47_fuji.md R239). -/
def Fuji.wrap (f : Fuji) (v : Int) : Int :=
  let w := if v < 0 then v + f.totalValues else if v > f.q 4 then v - f.totalValues else v
  if 0 ≤ w then min w (f.q 4) else 0

/-- The least d ≥ 1 with v2 · 2^d ≥ v1, bounded by the tries left, counting up from d. -/
def bitDiffFrom (v1 v2 : Nat) : Nat → Nat → Nat
  | 0, d => d
  | n + 1, d => if v1 ≤ v2 * 2 ^ d then d else bitDiffFrom v1 v2 n (d + 1)

/-- BITDIFF(v1, v2) (47_fuji.md R235). -/
def bitDiff (v1 v2 : Nat) : Nat := if v1 ≤ v2 then 0 else bitDiffFrom v1 v2 12 1

/-- The zero run: the zeros before the first 1, with the zeros still allowed (47_fuji.md R235). -/
def zeroRun (s : State) (ix : PumpIx) : Nat → Nat → Pump → Eff (Nat × Pump)
  | 0, z, _ => raiseError .corrupt (val := z)
  | fuel + 1, z, p => do
    let (b, q) ← pget s ix p 1
    if b = 0 then zeroRun s ix fuel (z + 1) q else return (z, q)

/-- The code as read, before mapping (47_fuji.md R235). -/
def fjRawCode (s : State) (ix : PumpIx) (p : Pump) (pair : GradPair) : Eff (Nat × Pump) := do
  let f := s.fuji
  let (z, q) ← zeroRun s ix f.maxBits 0 p
  if z + f.rawBits + 1 < f.maxBits then
    let d := bitDiff pair.v1 pair.v2
    if d = 0 then return (z, q)
    else
      let (b, q') ← pget s ix q d
      return (b + z * 2 ^ d, q')
  else
    let (b, q') ← pget s ix q f.rawBits
    return (b + 1, q')

/-- The mapping of a raw code to a signed one (47_fuji.md R235). -/
def mapCode (c : Nat) : Int := if c % 2 = 1 then -1 - ((c / 2 : Nat) : Int) else ((c / 2 : Nat) : Int)

/-- The accumulator update (47_fuji.md R235). -/
def GradPair.update (pair : GradPair) (minValue : Nat) (code : Int) : GradPair :=
  let v1 := pair.v1 + code.natAbs
  if pair.v2 = minValue then ⟨v1 / 2, pair.v2 / 2 + 1⟩ else ⟨v1, pair.v2 + 1⟩

/-- The error counter after a raw code; it saturates (47_fuji.md R235). -/
def Fuji.countCode (f : Fuji) (c : Nat) : Word :=
  if f.totalValues ≤ c ∧ f.errcnt.toNat < 2 ^ 32 - 1 then f.errcnt + 1 else f.errcnt

/-- What FJCODE(p, pair) gives: the code, the pair, the error counter and the pump (47_fuji.md R235). -/
structure FjCode where
  code : Int
  pair : GradPair
  errcnt : Word
  pump : Pump
  deriving DecidableEq, Repr

/-- FJCODE(p, pair) (47_fuji.md R235). -/
def fjCode (s : State) (ix : PumpIx) (p : Pump) (pair : GradPair) : Eff FjCode := do
  let (c, q) ← fjRawCode s ix p pair
  return ⟨mapCode c, pair.update s.fuji.minValue (mapCode c), s.fuji.countCode c, q⟩

/-- The pair of set j and index g. -/
def GradArray.pair (a : GradArray) (j : GradSet) (g : Fin 41) : GradPair := a[j][g]

/-- An array with the pair of set j and index g replaced. -/
def GradArray.setPair (a : GradArray) (j : GradSet) (g : Fin 41) (v : GradPair) : GradArray :=
  a.set j (a[j].set g v)

/-- Raises E_STATE unless the Fuji context is valid. -/
def fujiValid (s : State) : Eff Unit := require s.fuji.valid ⟨.state, 0, 0, 0, 0⟩

/-- A sample from its gradient, interpolation and code (47_fuji.md R233, R234). -/
def Fuji.reconstruct (f : Fuji) (grad interp code : Int) : Int :=
  f.wrap (if grad < 0 then interp - code else interp + code)

/-! ## Setup commands -/

/-- The context FJ_INIT sets up for a depth and its four derived numbers (47_fuji.md R230). -/
def fujiContext (rb qp4 total maxb maxd : Nat) : Fuji :=
  ⟨true, rb, #v[0, 18, 67, 276, qp4], total, maxb, maxd, 64, GradArray.filled ⟨maxd, 1⟩, GradArray.filled ⟨maxd, 1⟩, 0⟩

/-- FJ_INIT (47_fuji.md R230). -/
def fjInit (rb : BitVec 5) (s : State) : Eff State :=
  if rb.toNat = 14 then .ok { s with fuji := fujiContext 14 16383 16384 56 256 }
  else if rb.toNat = 12 then .ok { s with fuji := fujiContext 12 4095 4096 48 64 }
  else raiseError .corrupt (val := rb.toNat)

/-- FJ_INIT (47_fuji.md R230). -/
def execFjInit (rb : BitVec 5) (s : State) : Host.Outcome State Fault Refusal := finishPrimitive s (fjInit rb s)

/-- The context after a gradient reset (47_fuji.md R232). -/
def Fuji.gradReset (f : Fuji) : Fuji :=
  { f with ge := GradArray.filled ⟨f.maxDiff, 1⟩, go := GradArray.filled ⟨f.maxDiff, 1⟩, errcnt := 0 }

/-- FJ_GRAD_RESET (47_fuji.md R232). -/
def fjGradReset (s : State) : Eff State := do
  fujiValid s
  return { s with fuji := s.fuji.gradReset }

/-- FJ_GRAD_RESET (47_fuji.md R232). -/
def execFjGradReset (s : State) : Host.Outcome State Fault Refusal := finishPrimitive s (fjGradReset s)

/-! ## Sample commands -/

/-- The even sample's gradient (47_fuji.md R233). -/
def evenGradient (f : Fuji) (g : HostRegs) : Int :=
  f.gradient ((g.rb : Int) - (g.rf : Int)) ((g.rc : Int) - (g.rb : Int))

/-- The even sample's interpolation, four times its value; equal differences fall to the last case
(47_fuji.md R233). -/
def evenInterp4 (g : HostRegs) : Nat :=
  let dCB := ((g.rc : Int) - g.rb).natAbs
  let dFB := ((g.rf : Int) - g.rb).natAbs
  let dDB := ((g.rd : Int) - g.rb).natAbs
  if dFB < dCB ∧ dDB < dCB then g.rf + g.rd + 2 * g.rb
  else if dCB < dDB ∧ dFB < dDB then g.rf + g.rc + 2 * g.rb
  else g.rd + g.rc + 2 * g.rb

/-- FJ_SAMPLE_EVEN (47_fuji.md R233). -/
def fjSampleEven (p : PumpIx) (j : GradSet) (s : State) : Eff State := do
  fujiValid s
  let v ← pchk s p
  neighbourCheck s.fuji [s.regs.rb, s.regs.rc, s.regs.rd, s.regs.rf]
  let grad := evenGradient s.fuji s.regs
  let x ← fjCode s p v (s.fuji.ge.pair j (gradIndex grad))
  let sample := s.fuji.reconstruct grad (evenInterp4 s.regs / 4 : Nat) x.code
  let f := { s.fuji with ge := s.fuji.ge.setPair j (gradIndex grad) x.pair, errcnt := x.errcnt }
  return { (s.setPump p x.pump).setRes sample with fuji := f }

/-- FJ_SAMPLE_EVEN (47_fuji.md R233). -/
def execFjSampleEven (p : PumpIx) (j : GradSet) (s : State) : Host.Outcome State Fault Refusal :=
  finishPrimitive s (fjSampleEven p j s)

/-- The odd sample's gradient (47_fuji.md R234). -/
def oddGradient (f : Fuji) (g : HostRegs) : Int :=
  f.gradient ((g.rb : Int) - (g.rc : Int)) ((g.rc : Int) - (g.ra : Int))

/-- The odd sample's interpolation (47_fuji.md R234). -/
def oddInterp (g : HostRegs) : Nat :=
  if (g.rc < g.rb ∧ g.rd < g.rb) ∨ (g.rb < g.rc ∧ g.rb < g.rd) then (g.rg + g.ra + 2 * g.rb) / 4
  else (g.ra + g.rg) / 2

/-- FJ_SAMPLE_ODD (47_fuji.md R234). -/
def fjSampleOdd (p : PumpIx) (j : GradSet) (s : State) : Eff State := do
  fujiValid s
  let v ← pchk s p
  neighbourCheck s.fuji [s.regs.ra, s.regs.rb, s.regs.rc, s.regs.rd, s.regs.rg]
  let grad := oddGradient s.fuji s.regs
  let x ← fjCode s p v (s.fuji.go.pair j (gradIndex grad))
  let sample := s.fuji.reconstruct grad (oddInterp s.regs : Nat) x.code
  let f := { s.fuji with go := s.fuji.go.setPair j (gradIndex grad) x.pair, errcnt := x.errcnt }
  return { (s.setPump p x.pump).setRes sample with fuji := f }

/-- FJ_SAMPLE_ODD (47_fuji.md R234). -/
def execFjSampleOdd (p : PumpIx) (j : GradSet) (s : State) : Host.Outcome State Fault Refusal :=
  finishPrimitive s (fjSampleOdd p j s)

/-! ## Strip commands -/

/-- FJ_END_STRIP (47_fuji.md R236). -/
def fjEndStrip (s : State) : Eff State := do
  fujiValid s
  require (decide (s.fuji.errcnt = 0)) ⟨.corrupt, 0, 0, 0, s.fuji.errcnt.toNat⟩
  return s

/-- FJ_END_STRIP (47_fuji.md R236). -/
def execFjEndStrip (s : State) : Host.Outcome State Fault Refusal := finishPrimitive s (fjEndStrip s)

/-- GCHK and the strip index check (47_fuji.md R237, R238). -/
def stripCheck (s : State) (i : Nat) : Eff Unit := do
  let bs := s.regs.blockSize
  let n := s.regs.blocksInRow
  let rw_ := s.regs.rawWidth
  require (decide (bs ≠ 0 ∧ n ≠ 0)) ⟨.corrupt, n, bs, 0, 0⟩
  require (decide (bs * (n - 1) < rw_ ∧ rw_ ≤ bs * n)) ⟨.corrupt, n, bs, 0, rw_⟩
  require (decide (i < n)) ⟨.corrupt, 0, 0, i, n⟩

/-- FJ_STRIP_WIDTH (47_fuji.md R237). -/
def fjStripWidth (i : BitVec 16) (s : State) : Eff State := do
  stripCheck s i.toNat
  let bs := s.regs.blockSize
  let n := s.regs.blocksInRow
  return s.setRes (if i.toNat = n - 1 then s.regs.rawWidth - bs * (n - 1) else bs : Nat)

/-- FJ_STRIP_WIDTH (47_fuji.md R237). -/
def execFjStripWidth (i : BitVec 16) (s : State) : Host.Outcome State Fault Refusal :=
  finishPrimitive s (fjStripWidth i s)

/-- FJ_STRIP_OFFSET (47_fuji.md R238). -/
def fjStripOffset (i : BitVec 16) (s : State) : Eff State := do
  stripCheck s i.toNat
  return s.setRes (s.regs.blockSize * i.toNat : Nat)

/-- FJ_STRIP_OFFSET (47_fuji.md R238). -/
def execFjStripOffset (i : BitVec 16) (s : State) : Host.Outcome State Fault Refusal :=
  finishPrimitive s (fjStripOffset i s)

end Sys2Proof.Machine
end

