-- ==== Sys2Proof/Machine/Huffman.lean ====
section
/-! DEFINITION. The Huffman table procedures and commands (spec 43_huffman.md). -/

namespace Sys2Proof.Machine

/-! ## Table construction -/

/-- count[L], for L = 1..16 (10_state.md R40). -/
def HuffTable.countOf (t : HuffTable) (l : Nat) : Nat := (t.count[l - 1]?.getD 0).toNat

/-- first[L], for L = 1..16. -/
def HuffTable.firstOf (t : HuffTable) (l : Nat) : Nat := t.first[l - 1]?.getD 0

/-- index[L], for L = 1..16. -/
def HuffTable.indexOf (t : HuffTable) (l : Nat) : Nat := t.index[l - 1]?.getD 0

/-- values[i]; there are 256, and a READY table names no other (log 21). -/
def HuffTable.valueAt (t : HuffTable) (i : Nat) : Byte := t.values[i]?.getD 0

/-- The sum of the sixteen counts. -/
def countSum (c : Vector Byte Config.htMaxLen) : Nat := (c.toList.map BitVec.toNat).sum

/-- At most HT_MAX_VALUES leaf values, followed by zeros. -/
def padValues (l : List Byte) : Vector Byte Config.htMaxValues :=
  ⟨((l ++ List.replicate Config.htMaxValues 0).take Config.htMaxValues).toArray, by
    rw [List.size_toArray, List.length_take, List.length_append, List.length_replicate]; omega⟩

/-- CANON's working values: the next code and the codes placed so far, with the arrays being filled. -/
structure Canon where
  code : Nat
  placed : Nat
  first : Vector Nat Config.htMaxLen
  index : Vector Nat Config.htMaxLen
  deriving DecidableEq, Repr

/-- CANON's body for the length L = l + 1 (43_huffman.md R164). -/
def canonStep (t : TableIx) (c : HuffTable) (l : Nat) (x : Canon) : Eff Canon := do
  let code := x.code + c.countOf (l + 1)
  require (decide (code ≤ 2 ^ (l + 1))) ⟨.corrupt, 0, (l + 1 : Nat), t.val, code⟩
  return ⟨2 * code, x.placed + c.countOf (l + 1), x.first.setIfInBounds l x.code, x.index.setIfInBounds l x.placed⟩

/-- CANON(t) on a table's counts (43_huffman.md R164). -/
def canon (par : Params) (t : TableIx) (c : HuffTable) : Eff HuffTable := do
  let x ← forUp (canonStep t c) par.htMaxLen 0 ⟨0, 0, c.first, c.index⟩
  return { c with first := x.first, index := x.index }

/-! ## Decoding -/

/-- HSYM's search from length L on, with the code read so far and the lengths left (43_huffman.md R165). -/
def hsymFrom (s : State) (t : TableIx) (ix : PumpIx) : Nat → Nat → Nat → Pump → Eff (Nat × Pump)
  | 0, _, code, p => raiseError .corrupt (row := p.inpos.toNat) (comp := t.val) (val := code)
  | fuel + 1, l, code, p => do
    let (b, q) ← pget s ix p 1
    let code' := 2 * code + b
    let h := s.tables[t]
    if h.firstOf l ≤ code' ∧ code' < h.firstOf l + h.countOf l then
      return ((h.valueAt (h.indexOf l + code' - h.firstOf l)).toNat, q)
    else hsymFrom s t ix fuel (l + 1) code' q

/-- HSYM(t, p) (43_huffman.md R165). -/
def hsym (s : State) (t : TableIx) (ix : PumpIx) (p : Pump) : Eff (Nat × Pump) :=
  hsymFrom s t ix s.par.htMaxLen 1 0 p

/-- DIFF16_VALUE (00_scope.md R6). -/
def Diff16.value (d : Diff16) : Int :=
  match d with
  | .minus32768 => -32768
  | .plus32768 => 32768

/-- EXTEND (43_huffman.md R166): the signed difference of `len` additional bits of value v. -/
def extendDiff (len v : Nat) : Int := if v < 2 ^ (len - 1) then (v : Int) - (2 ^ len - 1) else v

/-- HDIFF(t, p) (43_huffman.md R166). -/
def hdiff (s : State) (t : TableIx) (ix : PumpIx) (p : Pump) : Eff (Int × Pump) := do
  let (len, q) ← hsym s t ix p
  if len = 0 then return (0, q)
  else if 16 < len then raiseError .corrupt (row := q.inpos.toNat) (comp := t.val) (val := len)
  else if len = 16 then
    if s.tables[t].dng16 then do
      let q' ← pskip s ix q 16
      return (Diff16.value s.par.diff16, q')
    else return (Diff16.value s.par.diff16, q)
  else do
    let (v, q') ← pget s ix q len
    return (extendDiff len v, q')

/-! ## The construction commands -/

/-- HT_RESET (43_huffman.md R160). -/
def execHtReset (t : TableIx) (s : State) : Host.Outcome State Fault Refusal :=
  finishPrimitive s (.ok (s.setTable t .reset))

/-- HT_SET_COUNTS (43_huffman.md R161). -/
def htSetCounts (t : TableIx) (s : State) : Eff State := do
  require (decide (s.tables[t].state ≠ .ready)) ⟨.state, 0, 0, t.val, 0⟩
  let c := s.regs.codeCounts
  let sum := countSum c
  require (decide (sum ≠ 0 ∧ sum ≤ s.par.htMaxValues)) ⟨.corrupt, 0, 0, t.val, sum⟩
  return s.setTable t { HuffTable.reset with state := .counts, count := c }

/-- HT_SET_COUNTS (43_huffman.md R161). -/
def execHtSetCounts (t : TableIx) (s : State) : Host.Outcome State Fault Refusal :=
  finishPrimitive s (htSetCounts t s)

/-- HT_SET_VALUES (43_huffman.md R162). Its stream's cursor advances, as R162 says; 10_state.md R35 says that only BS_*
commands change a stream slot (log 32: DEDUCED). -/
def htSetValues (t : TableIx) (k : StreamIx) (n : BitVec 9) (s : State) : Eff State := do
  requireLegal s (valueCountOk n)
  require (decide (s.tables[t].state = .counts)) ⟨.state, 0, 0, t.val, 0⟩
  let v ← schk s k
  require (decide (n.toNat = countSum s.tables[t].count)) ⟨.corrupt, 0, 0, t.val, n.toNat⟩
  needRemaining k v n.toNat
  let l ← windowBytes s v v.pos.toNat n.toNat
  let c := { s.tables[t] with values := padValues l, nvalues := n.toNat, state := .values }
  return (s.setTable t c).setPos k (v.pos.toNat + n.toNat)

/-- HT_SET_VALUES (43_huffman.md R162). -/
def execHtSetValues (t : TableIx) (k : StreamIx) (n : BitVec 9) (s : State) : Host.Outcome State Fault Refusal :=
  finishPrimitive s (htSetValues t k n s)

/-- HT_SETUP (43_huffman.md R163). -/
def htSetup (t : TableIx) (d : Bool) (s : State) : Eff State := do
  require (decide (s.tables[t].state = .values)) ⟨.state, 0, 0, t.val, 0⟩
  let c ← canon s.par t s.tables[t]
  return s.setTable t { c with dng16 := d, state := .ready }

/-- HT_SETUP (43_huffman.md R163). -/
def execHtSetup (t : TableIx) (d : Bool) (s : State) : Host.Outcome State Fault Refusal :=
  finishPrimitive s (htSetup t d s)

/-! ## The decode commands -/

/-- HT_DECODE_SYM (43_huffman.md R165). -/
def htDecodeSym (t : TableIx) (p : PumpIx) (s : State) : Eff State := do
  let _ ← tchk s t
  let v ← pchk s p
  let (x, q) ← hsym s t p v
  return (s.setPump p q).setRes x

/-- HT_DECODE_SYM (43_huffman.md R165). -/
def execHtDecodeSym (t : TableIx) (p : PumpIx) (s : State) : Host.Outcome State Fault Refusal :=
  finishPrimitive s (htDecodeSym t p s)

/-- HT_DECODE_DIFF (43_huffman.md R167). -/
def htDecodeDiff (t : TableIx) (p : PumpIx) (s : State) : Eff State := do
  let _ ← tchk s t
  let v ← pchk s p
  let (d, q) ← hdiff s t p v
  return (s.setPump p q).setRes d

/-- HT_DECODE_DIFF (43_huffman.md R167). -/
def execHtDecodeDiff (t : TableIx) (p : PumpIx) (s : State) : Host.Outcome State Fault Refusal :=
  finishPrimitive s (htDecodeDiff t p s)

/-! ## The Pentax tables -/

/-- The counts of the legacy table, L = 1..16 (43_huffman.md R168). -/
def pentaxLegacyCounts : Vector Byte Config.htMaxLen := #v[0, 2, 3, 1, 1, 1, 1, 1, 1, 2, 0, 0, 0, 0, 0, 0]

/-- The values of the legacy table (43_huffman.md R168). -/
def pentaxLegacyValues : List Byte := [3, 4, 2, 5, 1, 6, 0, 7, 8, 9, 10, 11, 12]

/-- A table with its counts and values placed (43_huffman.md R168, R169), as CANON finds it. -/
def loadedTable (c : Vector Byte Config.htMaxLen) (values : List Byte) : HuffTable :=
  { HuffTable.reset with state := .values, count := c, nvalues := values.length, values := padValues values }

/-- Stores a table with counts and values placed as a READY one (43_huffman.md R168, R169). -/
def loadTable (t : TableIx) (c : Vector Byte Config.htMaxLen) (values : List Byte) (s : State) : Eff State := do
  let h ← canon s.par t (loadedTable c values)
  return s.setTable t { h with state := .ready }

/-- HT_LOAD_PENTAX_LEGACY (43_huffman.md R168). -/
def execHtLoadPentaxLegacy (t : TableIx) (s : State) : Host.Outcome State Fault Refusal :=
  finishPrimitive s (loadTable t pentaxLegacyCounts pentaxLegacyValues s)

/-- One entry of a per-file table: its index, length and prefix (43_huffman.md R169). -/
structure PentaxEntry where
  ix : Nat
  len : Nat
  pre : Nat
  deriving DecidableEq, Repr

/-- The u16 codes of a per-file table, from entry i on (43_huffman.md R169). -/
def pentaxCodes (s : State) (v : StreamSlot) (at_ : Nat) : Nat → Eff (List Nat)
  | 0 => .ok []
  | n + 1 => do
    let c ← windowValue s v at_ 2
    let r ← pentaxCodes s v (at_ + 2) n
    return c :: r

/-- The entries of a per-file table from entry i on: each length is read and checked in turn, then the prefix is
`code >> (12 - len)` (43_huffman.md R169). -/
def pentaxEntries (s : State) (v : StreamSlot) (at_ : Nat) : Nat → List Nat → Eff (List PentaxEntry)
  | _, [] => .ok []
  | i, code :: codes => do
    let len ← windowValue s v at_ 1
    require (decide (1 ≤ len ∧ len ≤ 12)) ⟨.corrupt, 0, 0, i, len⟩
    let r ← pentaxEntries s v (at_ + 1) (i + 1) codes
    return ⟨i, len, code >>> (12 - len)⟩ :: r

/-- The pairs i < j of entries with equal prefixes (43_huffman.md R169). -/
def tiedPairs : List PentaxEntry → List (PentaxEntry × PentaxEntry)
  | [] => []
  | e :: r => (r.filter (fun f => decide (f.pre = e.pre))).map (fun f => (e, f)) ++ tiedPairs r

/-- The tied pair an error reports: the only one, or any of several (log 16). -/
def reportedTie (draw : Nat) (ties : List (PentaxEntry × PentaxEntry)) : Option (PentaxEntry × PentaxEntry) :=
  match ties with
  | [] => none
  | [x] => some x
  | x :: r => some (((x :: r)[Config.tieChoice draw % (x :: r).length]?).getD x)

/-- Inserts an entry by increasing prefix. -/
def insertByPrefix (e : PentaxEntry) : List PentaxEntry → List PentaxEntry
  | [] => [e]
  | f :: r => if e.pre ≤ f.pre then e :: f :: r else f :: insertByPrefix e r

/-- The entries sorted by increasing prefix (43_huffman.md R169). -/
def sortByPrefix (l : List PentaxEntry) : List PentaxEntry := l.foldr insertByPrefix []

/-- counts[L] = the number of entries of length L (43_huffman.md R169). -/
def pentaxCounts (l : List PentaxEntry) : Vector Byte Config.htMaxLen :=
  Vector.ofFn (fun i => BitVec.ofNat 8 ((l.filter (fun e => decide (e.len = i.val + 1))).length))

/-- HT_LOAD_PENTAX (43_huffman.md R169). The depth's E_CORRUPT comes before the second E_IO_BOUNDS, whose
length the depth gives (95_test_vectors.md V-HT-26; log 33: DEDUCED). -/
def htLoadPentax (t : TableIx) (k : StreamIx) (s : State) : Eff State := do
  let v ← schk s k
  let q := v.pos.toNat
  require (decide (q + 2 ≤ v.size.toNat)) ⟨.ioBounds, q, 2, k.val, v.size.toNat⟩
  let depth ← windowValue s v q 2
  require (decide (1 ≤ depth ∧ depth ≤ 15)) ⟨.corrupt, 0, 0, t.val, depth⟩
  require (decide (q + 2 + 3 * depth ≤ v.size.toNat)) ⟨.ioBounds, q, (2 + 3 * depth : Nat), k.val, v.size.toNat⟩
  let codes ← pentaxCodes s v (q + 2) depth
  let entries ← pentaxEntries s v (q + 2 + 2 * depth) 0 codes
  match reportedTie s.draws (tiedPairs entries) with
  | some (e, f) => raiseError .corrupt (col := e.ix) (comp := f.ix) (val := e.pre)
  | none =>
    let r ← loadTable t (pentaxCounts entries) ((sortByPrefix entries).map (fun e => BitVec.ofNat 8 e.ix)) s
    return r.setPos k (q + 2 + 3 * depth)

/-- HT_LOAD_PENTAX (43_huffman.md R169). -/
def execHtLoadPentax (t : TableIx) (k : StreamIx) (s : State) : Host.Outcome State Fault Refusal :=
  finishPrimitive s (htLoadPentax t k s)

end Sys2Proof.Machine
end

