-- ==== Sys2Proof/Machine/Ljpeg.lean ====
section
/-! DEFINITION. The lossless-JPEG predictor command (spec 44_ljpeg.md). -/

namespace Sys2Proof.Machine

/-- The table slot of component i: in range and READY (44_ljpeg.md R190). -/
def ljTable (s : State) (i : Nat) : Eff TableIx :=
  match slotOf s.par.nt Config.nt (s.regs.ljTblOf i) with
  | some t => do
    let _ ← tchk s t
    return t
  | none => raiseError .state (comp := i) (val := s.regs.ljTblOf i)

/-- The table slots of n components from component i on, checked in order. -/
def ljTables (s : State) : Nat → Nat → Eff (List TableIx)
  | 0, _ => .ok []
  | n + 1, i => do
    let t ← ljTable s i
    let r ← ljTables s n (i + 1)
    return t :: r

/-- The sampling check of component i (44_ljpeg.md R190). -/
def ljSampling (s : State) (i : Nat) (_ : Unit) : Eff Unit :=
  require (decide (s.regs.ljHi i = 1 ∧ s.regs.ljVi i = 1)) ⟨.unsupported, 0, 0, i, s.regs.ljSamp.toNat⟩

/-- LJ_DECODE's checks before it reads a bit, in their order: the table slots of the components
(44_ljpeg.md R190). -/
def ljCheck (s : State) : Eff (List TableIx) := do
  let g := s.regs
  require (decide (1 ≤ g.ljN ∧ g.ljN ≤ 4)) ⟨.unsupported, 0, 0, 0, g.ljN⟩
  require (decide (g.ljPsv = 1)) ⟨.unsupported, 0, 0, 0, g.ljPsv⟩
  forUp (ljSampling s) g.ljN 0 ()
  let tabs ← ljTables s g.ljN 0
  imgChk s
  require (decide (g.ljTw ≠ 0 ∧ g.ljTh ≠ 0)) ⟨.corrupt, g.ljTh, g.ljTw, 0, 0⟩
  require (decide (g.ljTw ≤ g.ljFw * g.ljN ∧ g.ljTh ≤ g.ljFh)) ⟨.unsupported, g.ljTh, g.ljTw, 0, g.ljFw⟩
  require (decide (g.ljTx + g.ljTw ≤ g.imgW.toNat ∧ g.ljTy + g.ljTh ≤ g.imgH.toNat)) ⟨.corrupt, g.ljTy, g.ljTx, 0, 0⟩
  return tabs

/-- The decode loop's working values. -/
structure LjRun where
  pump : Pump
  out : OutMemory
  pred : List Sample
  seed : List Sample
  col : Nat
  deriving DecidableEq, Repr

/-- One difference of component i: the predictor accumulates mod 2^16, and the sample is stored inside the tile only
(44_ljpeg.md R190). -/
def ljStep (s : State) (p : PumpIx) (tabs : List TableIx) (r i : Nat) (x : LjRun) : Eff LjRun := do
  let (d, q) ← hdiff s (tabs.getD i 0) p x.pump
  let v := u16 ((x.pred.getD i 0).toNat + d)
  let out ←
    if x.col < s.regs.ljTw then
      writeOut s.par x.out (outIdx s.regs (s.regs.ljTy + r) (s.regs.ljTx + x.col)) v
    else .ok x.out
  return { x with pump := q, out := out, pred := x.pred.set i v, col := x.col + 1 }

/-- Block b of a row; the first block seeds the next row (44_ljpeg.md R190, R191). -/
def ljBlock (s : State) (p : PumpIx) (tabs : List TableIx) (r b : Nat) (x : LjRun) : Eff LjRun := do
  let y ← forUp (ljStep s p tabs r) s.regs.ljN 0 x
  return if b = 0 then { y with seed := y.pred } else y

/-- Row r: every block of the frame row is decoded (44_ljpeg.md R190, R193). -/
def ljRow (s : State) (p : PumpIx) (tabs : List TableIx) (r : Nat) (x : LjRun) : Eff LjRun := do
  let y ← forUp (ljBlock s p tabs r) s.regs.ljFw 0 { x with col := 0 }
  return { y with pred := y.seed }

/-- LJ_DECODE (44_ljpeg.md R190). -/
def ljDecode (p : PumpIx) (s : State) : Eff State := do
  let v ← pchk s p
  let tabs ← ljCheck s
  let x ← forUp (ljRow s p tabs) s.regs.ljTh 0 ⟨v, s.outMem, s.regs.ljPreds, s.regs.ljPreds, 0⟩
  return { s.setPump p x.pump with outMem := x.out }

/-- LJ_DECODE (44_ljpeg.md R190). -/
def execLjDecode (p : PumpIx) (s : State) : Host.Outcome State Fault Refusal := finishMacro s p (ljDecode p s)

end Sys2Proof.Machine
end

