-- ==== Sys2Proof/Machine/Pentax.lean ====
section
/-! DEFINITION. The Pentax predictor command (spec 45_pentax.md). -/

namespace Sys2Proof.Machine

/-- PX_DECODE's checks after PCHK and TCHK (45_pentax.md R200). -/
def pxCheck (s : State) : Eff Unit := do
  imgChk s
  let w := s.regs.imgW.toNat
  let h := s.regs.imgH.toNat
  require (decide (w % 2 = 0 ∧ w ≤ s.par.pxMaxW ∧ h ≤ s.par.pxMaxH)) ⟨.corrupt, h, w, 0, 0⟩

/-- PUT(r, c, v): every value is range-checked (45_pentax.md R200). -/
def pxPut (s : State) (m : OutMemory) (r c : Nat) (v : Int) : Eff OutMemory := do
  require (decide (0 ≤ v ∧ v ≤ 65535)) ⟨.corrupt, r, c, 0, v⟩
  writeOut s.par m (outIdx s.regs r c) (u16 v)

/-- The decode loop's working values: the vertical accumulators by row parity, and the two left predictors
(45_pentax.md R201). -/
structure PxRun where
  pump : Pump
  out : OutMemory
  up1 : List Int
  up2 : List Int
  left1 : Int
  left2 : Int
  deriving DecidableEq, Repr

/-- The pair of columns 2j + 2 and 2j + 3 of row r: both differences are decoded before either value is checked. -/
def pxPair (s : State) (t : TableIx) (p : PumpIx) (r j : Nat) (x : PxRun) : Eff PxRun := do
  let (d1, q1) ← hdiff s t p x.pump
  let (d2, q2) ← hdiff s t p q1
  let m1 ← pxPut s x.out r (2 * j + 2) (x.left1 + d1)
  let m2 ← pxPut s m1 r (2 * j + 3) (x.left2 + d2)
  return { x with pump := q2, out := m2, left1 := x.left1 + d1, left2 := x.left2 + d2 }

/-- Row r (45_pentax.md R200). -/
def pxRow (s : State) (t : TableIx) (p : PumpIx) (r : Nat) (x : PxRun) : Eff PxRun := do
  let (d1, q1) ← hdiff s t p x.pump
  let (d2, q2) ← hdiff s t p q1
  let a := x.up1.getD (r % 2) 0 + d1
  let b := x.up2.getD (r % 2) 0 + d2
  let m1 ← pxPut s x.out r 0 a
  let m2 ← pxPut s m1 r 1 b
  forUp (pxPair s t p r) (s.regs.imgW.toNat / 2 - 1) 0
    ⟨q2, m2, x.up1.set (r % 2) a, x.up2.set (r % 2) b, a, b⟩

/-- PX_DECODE (45_pentax.md R200). -/
def pxDecode (p : PumpIx) (t : TableIx) (s : State) : Eff State := do
  let v ← pchk s p
  let _ ← tchk s t
  pxCheck s
  let x ← forUp (pxRow s t p) s.regs.imgH.toNat 0 ⟨v, s.outMem, [0, 0], [0, 0], 0, 0⟩
  return { s.setPump p x.pump with outMem := x.out }

/-- PX_DECODE (45_pentax.md R200). -/
def execPxDecode (p : PumpIx) (t : TableIx) (s : State) : Host.Outcome State Fault Refusal :=
  finishMacro s p (pxDecode p t s)

end Sys2Proof.Machine
end

