-- ==== Sys2Proof/Machine/Samsung.lean ====
section
/-! DEFINITION. The Samsung V0 commands (spec 46_samsung.md). -/

namespace Sys2Proof.Machine

/-! ## Phase 1: stripes (46_samsung.md R210) -/

/-- The n row offsets at a window offset of the offset stream. -/
def stripeOffsets (s : State) (v : StreamSlot) (at_ : Nat) : Nat → Eff (List Nat)
  | 0 => .ok []
  | n + 1 => do
    let o ← windowValue s v at_ 4
    let r ← stripeOffsets s v (at_ + 4) n
    return o :: r

/-- The stripes of rows r, r+1, .. from their offsets and the sentinel; each next offset must be larger. -/
def stripesFrom (rawOff sentinel : Nat) : Nat → List Nat → Eff (List Stripe)
  | _, [] => .ok []
  | r, o :: os => do
    let next := os.headD sentinel
    require (decide (o < next)) ⟨.corrupt, r, 0, 0, next⟩
    let l ← stripesFrom rawOff sentinel (r + 1) os
    return ⟨BitVec.ofNat 32 (rawOff + o), BitVec.ofNat 32 (next - o)⟩ :: l

/-- SV0_STRIPES after it has cleared SV0.ready (46_samsung.md R210). The offsets' E_CORRUPT comes
after E_UNSUPPORTED and E_IO_BOUNDS, which the Errors line lists behind the code: the offsets are read only once the row
count and the table's length have passed (log 33: DEDUCED). -/
def sv0Stripes (a b : StreamIx) (s : State) : Eff State := do
  let offs ← schk s a
  let raw ← schk s b
  let h := s.regs.imgH.toNat
  require (decide (h ≠ 0)) ⟨.corrupt, h, 0, 0, 0⟩
  require (decide (h ≤ s.par.sv0MaxRows)) ⟨.unsupported, h, 0, 0, 0⟩
  require (decide (offs.pos.toNat + 4 * h ≤ offs.size.toNat))
    ⟨.ioBounds, offs.pos.toNat, (4 * h : Nat), a.val, offs.size.toNat⟩
  let os ← stripeOffsets s offs offs.pos.toNat h
  let l ← stripesFrom raw.off.toNat raw.size.toNat 0 os
  return { s.setPos a (offs.pos.toNat + 4 * h) with sv0 := ⟨true, l, []⟩ }

/-- SV0_STRIPES (46_samsung.md R210). -/
def execSv0Stripes (a b : StreamIx) (s : State) : Host.Outcome State Fault Refusal :=
  finishPrimitive s.clearReady (sv0Stripes a b s.clearReady)

/-! ## Phase 2: decode (46_samsung.md R211-R214) -/

/-- ROWDEC's working values: the pump, OUT and the four adapted lengths. -/
structure SvRun where
  pump : Pump
  out : OutMemory
  len : List Int
  deriving DecidableEq, Repr

/-- ADJ(p, b) (46_samsung.md R213). -/
def svAdjust (s : State) (p : PumpIx) (q : Pump) (b : Nat) : Eff (Int × Pump) :=
  if b = 0 then .ok (0, q)
  else do
    let (v, q') ← pget s p q b
    return (sext b v, q')

/-- The n 2-bit opcodes of a group, in order. -/
def svOps (s : State) (p : PumpIx) : Nat → Pump → Eff (List Nat × Pump)
  | 0, q => .ok ([], q)
  | n + 1, q => do
    let (o, q') ← pget s p q 2
    let (r, q'') ← svOps s p n q'
    return (o :: r, q'')

/-- The length an opcode gives: 3 reads 4 bits, 2 decrements, 1 increments, 0 keeps (46_samsung.md R212). -/
def svNewLength (s : State) (p : PumpIx) (q : Pump) (op : Nat) (old : Int) : Eff (Int × Pump) :=
  if op = 3 then do
    let (v, q') ← pget s p q 4
    return ((v : Int), q')
  else if op = 2 then return (old - 1, q)
  else if op = 1 then return (old + 1, q)
  else return (old, q)

/-- Opcode i adapts length i, which must stay within [0, 16] (46_samsung.md R212). -/
def svAdapt (s : State) (p : PumpIx) (r col : Nat) (ops : List Nat) (i : Nat) (x : SvRun) : Eff SvRun := do
  let (new, q) ← svNewLength s p x.pump (ops.getD i 0) (x.len.getD i 0)
  require (decide (0 ≤ new ∧ new ≤ 16)) ⟨.corrupt, r, col, i, new⟩
  return { x with pump := q, len := x.len.set i new }

/-- The length that serves column c of a group: c >> 3 for even c, 2 | (c >> 3) for odd c (46_samsung.md R212). -/
def svLength (x : SvRun) (c : Nat) : Nat := (x.len.getD (if c % 2 = 0 then c / 8 else 2 + c / 8) 0).toNat

/-- Column c of a group predicted from the row `up` rows above. -/
def svUpColumn (s : State) (p : PumpIx) (r col up c : Nat) (x : SvRun) : Eff SvRun := do
  let (a, q) ← svAdjust s p x.pump (svLength x c)
  let above ← readOut s.par x.out (outIdx s.regs (r - up) (col + c))
  let m ← writeOut s.par x.out (outIdx s.regs r (col + c)) (u16 (a + above.toNat))
  return { x with pump := q, out := m }

/-- Column c of a group predicted from the left value; past the width it is decoded and discarded. -/
def svLeftColumn (s : State) (p : PumpIx) (r col left c : Nat) (x : SvRun) : Eff SvRun := do
  let (a, q) ← svAdjust s p x.pump (svLength x c)
  let m ←
    if col + c < s.regs.imgW.toNat then writeOut s.par x.out (outIdx s.regs r (col + c)) (u16 (a + left))
    else .ok x.out
  return { x with pump := q, out := m }

/-- The left predictor of a half-group: 128 in the first group, else the sample `back` columns before the group. -/
def svLeft (s : State) (m : OutMemory) (r col back : Nat) : Eff Nat :=
  if col = 0 then .ok 128
  else do
    let v ← readOut s.par m (outIdx s.regs r (col - back))
    return v.toNat

/-- The samples of one group (46_samsung.md R212): the even columns before the odd ones. -/
def svSamples (s : State) (p : PumpIx) (r col dir : Nat) (x : SvRun) : Eff SvRun :=
  if dir = 1 then do
    require (decide (2 ≤ r)) ⟨.corrupt, r, col, 0, 1⟩
    require (decide (col + 16 < s.regs.imgW.toNat)) ⟨.corrupt, r, col, 0, 2⟩
    let y ← forUp (fun i z => svUpColumn s p r col 1 (2 * i) z) 8 0 x
    forUp (fun i z => svUpColumn s p r col 2 (2 * i + 1) z) 8 0 y
  else do
    let l ← svLeft s x.out r col 2
    let y ← forUp (fun i z => svLeftColumn s p r col l (2 * i) z) 8 0 x
    let l' ← svLeft s y.out r col 1
    forUp (fun i z => svLeftColumn s p r col l' (2 * i + 1) z) 8 0 y

/-- Group g of row r, its first column 16·g (46_samsung.md R212). -/
def svGroup (s : State) (p : PumpIx) (r g : Nat) (x : SvRun) : Eff SvRun := do
  let (dir, q) ← pget s p x.pump 1
  let (ops, q') ← svOps s p 4 q
  let y ← forUp (svAdapt s p r (16 * g) ops) 4 0 { x with pump := q' }
  svSamples s p r (16 * g) dir y

/-- The adapted lengths a row starts with (46_samsung.md R212). -/
def svInitialLengths (r : Nat) : List Int := if r < 2 then [7, 7, 7, 7] else [4, 4, 4, 4]

/-- The pump SV0_DECODE starts on a stripe (46_samsung.md R211). Bytes of the stripe that the host rewrote it reads as
any value (20_memory.md R77; log 27). -/
def stripePump (s : State) (mode : PumpMode) (x : Stripe) : Pump :=
  { freshPump mode x.off x.size with raced := s.sv0.raced }

/-- ROWDEC(p, r) on the row's own pump (46_samsung.md R211, R212). -/
def svRow (s : State) (p : PumpIx) (mode : PumpMode) (r : Nat) (x : Pump × OutMemory) : Eff (Pump × OutMemory) := do
  let st := s.sv0.stripes.getD r ⟨0, 0⟩
  let y ← forUp (svGroup s p r) ((s.regs.imgW.toNat + 15) / 16) 0
    ⟨stripePump s mode st, x.2, svInitialLengths r⟩
  return (y.pump, y.out)

/-- The swap of the samples at (2i, 2j + 1) and (2i + 1, 2j) (46_samsung.md R214). -/
def svSwap (s : State) (i j : Nat) (m : OutMemory) : Eff OutMemory := do
  let top ← readOut s.par m (outIdx s.regs (2 * i) (2 * j + 1))
  let bottom ← readOut s.par m (outIdx s.regs (2 * i + 1) (2 * j))
  let m' ← writeOut s.par m (outIdx s.regs (2 * i) (2 * j + 1)) bottom
  writeOut s.par m' (outIdx s.regs (2 * i + 1) (2 * j)) top

/-- FIXUP() (46_samsung.md R214): row pairs 2i < H - 1, column pairs 2j < W - 1. -/
def svFixup (s : State) (m : OutMemory) : Eff OutMemory :=
  forUp (fun i m' => forUp (svSwap s i) (s.regs.imgW.toNat / 2) 0 m') (s.regs.imgH.toNat / 2) 0 m

/-- SV0_DECODE (46_samsung.md R211). The checks stand in the order of its Errors line, as 92_eei_decisions.md D10 rules:
the E_STATE of a table for another height comes before IMGCHK, which the pseudocode has first (log 33: DEDUCED). -/
def sv0Decode (p : PumpIx) (mode : PumpMode) (s : State) : Eff State := do
  require s.sv0.ready ⟨.state, 0, 0, 0, 0⟩
  let h := s.regs.imgH.toNat
  require (decide (s.sv0.rows = h)) ⟨.state, s.sv0.rows, 0, 0, h⟩
  imgChk s
  let (q, m) ← forUp (svRow s p mode) h 0 (s.pumps[p], s.outMem)
  let m' ← svFixup s m
  return { s.setPump p q with outMem := m', sv0 := { s.sv0 with ready := false } }

/-- How SV0_DECODE ends: on an error SV0.ready is cleared too (40_control.md R103, 46_samsung.md R211). -/
def execSv0Decode (p : PumpIx) (mode : PumpMode) (s : State) : Host.Outcome State Fault Refusal :=
  finishMacro s.clearReady p (sv0Decode p mode s)

end Sys2Proof.Machine
end

