-- ==== Sys2Proof/Machine/Dispatch.lean ====
section
/-! DEFINITION. The meaning of every command: one arm per constructor of `Instr`, each one call of its rule's
definition (spec 40_control.md R101: the command's rule runs after the decode check). -/

namespace Sys2Proof.Machine

def exec (i : Instr) (s : State) : Host.Outcome State Fault Refusal :=
  match i with
  | .nop => Sys2Proof.Machine.execNop s
  | .bsInit k be => Sys2Proof.Machine.execBsInit k be s
  | .bsGetU8 k => Sys2Proof.Machine.execBsGetU8 k s
  | .bsGetU16 k => Sys2Proof.Machine.execBsGetU16 k s
  | .bsGetU32 k => Sys2Proof.Machine.execBsGetU32 k s
  | .bsGetI32 k => Sys2Proof.Machine.execBsGetI32 k s
  | .bsGetF32 k => Sys2Proof.Machine.execBsGetF32 k s
  | .bsPeekU8 k => Sys2Proof.Machine.execBsPeekU8 k s
  | .bsPeekU16 k => Sys2Proof.Machine.execBsPeekU16 k s
  | .bsPeekU32 k => Sys2Proof.Machine.execBsPeekU32 k s
  | .bsSkip k => Sys2Proof.Machine.execBsSkip k s
  | .bsGetStream src dst => Sys2Proof.Machine.execBsGetStream src dst s
  | .bsGetSubstream src dst => Sys2Proof.Machine.execBsGetSubstream src dst s
  | .bsHasPrefix k n => Sys2Proof.Machine.execBsHasPrefix k n s
  | .bsSkipPrefix k n => Sys2Proof.Machine.execBsSkipPrefix k n s
  | .bsRebase k => Sys2Proof.Machine.execBsRebase k s
  | .bsCheck k => Sys2Proof.Machine.execBsCheck k s
  | .bpInit p k mode => Sys2Proof.Machine.execBpInit p k mode s
  | .bpFill p => Sys2Proof.Machine.execBpFill p s
  | .bpGetBits p n => Sys2Proof.Machine.execBpGetBits p n s
  | .bpPeekBits p n => Sys2Proof.Machine.execBpPeekBits p n s
  | .bpSkipBits p n => Sys2Proof.Machine.execBpSkipBits p n s
  | .htReset t => Sys2Proof.Machine.execHtReset t s
  | .htSetCounts t => Sys2Proof.Machine.execHtSetCounts t s
  | .htSetValues t k n => Sys2Proof.Machine.execHtSetValues t k n s
  | .htSetup t dng16 => Sys2Proof.Machine.execHtSetup t dng16 s
  | .htDecodeSym t p => Sys2Proof.Machine.execHtDecodeSym t p s
  | .htDecodeDiff t p => Sys2Proof.Machine.execHtDecodeDiff t p s
  | .htLoadPentaxLegacy t => Sys2Proof.Machine.execHtLoadPentaxLegacy t s
  | .htLoadPentax t k => Sys2Proof.Machine.execHtLoadPentax t k s
  | .ljDecode p => Sys2Proof.Machine.execLjDecode p s
  | .pxDecode p t => Sys2Proof.Machine.execPxDecode p t s
  | .sv0Stripes offs raw => Sys2Proof.Machine.execSv0Stripes offs raw s
  | .sv0Decode p mode => Sys2Proof.Machine.execSv0Decode p mode s
  | .fjInit rb => Sys2Proof.Machine.execFjInit rb s
  | .fjGradReset => Sys2Proof.Machine.execFjGradReset s
  | .fjSampleEven p j => Sys2Proof.Machine.execFjSampleEven p j s
  | .fjSampleOdd p j => Sys2Proof.Machine.execFjSampleOdd p j s
  | .fjEndStrip => Sys2Proof.Machine.execFjEndStrip s
  | .fjStripWidth strip => Sys2Proof.Machine.execFjStripWidth strip s
  | .fjStripOffset strip => Sys2Proof.Machine.execFjStripOffset strip s

end Sys2Proof.Machine
end

