-- ==== Sys2Proof/Machine/Step.lean ====
section
/-! DEFINITION. One step of the machine: the next move of its schedule, the sequencer's when none is listed (spec
00_scope.md R16, 40_control.md R101, 70_reset_and_hazards.md R305). -/

namespace Sys2Proof.Machine

/-- The sequencer's step: the accepted command in full, the decode check first (40_control.md R101,
30_encoding.md R84). With no accepted command the block holds its state (60_exceptions.md R277). -/
def runCommand (s : State) : Host.Outcome State Fault Refusal :=
  if s.status.busy then
    match decodeIn s.par s.cmd with
    | .ok i => exec i s
    | .error _ => .next s.raiseIllegal
  else .next s

/-- One step. An accepted command is never left waiting for good: the sequencer moves when the schedule is empty
(weak fairness, 40_control.md R101; log 1). -/
def step (s : State) : Host.Outcome State Fault Refusal :=
  match s.events with
  | [] => runCommand s
  | .sequencer :: rest => runCommand { s with events := rest }
  | e :: rest => outsideMove { s with events := rest } e

/-- The state just after the host's CMD write of an instruction's word has been accepted (40_control.md R101), with
nothing else scheduled before the sequencer's turn: the block fetches no instructions, a command is the word in CMD
(10_state.md R20; log 2). -/
def State.withFetchWord (s : State) (nbits w : Nat) : State :=
  { s with
    cmd := commandWord nbits w
    status := { s.status with busy := true, done := false }
    events := [] }

end Sys2Proof.Machine
end

