-- ==== Sys2Proof/Safety.lean ====
section
/-! DEFINITION. What a safe state and a safe schedule are (spec 10_state.md R24, R32, R33, R36, R37, R39, R40, R42,
R43), and the notions the statements about runs of bits, differences and images use. Nothing here is part of the
machine. -/

namespace Sys2Proof.Machine

/-! ## Safe slots and contexts -/

/-- A stream slot's invariant (10_state.md R36). -/
def StreamSlot.legal (par : Params) (v : StreamSlot) : Bool :=
  !v.valid ||
    (decide (v.off.toNat + v.size.toNat ≤ par.inSize) && decide (v.pos.toNat ≤ v.size.toNat))

/-- The number of codes shorter than length l + 1. -/
def codesBelow (h : HuffTable) (l : Nat) : Nat := ((List.range l).map (fun i => h.countOf (i + 1))).sum

/-- The first code of length l + 1 by the lengths below it: each shorter code of length i + 1 takes 2^(l - i) of them
(43_huffman.md R164). -/
def firstCode (h : HuffTable) (l : Nat) : Nat :=
  ((List.range l).map (fun i => h.countOf (i + 1) * 2 ^ (l - i))).sum

/-- A table slot's invariant: its sizes (10_state.md R40), "sum of per-length counts equals the number of leaf values",
and once READY the canonical code (43_huffman.md R164). -/
def HuffTable.legal (h : HuffTable) : Bool :=
  decide (h.nvalues ≤ Config.htMaxValues) &&
  (decide (h.state = .empty) || decide (1 ≤ countSum h.count ∧ countSum h.count ≤ Config.htMaxValues)) &&
  (decide (h.state = .empty ∨ h.state = .counts) || decide (h.nvalues = countSum h.count)) &&
  (!decide (h.state = .ready) ||
    (List.range Config.htMaxLen).all (fun l =>
      decide (h.firstOf (l + 1) = firstCode h l ∧ h.indexOf (l + 1) = codesBelow h l ∧
        h.firstOf (l + 1) + h.countOf (l + 1) ≤ 2 ^ (l + 1))))

/-- A stripe is a non-empty window of IN (10_state.md R42, 46_samsung.md R210). -/
def Stripe.inside (par : Params) (x : Stripe) : Bool :=
  decide (1 ≤ x.size.toNat ∧ x.off.toNat + x.size.toNat ≤ par.inSize)

/-- The stripe table's invariant (10_state.md R42). -/
def Sv0.legal (par : Params) (v : Sv0) : Bool :=
  decide (v.rows ≤ par.sv0MaxRows) && v.stripes.all (Stripe.inside par)

/-- Every pair's v2 stays in 1..64 (47_fuji.md R235). -/
def GradArray.countsLegal (a : GradArray) : Bool :=
  a.toList.all (fun row => row.toList.all (fun g => decide (1 ≤ g.v2 ∧ g.v2 ≤ 64)))

/-- Whether a context holds the numbers FJ_INIT derives for a depth. -/
def Fuji.sameSetup (f g : Fuji) : Bool :=
  decide (f.rawBits = g.rawBits ∧ f.qp = g.qp ∧ f.totalValues = g.totalValues ∧ f.maxBits = g.maxBits ∧
    f.maxDiff = g.maxDiff ∧ f.minValue = g.minValue)

/-- FJ_INIT's context at depth 14 (47_fuji.md R230). -/
def fuji14 : Fuji := fujiContext 14 16383 16384 56 256

/-- FJ_INIT's context at depth 12 (47_fuji.md R230). -/
def fuji12 : Fuji := fujiContext 12 4095 4096 48 64

/-- The Fuji context's invariant (10_state.md R43, 47_fuji.md R230, R235). -/
def Fuji.legal (f : Fuji) : Bool :=
  !f.valid || ((f.sameSetup fuji14 || f.sameSetup fuji12) && f.ge.countsLegal && f.go.countsLegal)

/-- The reserved bits of LJ_CFG, LJ_TBL and FJ_GEOM1 read 0 (10_state.md R32, R33). -/
def HostRegs.reservedZero (g : HostRegs) : Bool :=
  decide (g.ljCfg &&& ~~~ljCfgMask = 0 ∧ g.ljTbl &&& ~~~ljTblMask = 0 ∧ g.fjGeom1 &&& ~~~fjGeom1Mask = 0)

/-- BUSY excludes DONE and ERR (40_control.md R101, R102). -/
def Status.legal (f : Status) : Bool := !(f.busy && (f.done || f.err))

/-- The invariant of the machine: every step keeps it, whatever the surroundings do. -/
structure State.Inv (s : State) : Prop where
  /-- The parameters are in their ranges. -/
  par : s.par.legal = true
  /-- STATUS. -/
  status : s.status.legal = true
  /-- ERR_CODE is 0 exactly while ERR = 0 (60_exceptions.md R260, R263, R266). -/
  errCode : s.status.err = false ↔ s.err.code = .none
  /-- Reserved register bits. -/
  regs : s.regs.reservedZero = true
  /-- Every valid stream lies in IN. -/
  streams : ∀ k : StreamIx, s.streams[k].legal s.par = true
  /-- Every pump is a legal slot. -/
  pumps : ∀ p : PumpIx, s.pumps[p].legal s.par = true
  /-- Every table is a legal slot. -/
  tables : ∀ t : TableIx, s.tables[t].legal = true
  /-- The stripe table. -/
  sv0 : s.sv0.legal s.par = true
  /-- The Fuji context. -/
  fuji : s.fuji.legal = true
  /-- IN is in canonical form. -/
  inMem : Memory.wf s.inMem = true
  /-- IN lists only bytes that exist. -/
  inSize : Memory.within s.par.inSize s.inMem = true
  /-- OUT is in canonical form. -/
  outMem : Memory.wf s.outMem = true
  /-- OUT lists only samples that exist. -/
  outSize : Memory.within s.par.outSize s.outMem = true
  /-- Samples written during a macro command exist. -/
  outRaced : ∀ i ∈ s.outRaced, i < s.par.outSize

/-- A move of the surroundings that stays inside the memories and the register space's access rule
(10_state.md R44, 20_memory.md R60, R61). -/
def Event.inside (par : Params) (e : Event) : Bool :=
  match e with
  | .sequencer => true
  | .regRead width offset => aligned width offset
  | .regWrite width offset _ => aligned width offset
  | .inRead a => decide (a < par.inSize)
  | .inWrite a _ => decide (a < par.inSize)
  | .outRead i => decide (i < par.outSize)
  | .outWrite i _ => decide (i < par.outSize)
  | .peerWrite i _ => decide (i < par.outSize)
  | .outByteRead a => decide (a / 2 < par.outSize)
  | .outByteWrite a _ => decide (a / 2 < par.outSize)
  | .resetInput => true

/-- A schedule that stays inside. -/
def State.scheduleInside (s : State) : Prop := ∀ e ∈ s.events, e.inside s.par = true

/-! ## How a command ends, as the statements say it -/

/-- A command ends in an error with these values in the error registers, an absent field 0 (60_exceptions.md R263), and
with CMDCNT and RES as before. -/
def Raises (i : Instr) (s : State) (code : ErrCode) (row col comp val : Int := 0) : Prop :=
  ∃ t : State, exec i s = .next t ∧ t.status = { s.status with busy := false, err := true } ∧
    t.err = ⟨code, s.cmd, u32 row, u32 col, u32 comp, u32 val⟩ ∧ t.cmdcnt = s.cmdcnt ∧ t.res = s.res

/-- A command ends in an error with these error registers. -/
def RaisesInfo (i : Instr) (s : State) (e : ErrInfo) : Prop :=
  Raises i s e.code (row := e.row) (col := e.col) (comp := e.comp) (val := e.val)

/-- The error codes each command can raise besides E_ILLEGAL (60_exceptions.md R262). -/
def allowedCodes (i : Instr) : List ErrCode :=
  match i with
  | .nop => []
  | .bsInit _ _ => [.ioBounds]
  | .bsGetU8 _ => [.state, .ioBounds]
  | .bsGetU16 _ => [.state, .ioBounds]
  | .bsGetU32 _ => [.state, .ioBounds]
  | .bsGetI32 _ => [.state, .ioBounds]
  | .bsGetF32 _ => [.state, .ioBounds]
  | .bsPeekU8 _ => [.state, .ioBounds]
  | .bsPeekU16 _ => [.state, .ioBounds]
  | .bsPeekU32 _ => [.state, .ioBounds]
  | .bsSkip _ => [.state, .ioBounds]
  | .bsGetStream _ _ => [.state, .ioBounds]
  | .bsGetSubstream _ _ => [.state, .ioBounds]
  | .bsHasPrefix _ _ => [.state]
  | .bsSkipPrefix _ _ => [.state]
  | .bsRebase _ => [.state, .ioBounds, .ioOverflow]
  | .bsCheck _ => [.state, .ioBounds, .ioOverflow]
  | .bpInit _ _ _ => [.state]
  | .bpFill _ => [.state]
  | .bpGetBits _ _ => [.state, .ioBounds]
  | .bpPeekBits _ _ => [.state]
  | .bpSkipBits _ _ => [.state, .ioBounds]
  | .htReset _ => []
  | .htSetCounts _ => [.state, .corrupt]
  | .htSetValues _ _ _ => [.state, .ioBounds, .corrupt]
  | .htSetup _ _ => [.state, .corrupt]
  | .htDecodeSym _ _ => [.state, .ioBounds, .corrupt]
  | .htDecodeDiff _ _ => [.state, .ioBounds, .corrupt]
  | .htLoadPentaxLegacy _ => []
  | .htLoadPentax _ _ => [.state, .ioBounds, .corrupt]
  | .ljDecode _ => [.state, .ioBounds, .corrupt, .unsupported]
  | .pxDecode _ _ => [.state, .ioBounds, .corrupt]
  | .sv0Stripes _ _ => [.state, .ioBounds, .corrupt, .unsupported]
  | .sv0Decode _ _ => [.state, .ioBounds, .corrupt]
  | .fjInit _ => [.corrupt]
  | .fjGradReset => [.state]
  | .fjSampleEven _ _ => [.state, .ioBounds, .corrupt]
  | .fjSampleOdd _ _ => [.state, .ioBounds, .corrupt]
  | .fjEndStrip => [.state, .corrupt]
  | .fjStripWidth _ => [.corrupt]
  | .fjStripOffset _ => [.corrupt]

/-! ## What each command may write -/

/-- The units of the opcode map (30_encoding.md R85). -/
inductive Family where
  | control
  | byteStream
  | bitPump
  | huffman
  | decoder
  | fuji
  deriving DecidableEq, Repr

/-- What a command may write besides the completion and the error state: the **Writes** line of its rule, with what a
failed command leaves (40_control.md R103). -/
structure Writes where
  family : Family
  streams : List StreamIx := []
  pumps : List PumpIx := []
  tables : List TableIx := []
  res : Bool := false
  sv0 : Bool := false
  fuji : Bool := false
  out : Bool := false

/-- The writes of each command. -/
def writesOf (i : Instr) : Writes :=
  match i with
  | .nop => { family := .control }
  | .bsInit k _ => { family := .byteStream, streams := [k] }
  | .bsGetU8 k => { family := .byteStream, streams := [k], res := true }
  | .bsGetU16 k => { family := .byteStream, streams := [k], res := true }
  | .bsGetU32 k => { family := .byteStream, streams := [k], res := true }
  | .bsGetI32 k => { family := .byteStream, streams := [k], res := true }
  | .bsGetF32 k => { family := .byteStream, streams := [k], res := true }
  | .bsPeekU8 _ => { family := .byteStream, res := true }
  | .bsPeekU16 _ => { family := .byteStream, res := true }
  | .bsPeekU32 _ => { family := .byteStream, res := true }
  | .bsSkip k => { family := .byteStream, streams := [k] }
  | .bsGetStream a b => { family := .byteStream, streams := [a, b] }
  | .bsGetSubstream _ b => { family := .byteStream, streams := [b] }
  | .bsHasPrefix _ _ => { family := .byteStream, res := true }
  | .bsSkipPrefix k _ => { family := .byteStream, streams := [k], res := true }
  | .bsRebase k => { family := .byteStream, streams := [k] }
  | .bsCheck _ => { family := .byteStream }
  | .bpInit p _ _ => { family := .bitPump, pumps := [p] }
  | .bpFill p => { family := .bitPump, pumps := [p] }
  | .bpGetBits p _ => { family := .bitPump, pumps := [p], res := true }
  | .bpPeekBits p _ => { family := .bitPump, pumps := [p], res := true }
  | .bpSkipBits p _ => { family := .bitPump, pumps := [p] }
  | .htReset t => { family := .huffman, tables := [t] }
  | .htSetCounts t => { family := .huffman, tables := [t] }
  | .htSetValues t k _ => { family := .huffman, tables := [t], streams := [k] }
  | .htSetup t _ => { family := .huffman, tables := [t] }
  | .htDecodeSym _ p => { family := .huffman, pumps := [p], res := true }
  | .htDecodeDiff _ p => { family := .huffman, pumps := [p], res := true }
  | .htLoadPentaxLegacy t => { family := .huffman, tables := [t] }
  | .htLoadPentax t k => { family := .huffman, tables := [t], streams := [k] }
  | .ljDecode p => { family := .decoder, pumps := [p], out := true }
  | .pxDecode p _ => { family := .decoder, pumps := [p], out := true }
  | .sv0Stripes a _ => { family := .decoder, streams := [a], sv0 := true }
  | .sv0Decode p _ => { family := .decoder, pumps := [p], sv0 := true, out := true }
  | .fjInit _ => { family := .fuji, fuji := true }
  | .fjGradReset => { family := .fuji, fuji := true }
  | .fjSampleEven p _ => { family := .fuji, pumps := [p], res := true, fuji := true }
  | .fjSampleOdd p _ => { family := .fuji, pumps := [p], res := true, fuji := true }
  | .fjEndStrip => { family := .fuji }
  | .fjStripWidth _ => { family := .fuji, res := true }
  | .fjStripOffset _ => { family := .fuji, res := true }

/-- An index of OUT outside the image region and outside what an outside agent wrote during the command: no command
touches it (20_memory.md R61, R78). -/
def outsideImage (s : State) (x : Nat) : Prop :=
  x ∉ s.outRaced ∧ ∀ r c, r < s.regs.imgH.toNat → c < s.regs.imgW.toNat → x ≠ outIdx s.regs r c

/-- Everything a command that may write `w` leaves as it was. -/
structure Unwritten (w : Writes) (s t : State) : Prop where
  streams : ∀ k : StreamIx, k ∉ w.streams → t.streams[k] = s.streams[k]
  pumps : ∀ p : PumpIx, p ∉ w.pumps → t.pumps[p] = s.pumps[p]
  tables : ∀ h : TableIx, h ∉ w.tables → t.tables[h] = s.tables[h]
  res : w.res = false → t.res = s.res
  sv0 : w.sv0 = false → t.sv0 = s.sv0
  fuji : w.fuji = false → t.fuji = s.fuji
  out : w.out = false →
    (∀ x, outSample t.outMem x = outSample s.outMem x) ∧ t.outRaced = s.outRaced ∧ t.unseen = s.unseen
  image : ∀ x, outsideImage s x → outSample t.outMem x = outSample s.outMem x
  input : ∀ a, Memory.get t.inMem a = Memory.get s.inMem a
  flags : t.status.cmdLost = s.status.cmdLost ∧ t.status.wrLost = s.status.wrLost
  special : t.irqEn = s.irqEn ∧ t.cmd = s.cmd ∧ t.regs = s.regs ∧ t.par = s.par

/-- The source stream a byte-stream command checks first (41_bytestream.md R110). -/
def sourceStream (i : Instr) : Option StreamIx :=
  match i with
  | .bsGetU8 k => some k
  | .bsGetU16 k => some k
  | .bsGetU32 k => some k
  | .bsGetI32 k => some k
  | .bsGetF32 k => some k
  | .bsPeekU8 k => some k
  | .bsPeekU16 k => some k
  | .bsPeekU32 k => some k
  | .bsSkip k => some k
  | .bsGetStream a _ => some a
  | .bsGetSubstream a _ => some a
  | .bsHasPrefix k _ => some k
  | .bsSkipPrefix k _ => some k
  | .bsRebase k => some k
  | .bsCheck k => some k
  | _ => none

/-- The number of bytes a typed read takes at the cursor, and whether it advances (41_bytestream.md R113-R120). -/
def typedRead (i : Instr) : Option (StreamIx × Nat × Bool) :=
  match i with
  | .bsGetU8 k => some (k, 1, true)
  | .bsGetU16 k => some (k, 2, true)
  | .bsGetU32 k => some (k, 4, true)
  | .bsGetI32 k => some (k, 4, true)
  | .bsGetF32 k => some (k, 4, true)
  | .bsPeekU8 k => some (k, 1, false)
  | .bsPeekU16 k => some (k, 2, false)
  | .bsPeekU32 k => some (k, 4, false)
  | _ => none

/-! ## Bytes of IN -/

/-- The byte of IN a command reads through a stream slot: any value where the host raced for it. -/
def inByte (s : State) (a : Nat) : Byte :=
  if s.inRaced.elem a then Config.racedByte s.draws a else (Memory.get s.inMem a).getD (Config.inInitial a)

/-- Σ b i · 256^i or Σ b i · 256^(n-1-i), for i < n, by the byte order (41_bytestream.md R111). -/
def assembled (be : Bool) (n : Nat) (b : Nat → Byte) : Nat :=
  ((List.range n).map (fun i => (b i).toNat * 256 ^ (if be then n - 1 - i else i))).sum

/-- The byte at the cursor plus i of a stream slot (41_bytestream.md R111). -/
def cursorByte (s : State) (v : StreamSlot) (i : Nat) : Byte := inByte s (v.off.toNat + v.pos.toNat + i)

/-! ## Runs of bits and differences -/

/-- n bits read one at a time, the first the most significant (43_huffman.md R165): their value and the pump after. -/
def readCode (s : State) (ix : PumpIx) : Nat → Pump → Eff (Nat × Pump)
  | 0, p => .ok (0, p)
  | n + 1, p => do
    let (c, q) ← readCode s ix n p
    let (b, q') ← pget s ix q 1
    return (2 * c + b, q')

/-- DATA_BITS of a pump (42_bitpump.md R146); a JPEG pump has no bound. -/
def Pump.dataBits (p : Pump) : Nat :=
  match p.mode with
  | .msb => 8 * p.size.toNat
  | .msb32 => 32 * ((p.size.toNat + 3) / 4)
  | .jpeg => 0

/-- Whether n bits may be delivered (42_bitpump.md R146). -/
def Pump.mayDeliver (par : Params) (p : Pump) (n : Nat) : Prop :=
  p.mode = .jpeg ∨ p.consumed.toNat + n ≤ p.dataBits + 8 * par.overreadSlack

/-- Whether a code of length l is one of a table's (43_huffman.md R164, R165). -/
def HuffTable.hasCode (h : HuffTable) (l c : Nat) : Prop := h.firstOf l ≤ c ∧ c < h.firstOf l + h.countOf l

/-- The bits from a pump on hold a code of length l: those bits are a code of the table and no fewer bits are. -/
def StartsWithCode (s : State) (ix : PumpIx) (p : Pump) (h : HuffTable) (l c : Nat) (q : Pump) : Prop :=
  1 ≤ l ∧ l ≤ 16 ∧ readCode s ix l p = .ok (c, q) ∧ h.hasCode l c ∧
    ∀ k c' q', 1 ≤ k → k < l → readCode s ix k p = .ok (c', q') → ¬ h.hasCode k c'

/-- None of the lengths 1..n reaches a code of the table. -/
def NoCodeWithin (s : State) (ix : PumpIx) (p : Pump) (h : HuffTable) (n : Nat) : Prop :=
  ∀ k c q, 1 ≤ k → k ≤ n → readCode s ix k p = .ok (c, q) → ¬ h.hasCode k c

/-- Differences decoded one after another, each with its own table (43_huffman.md R166). -/
def readDiffs (s : State) (ix : PumpIx) : List TableIx → Pump → Eff (List Int × Pump)
  | [], p => .ok ([], p)
  | t :: ts, p => do
    let (d, q) ← hdiff s t ix p
    let (ds, q') ← readDiffs s ix ts q
    return (d :: ds, q')

/-- Σ f i for i < n. -/
def sumTo (n : Nat) (f : Nat → Int) : Int := ((List.range n).map f).sum

/-- The byte of IN at place j of a pump's window. -/
def windowByte (s : State) (p : Pump) (j : Nat) : Byte :=
  (Memory.get s.inMem (p.off.toNat + j)).getD (Config.inInitial (p.off.toNat + j))

/-- A 0xFF at place j of a window that no 0x00 follows inside the window: a JPEG marker, or the window's last byte
(42_bitpump.md R141, R148). -/
def markerAt (s : State) (p : Pump) (j : Nat) : Bool :=
  decide (j < p.size.toNat ∧ windowByte s p j = 0xFF#8 ∧ ¬ (j + 1 < p.size.toNat ∧ windowByte s p (j + 1) = 0#8))

/-- Where a JPEG pump's data ends: at a marker, or at the physical end of the window (42_bitpump.md R141). -/
def jpegEnd (s : State) (p : Pump) (j : Nat) : Bool := decide (p.size.toNat ≤ j) || markerAt s p j

/-- The place of a JPEG pump's n-th data byte: a stuffed pair takes two places, and the place stays where the data ends
(42_bitpump.md R141). -/
def jpegPlace (s : State) (p : Pump) : Nat → Nat
  | 0 => 0
  | n + 1 =>
    let j := jpegPlace s p n
    if jpegEnd s p j then j else if windowByte s p j = 0xFF#8 then j + 2 else j + 1

/-- A JPEG pump's n-th data byte, 0 once the data has ended (42_bitpump.md R141, R147, R148). -/
def jpegByte (s : State) (p : Pump) (n : Nat) : Byte :=
  if jpegEnd s p (jpegPlace s p n) then 0#8 else windowByte s p (jpegPlace s p n)

/-- The bit a pump delivers at place i since BP_INIT, zero past its data (42_bitpump.md R147, 20_memory.md R66). -/
def windowBit (s : State) (p : Pump) (i : Nat) : Bool :=
  match p.mode with
  | .msb => if i / 8 < p.size.toNat then (windowByte s p (i / 8)).getLsbD (7 - i % 8) else false
  | .msb32 =>
    let j := 4 * (i / 32) + (3 - i % 32 / 8)
    if j < p.size.toNat then (windowByte s p j).getLsbD (7 - i % 8) else false
  | .jpeg => (jpegByte s p (i / 8)).getLsbD (7 - i % 8)

/-- How many bits a fetch adds (42_bitpump.md R141). -/
def fetchBits (m : PumpMode) : Nat :=
  match m with
  | .msb => 8
  | .msb32 => 32
  | .jpeg => 8

/-- The place in its window a pump has reached after n bytes of data (42_bitpump.md R141). -/
def placeAfter (s : State) (p : Pump) (n : Nat) : Nat :=
  match p.mode with
  | .msb => min p.size.toNat n
  | .msb32 => min p.size.toNat n
  | .jpeg => jpegPlace s p n

/-- Whether a pump's data ends at a place of its window (42_bitpump.md R141). -/
def dataEnd (s : State) (p : Pump) (j : Nat) : Bool :=
  match p.mode with
  | .msb => decide (p.size.toNat ≤ j)
  | .msb32 => decide (p.size.toNat ≤ j)
  | .jpeg => jpegEnd s p j

/-- A pump whose cache holds the window's bits from `consumed` on and whose cursor stands after the bytes fetched: how
every pump stands that BP_INIT started and whose window nobody rewrote. -/
def InStep (s : State) (p : Pump) : Prop :=
  let ahead := p.consumed.toNat + p.cache.length
  p.cache = (List.range p.cache.length).map (fun i => windowBit s p (p.consumed.toNat + i)) ∧
    p.cache.length ≤ 64 ∧ ahead % fetchBits p.mode = 0 ∧ p.inpos.toNat = placeAfter s p (ahead / 8) ∧
    (p.ended = true → dataEnd s p p.inpos.toNat = true)

/-- Whether fetch i of a pump's next fill finds the data ended, so that it pads (42_bitpump.md R141). -/
def fetchEnds (s : State) (p : Pump) (i : Nat) : Bool :=
  dataEnd s p (placeAfter s p ((p.consumed.toNat + p.cache.length) / 8 + i))

/-- No byte of a pump's window is raced for. -/
def quietWindow (s : State) (p : Pump) : Prop :=
  ∀ a, p.off.toNat ≤ a → a < p.off.toNat + p.size.toNat → a ∉ s.inRaced ∧ a ∉ p.raced

/-- BITDIFF(v1, v2) as its rule says it (47_fuji.md R235). -/
def IsBitDiff (v1 v2 d : Nat) : Prop :=
  (v1 ≤ v2 ∧ d = 0) ∨
    (v2 < v1 ∧ 1 ≤ d ∧ d ≤ 13 ∧ (d < 13 → v1 ≤ v2 * 2 ^ d) ∧ ∀ e, 1 ≤ e → e < d → v2 * 2 ^ e < v1)

/-- Numbers of the given bit counts read one after another. -/
def readNumbers (s : State) (ix : PumpIx) : List Nat → Pump → Eff (List Nat × Pump)
  | [], p => .ok ([], p)
  | n :: ns, p => do
    let (v, q) ← pget s ix p n
    let (r, q') ← readNumbers s ix ns q
    return (v :: r, q')

/-- Adjustments of the given lengths from the numbers read for them: none is read for length 0, which gives 0, and a
number of length b is b-bit two's complement (46_samsung.md R213). -/
def adjustments : List Nat → List Nat → List Int
  | [], _ => []
  | 0 :: bs, vs => 0 :: adjustments bs vs
  | (b + 1) :: bs, vs =>
    let v := vs.headD 0
    (if v < 2 ^ b then (v : Int) else (v : Int) - 2 ^ (b + 1)) :: adjustments bs vs.tail

/-- The lengths a group's opcodes give: 3 takes the next 4-bit number, 2 decrements, 1 increments, 0 keeps
(46_samsung.md R212). -/
def adaptedLengths : List Nat → List Int → List Nat → List Int
  | [], _, _ => []
  | op :: ops, ls, vs =>
    if op = 3 then (vs.headD 0 : Int) :: adaptedLengths ops ls.tail vs.tail
    else (ls.headD 0 + (if op = 1 then 1 else if op = 2 then -1 else 0)) :: adaptedLengths ops ls.tail vs

/-- The bit counts of the new lengths a group reads: four bits for each opcode 3 (46_samsung.md R212). -/
def newLengthBits (ops : List Nat) : List Nat := (ops.filter (fun op => decide (op = 3))).map (fun _ => 4)

/-! ## Images -/

/-- IMGCHK passes (10_state.md R31). -/
def imageOk (s : State) : Prop :=
  s.regs.imgW.toNat ≠ 0 ∧ s.regs.imgH.toNat ≠ 0 ∧ s.regs.imgW.toNat ≤ s.regs.imgPitch.toNat ∧
    s.regs.imgBase.toNat + (s.regs.imgH.toNat - 1) * s.regs.imgPitch.toNat + s.regs.imgW.toNat ≤ s.par.outSize

/-- IMGCHK raises this code with these fields, its checks in order (10_state.md R31). -/
def ImageFails (s : State) (code : ErrCode) (row col val : Nat) : Prop :=
  let w := s.regs.imgW.toNat
  let h := s.regs.imgH.toNat
  let p := s.regs.imgPitch.toNat
  let b := s.regs.imgBase.toNat
  ((w = 0 ∨ h = 0) ∧ code = .corrupt ∧ row = h ∧ col = w ∧ val = 0) ∨
    (w ≠ 0 ∧ h ≠ 0 ∧ p < w ∧ code = .corrupt ∧ row = 0 ∧ col = 0 ∧ val = p) ∨
    (w ≠ 0 ∧ h ≠ 0 ∧ w ≤ p ∧ s.par.outSize < b + (h - 1) * p + w ∧ code = .ioBounds ∧ row = 0 ∧ col = 0 ∧ val = b)

/-- A sample of an image region: `OUTIDX(r, c)` for an r and a c in range (20_memory.md R78). -/
def ImageRegion.Has (g : ImageRegion) (x : Nat) : Prop :=
  ∃ r c, r < g.height.toNat ∧ c < g.width.toNat ∧ x = g.base.toNat + r * g.pitch.toNat + c

/-- A sample the host may not see as written: in the region of the busy macro command (20_memory.md R78), or of an ended
one whose end no read of STATUS has shown (70_reset_and_hazards.md R298; log 30). -/
def HiddenSample (s : State) (x : Nat) : Prop :=
  (s.macroBusy = true ∧ s.regs.image.Has x) ∨ ∃ g ∈ s.unseen, g.Has x

/-- LJ_DECODE's scan parameters and table slots pass (44_ljpeg.md R190). -/
structure LjScanOk (s : State) : Prop where
  comps : 1 ≤ s.regs.ljN ∧ s.regs.ljN ≤ 4
  predictor : s.regs.ljPsv = 1
  sampling : ∀ i < s.regs.ljN, s.regs.ljHi i = 1 ∧ s.regs.ljVi i = 1

/-- LJ_TBL names a READY table for component i (44_ljpeg.md R190). -/
def ljSlotReady (s : State) (i : Nat) : Prop :=
  ∃ t : TableIx, t.val = s.regs.ljTblOf i ∧ s.tables[t].state = .ready

/-- LJ_DECODE's checks pass and `tabs` are its components' tables (44_ljpeg.md R190). -/
structure LjAccepts (s : State) (p : PumpIx) (tabs : List TableIx) : Prop extends LjScanOk s where
  pump : s.pumps[p].valid = true
  count : tabs.length = s.regs.ljN
  slots : ∀ i (h : i < tabs.length), (tabs[i]).val = s.regs.ljTblOf i ∧ s.tables[tabs[i]].state = .ready
  image : imageOk s
  tile : s.regs.ljTw ≠ 0 ∧ s.regs.ljTh ≠ 0
  frame : s.regs.ljTw ≤ s.regs.ljFw * s.regs.ljN ∧ s.regs.ljTh ≤ s.regs.ljFh
  place : s.regs.ljTx + s.regs.ljTw ≤ s.regs.imgW.toNat ∧ s.regs.ljTy + s.regs.ljTh ≤ s.regs.imgH.toNat

/-- The tables of the differences of LJ_DECODE, in stream order: every component of every block of every row. -/
def ljOrder (g : HostRegs) (tabs : List TableIx) : List TableIx := (List.replicate (g.ljTh * g.ljFw) tabs).flatten

/-- The sample at row r and column c of an LJ_DECODE tile by its differences in stream order: the initial predictor of
its component, the first difference of every earlier row, and this row's differences up to its block, mod 2^16
(44_ljpeg.md R190, R191). -/
def ljSample (g : HostRegs) (ds : List Int) (r c : Nat) : Sample :=
  let n := g.ljN
  let i := c % n
  let d := fun row b => ds.getD ((row * g.ljFw + b) * n + i) 0
  u16 ((g.ljPreds.getD i 0).toNat + sumTo r (fun row => d row 0) + sumTo (c / n + 1) (fun b => d r b))

/-- PX_DECODE's checks pass (45_pentax.md R200). -/
structure PxAccepts (s : State) (p : PumpIx) (t : TableIx) : Prop where
  pump : s.pumps[p].valid = true
  table : s.tables[t].state = .ready
  image : imageOk s
  size : s.regs.imgW.toNat % 2 = 0 ∧ s.regs.imgW.toNat ≤ s.par.pxMaxW ∧ s.regs.imgH.toNat ≤ s.par.pxMaxH

/-- The value at row r and column c of PX_DECODE by its differences in stream order: the column-parity's first
differences of the rows of r's parity up to r, then the row's own up to c (45_pentax.md R200, R201). -/
def pxValue (w : Nat) (ds : List Int) (r c : Nat) : Int :=
  sumTo (r / 2 + 1) (fun i => ds.getD ((2 * i + r % 2) * w + c % 2) 0) +
    sumTo (c / 2) (fun j => ds.getD (r * w + 2 * (j + 1) + c % 2) 0)

/-- The place of column c of a group among its adjustments: the even columns come first (46_samsung.md R212). -/
def groupPlace (c : Nat) : Nat := if c % 2 = 0 then c / 2 else 8 + c / 2

/-- The lengths of a group's adjustments in stream order: columns 0..6, 8..14, 1..7, 9..15 (46_samsung.md R212). -/
def groupLengths (len : List Int) : List Nat :=
  (List.range 4).flatMap (fun i => List.replicate 4 (len.getD i 0).toNat)

/-- The predictor of column c of a group: the sample above or two above, or the half-group's left value
(46_samsung.md R212). -/
def groupPredictor (g : HostRegs) (m : OutMemory) (dir r col c : Nat) : Nat :=
  if dir = 1 then (outSample m (outIdx g (r - (1 + c % 2)) (col + c))).toNat
  else if col = 0 then 128
  else (outSample m (outIdx g r (col - (2 - c % 2)))).toNat

/-- Where the sample at row r and column c stood before FIXUP (46_samsung.md R214). -/
def fixupSource (g : HostRegs) (r c : Nat) : Nat :=
  if r % 2 = 0 ∧ c % 2 = 1 ∧ r + 1 < g.imgH.toNat then outIdx g (r + 1) (c - 1)
  else if r % 2 = 1 ∧ c % 2 = 0 ∧ c + 1 < g.imgW.toNat then outIdx g (r - 1) (c + 1)
  else outIdx g r c

end Sys2Proof.Machine
end

