-- ==== Sys2Proof/Certificates/Slice0/Obligations.lean ====
section
/-! DEFINITION. The statements for the provers, from the numbered rules of spec/. -/

open Sys2Proof Sys2Proof.Machine

/-! ## Encoding (30_encoding.md) -/

/-- Decoding the word of a well-formed command gives the command back, for the opcode map and for a block with the
parameter values the spec takes (30_encoding.md R80, R82, R86, R87). -/
def Obligations.DecodeOfEncodeIsTheCommand : Prop :=
  ∀ i : Instr, i.wf = true →
    decode (encode i) = .ok i ∧ ∀ par : Params, par.decided = true → decodeIn par (encode i) = .ok i

/-- A word that decodes is the word of a well-formed command: no field is ignored and no two words mean one command
(30_encoding.md R83, R86). -/
def Obligations.DecodedWordIsTheWordOfItsCommand : Prop :=
  ∀ (w : Word) (i : Instr), decode w = .ok i → i.wf = true ∧ encode i = w

/-- Words written out from the rows of 30_encoding.md R86, and the two rows R87 gives as examples. -/
def Obligations.WordsWrittenOutDecode : Prop :=
  decode 0x00000000#32 = .ok .nop ∧
  decode 0x10300001#32 = .ok (.bsInit 3 true) ∧
  decode 0x11200000#32 = .ok (.bsGetU8 2) ∧
  decode 0x1A120000#32 = .ok (.bsGetStream 1 2) ∧
  decode 0x30130002#32 = .ok (.bpInit 1 3 .msb32) ∧
  decode 0x32100020#32 = .ok (.bpGetBits 1 32#6) ∧
  decode 0x42230100#32 = .ok (.htSetValues 2 3 256#9) ∧
  decode 0x51130000#32 = .ok (.pxDecode 1 3) ∧
  decode 0x6000000E#32 = .ok (.fjInit 14#5) ∧
  decode 0x63120000#32 = .ok (.fjSampleOdd 1 2) ∧
  decode 0x6500FFFF#32 = .ok (.fjStripWidth 0xFFFF#16) ∧
  decode 0x11400000#32 = .error .operandRange ∧
  decode 0x32000021#32 = .error .illegalImmediate ∧
  decode 0x11010000#32 = .error .nonzeroField ∧
  decode 0x20000000#32 = .error .reservedOpcode

/-! ## Launch, registers, reset (10_state.md, 40_control.md, 60_exceptions.md, 70_reset_and_hazards.md) -/

/-- A CMD write while BUSY = 0 and ERR = 0 is accepted, the sequencer's step then runs the command the word decodes to,
if the block has it (30_encoding.md R82), and nothing runs while BUSY = 0 (40_control.md R101, 60_exceptions.md R277; the
schedule is the model's, log 1). -/
def Obligations.StepRunsTheDecodedCommand : Prop :=
  ∀ (s : State) (i : Instr),
    (s.status.busy = true → decode s.cmd = .ok i → i.fits s.par = true →
      (s.events = [] → step s = exec i s) ∧
      ∀ rest, s.events = .sequencer :: rest → step s = exec i { s with events := rest }) ∧
    (s.status.busy = false →
      (s.events = [] → step s = .next s) ∧
      ∀ rest, s.events = .sequencer :: rest → step s = .next { s with events := rest }) ∧
    ∀ (w : Word) (rest : List Event), s.events = .regWrite .word 0x014#10 w :: rest →
      s.status.busy = false → s.status.err = false →
      step s = .next { s with
        events := rest
        cmd := w
        status := { s.status with busy := true, done := false } }

/-- A word that fails the decode check, in a scheduled turn of the sequencer or not, enters the error state and changes
nothing else, but that SV0.ready falls where the opcode is SV0_STRIPES' or SV0_DECODE's, whose rules clear it on every
error, E_ILLEGAL among them (30_encoding.md R84, 40_control.md R103, 46_samsung.md R210, R211, R215, 60_exceptions.md
R263; that R84 holds for OUT and the pumps and those rules for SV0.ready is log 28, DEDUCED). -/
def Obligations.IllegalWordEntersTheErrorState : Prop :=
  ∀ (s : State) (e : DecodeError), s.status.busy = true → decodeIn s.par s.cmd = .error e →
    let opc := s.cmd.extractLsb' 24 8
    let failed : State := { s with
      status := { s.status with busy := false, err := true }
      err := ⟨.illegal, s.cmd, 0, 0, 0, s.cmd⟩
      draws := s.draws + 1
      sv0 := { s.sv0 with ready := if opc = 0x52#8 ∨ opc = 0x53#8 then false else s.sv0.ready } }
    (s.events = [] → step s = .next failed) ∧
    ∀ rest, s.events = .sequencer :: rest → step s = .next { failed with events := rest }

/-- A CMD write while BUSY = 1 or ERR = 1 is dropped and flagged (40_control.md R102). -/
def Obligations.CommandWriteIsDroppedWhenBusyOrInError : Prop :=
  ∀ (s : State) (w : Word) (rest : List Event), s.events = .regWrite .word 0x014#10 w :: rest →
    (s.status.busy = true ∨ s.status.err = true) →
    step s = .next { s with events := rest, status := { s.status with cmdLost := true } }

/-- While BUSY = 0 the configuration registers take what the host writes and their reserved bits read 0; while BUSY = 1
such a write is dropped and sets WR_LOST; a write to a read-only register has no effect and flags nothing, busy or not
(10_state.md R25, R30-R33, R45, 40_control.md R104, 92_eei_decisions.md D51; that D51 and R45 prevail over R104's words
for read-only registers is log 12, and that R104 prevails over R108's for IRQ_EN is log 31). -/
def Obligations.RegisterWritesAreStoredOrDropped : Prop :=
  ∀ (s : State) (o : BitVec 10) (w : Word) (rest : List Event), s.events = .regWrite .word o w :: rest →
    o.toNat % 4 = 0 →
    (s.status.busy = false →
      (o.toNat = 0x010 →
        step s = .next { s with events := rest, irqEn := ⟨w.getLsbD 0, w.getLsbD 1⟩ }) ∧
      (0x040 ≤ o.toNat ∧ o.toNat ≤ 0x090 →
        ∃ g, step s = .next { s with events := rest, regs := g } ∧
          ∀ r, regAt s.par o.toNat = some r →
            readReg { s with regs := g } r =
              w &&& (if o.toNat = 0x060 then 0x00000077#32
                else if o.toNat = 0x074 ∨ o.toNat = 0x090 then 0x0000FFFF#32 else 0xFFFFFFFF#32) ∧
            ∀ r', r' ≠ r → readReg { s with regs := g } r' = readReg s r')) ∧
    (s.status.busy = true → o.toNat = 0x010 ∨ (0x040 ≤ o.toNat ∧ o.toNat ≤ 0x090) →
      step s = .next { s with events := rest, status := { s.status with wrLost := true } }) ∧
    (o.toNat ≤ 0x004 ∨ (0x018 ≤ o.toNat ∧ o.toNat ≤ 0x034) ∨ (0x094 ≤ o.toNat ∧ o.toNat ≤ 0x09C) ∨
        (0x100 ≤ o.toNat ∧ o.toNat ≤ 0x13C) ∨ (0x200 ≤ o.toNat ∧ o.toNat ≤ 0x23C) ∨
        (0x300 ≤ o.toNat ∧ o.toNat ≤ 0x30C) →
      step s = .next { s with events := rest })

/-- What a host read returns at the offset of each register of a block with the spec's parameter values, reserved bits 0,
and that it changes nothing of the block (10_state.md R21-R41, R45). `hostData` is the model's own (log 18), and so is
`unseen`, which a read of STATUS that shows a command's end empties (20_memory.md R72; log 30). -/
def Obligations.RegisterReadsShowTheState : Prop :=
  ∀ (s : State) (o : BitVec 10) (rest : List Event), s.par.decided = true → s.events = .regRead .word o :: rest →
    o.toNat % 4 = 0 →
    ∃ v : Word,
      step s = .next { s with
        events := rest
        hostData := v
        unseen :=
          if o = 0x00C#10 ∧ s.status.busy = false ∧ (s.status.done = true ∨ s.status.err = true) then []
          else s.unseen } ∧
      (o = 0x000#10 → v = 0x42530001#32) ∧
      (o = 0x004#10 → v = 0xFFFF0424#32) ∧
      (o = 0x008#10 → v = 0) ∧
      (o = 0x00C#10 →
        v.getLsbD 0 = s.status.busy ∧ v.getLsbD 1 = s.status.done ∧ v.getLsbD 2 = s.status.err ∧
          v.getLsbD 3 = s.status.cmdLost ∧ v.getLsbD 4 = s.status.wrLost ∧ v >>> 5 = 0) ∧
      (o = 0x010#10 → v.getLsbD 0 = s.irqEn.doneIe ∧ v.getLsbD 1 = s.irqEn.errIe ∧ v >>> 2 = 0) ∧
      (o = 0x014#10 → v = s.cmd) ∧ (o = 0x018#10 → v = s.res) ∧ (o = 0x01C#10 → v = s.cmdcnt) ∧
      (o = 0x020#10 →
        v =
          match s.err.code with
          | .none => 0#32
          | .illegal => 1#32
          | .state => 2#32
          | .ioBounds => 3#32
          | .ioOverflow => 4#32
          | .corrupt => 5#32
          | .unsupported => 6#32) ∧
      (o = 0x024#10 → v = s.err.cmd) ∧
      (o = 0x028#10 → v = s.err.row) ∧ (o = 0x02C#10 → v = s.err.col) ∧ (o = 0x030#10 → v = s.err.comp) ∧
      (o = 0x034#10 → v = s.err.val) ∧
      (o = 0x040#10 → v = s.regs.arg0) ∧ (o = 0x044#10 → v = s.regs.arg1) ∧ (o = 0x048#10 → v = s.regs.arg2) ∧
      (o = 0x04C#10 → v = s.regs.arg3) ∧ (o = 0x050#10 → v = s.regs.imgBase) ∧
      (o = 0x054#10 → v = s.regs.imgPitch) ∧ (o = 0x058#10 → v = s.regs.imgW) ∧ (o = 0x05C#10 → v = s.regs.imgH) ∧
      (o = 0x060#10 → v = s.regs.ljCfg) ∧ (o = 0x064#10 → v = s.regs.ljSamp) ∧ (o = 0x068#10 → v = s.regs.ljFrame) ∧
      (o = 0x06C#10 → v = s.regs.ljTileXy) ∧ (o = 0x070#10 → v = s.regs.ljTileWh) ∧
      (o = 0x074#10 → v = s.regs.ljTbl) ∧ (o = 0x078#10 → v = s.regs.ljPred01) ∧
      (o = 0x07C#10 → v = s.regs.ljPred23) ∧ (o = 0x080#10 → v = s.regs.fjNb0) ∧ (o = 0x084#10 → v = s.regs.fjNb1) ∧
      (o = 0x088#10 → v = s.regs.fjNb2) ∧ (o = 0x08C#10 → v = s.regs.fjGeom0) ∧ (o = 0x090#10 → v = s.regs.fjGeom1) ∧
      (o = 0x094#10 → v.getLsbD 0 = s.fuji.valid ∧ (v.extractLsb' 8 5).toNat = s.fuji.rawBits % 32 ∧
        (v.extractLsb' 16 8).toNat = s.fuji.maxBits % 256 ∧ v &&& 0xFF00E0FE#32 = 0) ∧
      (o = 0x098#10 → v = s.fuji.errcnt) ∧
      (o = 0x09C#10 → v.getLsbD 0 = s.sv0.ready ∧
        (v.extractLsb' 16 16).toNat = s.sv0.stripes.length % 65536 ∧ v &&& 0x0000FFFE#32 = 0) ∧
      (∀ k : StreamIx,
        (o.toNat = 0x100 + 0x10 * k.val → v = s.streams[k].off) ∧
        (o.toNat = 0x104 + 0x10 * k.val → v = s.streams[k].size) ∧
        (o.toNat = 0x108 + 0x10 * k.val → v = s.streams[k].pos) ∧
        (o.toNat = 0x10C + 0x10 * k.val →
          v.getLsbD 0 = s.streams[k].valid ∧ v.getLsbD 1 = s.streams[k].be ∧ v >>> 2 = 0)) ∧
      (∀ p : PumpIx,
        (o.toNat = 0x200 + 0x20 * p.val → v = s.pumps[p].off) ∧
        (o.toNat = 0x204 + 0x20 * p.val → v = s.pumps[p].size) ∧
        (o.toNat = 0x208 + 0x20 * p.val → v = s.pumps[p].inpos) ∧
        (o.toNat = 0x20C + 0x20 * p.val →
          v.getLsbD 0 = s.pumps[p].valid ∧
            (v.extractLsb' 1 2 =
              match s.pumps[p].mode with
              | .msb => 0#2
              | .jpeg => 1#2
              | .msb32 => 2#2) ∧
            v.getLsbD 3 = s.pumps[p].ended ∧ v.getLsbD 4 = s.pumps[p].marker ∧
            (v.extractLsb' 8 7).toNat = s.pumps[p].cache.length % 128 ∧
            (v.extractLsb' 16 7).toNat = s.pumps[p].pad % 128 ∧ v &&& 0xFF8080E0#32 = 0) ∧
        (o.toNat = 0x210 + 0x20 * p.val → v = s.pumps[p].endpos) ∧
        (o.toNat = 0x214 + 0x20 * p.val → v.toNat = s.pumps[p].consumed.toNat % 2 ^ 32) ∧
        (o.toNat = 0x218 + 0x20 * p.val → v.toNat = bitsVal ((s.pumps[p].cache ++ zeros 64).take 32)) ∧
        (o.toNat = 0x21C + 0x20 * p.val → v.toNat = bitsVal (((s.pumps[p].cache ++ zeros 64).drop 32).take 32))) ∧
      (∀ t : TableIx, o.toNat = 0x300 + 4 * t.val →
        (v.extractLsb' 0 2 =
          match s.tables[t].state with
          | .empty => 0#2
          | .counts => 1#2
          | .values => 2#2
          | .ready => 3#2) ∧
          v.getLsbD 2 = s.tables[t].dng16 ∧ (v.extractLsb' 16 9).toNat = s.tables[t].nvalues % 512 ∧
          v &&& 0xFE00FFF8#32 = 0)

/-- A narrow or misaligned access to the register space is refused, and an aligned offset that names no register reads
0 and ignores writes (10_state.md R44). That such a write flags nothing while BUSY = 1 either is the model's reading of
R44 against 40_control.md R104: log 12, DEDUCED, unsafe. -/
def Obligations.OtherRegisterAccessesAreRefusedOrIgnored : Prop :=
  ∀ (s : State) (a : AccessWidth) (o : BitVec 10) (w : Word) (rest : List Event),
    (a ≠ .word ∨ o.toNat % 4 ≠ 0 →
      (s.events = .regRead a o :: rest → step s = .refused (.hostAccessShape a o)) ∧
      (s.events = .regWrite a o w :: rest → step s = .refused (.hostAccessShape a o))) ∧
    (a = .word → o.toNat % 4 = 0 →
      (o.toNat = 0x038 ∨ o.toNat = 0x03C ∨ (0x0A0 ≤ o.toNat ∧ o.toNat ≤ 0x0FC) ∨
        (0x140 ≤ o.toNat ∧ o.toNat ≤ 0x1FC) ∨ (0x240 ≤ o.toNat ∧ o.toNat ≤ 0x2FC) ∨ 0x310 ≤ o.toNat) →
      (s.events = .regRead a o :: rest → step s = .next { s with events := rest, hostData := 0 }) ∧
      (s.events = .regWrite a o w :: rest → step s = .next { s with events := rest }))

/-- Writing 1 to DONE, CMD_LOST or WR_LOST clears that flag, busy or not; no other bit changes (10_state.md R24,
40_control.md R104). -/
def Obligations.StatusWriteAcknowledgesFlags : Prop :=
  ∀ (s : State) (w : Word) (rest : List Event), s.events = .regWrite .word 0x00C#10 w :: rest →
    step s = .next { s with
      events := rest
      status := { s.status with
        done := if w.getLsbD 1 then false else s.status.done
        cmdLost := if w.getLsbD 3 then false else s.status.cmdLost
        wrLost := if w.getLsbD 4 then false else s.status.wrLost } }

/-- CTRL.ERR_CLR clears ERR and ERR_CODE, keeps the other error registers, and has no effect with ERR = 0; a CTRL write
with bits 0 and 1 both 0 has none at all, whatever its other bits (10_state.md R23, 60_exceptions.md R266). -/
def Obligations.ErrorClearReturnsFromTheError : Prop :=
  ∀ (s : State) (w : Word) (rest : List Event), s.events = .regWrite .word 0x008#10 w :: rest →
    w.getLsbD 0 = false →
    (w.getLsbD 1 = true → s.status.err = true →
      step s = .next { s with
        events := rest
        status := { s.status with err := false }
        err := { s.err with code := .none } }) ∧
    (w.getLsbD 1 = true → s.status.err = false → step s = .next { s with events := rest }) ∧
    (w.getLsbD 1 = false → step s = .next { s with events := rest })

/-- The reset input and CTRL.SOFT_RESET give every register and slot its reset value and keep IN and OUT, but for the
image region of an abandoned decoding macro command (70_reset_and_hazards.md R290, R291, R293; that an abandoned
SV0_STRIPES, and a waiting word that fails the decode check, leave OUT alone is log 11, DEDUCED; the fields kept besides
the memories are the model's own, log 23). -/
def Obligations.ResetRestoresEveryRegister : Prop :=
  ∀ (s : State) (e : Event) (rest : List Event), s.events = e :: rest →
    (e = .resetInput ∨ ∃ w : Word, e = .regWrite .word 0x008#10 w ∧ w.getLsbD 0 = true) →
    ∃ m : OutMemory,
      step s = .next { State.reset with
        par := s.par, inMem := s.inMem, inRaced := s.inRaced, outMem := m, unseen := s.unseen, events := rest,
        hostData := s.hostData, draws := s.draws + 1 } ∧
      (s.macroBusy = false → m = s.outMem) ∧
      ∀ x, outsideImage s x → outSample m x = outSample s.outMem x

/-- The reset values of 70_reset_and_hazards.md R292. The memories are not reset (R293): that they list nothing after
State.reset is the model's choice of log 4, and so are the empty race marks of the pumps (log 8) and of the stripe table
(log 27). -/
def Obligations.ResetValues : Prop :=
  (∀ r : HostReg,
    readReg State.reset r =
      match r with
      | .id => 0x42530001#32
      | .param => 0xFFFF0424#32
      | _ => 0) ∧
  (∀ k : StreamIx, State.reset.streams[k] = ⟨false, 0, 0, 0, false⟩) ∧
  (∀ p : PumpIx, State.reset.pumps[p] = ⟨false, .msb, 0, 0, 0, [], 0, false, false, 0, 0, []⟩) ∧
  (∀ t : TableIx, State.reset.tables[t].state = .empty ∧ State.reset.tables[t].nvalues = 0 ∧
    State.reset.tables[t].dng16 = false ∧
    (∀ l, 1 ≤ l → l ≤ 16 → State.reset.tables[t].countOf l = 0 ∧ State.reset.tables[t].firstOf l = 0 ∧
      State.reset.tables[t].indexOf l = 0) ∧
    ∀ i, State.reset.tables[t].valueAt i = 0) ∧
  State.reset.sv0 = ⟨false, [], []⟩ ∧
  (State.reset.fuji.valid = false ∧ State.reset.fuji.rawBits = 0 ∧ (∀ i : Fin 5, State.reset.fuji.qp[i] = 0) ∧
    State.reset.fuji.totalValues = 0 ∧ State.reset.fuji.maxBits = 0 ∧ State.reset.fuji.maxDiff = 0 ∧
    State.reset.fuji.minValue = 0 ∧ State.reset.fuji.errcnt = 0 ∧
    ∀ (j : GradSet) (g : Fin 41), State.reset.fuji.ge.pair j g = ⟨0, 0⟩ ∧ State.reset.fuji.go.pair j g = ⟨0, 0⟩) ∧
  State.reset.inMem = [] ∧ State.reset.outMem = []

/-- The interrupt output is DONE through its enable or ERR through its, in every state, and NOP changes only the
completion state, so that the output then shows DONE (40_control.md R100, R101, 60_exceptions.md R270). -/
def Obligations.NopOnlyCompletes : Prop :=
  (∀ s : State, s.irq = true ↔
    (s.status.done = true ∧ s.irqEn.doneIe = true) ∨ (s.status.err = true ∧ s.irqEn.errIe = true)) ∧
  ∀ s : State, ∃ t : State, exec .nop s = .next t ∧
    t = { s with
      status := { s.status with busy := false, done := true }
      cmdcnt := s.cmdcnt + 1
      draws := s.draws + 1 } ∧
    (t.irq = true ↔ s.irqEn.doneIe = true ∨ (s.status.err = true ∧ s.irqEn.errIe = true))

/-! ## Whole-machine rules -/

/-- Every command ends done or in error: BUSY 0 and DONE 1 with CMDCNT + 1, or ERR 1 with CMDCNT and RES unchanged and
the command word in ERR_CMD (40_control.md R101, 10_state.md R27, R28, 60_exceptions.md R263). -/
def Obligations.CommandEndsDoneOrInError : Prop :=
  ∀ (i : Instr) (s t : State), exec i s = .next t →
    t.status.busy = false ∧
    ((t.status.done = true ∧ t.status.err = s.status.err ∧ t.err = s.err ∧ t.cmdcnt = s.cmdcnt + 1) ∨
      (t.status.err = true ∧ t.status.done = s.status.done ∧ t.cmdcnt = s.cmdcnt ∧ t.res = s.res ∧
        t.err.cmd = s.cmd ∧ t.err.code ≠ .none))

/-- A primitive command that raises an error changes nothing but the error state, and SV0_STRIPES also clears SV0.ready;
a decoding macro command that raises one leaves everything but its image region, its pump and the error state, and
SV0_DECODE also clears SV0.ready (40_control.md R103, 60_exceptions.md R264). -/
def Obligations.FailedCommandsLeaveTheRest : Prop :=
  ∀ (i : Instr) (s t : State), s.status.err = false → exec i s = .next t → t.status.err = true →
    (isDecodingMacro i = false →
      t = { s with
        status := { s.status with busy := false, err := true }
        err := t.err
        draws := s.draws + 1
        sv0 :=
          match i with
          | .sv0Stripes _ _ => { s.sv0 with ready := false }
          | _ => s.sv0 }) ∧
    ∀ p : PumpIx, (i = .ljDecode p ∨ (∃ h, i = .pxDecode p h) ∨ ∃ m, i = .sv0Decode p m) →
      t.streams = s.streams ∧ t.tables = s.tables ∧ t.fuji = s.fuji ∧ t.regs = s.regs ∧ t.res = s.res ∧
      t.cmdcnt = s.cmdcnt ∧ t.irqEn = s.irqEn ∧ t.cmd = s.cmd ∧ t.inMem = s.inMem ∧
      t.status = { s.status with busy := false, err := true } ∧
      (∀ p' : PumpIx, p' ≠ p → t.pumps[p'] = s.pumps[p']) ∧
      (∀ x, outsideImage s x → outSample t.outMem x = outSample s.outMem x) ∧
      t.sv0 =
        match i with
        | .sv0Decode _ _ => { s.sv0 with ready := false }
        | _ => s.sv0

/-- A well-formed command raises only the codes its row of 60_exceptions.md R262 lists. -/
def Obligations.OnlyTheListedCodesAreRaised : Prop :=
  ∀ (i : Instr) (s t : State), i.wf = true → s.status.err = false → exec i s = .next t → t.status.err = true →
    t.err.code ∈ allowedCodes i

/-- A READY table changes only by HT_RESET or a load (10_state.md R40, 70_reset_and_hazards.md R302). -/
def Obligations.ReadyTablesChangeOnlyByResetOrLoad : Prop :=
  ∀ (i : Instr) (h : TableIx) (s t : State),
    i ≠ .htReset h → i ≠ .htLoadPentaxLegacy h → (∀ k, i ≠ .htLoadPentax h k) →
    s.tables[h].state = .ready → exec i s = .next t → t.tables[h] = s.tables[h]

/-! ## Frames: what each command leaves unchanged -/

/-- NOP and the BS_* and BP_* commands write only their own stream slots or pump, and RES (the Writes lines of
40_control.md R100, 41_bytestream.md R112-R127, 42_bitpump.md R140-R145). -/
def Obligations.StreamAndPumpCommandsLeaveTheRest : Prop :=
  ∀ (i : Instr) (s t : State),
    (writesOf i).family = .control ∨ (writesOf i).family = .byteStream ∨ (writesOf i).family = .bitPump →
    exec i s = .next t → Unwritten (writesOf i) s t

/-- The HT_* and FJ_* commands write only their table, stream or pump, the Fuji context, and RES (the Writes lines of
43_huffman.md R160-R169, 47_fuji.md R230-R238). -/
def Obligations.TableAndFujiCommandsLeaveTheRest : Prop :=
  ∀ (i : Instr) (s t : State), (writesOf i).family = .huffman ∨ (writesOf i).family = .fuji →
    exec i s = .next t → Unwritten (writesOf i) s t

/-- LJ_DECODE, PX_DECODE, SV0_STRIPES and SV0_DECODE write only their pump, the stripe table, a stream cursor, and OUT
inside the image region (the Writes lines of 44_ljpeg.md R190, 45_pentax.md R200, 46_samsung.md R210, R211). -/
def Obligations.DecoderCommandsLeaveTheRest : Prop :=
  ∀ (i : Instr) (s t : State), (writesOf i).family = .decoder → exec i s = .next t → Unwritten (writesOf i) s t

/-! ## Byte streams (41_bytestream.md) -/

/-- BS_INIT binds a window that fits in IN and raises E_IO_BOUNDS for one that does not (41_bytestream.md R112). -/
def Obligations.BsInitBindsAWindow : Prop :=
  ∀ (s : State) (k : StreamIx) (be : Bool),
    (s.regs.arg0.toNat + s.regs.arg1.toNat ≤ s.par.inSize →
      exec (.bsInit k be) s = .next (s.setStream k ⟨true, s.regs.arg0, s.regs.arg1, 0, be⟩).complete) ∧
    (s.par.inSize < s.regs.arg0.toNat + s.regs.arg1.toNat →
      exec (.bsInit k be) s = .next (s.enterError
        ⟨.ioBounds, s.regs.arg0.toNat, s.regs.arg1.toNat, k.val, (s.par.inSize % 2 ^ 32 : Nat)⟩))

/-- BS_GET_* and BS_PEEK_* put the value at the cursor, in the slot's byte order, into RES; a get advances the cursor, a
peek does not; a read past the window raises E_IO_BOUNDS (41_bytestream.md R111, R113-R120). -/
def Obligations.TypedReadsGiveTheValueAtTheCursor : Prop :=
  ∀ (s : State) (i : Instr) (k : StreamIx) (n : Nat) (advance : Bool), typedRead i = some (k, n, advance) →
    s.streams[k].valid = true → s.streams[k].legal s.par = true →
    (s.streams[k].pos.toNat + n ≤ s.streams[k].size.toNat →
      exec i s = .next (({ s with
          res := BitVec.ofNat 32 (assembled s.streams[k].be n (cursorByte s s.streams[k])) }).setStream k
        { s.streams[k] with
          pos := if advance then s.streams[k].pos + BitVec.ofNat 32 n else s.streams[k].pos }).complete) ∧
    (s.streams[k].size.toNat < s.streams[k].pos.toNat + n →
      exec i s = .next (s.enterError
        ⟨.ioBounds, s.streams[k].pos.toNat, n, k.val, s.streams[k].size.toNat⟩))

/-- BS_SKIP advances by ARG0 within the window and raises E_IO_BOUNDS past it; BS_CHECK passes exactly when ARG0 · ARG1
fits 32 bits and that many bytes remain (41_bytestream.md R121, R127). -/
def Obligations.SkipAndCheckTestTheWindow : Prop :=
  ∀ (s : State) (k : StreamIx), s.streams[k].valid = true →
    let v := s.streams[k]
    let m := s.regs.arg0.toNat
    let e := s.regs.arg1.toNat
    (v.pos.toNat + m ≤ v.size.toNat →
      exec (.bsSkip k) s = .next (s.setStream k { v with pos := v.pos + s.regs.arg0 }).complete) ∧
    (v.size.toNat < v.pos.toNat + m →
      exec (.bsSkip k) s = .next (s.enterError ⟨.ioBounds, v.pos.toNat, m, k.val, v.size.toNat⟩)) ∧
    (m * e ≤ 2 ^ 32 - 1 → v.pos.toNat + m * e ≤ v.size.toNat → exec (.bsCheck k) s = .next s.complete) ∧
    (m * e ≤ 2 ^ 32 - 1 → v.size.toNat < v.pos.toNat + m * e →
      exec (.bsCheck k) s = .next (s.enterError ⟨.ioBounds, v.pos.toNat, (m * e : Nat), k.val, v.size.toNat⟩)) ∧
    (2 ^ 32 - 1 < m * e →
      exec (.bsCheck k) s = .next (s.enterError ⟨.ioOverflow, v.pos.toNat, e, k.val, m⟩))

/-- BS_GET_STREAM takes the next ARG0 bytes and advances the source; BS_GET_SUBSTREAM takes a window at ARG0 from the
source's start; with source = destination the new stream stands (41_bytestream.md R122, R123). An empty window at the
end of an IN of 2^32 bytes keeps its offset mod 2^32 (log 15, DEDUCED). -/
def Obligations.SubStreamsShareTheWindow : Prop :=
  ∀ (s : State) (a b : StreamIx), s.streams[a].valid = true →
    (s.streams[a].pos.toNat + s.regs.arg0.toNat ≤ s.streams[a].size.toNat →
      exec (.bsGetStream a b) s = .next
        ((s.setStream a { s.streams[a] with pos := s.streams[a].pos + s.regs.arg0 }).setStream b
          ⟨true, s.streams[a].off + s.streams[a].pos, s.regs.arg0, 0, s.streams[a].be⟩).complete) ∧
    (s.streams[a].size.toNat < s.streams[a].pos.toNat + s.regs.arg0.toNat →
      exec (.bsGetStream a b) s = .next (s.enterError
        ⟨.ioBounds, s.streams[a].pos.toNat, s.regs.arg0.toNat, a.val, s.streams[a].size.toNat⟩)) ∧
    (s.regs.arg0.toNat + s.regs.arg1.toNat ≤ s.streams[a].size.toNat →
      exec (.bsGetSubstream a b) s = .next
        (s.setStream b ⟨true, s.streams[a].off + s.regs.arg0, s.regs.arg1, 0, s.streams[a].be⟩).complete) ∧
    (s.streams[a].size.toNat < s.regs.arg0.toNat + s.regs.arg1.toNat →
      exec (.bsGetSubstream a b) s = .next (s.enterError
        ⟨.ioBounds, s.regs.arg0.toNat, s.regs.arg1.toNat, a.val, s.streams[a].size.toNat⟩))

/-- BS_HAS_PREFIX gives 1 exactly when the next n bytes are the prefix bytes of ARG0 and ARG1; BS_SKIP_PREFIX also
advances on a match; too few bytes is a mismatch (41_bytestream.md R124, R125). -/
def Obligations.PrefixCommandsCompareBytes : Prop :=
  ∀ (s : State) (k : StreamIx) (n : BitVec 4), 1 ≤ n.toNat → n.toNat ≤ 8 → s.streams[k].valid = true →
    s.streams[k].legal s.par = true →
    let hit : Prop := s.streams[k].pos.toNat + n.toNat ≤ s.streams[k].size.toNat ∧
      ∀ i < n.toNat, cursorByte s s.streams[k] i =
        if i < 4 then s.regs.arg0.extractLsb' (8 * i) 8 else s.regs.arg1.extractLsb' (8 * (i - 4)) 8
    (hit →
      exec (.bsHasPrefix k n) s = .next { s with res := 1 }.complete ∧
      exec (.bsSkipPrefix k n) s = .next (({ s with res := 1 }).setStream k
        { s.streams[k] with pos := s.streams[k].pos + n.setWidth 32 }).complete) ∧
    (¬ hit →
      exec (.bsHasPrefix k n) s = .next { s with res := 0 }.complete ∧
      exec (.bsSkipPrefix k n) s = .next { s with res := 0 }.complete)

/-- BS_REBASE reports the current byte at position ARG0 of a window of ARG0 + ARG1 bytes, and every stream position
from there on names the byte it named before (41_bytestream.md R126). Where off + pos is 2^32, an empty window, the base
is kept mod 2^32 (log 15, DEDUCED). -/
def Obligations.RebaseKeepsTheContent : Prop :=
  ∀ (s : State) (k : StreamIx), s.par.legal = true → s.streams[k].valid = true → s.streams[k].legal s.par = true →
    let v := s.streams[k]
    let np := s.regs.arg0.toNat
    let ns := s.regs.arg1.toNat
    (v.size.toNat < v.pos.toNat + ns →
      exec (.bsRebase k) s = .next (s.enterError ⟨.ioBounds, v.pos.toNat, ns, k.val, v.size.toNat⟩)) ∧
    (v.pos.toNat + ns ≤ v.size.toNat → v.off.toNat + v.pos.toNat < np →
      exec (.bsRebase k) s = .next (s.enterError ⟨.ioBounds, v.pos.toNat, ns, k.val, np⟩)) ∧
    (v.pos.toNat + ns ≤ v.size.toNat → np ≤ v.off.toNat + v.pos.toNat → 2 ^ 32 - 1 < np + ns →
      exec (.bsRebase k) s = .next (s.enterError ⟨.ioOverflow, np, ns, k.val, 0⟩)) ∧
    (v.pos.toNat + ns ≤ v.size.toNat → np ≤ v.off.toNat + v.pos.toNat → np + ns ≤ 2 ^ 32 - 1 →
      ∃ w : StreamSlot, exec (.bsRebase k) s = .next (s.setStream k w).complete ∧
        w = ⟨true, v.off + v.pos - s.regs.arg0, s.regs.arg0 + s.regs.arg1, s.regs.arg0, v.be⟩ ∧
        ∀ i, np ≤ i → i < np + ns → w.off.toNat + i = v.off.toNat + v.pos.toNat + (i - np))

/-- A byte-stream command on an invalid source slot raises E_STATE with the slot number (41_bytestream.md R110). -/
def Obligations.InvalidStreamRaisesState : Prop :=
  ∀ (s : State) (i : Instr) (k : StreamIx), i.wf = true → sourceStream i = some k → s.streams[k].valid = false →
    exec i s = .next (s.enterError ⟨.state, 0, 0, k.val, 0⟩)

/-! ## Memories and the outside (20_memory.md) -/

/-- A host write of a byte of IN changes that byte alone; bits already in a pump's cache keep their values. Afterwards the
block reads the new byte, but whatever reads it reads the free value where the write was a race: a byte in the window of
a valid stream or pump while the block is busy, and, busy or idle, one a valid pump has fetched and not consumed, one that
a valid pump whose data has not ended (42_bitpump.md R141) has not fetched yet, and one of a ready stripe (20_memory.md
R60, R75, R77). The fields that record the races, that a later write with no race ends one, and how a cached byte is
counted in MSB32 and JPEG mode, are the model's (log 8); that an idle write into a stream's window is no race is log 9, and that a stripe of a ready table is
a window a pump will fill from is log 27, all DEDUCED. -/
def Obligations.HostWriteOfInChangesOneByte : Prop :=
  ∀ (s : State) (a : Nat) (v : Byte) (rest : List Event), s.events = .inWrite a v :: rest → a < s.par.inSize →
    let inStream := ∃ k : StreamIx, s.streams[k].valid = true ∧ s.streams[k].off.toNat ≤ a ∧
      a < s.streams[k].off.toNat + s.streams[k].size.toNat
    let inPump := ∃ p : PumpIx, s.pumps[p].valid = true ∧ s.pumps[p].off.toNat ≤ a ∧
      a < s.pumps[p].off.toNat + s.pumps[p].size.toNat
    let cached := fun v : Pump =>
      let bits := v.cache.length - v.pad
      match v.mode with
      | .msb => v.inpos.toNat - (bits + 7) / 8
      | .msb32 => min v.inpos.toNat (4 * ((v.inpos.toNat + 3) / 4) - 4 * ((bits + 31) / 32))
      | .jpeg => v.inpos.toNat - 2 * ((bits + 7) / 8)
    let unconsumed := ∃ p : PumpIx, s.pumps[p].valid = true ∧ s.pumps[p].off.toNat + cached s.pumps[p] ≤ a ∧
      a < s.pumps[p].off.toNat + (if s.pumps[p].ended then s.pumps[p].inpos else s.pumps[p].size).toNat
    let inStripe := s.sv0.ready = true ∧ ∃ x ∈ s.sv0.stripes, x.off.toNat ≤ a ∧ a < x.off.toNat + x.size.toNat
    let race := (s.status.busy = true ∧ (inStream ∨ inPump)) ∨ unconsumed ∨ inStripe
    ∃ t : State, step s = .next t ∧
      t = { s with
        events := rest, inMem := t.inMem, inRaced := t.inRaced, pumps := t.pumps
        sv0 := { s.sv0 with raced := t.sv0.raced } } ∧
      Memory.get t.inMem a = some v ∧ (∀ b, b ≠ a → Memory.get t.inMem b = Memory.get s.inMem b) ∧
      (∀ b, b ≠ a → (b ∈ t.inRaced ↔ b ∈ s.inRaced) ∧ (b ∈ t.sv0.raced ↔ b ∈ s.sv0.raced) ∧
        ∀ p : PumpIx, b ∈ t.pumps[p].raced ↔ b ∈ s.pumps[p].raced) ∧
      (∀ p : PumpIx, t.pumps[p] = { s.pumps[p] with raced := t.pumps[p].raced }) ∧
      (¬ race → readIn t [] a = .ok v) ∧
      (race → ∀ l, readIn t l a = .ok (Config.racedByte t.draws a)) ∧
      (∀ p : PumpIx, s.pumps[p].valid = true → s.pumps[p].ended = false →
        s.pumps[p].off.toNat + s.pumps[p].inpos.toNat ≤ a →
        a < s.pumps[p].off.toNat + s.pumps[p].size.toNat →
        t.pumps[p].byteAt t (a - s.pumps[p].off.toNat) = .ok (Config.racedByte t.draws a)) ∧
      ∀ (x : Stripe) (mode : PumpMode), s.sv0.ready = true → x ∈ s.sv0.stripes → x.off.toNat ≤ a →
        a < x.off.toNat + x.size.toNat →
        (stripePump t mode x).byteAt t (a - x.off.toNat) = .ok (Config.racedByte t.draws a)

/-- Outside accesses to a sample of OUT. A read gives the sample and a write changes it alone, through the byte view in
the order the platform's parameter says; in the region of the busy decoding macro command a read gives a free value and
a written sample is one once the command has ended (20_memory.md R61, R67, R78; the marks are the model's, log 10).
That a waiting word which fails the decode check is no macro command is log 10, DEDUCED.
The byte addresses 2x and 2x + 1 are the model's choice (log 29), and that the region of an ended command stays free
until a read of STATUS shows the end is log 30, DEDUCED. -/
def Obligations.ByteViewOfOutFollowsTheOrder : Prop :=
  ∀ (s : State) (x : Nat) (rest : List Event), x < s.par.outSize →
    (∀ lo hi : Byte, ¬ HiddenSample s x →
      s.events =
          (match s.par.outOrder with
          | .little => [Event.outByteWrite (2 * x) lo, .outByteWrite (2 * x + 1) hi]
          | .big => [Event.outByteWrite (2 * x) hi, .outByteWrite (2 * x + 1) lo]) ++ rest →
      ∃ t u : State, step s = .next t ∧ step t = .next u ∧ u.events = rest ∧ outSample u.outMem x = hi ++ lo ∧
        ∀ y, y ≠ x → outSample u.outMem y = outSample s.outMem y) ∧
    (∀ j < 2, ¬ HiddenSample s x → s.events = .outByteRead (2 * x + j) :: rest →
      let start :=
        match s.par.outOrder with
        | .little => 8 * j
        | .big => 8 * (1 - j)
      step s = .next { s with
        events := rest
        hostData := ((outSample s.outMem x).extractLsb' start 8).setWidth 32
        draws := s.draws + 1 }) ∧
    (s.events = .outRead x :: rest →
      ∃ v : Sample, step s = .next { s with events := rest, hostData := v.setWidth 32, draws := s.draws + 1 } ∧
        (¬ HiddenSample s x → v = outSample s.outMem x) ∧ (HiddenSample s x → v = Config.freeSample s.draws x)) ∧
    (∀ v : Sample,
      (s.events = .outWrite x v :: rest ∨ (1 < s.par.nInst ∧ s.events = .peerWrite x v :: rest)) →
      ∃ t : State, step s = .next t ∧
        t = { s with events := rest, outMem := t.outMem, outRaced := t.outRaced, draws := s.draws + 1 } ∧
        (∀ y, y ≠ x → outSample t.outMem y = outSample s.outMem y ∧ (y ∈ t.outRaced ↔ y ∈ s.outRaced)) ∧
        ((∀ g ∈ s.unseen, ¬ g.Has x) → outSample t.outMem x = v) ∧
        ((∃ g ∈ s.unseen, g.Has x) → outSample t.outMem x = Config.freeSample s.draws x) ∧
        (s.macroBusy = true → s.regs.image.Has x → x ∈ t.outRaced) ∧
        (¬ (s.macroBusy = true ∧ s.regs.image.Has x) → t.outRaced = s.outRaced)) ∧
    ∀ (i : Instr) (t : State), isDecodingMacro i = true → x ∈ s.outRaced → exec i s = .next t →
      outSample t.outMem x = Config.freeSample s.draws x

/-! ## Bit pumps (42_bitpump.md) -/

/-- BP_INIT starts a pump on the rest of a stream's window and leaves the stream (42_bitpump.md R140). Where the cursor
stands at 2^32 the pump's off is kept mod 2^32 (log 15, DEDUCED); the pump's race marks, the model's own, start empty
(log 8). -/
def Obligations.BpInitStartsAPump : Prop :=
  ∀ (s : State) (p : PumpIx) (k : StreamIx) (m : PumpMode),
    (s.streams[k].valid = true →
      exec (.bpInit p k m) s = .next (s.setPump p ⟨true, m, s.streams[k].off + s.streams[k].pos,
        s.streams[k].size - s.streams[k].pos, 0, [], 0, false, false, 0, 0, []⟩).complete) ∧
    (s.streams[k].valid = false →
      exec (.bpInit p k m) s = .next (s.enterError ⟨.state, 0, 0, k.val, 0⟩))

/-- On a valid pump BP_FILL and BP_PEEK_BITS complete, and BP_GET_BITS and BP_SKIP_BITS complete within the data: the
fill adds 32 bits below 32 and nothing above, the read takes the cache's leading bits (42_bitpump.md R141-R146).
consumed counts mod 2^36 (log 14, DEDUCED). -/
def Obligations.PumpCommandsDeliverTheCache : Prop :=
  ∀ (s : State) (p : PumpIx) (n : BitVec 6), s.par.decided = true → s.pumps[p].valid = true →
    s.pumps[p].legal s.par = true → n.toNat ≤ 32 →
    ∃ q : Pump, fill s s.pumps[p] = .ok q ∧
      (32 ≤ s.pumps[p].cache.length → q = s.pumps[p]) ∧
      (s.pumps[p].cache.length < 32 →
        q.cache.length = s.pumps[p].cache.length + 32 ∧ s.pumps[p].cache <+: q.cache) ∧
      q.consumed = s.pumps[p].consumed ∧ q.legal s.par = true ∧
      exec (.bpFill p) s = .next (s.setPump p q).complete ∧
      exec (.bpPeekBits p n) s =
        .next (({ s with res := BitVec.ofNat 32 (bitsVal (q.cache.take n.toNat)) }).setPump p q).complete ∧
      (s.pumps[p].mayDeliver s.par n.toNat →
        let q' : Pump := { q with
          cache := q.cache.drop n.toNat
          pad := min q.pad (q.cache.length - n.toNat)
          consumed := q.consumed + n.setWidth 36 }
        exec (.bpGetBits p n) s =
          .next (({ s with res := BitVec.ofNat 32 (bitsVal (q.cache.take n.toNat)) }).setPump p q').complete ∧
        exec (.bpSkipBits p n) s = .next (s.setPump p q').complete)

/-- In MSB and MSB32 modes a read past the data raises E_IO_BOUNDS with the cursor the fill reached, in BP_GETBITS and
BP_SKIPBITS and in every PGET of another command, and every pump command on an invalid pump raises E_STATE
(42_bitpump.md R142-R146). -/
def Obligations.OverReadRaisesBounds : Prop :=
  ∀ (s : State) (p : PumpIx) (n : BitVec 6), n.toNat ≤ 32 →
    (s.pumps[p].valid = true → s.pumps[p].legal s.par = true → ¬ s.pumps[p].mayDeliver s.par n.toNat →
      ∃ q : Pump, fill s s.pumps[p] = .ok q ∧
        exec (.bpGetBits p n) s = .next (s.enterError
          ⟨.ioBounds, q.inpos.toNat, n.toNat, p.val, (s.pumps[p].consumed.toNat % 2 ^ 32 : Nat)⟩) ∧
        exec (.bpSkipBits p n) s = .next (s.enterError
          ⟨.ioBounds, q.inpos.toNat, n.toNat, p.val, (s.pumps[p].consumed.toNat % 2 ^ 32 : Nat)⟩)) ∧
    (∀ (v : Pump) (m : Nat), v.legal s.par = true → v.valid = true → ¬ v.mayDeliver s.par m →
      ∃ q : Pump, fill s v = .ok q ∧ pget s p v m = .error (.raised
        ⟨.ioBounds, q.inpos.toNat, m, p.val, (v.consumed.toNat % 2 ^ 32 : Nat)⟩)) ∧
    (s.pumps[p].valid = false →
      exec (.bpFill p) s = .next (s.enterError ⟨.state, 0, 0, p.val, 0⟩) ∧
      exec (.bpGetBits p n) s = .next (s.enterError ⟨.state, 0, 0, p.val, 0⟩) ∧
      exec (.bpPeekBits p n) s = .next (s.enterError ⟨.state, 0, 0, p.val, 0⟩) ∧
      exec (.bpSkipBits p n) s = .next (s.enterError ⟨.state, 0, 0, p.val, 0⟩))

/-- A peek of n bits followed by a skip of n leaves the pump a get of n leaves, with the same value in RES
(42_bitpump.md R145). -/
def Obligations.PeekThenSkipIsGet : Prop :=
  ∀ (s t u w : State) (p : PumpIx) (n : BitVec 6), s.par.decided = true → n.toNat ≤ 32 → s.status.err = false →
    exec (.bpPeekBits p n) s = .next t → exec (.bpSkipBits p n) t = .next u → exec (.bpGetBits p n) s = .next w →
    w.status.err = false → u.pumps[p] = w.pumps[p] ∧ t.res = w.res ∧ u.res = w.res

/-- When a fill of a pump in step sets END, MARKER and ENDPOS and what it adds to PAD, in every mode: each of its fetches
(four bytes, or one MSB32 word) that finds the data ended pads 8 or 32 bits, the first of them sets END and ENDPOS, and
MARKER at a JPEG marker; so the fill that reaches a marker at m reports it at m. And a JPEG fill before the end of the
data: with a first marker at m, the 0xFF of the window's last byte included, it takes no byte at or beyond m, and a fill
that ends the data reports the marker at m; with none left it stays within the window, and one that ends the data reports
the physical end, no marker (42_bitpump.md R141, R148). -/
def Obligations.MarkerStopsTheJpegPump : Prop :=
  (∀ (s : State) (p q : Pump), s.par.decided = true → InStep s p → quietWindow s p → p.cache.length < 32 →
    fill s p = .ok q →
    let fetches := 32 / fetchBits p.mode
    q.pad = p.pad + fetchBits p.mode * ((List.range fetches).filter (fetchEnds s p)).length ∧
    (q.ended = true ↔ p.ended = true ∨ ∃ i < fetches, fetchEnds s p i = true) ∧
    (p.ended = true ∨ q.ended = false → q.marker = p.marker ∧ q.endpos = p.endpos) ∧
    (p.ended = false → q.ended = true → q.endpos = q.inpos ∧
      (p.marker = false → (q.marker = true ↔ p.mode = .jpeg ∧ markerAt s p q.inpos.toNat = true))) ∧
    ∀ m, p.mode = .jpeg → p.ended = false → markerAt s p m = true →
      (∃ i < fetches, placeAfter s p ((p.consumed.toNat + p.cache.length) / 8 + i) = m) →
      q.ended = true ∧ q.marker = true ∧ q.endpos.toNat = m) ∧
  ∀ (s : State) (p q : Pump), p.mode = .jpeg → quietWindow s p → p.inpos.toNat ≤ p.size.toNat → p.ended = false →
    p.marker = false → fill s p = .ok q →
    (∀ m, p.inpos.toNat ≤ m → markerAt s p m = true →
      (∀ i, p.inpos.toNat ≤ i → i < m → markerAt s p i = false) →
      q.inpos.toNat ≤ m ∧ (q.ended = true → q.marker = true ∧ q.endpos.toNat = m ∧ q.inpos.toNat = m)) ∧
    ((∀ i, p.inpos.toNat ≤ i → markerAt s p i = false) →
      q.marker = false ∧ q.inpos.toNat ≤ p.size.toNat ∧
        (q.ended = true → q.endpos = p.size ∧ q.inpos = p.size))

/-- A fresh pump is in step with its window, and every read of a pump in step delivers the window's next bits, most
significant first, and leaves it in step, however reads are split: in MSB and MSB32 modes zeros past the data, in JPEG
mode the bytes in order with 0xFF 0x00 read as 0xFF, and zeros from a marker or the window's end on (42_bitpump.md
R141, R146-R148, 20_memory.md R66). -/
def Obligations.PumpDeliversTheWindowsBitsInOrder : Prop :=
  (∀ (s : State) (m : PumpMode) (off size : Word), InStep s (freshPump m off size)) ∧
  ∀ (s : State) (ix : PumpIx) (p q : Pump) (n v : Nat), s.par.decided = true → InStep s p → quietWindow s p → n ≤ 32 →
    p.consumed.toNat + n < 2 ^ 36 → pget s ix p n = .ok (v, q) →
    InStep s q ∧ q.mode = p.mode ∧ q.off = p.off ∧ q.size = p.size ∧
      q.consumed.toNat = p.consumed.toNat + n ∧
      v = bitsVal ((List.range n).map (fun i => windowBit s p (p.consumed.toNat + i)))

/-! ## Huffman tables (43_huffman.md) -/

/-- HT_RESET empties a table in any state; HT_SET_COUNTS takes the sixteen counts from ARG0..ARG3, and raises E_STATE on
a READY table and E_CORRUPT on a sum of 0 or above 256 (43_huffman.md R160, R161). -/
def Obligations.TableResetAndCounts : Prop :=
  ∀ (s : State) (t : TableIx) (counts : Vector Byte 16), s.par.decided = true →
    (∀ l : Fin 16, counts[l] =
      (if l.val < 4 then s.regs.arg0 else if l.val < 8 then s.regs.arg1 else if l.val < 12 then s.regs.arg2
        else s.regs.arg3).extractLsb' (8 * (l.val % 4)) 8) →
    let sum := (counts.toList.map BitVec.toNat).sum
    exec (.htReset t) s = .next (s.setTable t ⟨.empty, Vector.replicate 16 0, 0, Vector.replicate 256 0,
      Vector.replicate 16 0, Vector.replicate 16 0, false⟩).complete ∧
    (s.tables[t].state = .ready → exec (.htSetCounts t) s = .next (s.enterError ⟨.state, 0, 0, t.val, 0⟩)) ∧
    (s.tables[t].state ≠ .ready → (sum = 0 ∨ 256 < sum) →
      exec (.htSetCounts t) s = .next (s.enterError ⟨.corrupt, 0, 0, t.val, sum⟩)) ∧
    (s.tables[t].state ≠ .ready → 1 ≤ sum → sum ≤ 256 →
      exec (.htSetCounts t) s = .next (s.setTable t ⟨.counts, counts, 0, Vector.replicate 256 0,
        Vector.replicate 16 0, Vector.replicate 16 0, false⟩).complete)

/-- HT_SET_VALUES loads as many bytes as the counts say and advances the stream; a table not in COUNTS, a count mismatch
and a short stream are errors (43_huffman.md R162; that the stream advances, against 10_state.md R35's words, is log 32,
DEDUCED). -/
def Obligations.TableValuesComeFromTheStream : Prop :=
  ∀ (s : State) (t : TableIx) (k : StreamIx) (n : BitVec 9), 1 ≤ n.toNat → n.toNat ≤ 256 →
    let v := s.streams[k]
    let h := s.tables[t]
    (h.state ≠ .counts → exec (.htSetValues t k n) s = .next (s.enterError ⟨.state, 0, 0, t.val, 0⟩)) ∧
    (h.state = .counts → v.valid = false →
      exec (.htSetValues t k n) s = .next (s.enterError ⟨.state, 0, 0, k.val, 0⟩)) ∧
    (h.state = .counts → v.valid = true → n.toNat ≠ countSum h.count →
      exec (.htSetValues t k n) s = .next (s.enterError ⟨.corrupt, 0, 0, t.val, n.toNat⟩)) ∧
    (h.state = .counts → v.valid = true → n.toNat = countSum h.count →
      v.size.toNat < v.pos.toNat + n.toNat →
      exec (.htSetValues t k n) s =
        .next (s.enterError ⟨.ioBounds, v.pos.toNat, n.toNat, k.val, v.size.toNat⟩)) ∧
    (h.state = .counts → v.valid = true → v.legal s.par = true → n.toNat = countSum h.count →
      v.pos.toNat + n.toNat ≤ v.size.toNat →
      ∃ h' : HuffTable, exec (.htSetValues t k n) s =
          .next ((s.setTable t h').setStream k { v with pos := v.pos + n.setWidth 32 }).complete ∧
        h' = { h with state := .values, nvalues := n.toNat, values := h'.values } ∧
        (∀ i < n.toNat, h'.valueAt i = cursorByte s v i) ∧ ∀ i, n.toNat ≤ i → h'.valueAt i = 0)

/-- HT_SETUP gives each length its first code and first index by the closed form of the counts when the code space is
not oversubscribed, and raises E_CORRUPT at the first length that is (43_huffman.md R163; the closed form is derived from
the loop of R164). -/
def Obligations.SetupAssignsCanonicalCodes : Prop :=
  ∀ (s : State) (t : TableIx) (d : Bool), s.par.decided = true →
    let h := s.tables[t]
    (h.state ≠ .values → exec (.htSetup t d) s = .next (s.enterError ⟨.state, 0, 0, t.val, 0⟩)) ∧
    (h.state = .values → (∀ l < 16, firstCode h l + h.countOf (l + 1) ≤ 2 ^ (l + 1)) →
      ∃ h' : HuffTable, exec (.htSetup t d) s = .next (s.setTable t h').complete ∧
        h' = { h with first := h'.first, index := h'.index, dng16 := d, state := .ready } ∧
        ∀ l < 16, h'.firstOf (l + 1) = firstCode h l ∧ h'.indexOf (l + 1) = codesBelow h l) ∧
    (h.state = .values → ∀ l < 16, (∀ k < l, firstCode h k + h.countOf (k + 1) ≤ 2 ^ (k + 1)) →
      2 ^ (l + 1) < firstCode h l + h.countOf (l + 1) →
      exec (.htSetup t d) s = .next (s.enterError
        ⟨.corrupt, 0, (l + 1 : Nat), t.val, (firstCode h l + h.countOf (l + 1) : Nat)⟩))

/-- In a READY table the codes are prefix-free: no code of a shorter length is the beginning of a longer one, so every
codeword decodes to its own value (43_huffman.md R164, R165, R170). -/
def Obligations.CanonicalCodesArePrefixFree : Prop :=
  ∀ (h : HuffTable) (k l c : Nat), h.legal = true → h.state = .ready → 1 ≤ k → k < l → l ≤ 16 → h.hasCode l c →
    ¬ h.hasCode k (c / 2 ^ (l - k))

/-- HT_DECODE_SYM returns the value of the code the pump's bits begin with, raises E_CORRUPT when sixteen bits reach no
code, and enters the error of a read that fails before a code is reached. A table that is not READY, and then an invalid
pump, are E_STATE (43_huffman.md R165, R171, 42_bitpump.md R146). -/
def Obligations.SymbolDecodeFollowsTheCode : Prop :=
  ∀ (s : State) (t : TableIx) (p : PumpIx), s.par.decided = true →
    let h := s.tables[t]
    let v := s.pumps[p]
    let fails := fun e => exec (.htDecodeSym t p) s = .next (s.enterError e)
    (h.state ≠ .ready → fails ⟨.state, 0, 0, t.val, 0⟩) ∧
    (h.state = .ready → v.valid = false → fails ⟨.state, 0, 0, p.val, 0⟩) ∧
    (h.state = .ready → v.valid = true →
      (∀ l c q, StartsWithCode s p v h l c q →
        exec (.htDecodeSym t p) s = .next (({ s with
          res := (h.valueAt (h.indexOf l + c - h.firstOf l)).setWidth 32 }).setPump p q).complete) ∧
      (∀ c q, readCode s p 16 v = .ok (c, q) → NoCodeWithin s p v h 16 →
        fails ⟨.corrupt, q.inpos.toNat, 0, t.val, c⟩) ∧
      ∀ n e, n < 16 → NoCodeWithin s p v h n → readCode s p (n + 1) v = .error (.raised e) → fails e)

/-- HT_DECODE_DIFF extends the additional bits of the decoded length to a signed difference: 0 for length 0, EXTEND for
1..15, DIFF16_VALUE for 16, E_CORRUPT above. A table that is not READY, an invalid pump, sixteen bits that reach no code,
and a read of the code or of the additional bits that fails are errors as for HT_DECODE_SYM (43_huffman.md R165-R167,
R171, 42_bitpump.md R146). -/
def Obligations.DifferenceDecodeExtends : Prop :=
  ∀ (s : State) (t : TableIx) (p : PumpIx), s.par.decided = true →
    let h := s.tables[t]
    let v := s.pumps[p]
    let fails := fun e => exec (.htDecodeDiff t p) s = .next (s.enterError e)
    let gives := fun (d : Int) (q : Pump) =>
      exec (.htDecodeDiff t p) s = .next (({ s with res := u32 d }).setPump p q).complete
    let diff16 : Int := match s.par.diff16 with
      | .minus32768 => -32768
      | .plus32768 => 32768
    (h.state ≠ .ready → fails ⟨.state, 0, 0, t.val, 0⟩) ∧
    (h.state = .ready → v.valid = false → fails ⟨.state, 0, 0, p.val, 0⟩) ∧
    (h.state = .ready → v.valid = true →
      (∀ c q, readCode s p 16 v = .ok (c, q) → NoCodeWithin s p v h 16 →
        fails ⟨.corrupt, q.inpos.toNat, 0, t.val, c⟩) ∧
      (∀ n e, n < 16 → NoCodeWithin s p v h n → readCode s p (n + 1) v = .error (.raised e) → fails e) ∧
      ∀ l c q, StartsWithCode s p v h l c q →
        let len := (h.valueAt (h.indexOf l + c - h.firstOf l)).toNat
        (len = 0 → gives 0 q) ∧
        (1 ≤ len → len ≤ 15 →
          (∀ x q', pget s p q len = .ok (x, q') →
            gives (if x < 2 ^ (len - 1) then (x : Int) - (2 ^ len - 1) else x) q') ∧
          ∀ e, pget s p q len = .error (.raised e) → fails e) ∧
        (len = 16 → h.dng16 = false → gives diff16 q) ∧
        (len = 16 → h.dng16 = true →
          (∀ x q', pget s p q 16 = .ok (x, q') → gives diff16 q') ∧
          ∀ e, pget s p q 16 = .error (.raised e) → fails e) ∧
        (17 ≤ len → fails ⟨.corrupt, q.inpos.toNat, 0, t.val, len⟩))

/-- HT_LOAD_PENTAX_LEGACY makes a table READY whose thirteen codes are those 43_huffman.md R168 lists. -/
def Obligations.LegacyPentaxTableHasItsCodes : Prop :=
  ∀ (s : State) (t : TableIx), s.par.decided = true → ∃ h : HuffTable,
    exec (.htLoadPentaxLegacy t) s = .next (s.setTable t h).complete ∧ h.state = .ready ∧ h.nvalues = 13 ∧
    h.dng16 = false ∧
    ∀ x ∈ [(3, 2, 0), (4, 2, 1), (2, 3, 4), (5, 3, 5), (1, 3, 6), (6, 4, 14), (0, 5, 30), (7, 6, 62), (8, 7, 126),
        (9, 8, 254), (10, 9, 510), (11, 10, 1022), (12, 10, 1023)],
      h.hasCode x.2.1 x.2.2 ∧ (h.valueAt (h.indexOf x.2.1 + x.2.2 - h.firstOf x.2.1)).toNat = x.1

/-- HT_LOAD_PENTAX builds a READY table from a well-formed metadata stream: the number of entries of each length, the
first code and index of each length, and the entry numbers in the order of their prefixes. A short stream, a depth of 0
or above 15, a length outside 1..12, two equal prefixes and an oversubscribed code space are errors, in the order of
their checks (43_huffman.md R164, R169; that a tie is reported with the smaller entry number first, and which of
several ties, is log 16, and the order of the checks log 33). -/
def Obligations.PentaxTableComesFromTheStream : Prop :=
  ∀ (s : State) (t : TableIx) (k : StreamIx) (depth : Nat) (code len : Nat → Nat), s.par.decided = true →
    let v := s.streams[k]
    let pos := v.pos.toNat
    let u16At := fun o => assembled v.be 2 (fun i => cursorByte s v (o + i))
    let entries := fun l => ((List.range depth).filter (fun i => decide (len i = l))).length
    let key := fun i => code i / 2 ^ (12 - len i)
    let space := fun l => ((List.range (l + 1)).map (fun i => entries (i + 1) * 2 ^ (l - i))).sum
    let fails := fun e => exec (.htLoadPentax t k) s = .next (s.enterError e)
    (v.valid = false → fails ⟨.state, 0, 0, k.val, 0⟩) ∧
    (v.valid = true → v.size.toNat < pos + 2 → fails ⟨.ioBounds, pos, 2, k.val, v.size.toNat⟩) ∧
    (v.valid = true → v.legal s.par = true → pos + 2 ≤ v.size.toNat → depth = u16At 0 →
      (depth = 0 ∨ 15 < depth → fails ⟨.corrupt, 0, 0, t.val, depth⟩) ∧
      (1 ≤ depth → depth ≤ 15 → v.size.toNat < pos + 2 + 3 * depth →
        fails ⟨.ioBounds, pos, (2 + 3 * depth : Nat), k.val, v.size.toNat⟩) ∧
      (1 ≤ depth → depth ≤ 15 → pos + 2 + 3 * depth ≤ v.size.toNat →
        (∀ i < depth, code i = u16At (2 + 2 * i) ∧ len i = (cursorByte s v (2 + 2 * depth + i)).toNat) →
        (∀ i < depth, (∀ j < i, 1 ≤ len j ∧ len j ≤ 12) → len i = 0 ∨ 12 < len i →
          fails ⟨.corrupt, 0, 0, i, len i⟩) ∧
        ((∀ i < depth, 1 ≤ len i ∧ len i ≤ 12) →
          ((∃ i j, i < j ∧ j < depth ∧ key i = key j) →
            ∃ i j, i < j ∧ j < depth ∧ key i = key j ∧ fails ⟨.corrupt, 0, i, j, key i⟩) ∧
          ((∀ i j, i < j → j < depth → key i ≠ key j) →
            (∀ l < 16, (∀ k < l, space k ≤ 2 ^ (k + 1)) → 2 ^ (l + 1) < space l →
              fails ⟨.corrupt, 0, (l + 1 : Nat), t.val, space l⟩) ∧
            ((∀ l < 16, space l ≤ 2 ^ (l + 1)) →
              ∃ h : HuffTable,
                exec (.htLoadPentax t k) s = .next ((s.setTable t h).setStream k
                  { v with pos := v.pos + BitVec.ofNat 32 (2 + 3 * depth) }).complete ∧
                h.state = .ready ∧ h.nvalues = depth ∧ h.dng16 = false ∧
                (∀ l < 16, h.countOf (l + 1) = entries (l + 1) ∧
                  h.firstOf (l + 1) = ((List.range l).map (fun i => entries (i + 1) * 2 ^ (l - i))).sum ∧
                  h.indexOf (l + 1) = ((List.range l).map (fun i => entries (i + 1))).sum) ∧
                (∀ i < depth, (h.valueAt i).toNat < depth) ∧ (∀ i, depth ≤ i → h.valueAt i = 0) ∧
                ∀ i j, i < j → j < depth → key (h.valueAt i).toNat < key (h.valueAt j).toNat)))))

/-! ## Lossless JPEG (44_ljpeg.md) -/

/-- When its checks pass and its differences decode, LJ_DECODE stores in its tile the samples the predictor formula
gives from the differences in stream order, leaves every other sample, and leaves its pump after the last difference.
When a difference does not decode it raises that difference's error (44_ljpeg.md R190, R191; samples an outside agent
wrote meanwhile are free, 20_memory.md R78; that the region stays hidden from the host until a read of STATUS shows the
end is log 30). -/
def Obligations.LjDecodeStoresThePredictedSamples : Prop :=
  ∀ (s : State) (p : PumpIx) (tabs : List TableIx), s.par.decided = true → LjAccepts s p tabs →
    (∀ (ds : List Int) (q : Pump), readDiffs s p (ljOrder s.regs tabs) s.pumps[p] = .ok (ds, q) →
      ∃ m : OutMemory,
        exec (.ljDecode p) s = .next (({ s with
          outMem := m, outRaced := [], unseen := s.unseen.insert s.regs.image }).setPump p q).complete ∧
        (∀ r c, r < s.regs.ljTh → c < s.regs.ljTw →
          outIdx s.regs (s.regs.ljTy + r) (s.regs.ljTx + c) ∉ s.outRaced →
          outSample m (outIdx s.regs (s.regs.ljTy + r) (s.regs.ljTx + c)) = ljSample s.regs ds r c) ∧
        ∀ x, x ∉ s.outRaced →
          (∀ r c, r < s.regs.ljTh → c < s.regs.ljTw → x ≠ outIdx s.regs (s.regs.ljTy + r) (s.regs.ljTx + c)) →
          outSample m x = outSample s.outMem x) ∧
    ∀ e, readDiffs s p (ljOrder s.regs tabs) s.pumps[p] = .error (.raised e) → RaisesInfo (.ljDecode p) s e

/-- The bits LJ_DECODE consumes and the samples it writes do not depend on the tile's column and width: two runs that
differ only there leave the same pump, and the same samples where both write (44_ljpeg.md R193). -/
def Obligations.LjDecodeConsumesTheWholeFrameRow : Prop :=
  ∀ (s t t' : State) (p : PumpIx) (xy wh : Word),
    let s' : State := { s with regs := { s.regs with ljTileXy := xy, ljTileWh := wh } }
    xy.extractLsb' 16 16 = s.regs.ljTileXy.extractLsb' 16 16 →
    wh.extractLsb' 16 16 = s.regs.ljTileWh.extractLsb' 16 16 →
    s.outRaced = [] → s.status.err = false →
    exec (.ljDecode p) s = .next t → exec (.ljDecode p) s' = .next t' →
    t.status.err = false → t'.status.err = false →
    t.pumps = t'.pumps ∧
      ∀ r c, r < s.regs.ljTh → c < s.regs.ljTw → c < s'.regs.ljTw →
        outSample t.outMem (outIdx s.regs (s.regs.ljTy + r) (s.regs.ljTx + c)) =
          outSample t'.outMem (outIdx s.regs (s.regs.ljTy + r) (s'.regs.ljTx + c))

/-- LJ_DECODE's checks, in their order, each with the fields it reports: the pump, the component count, the predictor,
the subsampling, the table slots, the image descriptor, an empty tile, a tile larger than the frame, a tile outside the
image (44_ljpeg.md R190, 10_state.md R31; that such an error also leaves the pump and the region any value is log 6). -/
def Obligations.LjDecodeRefusesUnsupportedScans : Prop :=
  ∀ (s : State) (p : PumpIx), s.par.decided = true →
    let g := s.regs
    let run := Instr.ljDecode p
    (s.pumps[p].valid = false → Raises run s .state (comp := p.val)) ∧
    (s.pumps[p].valid = true →
      (g.ljN < 1 ∨ 4 < g.ljN → Raises run s .unsupported (val := g.ljN)) ∧
      (1 ≤ g.ljN → g.ljN ≤ 4 → g.ljPsv ≠ 1 → Raises run s .unsupported (val := g.ljPsv)) ∧
      (∀ i, 1 ≤ g.ljN → g.ljN ≤ 4 → g.ljPsv = 1 → i < g.ljN → (∀ j < i, g.ljHi j = 1 ∧ g.ljVi j = 1) →
        (g.ljHi i ≠ 1 ∨ g.ljVi i ≠ 1) → Raises run s .unsupported (comp := i) (val := g.ljSamp.toNat)) ∧
      (LjScanOk s →
        (∀ i < g.ljN, (∀ j < i, ljSlotReady s j) →
          (4 ≤ g.ljTblOf i → Raises run s .state (comp := i) (val := g.ljTblOf i)) ∧
          ∀ t : TableIx, t.val = g.ljTblOf i → s.tables[t].state ≠ .ready → Raises run s .state (comp := t.val)) ∧
        ((∀ i < g.ljN, ljSlotReady s i) →
          (∀ code row col val, ImageFails s code row col val → Raises run s code (row := row) (col := col) (val := val)) ∧
          (imageOk s →
            (g.ljTw = 0 ∨ g.ljTh = 0 → Raises run s .corrupt (row := g.ljTh) (col := g.ljTw)) ∧
            (g.ljTw ≠ 0 → g.ljTh ≠ 0 → g.ljFw * g.ljN < g.ljTw ∨ g.ljFh < g.ljTh →
              Raises run s .unsupported (row := g.ljTh) (col := g.ljTw) (val := g.ljFw)) ∧
            (g.ljTw ≠ 0 → g.ljTh ≠ 0 → g.ljTw ≤ g.ljFw * g.ljN → g.ljTh ≤ g.ljFh →
              g.imgW.toNat < g.ljTx + g.ljTw ∨ g.imgH.toNat < g.ljTy + g.ljTh →
              Raises run s .corrupt (row := g.ljTy) (col := g.ljTx))))))

/-! ## Pentax (45_pentax.md) -/

/-- When its checks pass, its differences decode and every value lies in 0..65535, PX_DECODE stores the image the
predictor formula gives from the differences in stream order. It raises on an invalid pump, a table that is not READY,
a bad image descriptor, an odd or too large size, and at the first value outside 0..65535, with its row, its column and
the value. A difference that does not decode raises its error, before either value of its pair of columns is checked
(45_pentax.md R200-R202; that the region is hidden from the host until a STATUS read is log 30). -/
def Obligations.PxDecodeStoresThePredictedImage : Prop :=
  ∀ (s : State) (p : PumpIx) (t : TableIx),
    let w := s.regs.imgW.toNat
    let h := s.regs.imgH.toNat
    let run := Instr.pxDecode p t
    let fits := fun (ds : List Int) (r c : Nat) => 0 ≤ pxValue w ds r c ∧ pxValue w ds r c ≤ 65535
    (s.pumps[p].valid = false → Raises run s .state (comp := p.val)) ∧
    (s.pumps[p].valid = true → s.tables[t].state ≠ .ready → Raises run s .state (comp := t.val)) ∧
    (s.pumps[p].valid = true → s.tables[t].state = .ready →
      (∀ code row col val, ImageFails s code row col val → Raises run s code (row := row) (col := col) (val := val)) ∧
      (imageOk s → w % 2 = 1 ∨ s.par.pxMaxW < w ∨ s.par.pxMaxH < h → Raises run s .corrupt (row := h) (col := w))) ∧
    (PxAccepts s p t →
      (∀ (ds : List Int) (q : Pump), readDiffs s p (List.replicate (h * w) t) s.pumps[p] = .ok (ds, q) →
        (∀ r c, r < h → c < w → fits ds r c) →
        ∃ m : OutMemory,
          exec run s = .next (({ s with
            outMem := m, outRaced := [], unseen := s.unseen.insert s.regs.image }).setPump p q).complete ∧
          (∀ r c, r < h → c < w → outIdx s.regs r c ∉ s.outRaced →
            outSample m (outIdx s.regs r c) = u16 (pxValue w ds r c)) ∧
          ∀ x, outsideImage s x → outSample m x = outSample s.outMem x) ∧
      (∀ (ds : List Int) (q : Pump) (r c : Nat), r < h → c < w →
        readDiffs s p (List.replicate (r * w + 2 * (c / 2) + 2) t) s.pumps[p] = .ok (ds, q) →
        (∀ r' c', (r' < r ∧ c' < w) ∨ (r' = r ∧ c' < c) → fits ds r' c') → ¬ fits ds r c →
        Raises run s .corrupt (row := r) (col := c) (val := pxValue w ds r c)) ∧
      ∀ (ds : List Int) (q : Pump) (r c : Nat) (e : ErrInfo), r < h → c < w →
        readDiffs s p (List.replicate (r * w + c) t) s.pumps[p] = .ok (ds, q) →
        (∀ r' c', (r' < r ∧ c' < w) ∨ (r' = r ∧ c' < 2 * (c / 2)) → fits ds r' c') →
        hdiff s t p q = .error (.raised e) → RaisesInfo run s e)

/-! ## Samsung V0 (46_samsung.md) -/

/-- SV0_STRIPES reads one offset for each row and the raw stream's size as the sentinel; strictly increasing offsets
give the stripes. The first that is not gives E_CORRUPT with its row; an invalid stream, a height of 0 or above 65535
and a short offset stream are errors too, and after every error SV0.ready is 0 (46_samsung.md R210, R215; that the checks
run in this order is log 33, DEDUCED). -/
def Obligations.StripesComeFromIncreasingOffsets : Prop :=
  ∀ (s : State) (a b : StreamIx) (o : Nat → Nat), s.par.decided = true →
    let v := s.streams[a]
    let raw := s.streams[b]
    let h := s.regs.imgH.toNat
    let fails := fun e =>
      exec (.sv0Stripes a b) s = .next ({ s with sv0 := { s.sv0 with ready := false } }.enterError e)
    (v.valid = false → fails ⟨.state, 0, 0, a.val, 0⟩) ∧
    (v.valid = true → raw.valid = false → fails ⟨.state, 0, 0, b.val, 0⟩) ∧
    (v.valid = true → raw.valid = true →
      (h = 0 → fails ⟨.corrupt, 0, 0, 0, 0⟩) ∧
      (65535 < h → fails ⟨.unsupported, h, 0, 0, 0⟩) ∧
      (1 ≤ h → h ≤ 65535 → v.size.toNat < v.pos.toNat + 4 * h →
        fails ⟨.ioBounds, v.pos.toNat, (4 * h : Nat), a.val, v.size.toNat⟩) ∧
      (v.legal s.par = true → 1 ≤ h → h ≤ 65535 → v.pos.toNat + 4 * h ≤ v.size.toNat →
        (∀ r < h, o r = assembled v.be 4 (fun i => cursorByte s v (4 * r + i))) → o h = raw.size.toNat →
        ((∀ r < h, o r < o (r + 1)) →
          exec (.sv0Stripes a b) s = .next (({ s with
            sv0 := ⟨true, (List.range h).map (fun r =>
              ⟨BitVec.ofNat 32 (raw.off.toNat + o r), BitVec.ofNat 32 (o (r + 1) - o r)⟩), []⟩ }).setStream a
            { v with pos := v.pos + BitVec.ofNat 32 (4 * h) }).complete) ∧
        ∀ r < h, (∀ k < r, o k < o (k + 1)) → o (r + 1) ≤ o r → fails ⟨.corrupt, r, 0, 0, o (r + 1)⟩))

/-- The rows and groups of SV0_DECODE. A row starts with a fresh pump on its stripe and four equal lengths, 7 in the
first two rows and 4 later. A group reads its direction, four 2-bit opcodes and the new lengths, adapts the four lengths
and raises E_CORRUPT at the first outside 0..16. Each adjustment, a two's-complement number in stream order, is added
to the predictor of its column, above or to the left, and stored inside the width only; upward prediction is refused in
the first two rows and in the last group. The error of a read that fails, of the direction, an opcode, a new length or an
adjustment, is the group's (46_samsung.md R211-R213; the bytes a row's pump reads as free are log 27's). -/
def Obligations.SamsungGroupAddsAdjustments : Prop :=
  ∀ (s : State) (p : PumpIx) (r : Nat),
    (∀ (mode : PumpMode) (x : Stripe) (out : OutMemory) (prev : Pump), s.sv0.stripes[r]? = some x →
      let run := forUp (svGroup s p r) ((s.regs.imgW.toNat + 15) / 16) 0
        ⟨{ freshPump mode x.off x.size with raced := s.sv0.raced }, out, List.replicate 4 (if r < 2 then 7 else 4)⟩
      (∀ y, run = .ok y → svRow s p mode r (prev, out) = .ok (y.pump, y.out)) ∧
      ∀ e, run = .error e → svRow s p mode r (prev, out) = .error e) ∧
    (∀ (g dir : Nat) (x : SvRun) (q : Pump) (e : Stop),
      (pget s p x.pump 1 = .error e → svGroup s p r g x = .error e) ∧
      (pget s p x.pump 1 = .ok (dir, q) → readNumbers s p [2, 2, 2, 2] q = .error e → svGroup s p r g x = .error e)) ∧
    (∀ (g dir : Nat) (x : SvRun) (ops news : List Nat) (q q' q'' : Pump), x.len.length = 4 →
      pget s p x.pump 1 = .ok (dir, q) → readNumbers s p [2, 2, 2, 2] q = .ok (ops, q') →
      (readNumbers s p (newLengthBits ops) q' = .ok (news, q'') →
        let lens := adaptedLengths ops x.len news
        (∀ l ∈ lens, 0 ≤ l ∧ l ≤ 16) →
          svGroup s p r g x = svSamples s p r (16 * g) dir { x with pump := q'', len := lens }) ∧
      (∀ i < 4, ∀ e, ops.getD i 0 = 3 → readNumbers s p (newLengthBits (ops.take i)) q' = .ok (news, q'') →
        (∀ j < i, 0 ≤ (adaptedLengths (ops.take i) x.len news).getD j 0 ∧
          (adaptedLengths (ops.take i) x.len news).getD j 0 ≤ 16) →
        pget s p q'' 4 = .error e → svGroup s p r g x = .error e) ∧
      ∀ i < 4, readNumbers s p (newLengthBits (ops.take (i + 1))) q' = .ok (news, q'') →
        let lens := adaptedLengths (ops.take (i + 1)) x.len news
        (∀ j < i, 0 ≤ lens.getD j 0 ∧ lens.getD j 0 ≤ 16) → lens.getD i 0 < 0 ∨ 16 < lens.getD i 0 →
          svGroup s p r g x =
            raiseError .corrupt (row := r) (col := (16 * g : Nat)) (comp := i) (val := lens.getD i 0)) ∧
    ∀ (col dir : Nat) (x : SvRun) (nums : List Nat) (q : Pump),
      imageOk s → r < s.regs.imgH.toNat → col < s.regs.imgW.toNat → col % 16 = 0 → dir ≤ 1 → x.len.length = 4 →
      let lens := groupLengths x.len
      let adj := adjustments lens nums
      (dir = 1 → r < 2 → svSamples s p r col dir x = raiseError .corrupt (row := r) (col := col) (val := 1)) ∧
      (dir = 1 → 2 ≤ r → s.regs.imgW.toNat ≤ col + 16 →
        svSamples s p r col dir x = raiseError .corrupt (row := r) (col := col) (val := 2)) ∧
      (∀ e, (dir = 1 → 2 ≤ r ∧ col + 16 < s.regs.imgW.toNat) →
        readNumbers s p (lens.filter (fun n => decide (n ≠ 0))) x.pump = .error e →
        svSamples s p r col dir x = .error e) ∧
      ((dir = 1 → 2 ≤ r ∧ col + 16 < s.regs.imgW.toNat) →
        readNumbers s p (lens.filter (fun n => decide (n ≠ 0))) x.pump = .ok (nums, q) →
        ∃ m : OutMemory, svSamples s p r col dir x = .ok { x with pump := q, out := m } ∧
          (∀ c < 16, col + c < s.regs.imgW.toNat →
            outSample m (outIdx s.regs r (col + c)) =
              u16 (adj.getD (groupPlace c) 0 + groupPredictor s.regs x.out dir r col c)) ∧
          ∀ y, (∀ c < 16, col + c < s.regs.imgW.toNat → y ≠ outIdx s.regs r (col + c)) →
            outSample m y = outSample x.out y)

/-- When the stripe table is for this height and every row decodes, SV0_DECODE completes with the rows' samples after
the fix-up's swaps, leaves OUT outside the image, leaves its pump after the last row, and clears SV0.ready. Without a
ready table, with a table for another height, or with a bad image descriptor it raises E_STATE or IMGCHK's error, and a
row that does not decode gives the error of the first such row (46_samsung.md R211, R212, R214, R215, 10_state.md R31,
70_reset_and_hazards.md R301; that the checks run in the Errors line's order is log 33, DEDUCED). -/
def Obligations.Sv0DecodeSwapsOnceAfterTheRows : Prop :=
  ∀ (s : State) (p : PumpIx) (mode : PumpMode),
    let g := s.regs
    let run := Instr.sv0Decode p mode
    (s.sv0.ready = false → Raises run s .state) ∧
    (s.sv0.ready = true →
      (s.sv0.stripes.length ≠ g.imgH.toNat →
        Raises run s .state (row := s.sv0.stripes.length) (val := g.imgH.toNat)) ∧
      (∀ code row col val, s.sv0.stripes.length = g.imgH.toNat → ImageFails s code row col val →
        Raises run s code (row := row) (col := col) (val := val)) ∧
      (∀ e, imageOk s → s.sv0.stripes.length = g.imgH.toNat →
        forUp (svRow s p mode) g.imgH.toNat 0 (s.pumps[p], s.outMem) = .error (.raised e) → RaisesInfo run s e) ∧
      ∀ (q : Pump) (m : OutMemory), imageOk s → s.sv0.stripes.length = g.imgH.toNat →
        forUp (svRow s p mode) g.imgH.toNat 0 (s.pumps[p], s.outMem) = .ok (q, m) →
        ∃ m' : OutMemory,
          exec run s = .next (({ s with
            outMem := m', outRaced := [], unseen := s.unseen.insert s.regs.image
            sv0 := { s.sv0 with ready := false } }).setPump p q).complete ∧
          (∀ r c, r < g.imgH.toNat → c < g.imgW.toNat → outIdx g r c ∉ s.outRaced →
            outSample m' (outIdx g r c) = outSample m (fixupSource g r c)) ∧
          ∀ x, outsideImage s x → outSample m' x = outSample s.outMem x)

/-- Stripes of zero bytes long enough for their groups decode, in every mode, to an image of the seed value 128
(46_samsung.md R211-R214), when the host rewrote none of their bytes after SV0_STRIPES (log 27). -/
def Obligations.ZeroStripesDecodeToTheSeed : Prop :=
  ∀ (s : State) (p : PumpIx) (mode : PumpMode),
    let g := s.regs
    s.sv0.ready = true → imageOk s → s.sv0.stripes.length = g.imgH.toNat → s.par.legal = true →
    (∀ x ∈ s.sv0.stripes, x.inside s.par = true ∧
      121 * ((g.imgW.toNat + 15) / 16) ≤ 8 * x.size.toNat ∧
      ∀ a, x.off.toNat ≤ a → a < x.off.toNat + x.size.toNat → inByte s a = 0#8 ∧ a ∉ s.sv0.raced) →
    ∃ t : State, exec (.sv0Decode p mode) s = .next t ∧ t.status.done = true ∧ t.cmdcnt = s.cmdcnt + 1 ∧
      t.sv0.ready = false ∧
      ∀ r c, r < g.imgH.toNat → c < g.imgW.toNat → outIdx g r c ∉ s.outRaced →
        outSample t.outMem (outIdx g r c) = 128#16

/-! ## Fuji (47_fuji.md) -/

/-- FJ_INIT sets up depths 12 and 14 and raises E_CORRUPT for another; FJ_GRAD_RESET and FJ_END_STRIP need a valid
context; FJ_END_STRIP reports a non-zero error count (47_fuji.md R230, R232, R236). -/
def Obligations.FujiSetupAndStripEnd : Prop :=
  ∀ (s : State) (rb : BitVec 5),
    let fresh := fun (maxd : Nat) => (Vector.replicate 3 (Vector.replicate 41 (GradPair.mk maxd 1)) : GradArray)
    (rb.toNat = 14 → exec (.fjInit rb) s = .next { s with
      fuji := ⟨true, 14, #v[0, 18, 67, 276, 16383], 16384, 56, 256, 64, fresh 256, fresh 256, 0⟩ }.complete) ∧
    (rb.toNat = 12 → exec (.fjInit rb) s = .next { s with
      fuji := ⟨true, 12, #v[0, 18, 67, 276, 4095], 4096, 48, 64, 64, fresh 64, fresh 64, 0⟩ }.complete) ∧
    (rb.toNat ≠ 14 → rb.toNat ≠ 12 →
      exec (.fjInit rb) s = .next (s.enterError ⟨.corrupt, 0, 0, 0, rb.toNat⟩)) ∧
    (s.fuji.valid = true →
      exec .fjGradReset s = .next { s with
        fuji := { s.fuji with ge := fresh s.fuji.maxDiff, go := fresh s.fuji.maxDiff, errcnt := 0 } }.complete ∧
      (s.fuji.errcnt = 0 → exec .fjEndStrip s = .next s.complete) ∧
      (s.fuji.errcnt ≠ 0 →
        exec .fjEndStrip s = .next (s.enterError ⟨.corrupt, 0, 0, 0, s.fuji.errcnt.toNat⟩))) ∧
    (s.fuji.valid = false →
      exec .fjGradReset s = .next (s.enterError ⟨.state, 0, 0, 0, 0⟩) ∧
      exec .fjEndStrip s = .next (s.enterError ⟨.state, 0, 0, 0, 0⟩))

/-- QT gives -4..4 by the quantization points, two of them index one of 41 pairs, and WRAP brings a value back into the
sample range: mod total_values within one range on either side, clamped beyond (47_fuji.md R231; the closed form of WRAP is
derived from R239's pseudocode). -/
def Obligations.GradientsAndWrapStayInRange : Prop :=
  ∀ (f : Fuji) (d e v : Int), (f.sameSetup fuji14 = true ∨ f.sameSetup fuji12 = true) →
    (f.quantize d =
      if d ≤ -276 then -4 else if d ≤ -67 then -3 else if d ≤ -18 then -2 else if d < 0 then -1
      else if d = 0 then 0 else if d < 18 then 1 else if d < 67 then 2 else if d < 276 then 3 else 4) ∧
    -40 ≤ f.gradient d e ∧ f.gradient d e ≤ 40 ∧ ((gradIndex (f.gradient d e)).val : Int) = |f.gradient d e| ∧
    0 ≤ f.wrap v ∧ f.wrap v ≤ f.q 4 ∧
    (-(f.totalValues : Int) ≤ v → v < 2 * f.totalValues → f.wrap v = v % f.totalValues) ∧
    (v < -(f.totalValues : Int) → f.wrap v = 0) ∧ (2 * (f.totalValues : Int) ≤ v → f.wrap v = f.q 4)

/-- The even and odd sample commands add the code, signed by the gradient, to the interpolation of their neighbours and
wrap it; they update the pair their gradient selects and the error count. An invalid context, an invalid pump, the first
neighbour above the largest sample value and a code that does not decode are errors (47_fuji.md R233-R235, R239). -/
def Obligations.FujiSamplesInterpolateAndCorrect : Prop :=
  ∀ (s : State) (p : PumpIx) (j : GradSet),
    let f := s.fuji
    let g := s.regs
    let qp4 := f.qp[(4 : Fin 5)]
    let sample := fun (grad interp code : Int) => f.wrap (if grad < 0 then interp - code else interp + code)
    let evenFails := fun e => exec (.fjSampleEven p j) s = .next (s.enterError e)
    let oddFails := fun e => exec (.fjSampleOdd p j) s = .next (s.enterError e)
    (f.valid = false → evenFails ⟨.state, 0, 0, 0, 0⟩ ∧ oddFails ⟨.state, 0, 0, 0, 0⟩) ∧
    (f.valid = true → s.pumps[p].valid = false →
      evenFails ⟨.state, 0, 0, p.val, 0⟩ ∧ oddFails ⟨.state, 0, 0, p.val, 0⟩) ∧
    (f.valid = true → s.pumps[p].valid = true →
      (∀ (pre post : List Nat) (x : Nat), (∀ y ∈ pre, y ≤ qp4) → qp4 < x →
        ([g.rb, g.rc, g.rd, g.rf] = pre ++ x :: post → evenFails ⟨.corrupt, 0, 0, 0, x⟩) ∧
        ([g.ra, g.rb, g.rc, g.rd, g.rg] = pre ++ x :: post → oddFails ⟨.corrupt, 0, 0, 0, x⟩)) ∧
      (∀ x : FjCode,
        let grad := f.quantize ((g.rb : Int) - g.rf) * 9 + f.quantize ((g.rc : Int) - g.rb)
        let dCB := |(g.rc : Int) - g.rb|
        let dFB := |(g.rf : Int) - g.rb|
        let dDB := |(g.rd : Int) - g.rb|
        let interp : Nat :=
          if dFB < dCB ∧ dDB < dCB then g.rf + g.rd + 2 * g.rb
          else if dCB < dDB ∧ dFB < dDB then g.rf + g.rc + 2 * g.rb else g.rd + g.rc + 2 * g.rb
        g.rb ≤ qp4 → g.rc ≤ qp4 → g.rd ≤ qp4 → g.rf ≤ qp4 →
        fjCode s p s.pumps[p] (f.ge.pair j (gradIndex grad)) = .ok x →
        exec (.fjSampleEven p j) s = .next (({ s with
          res := u32 (sample grad (interp / 4 : Nat) x.code)
          fuji := { f with ge := f.ge.setPair j (gradIndex grad) x.pair, errcnt := x.errcnt } }).setPump p
            x.pump).complete) ∧
      (∀ e,
        let grad := f.quantize ((g.rb : Int) - g.rf) * 9 + f.quantize ((g.rc : Int) - g.rb)
        g.rb ≤ qp4 → g.rc ≤ qp4 → g.rd ≤ qp4 → g.rf ≤ qp4 →
        fjCode s p s.pumps[p] (f.ge.pair j (gradIndex grad)) = .error (.raised e) → evenFails e) ∧
      (∀ e,
        let grad := f.quantize ((g.rb : Int) - g.rc) * 9 + f.quantize ((g.rc : Int) - g.ra)
        g.ra ≤ qp4 → g.rb ≤ qp4 → g.rc ≤ qp4 → g.rd ≤ qp4 → g.rg ≤ qp4 →
        fjCode s p s.pumps[p] (f.go.pair j (gradIndex grad)) = .error (.raised e) → oddFails e) ∧
      ∀ x : FjCode,
        let grad := f.quantize ((g.rb : Int) - g.rc) * 9 + f.quantize ((g.rc : Int) - g.ra)
        let interp : Nat :=
          if (g.rc < g.rb ∧ g.rd < g.rb) ∨ (g.rb < g.rc ∧ g.rb < g.rd) then (g.rg + g.ra + 2 * g.rb) / 4
          else (g.ra + g.rg) / 2
        g.ra ≤ qp4 → g.rb ≤ qp4 → g.rc ≤ qp4 → g.rd ≤ qp4 → g.rg ≤ qp4 →
        fjCode s p s.pumps[p] (f.go.pair j (gradIndex grad)) = .ok x →
        exec (.fjSampleOdd p j) s = .next (({ s with
          res := u32 (sample grad interp x.code)
          fuji := { f with go := f.go.setPair j (gradIndex grad) x.pair, errcnt := x.errcnt } }).setPump p
            x.pump).complete)

/-- FJCODE: z zeros and a one, then the short or the escape form, the mapping to a signed code, the accumulator update
and the saturating error count; max_bits zeros raise E_CORRUPT, and a read that fails, in the run of zeros or of the bits
after it, gives its error (47_fuji.md R235). -/
def Obligations.FujiCodeReadsTheAdaptiveCode : Prop :=
  ∀ (s : State) (ix : PumpIx) (p q q' : Pump) (pair : GradPair) (z d b raw : Nat),
    let f := s.fuji
    let code : Int := if raw % 2 = 1 then -1 - ((raw / 2 : Nat) : Int) else ((raw / 2 : Nat) : Int)
    let v1 := pair.v1 + code.natAbs
    (z < f.maxBits → readCode s ix (z + 1) p = .ok (1, q) → IsBitDiff pair.v1 pair.v2 d →
      (z + f.rawBits + 1 < f.maxBits → pget s ix q d = .ok (b, q') → d ≠ 0 → raw = b + z * 2 ^ d →
        fjCode s ix p pair = .ok ⟨code,
          if pair.v2 = f.minValue then ⟨v1 / 2, pair.v2 / 2 + 1⟩ else ⟨v1, pair.v2 + 1⟩,
          if f.totalValues ≤ raw then BitVec.ofNat 32 (min (f.errcnt.toNat + 1) (2 ^ 32 - 1)) else f.errcnt, q'⟩) ∧
      (z + f.rawBits + 1 < f.maxBits → d = 0 → raw = z →
        fjCode s ix p pair = .ok ⟨code,
          if pair.v2 = f.minValue then ⟨v1 / 2, pair.v2 / 2 + 1⟩ else ⟨v1, pair.v2 + 1⟩,
          if f.totalValues ≤ raw then BitVec.ofNat 32 (min (f.errcnt.toNat + 1) (2 ^ 32 - 1)) else f.errcnt, q⟩) ∧
      (f.maxBits ≤ z + f.rawBits + 1 → pget s ix q f.rawBits = .ok (b, q') → raw = b + 1 →
        fjCode s ix p pair = .ok ⟨code,
          if pair.v2 = f.minValue then ⟨v1 / 2, pair.v2 / 2 + 1⟩ else ⟨v1, pair.v2 + 1⟩,
          if f.totalValues ≤ raw then BitVec.ofNat 32 (min (f.errcnt.toNat + 1) (2 ^ 32 - 1)) else f.errcnt, q'⟩) ∧
      ∀ e, (z + f.rawBits + 1 < f.maxBits → d ≠ 0 → pget s ix q d = .error e → fjCode s ix p pair = .error e) ∧
        (f.maxBits ≤ z + f.rawBits + 1 → pget s ix q f.rawBits = .error e → fjCode s ix p pair = .error e)) ∧
    (∀ e, z < f.maxBits → readCode s ix z p = .ok (0, q) → pget s ix q 1 = .error e →
      fjCode s ix p pair = .error e) ∧
    (readCode s ix f.maxBits p = .ok (0, q) →
      fjCode s ix p pair = raiseError .corrupt (val := f.maxBits))

/-- FJ_STRIP_WIDTH and FJ_STRIP_OFFSET give block columns within a consistent geometry, the last strip takes the rest, no
strip passes the raw width, and an inconsistent geometry or a strip past the last is E_CORRUPT (47_fuji.md R237,
R238). -/
def Obligations.StripsPartitionTheRawWidth : Prop :=
  ∀ (s : State) (i : BitVec 16),
    let bs := s.regs.blockSize
    let n := s.regs.blocksInRow
    let rw' := s.regs.rawWidth
    let both := fun (e : ErrInfo) =>
      exec (.fjStripWidth i) s = .next (s.enterError e) ∧ exec (.fjStripOffset i) s = .next (s.enterError e)
    (bs ≠ 0 → n ≠ 0 → bs * (n - 1) < rw' → rw' ≤ bs * n → i.toNat < n →
      ∃ width offset : Word,
        exec (.fjStripWidth i) s = .next { s with res := width }.complete ∧
        exec (.fjStripOffset i) s = .next { s with res := offset }.complete ∧
        width.toNat = (if i.toNat = n - 1 then rw' - bs * (n - 1) else bs) ∧ offset.toNat = bs * i.toNat ∧
        1 ≤ width.toNat ∧ offset.toNat + width.toNat ≤ rw') ∧
    (bs = 0 ∨ n = 0 → both ⟨.corrupt, n, bs, 0, 0⟩) ∧
    (bs ≠ 0 → n ≠ 0 → (rw' ≤ bs * (n - 1) ∨ bs * n < rw') → both ⟨.corrupt, n, bs, 0, rw'⟩) ∧
    (bs ≠ 0 → n ≠ 0 → bs * (n - 1) < rw' → rw' ≤ bs * n → n ≤ i.toNat → both ⟨.corrupt, 0, 0, i.toNat, n⟩)

/-! ## The invariant of the machine -/

/-- The invariant holds after reset. -/
def Obligations.ResetIsSafe : Prop := State.reset.Inv

/-- Every step keeps the invariant, whatever the surroundings do (10_state.md R36, R37, R39, R40, R42, R43,
60_exceptions.md R267). That the pump of a failed decoding command is a legal slot again rests on log 7 (DEDUCED,
unsafe): 40_control.md R103 says any value. -/
def Obligations.EveryStepKeepsTheMachineSafe : Prop :=
  ∀ s t : State, s.Inv → step s = .next t → t.Inv

/-- In a safe state whose schedule stays inside the memories and the register space, a step always answers a next state:
no command faults or refuses (00_scope.md R11, 20_memory.md R64). -/
def Obligations.SafeMachineNeverStops : Prop :=
  ∀ s : State, s.Inv → s.scheduleInside → ∃ t : State, step s = .next t ∧ t.scheduleInside
end

