-- ==== Sys2Proof/Laws/Memory.lean ====
section
/-! SUPPORT. The laws of the memories: a read after a write, the canonical form every operation keeps, and what making a
region any value leaves alone (spec 00_scope.md R11, 20_memory.md R60, R61, R78). -/

namespace Sys2Proof.Machine

/-! ## Reads after writes -/

theorem Memory.get_put_same {w : Nat} (m : List (Nat × BitVec w)) (a : Nat) (v : BitVec w) :
    Memory.get (Memory.put m a v) a = some v := by
  induction m with
  | nil => simp [Memory.put, Memory.get]
  | cons c r ih =>
    obtain ⟨b, x⟩ := c
    by_cases h1 : a < b
    · simp [Memory.put, Memory.get, h1]
    · by_cases h2 : a = b
      · simp [Memory.put, Memory.get, h2]
      · simp [Memory.put, Memory.get, h1, h2, ih]

theorem Memory.get_put_other {w : Nat} (m : List (Nat × BitVec w)) {a b : Nat} (v : BitVec w) (h : b ≠ a) :
    Memory.get (Memory.put m a v) b = Memory.get m b := by
  induction m with
  | nil => simp [Memory.put, Memory.get, h]
  | cons c r ih =>
    obtain ⟨d, x⟩ := c
    by_cases h1 : a < d
    · simp [Memory.put, Memory.get, h1, h]
    · by_cases h2 : a = d
      · subst h2; simp [Memory.put, Memory.get, h]
      · simp [Memory.put, Memory.get, h1, h2, ih]

theorem Memory.get_put {w : Nat} (m : List (Nat × BitVec w)) (a b : Nat) (v : BitVec w) :
    Memory.get (Memory.put m a v) b = if b = a then some v else Memory.get m b := by
  by_cases h : b = a
  · simp [h, Memory.get_put_same]
  · simp [h, Memory.get_put_other m v h]

@[simp] theorem outSample_put_same (m : OutMemory) (a : Nat) (v : Sample) : outSample (Memory.put m a v) a = v := by
  simp [outSample, Memory.get_put_same]

theorem outSample_put_other (m : OutMemory) {a b : Nat} (v : Sample) (h : b ≠ a) :
    outSample (Memory.put m a v) b = outSample m b := by
  simp [outSample, Memory.get_put_other m v h]

/-! ## The canonical form -/

theorem Memory.risesAbove_mono {w : Nat} {lo hi : Nat} (m : List (Nat × BitVec w)) (h : lo ≤ hi)
    (hm : Memory.risesAbove hi m = true) : Memory.risesAbove lo m = true := by
  cases m with
  | nil => rfl
  | cons c r =>
    simp only [Memory.risesAbove, Bool.and_eq_true, decide_eq_true_eq] at hm ⊢
    exact ⟨by omega, hm.2⟩

theorem Memory.risesAbove_put {w : Nat} {lo : Nat} (m : List (Nat × BitVec w)) (a : Nat) (v : BitVec w) (ha : lo < a)
    (hm : Memory.risesAbove lo m = true) : Memory.risesAbove lo (Memory.put m a v) = true := by
  induction m generalizing lo with
  | nil => simp [Memory.put, Memory.risesAbove, ha]
  | cons c r ih =>
    obtain ⟨b, x⟩ := c
    simp only [Memory.risesAbove, Bool.and_eq_true, decide_eq_true_eq] at hm
    by_cases h1 : a < b
    · simp [Memory.put, Memory.risesAbove, h1, ha, hm.2]
    · by_cases h2 : a = b
      · subst h2; simp [Memory.put, Memory.risesAbove, ha, hm.2]
      · simp only [Memory.put, h1, h2, if_false, Memory.risesAbove, Bool.and_eq_true, decide_eq_true_eq]
        exact ⟨hm.1, ih (by omega) hm.2⟩

/-- A write keeps the canonical form. -/
theorem Memory.wf_put {w : Nat} (m : List (Nat × BitVec w)) (a : Nat) (v : BitVec w) (hm : Memory.wf m = true) :
    Memory.wf (Memory.put m a v) = true := by
  cases m with
  | nil => simp [Memory.put, Memory.wf, Memory.risesAbove]
  | cons c r =>
    obtain ⟨b, x⟩ := c
    simp only [Memory.wf] at hm
    by_cases h1 : a < b
    · simp [Memory.put, Memory.wf, Memory.risesAbove, h1, hm]
    · by_cases h2 : a = b
      · subst h2; simpa [Memory.put, Memory.wf] using hm
      · simp only [Memory.put, h1, h2, if_false, Memory.wf]
        exact Memory.risesAbove_put r a v (by omega) hm

/-- A write of a cell that exists lists only cells that exist. -/
theorem Memory.within_put {w size : Nat} (m : List (Nat × BitVec w)) (a : Nat) (v : BitVec w) (ha : a < size)
    (hm : Memory.within size m = true) : Memory.within size (Memory.put m a v) = true := by
  induction m with
  | nil => simpa [Memory.put, Memory.within] using ha
  | cons c r ih =>
    obtain ⟨b, x⟩ := c
    simp only [Memory.within, List.all_cons, Bool.and_eq_true, decide_eq_true_eq] at hm ih
    by_cases h1 : a < b
    · simp only [Memory.put, h1, if_true, Memory.within, List.all_cons, Bool.and_eq_true, decide_eq_true_eq]
      exact ⟨ha, hm.1, hm.2⟩
    · by_cases h2 : a = b
      · subst h2; simpa [Memory.put, Memory.within, ha] using hm.2
      · simp only [Memory.put, h1, h2, if_false, Memory.within, List.all_cons, Bool.and_eq_true, decide_eq_true_eq]
        exact ⟨hm.1, by simpa [Memory.within] using ih hm.2⟩

/-- The memories after reset are in canonical form. -/
theorem reset_memories_wf : Memory.wf State.reset.inMem = true ∧ Memory.wf State.reset.outMem = true := ⟨rfl, rfl⟩

theorem Memory.get_none_of_risesAbove {w : Nat} {lo a : Nat} (m : List (Nat × BitVec w)) (ha : a ≤ lo)
    (hm : Memory.risesAbove lo m = true) : Memory.get m a = none := by
  induction m generalizing lo with
  | nil => rfl
  | cons c r ih =>
    obtain ⟨b, x⟩ := c
    simp only [Memory.risesAbove, Bool.and_eq_true, decide_eq_true_eq] at hm
    have : a ≠ b := by omega
    simp only [Memory.get, this, if_false]
    exact ih (by omega) hm.2

theorem Memory.wf_risesAbove {w b : Nat} {v : BitVec w} {r : List (Nat × BitVec w)}
    (hm : Memory.wf ((b, v) :: r) = true) : Memory.risesAbove b r = true := hm

theorem Memory.wf_of_risesAbove {w lo : Nat} {r : List (Nat × BitVec w)} (hm : Memory.risesAbove lo r = true) :
    Memory.wf r = true := by
  cases r with
  | nil => rfl
  | cons c r =>
    simp only [Memory.risesAbove, Bool.and_eq_true] at hm
    exact hm.2

/-- In canonical form equal contents are equal lists. -/
theorem Memory.ext_of_wf {w : Nat} {m n : List (Nat × BitVec w)} (hm : Memory.wf m = true) (hn : Memory.wf n = true)
    (h : ∀ a, Memory.get m a = Memory.get n a) : m = n := by
  induction m generalizing n with
  | nil =>
    cases n with
    | nil => rfl
    | cons c r => have := h c.1; simp [Memory.get] at this
  | cons c r ih =>
    obtain ⟨a, x⟩ := c
    cases n with
    | nil => have := h a; simp [Memory.get] at this
    | cons d q =>
      obtain ⟨b, y⟩ := d
      have hr := Memory.wf_risesAbove hm
      have hq := Memory.wf_risesAbove hn
      have hab : a = b := by
        rcases Nat.lt_trichotomy a b with h1 | h1 | h1
        · have h2 := h a
          rw [Memory.get, if_pos rfl, Memory.get, if_neg (by omega),
            Memory.get_none_of_risesAbove q (le_of_lt h1) hq] at h2
          cases h2
        · exact h1
        · have h2 := h b
          rw [Memory.get, if_neg (by omega), Memory.get_none_of_risesAbove r (le_of_lt h1) hr, Memory.get,
            if_pos rfl] at h2
          cases h2
      subst hab
      have hxy : x = y := by simpa [Memory.get] using h a
      subst hxy
      rw [ih (Memory.wf_of_risesAbove hr) (Memory.wf_of_risesAbove hq) fun e => ?_]
      by_cases he : e = a
      · subst he
        rw [Memory.get_none_of_risesAbove r le_rfl hr, Memory.get_none_of_risesAbove q le_rfl hq]
      · simpa [Memory.get, he] using h e

/-! ## Samples that become any value -/

/-- A good image of OUT: canonical, and listing only samples that exist. -/
def goodOut (size : Nat) (m : OutMemory) : Prop := Memory.wf m = true ∧ Memory.within size m = true

theorem goodOut_put {size a : Nat} {m : OutMemory} (v : Sample) (ha : a < size) (h : goodOut size m) :
    goodOut size (Memory.put m a v) := ⟨Memory.wf_put m a v h.1, Memory.within_put m a v ha h.2⟩

theorem goodOut_spoilRow {size draw start : Nat} (n : Nat) {m : OutMemory} (h : goodOut size m) :
    goodOut size (spoilRow size draw start n m) := by
  induction n with
  | zero => exact h
  | succ n ih =>
    simp only [spoilRow]
    split
    · exact goodOut_put _ ‹_› ih
    · exact ih

theorem goodOut_spoilRows {g : HostRegs} {size draw : Nat} (n : Nat) {m : OutMemory} (h : goodOut size m) :
    goodOut size (spoilRows g size draw n m) := by
  induction n with
  | zero => exact h
  | succ n ih => exact goodOut_spoilRow _ ih

theorem goodOut_spoilRegion {g : HostRegs} {size draw : Nat} {m : OutMemory} (h : goodOut size m) :
    goodOut size (spoilRegion g size draw m) := goodOut_spoilRows _ h

theorem goodOut_settleRaced {size draw : Nat} (raced : List Nat) {m : OutMemory} (hr : ∀ i ∈ raced, i < size)
    (h : goodOut size m) : goodOut size (settleRaced draw raced m) := by
  induction raced generalizing m with
  | nil => exact h
  | cons a r ih =>
    exact ih (fun i hi => hr i (List.mem_cons_of_mem _ hi)) (goodOut_put _ (hr a List.mem_cons_self) h)

theorem spoilRow_outside {size draw start x : Nat} (n : Nat) (m : OutMemory) (h : ∀ c < n, x ≠ start + c) :
    outSample (spoilRow size draw start n m) x = outSample m x := by
  induction n with
  | zero => rfl
  | succ n ih =>
    have ih' := ih (fun c hc => h c (by omega))
    simp only [spoilRow]
    split
    · rw [outSample_put_other _ _ (h n (by omega)), ih']
    · exact ih'

/-- A sample outside the image region keeps its value when the region becomes any value. -/
theorem spoilRegion_outside {g : HostRegs} {size draw x : Nat} (m : OutMemory)
    (h : ∀ r c, r < g.imgH.toNat → c < g.imgW.toNat → x ≠ outIdx g r c) :
    outSample (spoilRegion g size draw m) x = outSample m x := by
  have key : ∀ n ≤ g.imgH.toNat, outSample (spoilRows g size draw n m) x = outSample m x := by
    intro n hn
    induction n with
    | zero => rfl
    | succ n ih =>
      simp only [spoilRows]
      rw [spoilRow_outside, ih (by omega)]
      intro c hc
      have := h n c (by omega) hc
      simpa [outIdx] using this
  exact key _ le_rfl

/-- A sample an outside agent wrote during the macro command is the free value after it. -/
theorem settleRaced_inside {draw x : Nat} (raced : List Nat) (m : OutMemory) (h : x ∈ raced) :
    outSample (settleRaced draw raced m) x = Config.freeSample draw x := by
  induction raced using List.reverseRecOn with
  | nil => cases h
  | append_singleton r a ih =>
    simp only [settleRaced, List.foldl_append, List.foldl_cons, List.foldl_nil]
    by_cases e : x = a
    · subst e; exact outSample_put_same _ _ _
    · rw [outSample_put_other _ _ e]
      exact ih (by simpa [e] using h)

/-- A sample no outside agent wrote keeps its value when the others settle. -/
theorem settleRaced_outside {draw x : Nat} (raced : List Nat) (m : OutMemory) (h : x ∉ raced) :
    outSample (settleRaced draw raced m) x = outSample m x := by
  induction raced generalizing m with
  | nil => rfl
  | cons a r ih =>
    simp only [List.mem_cons, not_or] at h
    show outSample (settleRaced draw r _) x = _
    rw [ih _ h.2, outSample_put_other _ _ h.1]

end Sys2Proof.Machine
end

