-- ==== Sys2Proof/Laws/State.lean ====
section
/-! SUPPORT. One lemma per field per update of State, true by rfl, so that no proof unfolds a record update; and what a
slot reads after a slot is set. -/

namespace Sys2Proof.Machine

/-! ## State.setStream -/

@[simp] theorem State.setStream_par (s : State) (k : StreamIx) (v : StreamSlot) :
    (s.setStream k v).par = s.par := rfl

@[simp] theorem State.setStream_status (s : State) (k : StreamIx) (v : StreamSlot) :
    (s.setStream k v).status = s.status := rfl

@[simp] theorem State.setStream_irqEn (s : State) (k : StreamIx) (v : StreamSlot) :
    (s.setStream k v).irqEn = s.irqEn := rfl

@[simp] theorem State.setStream_cmd (s : State) (k : StreamIx) (v : StreamSlot) :
    (s.setStream k v).cmd = s.cmd := rfl

@[simp] theorem State.setStream_res (s : State) (k : StreamIx) (v : StreamSlot) :
    (s.setStream k v).res = s.res := rfl

@[simp] theorem State.setStream_cmdcnt (s : State) (k : StreamIx) (v : StreamSlot) :
    (s.setStream k v).cmdcnt = s.cmdcnt := rfl

@[simp] theorem State.setStream_err (s : State) (k : StreamIx) (v : StreamSlot) :
    (s.setStream k v).err = s.err := rfl

@[simp] theorem State.setStream_regs (s : State) (k : StreamIx) (v : StreamSlot) :
    (s.setStream k v).regs = s.regs := rfl

@[simp] theorem State.setStream_streams (s : State) (k : StreamIx) (v : StreamSlot) :
    (s.setStream k v).streams = s.streams.set k v := rfl

@[simp] theorem State.setStream_pumps (s : State) (k : StreamIx) (v : StreamSlot) :
    (s.setStream k v).pumps = s.pumps := rfl

@[simp] theorem State.setStream_tables (s : State) (k : StreamIx) (v : StreamSlot) :
    (s.setStream k v).tables = s.tables := rfl

@[simp] theorem State.setStream_sv0 (s : State) (k : StreamIx) (v : StreamSlot) :
    (s.setStream k v).sv0 = s.sv0 := rfl

@[simp] theorem State.setStream_fuji (s : State) (k : StreamIx) (v : StreamSlot) :
    (s.setStream k v).fuji = s.fuji := rfl

@[simp] theorem State.setStream_inMem (s : State) (k : StreamIx) (v : StreamSlot) :
    (s.setStream k v).inMem = s.inMem := rfl

@[simp] theorem State.setStream_inRaced (s : State) (k : StreamIx) (v : StreamSlot) :
    (s.setStream k v).inRaced = s.inRaced := rfl

@[simp] theorem State.setStream_outMem (s : State) (k : StreamIx) (v : StreamSlot) :
    (s.setStream k v).outMem = s.outMem := rfl

@[simp] theorem State.setStream_outRaced (s : State) (k : StreamIx) (v : StreamSlot) :
    (s.setStream k v).outRaced = s.outRaced := rfl

@[simp] theorem State.setStream_unseen (s : State) (k : StreamIx) (v : StreamSlot) :
    (s.setStream k v).unseen = s.unseen := rfl

@[simp] theorem State.setStream_events (s : State) (k : StreamIx) (v : StreamSlot) :
    (s.setStream k v).events = s.events := rfl

@[simp] theorem State.setStream_hostData (s : State) (k : StreamIx) (v : StreamSlot) :
    (s.setStream k v).hostData = s.hostData := rfl

@[simp] theorem State.setStream_draws (s : State) (k : StreamIx) (v : StreamSlot) :
    (s.setStream k v).draws = s.draws := rfl

/-! ## State.setPos -/

@[simp] theorem State.setPos_par (s : State) (k : StreamIx) (n : Nat) :
    (s.setPos k n).par = s.par := rfl

@[simp] theorem State.setPos_status (s : State) (k : StreamIx) (n : Nat) :
    (s.setPos k n).status = s.status := rfl

@[simp] theorem State.setPos_irqEn (s : State) (k : StreamIx) (n : Nat) :
    (s.setPos k n).irqEn = s.irqEn := rfl

@[simp] theorem State.setPos_cmd (s : State) (k : StreamIx) (n : Nat) :
    (s.setPos k n).cmd = s.cmd := rfl

@[simp] theorem State.setPos_res (s : State) (k : StreamIx) (n : Nat) :
    (s.setPos k n).res = s.res := rfl

@[simp] theorem State.setPos_cmdcnt (s : State) (k : StreamIx) (n : Nat) :
    (s.setPos k n).cmdcnt = s.cmdcnt := rfl

@[simp] theorem State.setPos_err (s : State) (k : StreamIx) (n : Nat) :
    (s.setPos k n).err = s.err := rfl

@[simp] theorem State.setPos_regs (s : State) (k : StreamIx) (n : Nat) :
    (s.setPos k n).regs = s.regs := rfl

@[simp] theorem State.setPos_streams (s : State) (k : StreamIx) (n : Nat) :
    (s.setPos k n).streams = s.streams.set k { s.streams[k] with pos := BitVec.ofNat 32 n } := rfl

@[simp] theorem State.setPos_pumps (s : State) (k : StreamIx) (n : Nat) :
    (s.setPos k n).pumps = s.pumps := rfl

@[simp] theorem State.setPos_tables (s : State) (k : StreamIx) (n : Nat) :
    (s.setPos k n).tables = s.tables := rfl

@[simp] theorem State.setPos_sv0 (s : State) (k : StreamIx) (n : Nat) :
    (s.setPos k n).sv0 = s.sv0 := rfl

@[simp] theorem State.setPos_fuji (s : State) (k : StreamIx) (n : Nat) :
    (s.setPos k n).fuji = s.fuji := rfl

@[simp] theorem State.setPos_inMem (s : State) (k : StreamIx) (n : Nat) :
    (s.setPos k n).inMem = s.inMem := rfl

@[simp] theorem State.setPos_inRaced (s : State) (k : StreamIx) (n : Nat) :
    (s.setPos k n).inRaced = s.inRaced := rfl

@[simp] theorem State.setPos_outMem (s : State) (k : StreamIx) (n : Nat) :
    (s.setPos k n).outMem = s.outMem := rfl

@[simp] theorem State.setPos_outRaced (s : State) (k : StreamIx) (n : Nat) :
    (s.setPos k n).outRaced = s.outRaced := rfl

@[simp] theorem State.setPos_unseen (s : State) (k : StreamIx) (n : Nat) :
    (s.setPos k n).unseen = s.unseen := rfl

@[simp] theorem State.setPos_events (s : State) (k : StreamIx) (n : Nat) :
    (s.setPos k n).events = s.events := rfl

@[simp] theorem State.setPos_hostData (s : State) (k : StreamIx) (n : Nat) :
    (s.setPos k n).hostData = s.hostData := rfl

@[simp] theorem State.setPos_draws (s : State) (k : StreamIx) (n : Nat) :
    (s.setPos k n).draws = s.draws := rfl

/-! ## State.setPump -/

@[simp] theorem State.setPump_par (s : State) (p : PumpIx) (v : Pump) :
    (s.setPump p v).par = s.par := rfl

@[simp] theorem State.setPump_status (s : State) (p : PumpIx) (v : Pump) :
    (s.setPump p v).status = s.status := rfl

@[simp] theorem State.setPump_irqEn (s : State) (p : PumpIx) (v : Pump) :
    (s.setPump p v).irqEn = s.irqEn := rfl

@[simp] theorem State.setPump_cmd (s : State) (p : PumpIx) (v : Pump) :
    (s.setPump p v).cmd = s.cmd := rfl

@[simp] theorem State.setPump_res (s : State) (p : PumpIx) (v : Pump) :
    (s.setPump p v).res = s.res := rfl

@[simp] theorem State.setPump_cmdcnt (s : State) (p : PumpIx) (v : Pump) :
    (s.setPump p v).cmdcnt = s.cmdcnt := rfl

@[simp] theorem State.setPump_err (s : State) (p : PumpIx) (v : Pump) :
    (s.setPump p v).err = s.err := rfl

@[simp] theorem State.setPump_regs (s : State) (p : PumpIx) (v : Pump) :
    (s.setPump p v).regs = s.regs := rfl

@[simp] theorem State.setPump_streams (s : State) (p : PumpIx) (v : Pump) :
    (s.setPump p v).streams = s.streams := rfl

@[simp] theorem State.setPump_pumps (s : State) (p : PumpIx) (v : Pump) :
    (s.setPump p v).pumps = s.pumps.set p v := rfl

@[simp] theorem State.setPump_tables (s : State) (p : PumpIx) (v : Pump) :
    (s.setPump p v).tables = s.tables := rfl

@[simp] theorem State.setPump_sv0 (s : State) (p : PumpIx) (v : Pump) :
    (s.setPump p v).sv0 = s.sv0 := rfl

@[simp] theorem State.setPump_fuji (s : State) (p : PumpIx) (v : Pump) :
    (s.setPump p v).fuji = s.fuji := rfl

@[simp] theorem State.setPump_inMem (s : State) (p : PumpIx) (v : Pump) :
    (s.setPump p v).inMem = s.inMem := rfl

@[simp] theorem State.setPump_inRaced (s : State) (p : PumpIx) (v : Pump) :
    (s.setPump p v).inRaced = s.inRaced := rfl

@[simp] theorem State.setPump_outMem (s : State) (p : PumpIx) (v : Pump) :
    (s.setPump p v).outMem = s.outMem := rfl

@[simp] theorem State.setPump_outRaced (s : State) (p : PumpIx) (v : Pump) :
    (s.setPump p v).outRaced = s.outRaced := rfl

@[simp] theorem State.setPump_unseen (s : State) (p : PumpIx) (v : Pump) :
    (s.setPump p v).unseen = s.unseen := rfl

@[simp] theorem State.setPump_events (s : State) (p : PumpIx) (v : Pump) :
    (s.setPump p v).events = s.events := rfl

@[simp] theorem State.setPump_hostData (s : State) (p : PumpIx) (v : Pump) :
    (s.setPump p v).hostData = s.hostData := rfl

@[simp] theorem State.setPump_draws (s : State) (p : PumpIx) (v : Pump) :
    (s.setPump p v).draws = s.draws := rfl

/-! ## State.setTable -/

@[simp] theorem State.setTable_par (s : State) (t : TableIx) (v : HuffTable) :
    (s.setTable t v).par = s.par := rfl

@[simp] theorem State.setTable_status (s : State) (t : TableIx) (v : HuffTable) :
    (s.setTable t v).status = s.status := rfl

@[simp] theorem State.setTable_irqEn (s : State) (t : TableIx) (v : HuffTable) :
    (s.setTable t v).irqEn = s.irqEn := rfl

@[simp] theorem State.setTable_cmd (s : State) (t : TableIx) (v : HuffTable) :
    (s.setTable t v).cmd = s.cmd := rfl

@[simp] theorem State.setTable_res (s : State) (t : TableIx) (v : HuffTable) :
    (s.setTable t v).res = s.res := rfl

@[simp] theorem State.setTable_cmdcnt (s : State) (t : TableIx) (v : HuffTable) :
    (s.setTable t v).cmdcnt = s.cmdcnt := rfl

@[simp] theorem State.setTable_err (s : State) (t : TableIx) (v : HuffTable) :
    (s.setTable t v).err = s.err := rfl

@[simp] theorem State.setTable_regs (s : State) (t : TableIx) (v : HuffTable) :
    (s.setTable t v).regs = s.regs := rfl

@[simp] theorem State.setTable_streams (s : State) (t : TableIx) (v : HuffTable) :
    (s.setTable t v).streams = s.streams := rfl

@[simp] theorem State.setTable_pumps (s : State) (t : TableIx) (v : HuffTable) :
    (s.setTable t v).pumps = s.pumps := rfl

@[simp] theorem State.setTable_tables (s : State) (t : TableIx) (v : HuffTable) :
    (s.setTable t v).tables = s.tables.set t v := rfl

@[simp] theorem State.setTable_sv0 (s : State) (t : TableIx) (v : HuffTable) :
    (s.setTable t v).sv0 = s.sv0 := rfl

@[simp] theorem State.setTable_fuji (s : State) (t : TableIx) (v : HuffTable) :
    (s.setTable t v).fuji = s.fuji := rfl

@[simp] theorem State.setTable_inMem (s : State) (t : TableIx) (v : HuffTable) :
    (s.setTable t v).inMem = s.inMem := rfl

@[simp] theorem State.setTable_inRaced (s : State) (t : TableIx) (v : HuffTable) :
    (s.setTable t v).inRaced = s.inRaced := rfl

@[simp] theorem State.setTable_outMem (s : State) (t : TableIx) (v : HuffTable) :
    (s.setTable t v).outMem = s.outMem := rfl

@[simp] theorem State.setTable_outRaced (s : State) (t : TableIx) (v : HuffTable) :
    (s.setTable t v).outRaced = s.outRaced := rfl

@[simp] theorem State.setTable_unseen (s : State) (t : TableIx) (v : HuffTable) :
    (s.setTable t v).unseen = s.unseen := rfl

@[simp] theorem State.setTable_events (s : State) (t : TableIx) (v : HuffTable) :
    (s.setTable t v).events = s.events := rfl

@[simp] theorem State.setTable_hostData (s : State) (t : TableIx) (v : HuffTable) :
    (s.setTable t v).hostData = s.hostData := rfl

@[simp] theorem State.setTable_draws (s : State) (t : TableIx) (v : HuffTable) :
    (s.setTable t v).draws = s.draws := rfl

/-! ## State.setRes -/

@[simp] theorem State.setRes_par (s : State) (v : Int) :
    (s.setRes v).par = s.par := rfl

@[simp] theorem State.setRes_status (s : State) (v : Int) :
    (s.setRes v).status = s.status := rfl

@[simp] theorem State.setRes_irqEn (s : State) (v : Int) :
    (s.setRes v).irqEn = s.irqEn := rfl

@[simp] theorem State.setRes_cmd (s : State) (v : Int) :
    (s.setRes v).cmd = s.cmd := rfl

@[simp] theorem State.setRes_res (s : State) (v : Int) :
    (s.setRes v).res = u32 v := rfl

@[simp] theorem State.setRes_cmdcnt (s : State) (v : Int) :
    (s.setRes v).cmdcnt = s.cmdcnt := rfl

@[simp] theorem State.setRes_err (s : State) (v : Int) :
    (s.setRes v).err = s.err := rfl

@[simp] theorem State.setRes_regs (s : State) (v : Int) :
    (s.setRes v).regs = s.regs := rfl

@[simp] theorem State.setRes_streams (s : State) (v : Int) :
    (s.setRes v).streams = s.streams := rfl

@[simp] theorem State.setRes_pumps (s : State) (v : Int) :
    (s.setRes v).pumps = s.pumps := rfl

@[simp] theorem State.setRes_tables (s : State) (v : Int) :
    (s.setRes v).tables = s.tables := rfl

@[simp] theorem State.setRes_sv0 (s : State) (v : Int) :
    (s.setRes v).sv0 = s.sv0 := rfl

@[simp] theorem State.setRes_fuji (s : State) (v : Int) :
    (s.setRes v).fuji = s.fuji := rfl

@[simp] theorem State.setRes_inMem (s : State) (v : Int) :
    (s.setRes v).inMem = s.inMem := rfl

@[simp] theorem State.setRes_inRaced (s : State) (v : Int) :
    (s.setRes v).inRaced = s.inRaced := rfl

@[simp] theorem State.setRes_outMem (s : State) (v : Int) :
    (s.setRes v).outMem = s.outMem := rfl

@[simp] theorem State.setRes_outRaced (s : State) (v : Int) :
    (s.setRes v).outRaced = s.outRaced := rfl

@[simp] theorem State.setRes_unseen (s : State) (v : Int) :
    (s.setRes v).unseen = s.unseen := rfl

@[simp] theorem State.setRes_events (s : State) (v : Int) :
    (s.setRes v).events = s.events := rfl

@[simp] theorem State.setRes_hostData (s : State) (v : Int) :
    (s.setRes v).hostData = s.hostData := rfl

@[simp] theorem State.setRes_draws (s : State) (v : Int) :
    (s.setRes v).draws = s.draws := rfl

/-! ## State.complete -/

@[simp] theorem State.complete_par (s : State) :
    (s.complete).par = s.par := rfl

@[simp] theorem State.complete_status (s : State) :
    (s.complete).status = { s.status with busy := false, done := true } := rfl

@[simp] theorem State.complete_irqEn (s : State) :
    (s.complete).irqEn = s.irqEn := rfl

@[simp] theorem State.complete_cmd (s : State) :
    (s.complete).cmd = s.cmd := rfl

@[simp] theorem State.complete_res (s : State) :
    (s.complete).res = s.res := rfl

@[simp] theorem State.complete_cmdcnt (s : State) :
    (s.complete).cmdcnt = s.cmdcnt + 1 := rfl

@[simp] theorem State.complete_err (s : State) :
    (s.complete).err = s.err := rfl

@[simp] theorem State.complete_regs (s : State) :
    (s.complete).regs = s.regs := rfl

@[simp] theorem State.complete_streams (s : State) :
    (s.complete).streams = s.streams := rfl

@[simp] theorem State.complete_pumps (s : State) :
    (s.complete).pumps = s.pumps := rfl

@[simp] theorem State.complete_tables (s : State) :
    (s.complete).tables = s.tables := rfl

@[simp] theorem State.complete_sv0 (s : State) :
    (s.complete).sv0 = s.sv0 := rfl

@[simp] theorem State.complete_fuji (s : State) :
    (s.complete).fuji = s.fuji := rfl

@[simp] theorem State.complete_inMem (s : State) :
    (s.complete).inMem = s.inMem := rfl

@[simp] theorem State.complete_inRaced (s : State) :
    (s.complete).inRaced = s.inRaced := rfl

@[simp] theorem State.complete_outMem (s : State) :
    (s.complete).outMem = s.outMem := rfl

@[simp] theorem State.complete_outRaced (s : State) :
    (s.complete).outRaced = s.outRaced := rfl

@[simp] theorem State.complete_unseen (s : State) :
    (s.complete).unseen = s.unseen := rfl

@[simp] theorem State.complete_events (s : State) :
    (s.complete).events = s.events := rfl

@[simp] theorem State.complete_hostData (s : State) :
    (s.complete).hostData = s.hostData := rfl

@[simp] theorem State.complete_draws (s : State) :
    (s.complete).draws = s.draws + 1 := rfl

/-! ## State.enterError -/

@[simp] theorem State.enterError_par (s : State) (e : ErrInfo) :
    (s.enterError e).par = s.par := rfl

@[simp] theorem State.enterError_status (s : State) (e : ErrInfo) :
    (s.enterError e).status = { s.status with busy := false, err := true } := rfl

@[simp] theorem State.enterError_irqEn (s : State) (e : ErrInfo) :
    (s.enterError e).irqEn = s.irqEn := rfl

@[simp] theorem State.enterError_cmd (s : State) (e : ErrInfo) :
    (s.enterError e).cmd = s.cmd := rfl

@[simp] theorem State.enterError_res (s : State) (e : ErrInfo) :
    (s.enterError e).res = s.res := rfl

@[simp] theorem State.enterError_cmdcnt (s : State) (e : ErrInfo) :
    (s.enterError e).cmdcnt = s.cmdcnt := rfl

@[simp] theorem State.enterError_err (s : State) (e : ErrInfo) :
    (s.enterError e).err = ⟨e.code, s.cmd, u32 e.row, u32 e.col, u32 e.comp, u32 e.val⟩ := rfl

@[simp] theorem State.enterError_regs (s : State) (e : ErrInfo) :
    (s.enterError e).regs = s.regs := rfl

@[simp] theorem State.enterError_streams (s : State) (e : ErrInfo) :
    (s.enterError e).streams = s.streams := rfl

@[simp] theorem State.enterError_pumps (s : State) (e : ErrInfo) :
    (s.enterError e).pumps = s.pumps := rfl

@[simp] theorem State.enterError_tables (s : State) (e : ErrInfo) :
    (s.enterError e).tables = s.tables := rfl

@[simp] theorem State.enterError_sv0 (s : State) (e : ErrInfo) :
    (s.enterError e).sv0 = s.sv0 := rfl

@[simp] theorem State.enterError_fuji (s : State) (e : ErrInfo) :
    (s.enterError e).fuji = s.fuji := rfl

@[simp] theorem State.enterError_inMem (s : State) (e : ErrInfo) :
    (s.enterError e).inMem = s.inMem := rfl

@[simp] theorem State.enterError_inRaced (s : State) (e : ErrInfo) :
    (s.enterError e).inRaced = s.inRaced := rfl

@[simp] theorem State.enterError_outMem (s : State) (e : ErrInfo) :
    (s.enterError e).outMem = s.outMem := rfl

@[simp] theorem State.enterError_outRaced (s : State) (e : ErrInfo) :
    (s.enterError e).outRaced = s.outRaced := rfl

@[simp] theorem State.enterError_unseen (s : State) (e : ErrInfo) :
    (s.enterError e).unseen = s.unseen := rfl

@[simp] theorem State.enterError_events (s : State) (e : ErrInfo) :
    (s.enterError e).events = s.events := rfl

@[simp] theorem State.enterError_hostData (s : State) (e : ErrInfo) :
    (s.enterError e).hostData = s.hostData := rfl

@[simp] theorem State.enterError_draws (s : State) (e : ErrInfo) :
    (s.enterError e).draws = s.draws + 1 := rfl

/-! ## State.clearReady -/

@[simp] theorem State.clearReady_par (s : State) :
    (s.clearReady).par = s.par := rfl

@[simp] theorem State.clearReady_status (s : State) :
    (s.clearReady).status = s.status := rfl

@[simp] theorem State.clearReady_irqEn (s : State) :
    (s.clearReady).irqEn = s.irqEn := rfl

@[simp] theorem State.clearReady_cmd (s : State) :
    (s.clearReady).cmd = s.cmd := rfl

@[simp] theorem State.clearReady_res (s : State) :
    (s.clearReady).res = s.res := rfl

@[simp] theorem State.clearReady_cmdcnt (s : State) :
    (s.clearReady).cmdcnt = s.cmdcnt := rfl

@[simp] theorem State.clearReady_err (s : State) :
    (s.clearReady).err = s.err := rfl

@[simp] theorem State.clearReady_regs (s : State) :
    (s.clearReady).regs = s.regs := rfl

@[simp] theorem State.clearReady_streams (s : State) :
    (s.clearReady).streams = s.streams := rfl

@[simp] theorem State.clearReady_pumps (s : State) :
    (s.clearReady).pumps = s.pumps := rfl

@[simp] theorem State.clearReady_tables (s : State) :
    (s.clearReady).tables = s.tables := rfl

@[simp] theorem State.clearReady_sv0 (s : State) :
    (s.clearReady).sv0 = { s.sv0 with ready := false } := rfl

@[simp] theorem State.clearReady_fuji (s : State) :
    (s.clearReady).fuji = s.fuji := rfl

@[simp] theorem State.clearReady_inMem (s : State) :
    (s.clearReady).inMem = s.inMem := rfl

@[simp] theorem State.clearReady_inRaced (s : State) :
    (s.clearReady).inRaced = s.inRaced := rfl

@[simp] theorem State.clearReady_outMem (s : State) :
    (s.clearReady).outMem = s.outMem := rfl

@[simp] theorem State.clearReady_outRaced (s : State) :
    (s.clearReady).outRaced = s.outRaced := rfl

@[simp] theorem State.clearReady_unseen (s : State) :
    (s.clearReady).unseen = s.unseen := rfl

@[simp] theorem State.clearReady_events (s : State) :
    (s.clearReady).events = s.events := rfl

@[simp] theorem State.clearReady_hostData (s : State) :
    (s.clearReady).hostData = s.hostData := rfl

@[simp] theorem State.clearReady_draws (s : State) :
    (s.clearReady).draws = s.draws := rfl

/-! ## State.settleMacro -/

@[simp] theorem State.settleMacro_par (s : State) :
    (s.settleMacro).par = s.par := rfl

@[simp] theorem State.settleMacro_status (s : State) :
    (s.settleMacro).status = s.status := rfl

@[simp] theorem State.settleMacro_irqEn (s : State) :
    (s.settleMacro).irqEn = s.irqEn := rfl

@[simp] theorem State.settleMacro_cmd (s : State) :
    (s.settleMacro).cmd = s.cmd := rfl

@[simp] theorem State.settleMacro_res (s : State) :
    (s.settleMacro).res = s.res := rfl

@[simp] theorem State.settleMacro_cmdcnt (s : State) :
    (s.settleMacro).cmdcnt = s.cmdcnt := rfl

@[simp] theorem State.settleMacro_err (s : State) :
    (s.settleMacro).err = s.err := rfl

@[simp] theorem State.settleMacro_regs (s : State) :
    (s.settleMacro).regs = s.regs := rfl

@[simp] theorem State.settleMacro_streams (s : State) :
    (s.settleMacro).streams = s.streams := rfl

@[simp] theorem State.settleMacro_pumps (s : State) :
    (s.settleMacro).pumps = s.pumps := rfl

@[simp] theorem State.settleMacro_tables (s : State) :
    (s.settleMacro).tables = s.tables := rfl

@[simp] theorem State.settleMacro_sv0 (s : State) :
    (s.settleMacro).sv0 = s.sv0 := rfl

@[simp] theorem State.settleMacro_fuji (s : State) :
    (s.settleMacro).fuji = s.fuji := rfl

@[simp] theorem State.settleMacro_inMem (s : State) :
    (s.settleMacro).inMem = s.inMem := rfl

@[simp] theorem State.settleMacro_inRaced (s : State) :
    (s.settleMacro).inRaced = s.inRaced := rfl

@[simp] theorem State.settleMacro_outMem (s : State) :
    (s.settleMacro).outMem = settleRaced s.draws s.outRaced s.outMem := rfl

@[simp] theorem State.settleMacro_outRaced (s : State) :
    (s.settleMacro).outRaced = [] := rfl

@[simp] theorem State.settleMacro_unseen (s : State) :
    (s.settleMacro).unseen = s.hideRegion := rfl

@[simp] theorem State.settleMacro_events (s : State) :
    (s.settleMacro).events = s.events := rfl

@[simp] theorem State.settleMacro_hostData (s : State) :
    (s.settleMacro).hostData = s.hostData := rfl

@[simp] theorem State.settleMacro_draws (s : State) :
    (s.settleMacro).draws = s.draws := rfl

/-! ## State.spoilImage -/

@[simp] theorem State.spoilImage_par (s : State) :
    (s.spoilImage).par = s.par := rfl

@[simp] theorem State.spoilImage_status (s : State) :
    (s.spoilImage).status = s.status := rfl

@[simp] theorem State.spoilImage_irqEn (s : State) :
    (s.spoilImage).irqEn = s.irqEn := rfl

@[simp] theorem State.spoilImage_cmd (s : State) :
    (s.spoilImage).cmd = s.cmd := rfl

@[simp] theorem State.spoilImage_res (s : State) :
    (s.spoilImage).res = s.res := rfl

@[simp] theorem State.spoilImage_cmdcnt (s : State) :
    (s.spoilImage).cmdcnt = s.cmdcnt := rfl

@[simp] theorem State.spoilImage_err (s : State) :
    (s.spoilImage).err = s.err := rfl

@[simp] theorem State.spoilImage_regs (s : State) :
    (s.spoilImage).regs = s.regs := rfl

@[simp] theorem State.spoilImage_streams (s : State) :
    (s.spoilImage).streams = s.streams := rfl

@[simp] theorem State.spoilImage_pumps (s : State) :
    (s.spoilImage).pumps = s.pumps := rfl

@[simp] theorem State.spoilImage_tables (s : State) :
    (s.spoilImage).tables = s.tables := rfl

@[simp] theorem State.spoilImage_sv0 (s : State) :
    (s.spoilImage).sv0 = s.sv0 := rfl

@[simp] theorem State.spoilImage_fuji (s : State) :
    (s.spoilImage).fuji = s.fuji := rfl

@[simp] theorem State.spoilImage_inMem (s : State) :
    (s.spoilImage).inMem = s.inMem := rfl

@[simp] theorem State.spoilImage_inRaced (s : State) :
    (s.spoilImage).inRaced = s.inRaced := rfl

@[simp] theorem State.spoilImage_outMem (s : State) :
    (s.spoilImage).outMem = settleRaced s.draws s.outRaced (spoilRegion s.regs s.par.outSize s.draws s.outMem) := rfl

@[simp] theorem State.spoilImage_outRaced (s : State) :
    (s.spoilImage).outRaced = [] := rfl

@[simp] theorem State.spoilImage_unseen (s : State) :
    (s.spoilImage).unseen = s.hideRegion := rfl

@[simp] theorem State.spoilImage_events (s : State) :
    (s.spoilImage).events = s.events := rfl

@[simp] theorem State.spoilImage_hostData (s : State) :
    (s.spoilImage).hostData = s.hostData := rfl

@[simp] theorem State.spoilImage_draws (s : State) :
    (s.spoilImage).draws = s.draws := rfl

/-! ## State.spoilMacro -/

@[simp] theorem State.spoilMacro_par (s : State) (p : PumpIx) :
    (s.spoilMacro p).par = s.par := rfl

@[simp] theorem State.spoilMacro_status (s : State) (p : PumpIx) :
    (s.spoilMacro p).status = s.status := rfl

@[simp] theorem State.spoilMacro_irqEn (s : State) (p : PumpIx) :
    (s.spoilMacro p).irqEn = s.irqEn := rfl

@[simp] theorem State.spoilMacro_cmd (s : State) (p : PumpIx) :
    (s.spoilMacro p).cmd = s.cmd := rfl

@[simp] theorem State.spoilMacro_res (s : State) (p : PumpIx) :
    (s.spoilMacro p).res = s.res := rfl

@[simp] theorem State.spoilMacro_cmdcnt (s : State) (p : PumpIx) :
    (s.spoilMacro p).cmdcnt = s.cmdcnt := rfl

@[simp] theorem State.spoilMacro_err (s : State) (p : PumpIx) :
    (s.spoilMacro p).err = s.err := rfl

@[simp] theorem State.spoilMacro_regs (s : State) (p : PumpIx) :
    (s.spoilMacro p).regs = s.regs := rfl

@[simp] theorem State.spoilMacro_streams (s : State) (p : PumpIx) :
    (s.spoilMacro p).streams = s.streams := rfl

@[simp] theorem State.spoilMacro_pumps (s : State) (p : PumpIx) :
    (s.spoilMacro p).pumps = s.pumps.set p (freePumpSlot s.par s.draws) := rfl

@[simp] theorem State.spoilMacro_tables (s : State) (p : PumpIx) :
    (s.spoilMacro p).tables = s.tables := rfl

@[simp] theorem State.spoilMacro_sv0 (s : State) (p : PumpIx) :
    (s.spoilMacro p).sv0 = s.sv0 := rfl

@[simp] theorem State.spoilMacro_fuji (s : State) (p : PumpIx) :
    (s.spoilMacro p).fuji = s.fuji := rfl

@[simp] theorem State.spoilMacro_inMem (s : State) (p : PumpIx) :
    (s.spoilMacro p).inMem = s.inMem := rfl

@[simp] theorem State.spoilMacro_inRaced (s : State) (p : PumpIx) :
    (s.spoilMacro p).inRaced = s.inRaced := rfl

@[simp] theorem State.spoilMacro_outMem (s : State) (p : PumpIx) :
    (s.spoilMacro p).outMem =
      settleRaced s.draws s.outRaced (spoilRegion s.regs s.par.outSize s.draws s.outMem) := rfl

@[simp] theorem State.spoilMacro_outRaced (s : State) (p : PumpIx) :
    (s.spoilMacro p).outRaced = [] := rfl

@[simp] theorem State.spoilMacro_unseen (s : State) (p : PumpIx) :
    (s.spoilMacro p).unseen = s.hideRegion := rfl

@[simp] theorem State.spoilMacro_events (s : State) (p : PumpIx) :
    (s.spoilMacro p).events = s.events := rfl

@[simp] theorem State.spoilMacro_hostData (s : State) (p : PumpIx) :
    (s.spoilMacro p).hostData = s.hostData := rfl

@[simp] theorem State.spoilMacro_draws (s : State) (p : PumpIx) :
    (s.spoilMacro p).draws = s.draws := rfl

/-! ## State.observe -/

@[simp] theorem State.observe_par (s : State) (r : HostReg) :
    (s.observe r).par = s.par := rfl

@[simp] theorem State.observe_status (s : State) (r : HostReg) :
    (s.observe r).status = s.status := rfl

@[simp] theorem State.observe_irqEn (s : State) (r : HostReg) :
    (s.observe r).irqEn = s.irqEn := rfl

@[simp] theorem State.observe_cmd (s : State) (r : HostReg) :
    (s.observe r).cmd = s.cmd := rfl

@[simp] theorem State.observe_res (s : State) (r : HostReg) :
    (s.observe r).res = s.res := rfl

@[simp] theorem State.observe_cmdcnt (s : State) (r : HostReg) :
    (s.observe r).cmdcnt = s.cmdcnt := rfl

@[simp] theorem State.observe_err (s : State) (r : HostReg) :
    (s.observe r).err = s.err := rfl

@[simp] theorem State.observe_regs (s : State) (r : HostReg) :
    (s.observe r).regs = s.regs := rfl

@[simp] theorem State.observe_streams (s : State) (r : HostReg) :
    (s.observe r).streams = s.streams := rfl

@[simp] theorem State.observe_pumps (s : State) (r : HostReg) :
    (s.observe r).pumps = s.pumps := rfl

@[simp] theorem State.observe_tables (s : State) (r : HostReg) :
    (s.observe r).tables = s.tables := rfl

@[simp] theorem State.observe_sv0 (s : State) (r : HostReg) :
    (s.observe r).sv0 = s.sv0 := rfl

@[simp] theorem State.observe_fuji (s : State) (r : HostReg) :
    (s.observe r).fuji = s.fuji := rfl

@[simp] theorem State.observe_inMem (s : State) (r : HostReg) :
    (s.observe r).inMem = s.inMem := rfl

@[simp] theorem State.observe_inRaced (s : State) (r : HostReg) :
    (s.observe r).inRaced = s.inRaced := rfl

@[simp] theorem State.observe_outMem (s : State) (r : HostReg) :
    (s.observe r).outMem = s.outMem := rfl

@[simp] theorem State.observe_outRaced (s : State) (r : HostReg) :
    (s.observe r).outRaced = s.outRaced := rfl

@[simp] theorem State.observe_unseen (s : State) (r : HostReg) :
    (s.observe r).unseen =
      if r = .status ∧ s.status.busy = false ∧ (s.status.done = true ∨ s.status.err = true) then [] else s.unseen := rfl

@[simp] theorem State.observe_events (s : State) (r : HostReg) :
    (s.observe r).events = s.events := rfl

@[simp] theorem State.observe_hostData (s : State) (r : HostReg) :
    (s.observe r).hostData = s.hostData := rfl

@[simp] theorem State.observe_draws (s : State) (r : HostReg) :
    (s.observe r).draws = s.draws := rfl

/-! ## State.writeSample -/

@[simp] theorem State.writeSample_par (s : State) (i : Nat) (v : Sample) :
    (s.writeSample i v).par = s.par := rfl

@[simp] theorem State.writeSample_status (s : State) (i : Nat) (v : Sample) :
    (s.writeSample i v).status = s.status := rfl

@[simp] theorem State.writeSample_irqEn (s : State) (i : Nat) (v : Sample) :
    (s.writeSample i v).irqEn = s.irqEn := rfl

@[simp] theorem State.writeSample_cmd (s : State) (i : Nat) (v : Sample) :
    (s.writeSample i v).cmd = s.cmd := rfl

@[simp] theorem State.writeSample_res (s : State) (i : Nat) (v : Sample) :
    (s.writeSample i v).res = s.res := rfl

@[simp] theorem State.writeSample_cmdcnt (s : State) (i : Nat) (v : Sample) :
    (s.writeSample i v).cmdcnt = s.cmdcnt := rfl

@[simp] theorem State.writeSample_err (s : State) (i : Nat) (v : Sample) :
    (s.writeSample i v).err = s.err := rfl

@[simp] theorem State.writeSample_regs (s : State) (i : Nat) (v : Sample) :
    (s.writeSample i v).regs = s.regs := rfl

@[simp] theorem State.writeSample_streams (s : State) (i : Nat) (v : Sample) :
    (s.writeSample i v).streams = s.streams := rfl

@[simp] theorem State.writeSample_pumps (s : State) (i : Nat) (v : Sample) :
    (s.writeSample i v).pumps = s.pumps := rfl

@[simp] theorem State.writeSample_tables (s : State) (i : Nat) (v : Sample) :
    (s.writeSample i v).tables = s.tables := rfl

@[simp] theorem State.writeSample_sv0 (s : State) (i : Nat) (v : Sample) :
    (s.writeSample i v).sv0 = s.sv0 := rfl

@[simp] theorem State.writeSample_fuji (s : State) (i : Nat) (v : Sample) :
    (s.writeSample i v).fuji = s.fuji := rfl

@[simp] theorem State.writeSample_inMem (s : State) (i : Nat) (v : Sample) :
    (s.writeSample i v).inMem = s.inMem := rfl

@[simp] theorem State.writeSample_inRaced (s : State) (i : Nat) (v : Sample) :
    (s.writeSample i v).inRaced = s.inRaced := rfl

@[simp] theorem State.writeSample_outMem (s : State) (i : Nat) (v : Sample) :
    (s.writeSample i v).outMem =
      Memory.put s.outMem i (if s.unseenSample i then Config.freeSample s.draws i else v) := rfl

@[simp] theorem State.writeSample_outRaced (s : State) (i : Nat) (v : Sample) :
    (s.writeSample i v).outRaced =
      if s.busyRegion i then s.outRaced.insert i else s.outRaced := rfl

@[simp] theorem State.writeSample_unseen (s : State) (i : Nat) (v : Sample) :
    (s.writeSample i v).unseen = s.unseen := rfl

@[simp] theorem State.writeSample_events (s : State) (i : Nat) (v : Sample) :
    (s.writeSample i v).events = s.events := rfl

@[simp] theorem State.writeSample_hostData (s : State) (i : Nat) (v : Sample) :
    (s.writeSample i v).hostData = s.hostData := rfl

@[simp] theorem State.writeSample_draws (s : State) (i : Nat) (v : Sample) :
    (s.writeSample i v).draws = s.draws + 1 := rfl

/-! ## Slots after an update -/

@[simp] theorem State.setStream_same (s : State) (k : StreamIx) (v : StreamSlot) : (s.setStream k v).streams[k] = v := by
  simp

theorem State.setStream_other (s : State) {k j : StreamIx} (v : StreamSlot) (h : j ≠ k) :
    (s.setStream k v).streams[j] = s.streams[j] := by
  have : k.val ≠ j.val := fun e => h (Fin.ext e.symm)
  simp [this]

@[simp] theorem State.setPump_same (s : State) (p : PumpIx) (v : Pump) : (s.setPump p v).pumps[p] = v := by simp

theorem State.setPump_other (s : State) {p j : PumpIx} (v : Pump) (h : j ≠ p) :
    (s.setPump p v).pumps[j] = s.pumps[j] := by
  have : p.val ≠ j.val := fun e => h (Fin.ext e.symm)
  simp [this]

@[simp] theorem State.setTable_same (s : State) (t : TableIx) (v : HuffTable) : (s.setTable t v).tables[t] = v := by
  simp

theorem State.setTable_other (s : State) {t j : TableIx} (v : HuffTable) (h : j ≠ t) :
    (s.setTable t v).tables[j] = s.tables[j] := by
  have : t.val ≠ j.val := fun e => h (Fin.ext e.symm)
  simp [this]

end Sys2Proof.Machine
end

