-- ==== Sys2Proof/Laws/Effects.lean ====
section
/-! SUPPORT. How a command's pseudocode ends, said once: the sequencing of effects, the shared checks, bounded loops, the
accesses to IN and OUT, and the two ways a command finishes. -/

namespace Sys2Proof.Machine

/-! ## Parameters -/

/-- The spec's values of the parameters that are its decisions, as facts (00_scope.md R6). -/
theorem Params.decided_iff {par : Params} :
    par.decided = true ↔ par.ns = 4 ∧ par.np = 2 ∧ par.nt = 4 ∧ par.cacheWidth = 64 ∧ par.maxGetBits = 32 ∧
      par.fillThreshold = 32 ∧ par.htMaxLen = 16 ∧ par.htMaxValues = 256 ∧ par.sv0MaxRows = 65535 :=
  decide_eq_true_iff

theorem Params.cacheWidth_eq {par : Params} (h : par.decided = true) : par.cacheWidth = 64 :=
  (Params.decided_iff.mp h).2.2.2.1

theorem Params.fillThreshold_eq {par : Params} (h : par.decided = true) : par.fillThreshold = 32 :=
  (Params.decided_iff.mp h).2.2.2.2.2.1

theorem Params.htMaxLen_eq {par : Params} (h : par.decided = true) : par.htMaxLen = 16 :=
  (Params.decided_iff.mp h).2.2.2.2.2.2.1

/-- The decode check of a block: the word decodes and the command is one the block has (30_encoding.md R82, R84). -/
theorem decodeIn_ok {par : Params} {w : Word} {i : Instr} :
    decodeIn par w = .ok i ↔ decode w = .ok i ∧ i.fits par = true := by
  unfold decodeIn
  cases decode w with
  | error e => exact ⟨nofun, fun h => nomatch h.1⟩
  | ok j =>
    show (if j.fits par then (.ok j : Decoded Instr) else .error .operandRange) = .ok i ↔ _
    split
    · exact ⟨fun h => ⟨h, Except.ok.inj h ▸ ‹_›⟩, fun h => h.1⟩
    · exact ⟨nofun, fun h => absurd (Except.ok.inj h.1 ▸ h.2) ‹_›⟩

/-- A number names a slot of a block where it is below the block's count and State's places. -/
theorem slotOf_some {count n x : Nat} {k : Fin n} : slotOf count n x = some k ↔ k.val = x ∧ x < count := by
  unfold slotOf
  by_cases h : x < n
  · rw [dif_pos h]
    by_cases h' : x < count
    · rw [if_pos h', Option.some.injEq, Fin.ext_iff]
      exact ⟨fun e => ⟨e.symm, h'⟩, fun e => e.1.symm⟩
    · rw [if_neg h']
      exact ⟨nofun, fun e => absurd e.2 h'⟩
  · rw [dif_neg h]
    exact ⟨nofun, fun e => absurd (e.1 ▸ k.isLt) h⟩

/-- With the spec's counts a block has every well-formed command (30_encoding.md R82). -/
theorem fits_of_decided {par : Params} {i : Instr} (hp : par.decided = true) (hi : i.wf = true) :
    i.fits par = true := by
  obtain ⟨h1, h2, h3, -, h5, -, -, h8, -⟩ := Params.decided_iff.mp hp
  have hs : ∀ k, par.hasStream k = true := fun k => decide_eq_true (h1 ▸ k.isLt)
  have hq : ∀ k, par.hasPump k = true := fun k => decide_eq_true (h2 ▸ k.isLt)
  have ht : ∀ k, par.hasTable k = true := fun k => decide_eq_true (h3 ▸ k.isLt)
  cases i <;>
    simp only [Instr.fits, Instr.wf, bitCountOk, valueCountOk, Config.maxGetBits, decide_eq_true_eq] at hi ⊢ <;>
    simp only [hs, hq, ht, h5, h8, hi, Bool.true_and, Bool.and_self, decide_true]
  all_goals exact hi

/-- The parameters' ranges, as facts (92_eei_decisions.md, OPEN parameters). -/
theorem Params.legal_iff {par : Params} :
    par.legal = true ↔ (1 ≤ par.inSize ∧ par.inSize ≤ 2 ^ 32 ∧ 1 ≤ par.outSize ∧ par.outSize ≤ 2 ^ 32 ∧
      2 ≤ par.pxMaxW ∧ 1 ≤ par.pxMaxH ∧ 1 ≤ par.nInst) ∧ par.decided = true := by
  simp only [Params.legal, Bool.and_eq_true, decide_eq_true_eq]

/-! ## Sequencing -/

theorem Eff.bind_ok {α β : Type} {x : Eff α} {f : α → Eff β} {b : β} :
    (x >>= f) = .ok b ↔ ∃ a, x = .ok a ∧ f a = .ok b := by
  cases x <;> simp [bind, Except.bind]

theorem Eff.bind_error {α β : Type} {x : Eff α} {f : α → Eff β} {e : Stop} :
    (x >>= f) = .error e ↔ x = .error e ∨ ∃ a, x = .ok a ∧ f a = .error e := by
  cases x <;> simp [bind, Except.bind]

@[simp] theorem Eff.ok_bind {α β : Type} (a : α) (f : α → Eff β) : ((.ok a : Eff α) >>= f) = f a := rfl

@[simp] theorem Eff.error_bind {α β : Type} (e : Stop) (f : α → Eff β) :
    ((.error e : Eff α) >>= f) = .error e := rfl

@[simp] theorem Eff.pure_ok {α : Type} (a : α) : (pure a : Eff α) = .ok a := rfl

/-- What a piece of pseudocode can do: it answers a value with the property, or raises one of the codes; it never
faults. -/
def Eff.Can {α : Type} (codes : List ErrCode) (post : α → Prop) (x : Eff α) : Prop :=
  match x with
  | .ok a => post a
  | .error (.raised e) => e.code ∈ codes
  | .error (.fault _) => False

theorem Eff.can_ok {α : Type} {codes : List ErrCode} {post : α → Prop} {a : α} (h : post a) :
    Eff.Can codes post (.ok a) := h

theorem Eff.can_raise {α : Type} {codes : List ErrCode} {post : α → Prop} {code : ErrCode} {r c m v : Int}
    (h : code ∈ codes) : Eff.Can codes post (raiseError (α := α) code r c m v) := h

theorem Eff.can_bind {α β : Type} {codes : List ErrCode} {mid : α → Prop} {post : β → Prop} {x : Eff α}
    {f : α → Eff β} (hx : Eff.Can codes mid x) (hf : ∀ a, mid a → Eff.Can codes post (f a)) :
    Eff.Can codes post (x >>= f) := by
  match x, hx with
  | .ok a, h => exact hf a h
  | .error (.raised e), h => exact h

theorem Eff.can_mono {α : Type} {codes codes' : List ErrCode} {post post' : α → Prop} {x : Eff α}
    (h : Eff.Can codes post x) (hc : ∀ c ∈ codes, c ∈ codes') (hp : ∀ a, post a → post' a) :
    Eff.Can codes' post' x := by
  match x, h with
  | .ok a, h => exact hp a h
  | .error (.raised e), h => exact hc _ h

theorem Eff.Can.of_ok {α : Type} {codes : List ErrCode} {post : α → Prop} {x : Eff α} {a : α}
    (h : Eff.Can codes post x) (hx : x = .ok a) : post a := by subst hx; exact h

theorem Eff.Can.no_fault {α : Type} {codes : List ErrCode} {post : α → Prop} {x : Eff α} {f : Fault}
    (h : Eff.Can codes post x) : x ≠ .error (.fault f) := by rintro rfl; exact h

/-! ## Checks -/

@[simp] theorem require_ok {ok : Bool} {e : ErrInfo} {u : Unit} : require ok e = .ok u ↔ ok = true := by
  cases ok <;> simp [require]

@[simp] theorem require_error {ok : Bool} {e : ErrInfo} {x : Stop} :
    require ok e = .error x ↔ ok = false ∧ x = .raised e := by
  cases ok <;> simp [require, eq_comm]

theorem can_require {codes : List ErrCode} {ok : Bool} {e : ErrInfo} (h : e.code ∈ codes) :
    Eff.Can codes (fun _ => ok = true) (require ok e) := by
  cases ok
  · exact h
  · rfl

theorem schk_ok {s : State} {k : StreamIx} {v : StreamSlot} :
    schk s k = .ok v ↔ s.streams[k].valid = true ∧ v = s.streams[k] := by
  unfold schk
  by_cases h : s.streams[k].valid = true
  · rw [if_pos h]
    exact ⟨fun e => ⟨h, (Except.ok.inj e).symm⟩, fun e => by rw [e.2]⟩
  · rw [if_neg h]
    exact ⟨fun e => (by cases e), fun e => absurd e.1 h⟩

theorem can_schk {codes : List ErrCode} {s : State} {k : StreamIx} (h : .state ∈ codes) :
    Eff.Can codes (fun v => v = s.streams[k] ∧ v.valid = true) (schk s k) := by
  unfold schk
  split
  · exact ⟨rfl, ‹_›⟩
  · exact h

theorem pchk_ok {s : State} {p : PumpIx} {v : Pump} :
    pchk s p = .ok v ↔ s.pumps[p].valid = true ∧ v = s.pumps[p] := by
  unfold pchk
  by_cases h : s.pumps[p].valid = true
  · rw [if_pos h]
    exact ⟨fun e => ⟨h, (Except.ok.inj e).symm⟩, fun e => by rw [e.2]⟩
  · rw [if_neg h]
    exact ⟨fun e => (by cases e), fun e => absurd e.1 h⟩

theorem can_pchk {codes : List ErrCode} {s : State} {p : PumpIx} (h : .state ∈ codes) :
    Eff.Can codes (fun v => v = s.pumps[p] ∧ v.valid = true) (pchk s p) := by
  unfold pchk
  split
  · exact ⟨rfl, ‹_›⟩
  · exact h

theorem tchk_ok {s : State} {t : TableIx} {v : HuffTable} :
    tchk s t = .ok v ↔ s.tables[t].state = .ready ∧ v = s.tables[t] := by
  unfold tchk
  by_cases h : s.tables[t].state = .ready
  · rw [if_pos h]
    exact ⟨fun e => ⟨h, (Except.ok.inj e).symm⟩, fun e => by rw [e.2]⟩
  · rw [if_neg h]
    exact ⟨fun e => (by cases e), fun e => absurd e.1 h⟩

theorem can_tchk {codes : List ErrCode} {s : State} {t : TableIx} (h : .state ∈ codes) :
    Eff.Can codes (fun v => v = s.tables[t] ∧ v.state = .ready) (tchk s t) := by
  unfold tchk
  split
  · exact ⟨rfl, ‹_›⟩
  · exact h

theorem imgChk_ok {s : State} {u : Unit} : imgChk s = .ok u ↔ imageOk s := by
  simp only [imgChk, Eff.bind_ok, require_ok, imageOk, Bool.not_eq_true', decide_eq_false_iff_not]
  constructor
  · rintro ⟨_, h1, _, h2, h3⟩
    exact ⟨by omega, by omega, by omega, by omega⟩
  · rintro ⟨h1, h2, h3, h4⟩
    exact ⟨(), by omega, (), by omega, by omega⟩

theorem can_imgChk {codes : List ErrCode} {s : State} (hc : .corrupt ∈ codes) (hb : .ioBounds ∈ codes) :
    Eff.Can codes (fun _ => imageOk s) (imgChk s) := by
  have key : Eff.Can codes (fun _ => True) (imgChk s) :=
    Eff.can_bind (can_require hc) fun _ _ => Eff.can_bind (can_require hc) fun _ _ =>
      Eff.can_mono (can_require hb) (fun _ h => h) fun _ _ => trivial
  match h : imgChk s, key with
  | .ok _, _ => exact imgChk_ok.mp h
  | .error (.raised e), k => exact k

/-- After IMGCHK every index of the image lies in OUT (10_state.md R31). -/
theorem outIdx_lt {s : State} (h : imageOk s) {r c : Nat} (hr : r < s.regs.imgH.toNat) (hc : c < s.regs.imgW.toNat) :
    outIdx s.regs r c < s.par.outSize := by
  obtain ⟨_, _, _, h4⟩ := h
  have : r * s.regs.imgPitch.toNat ≤ (s.regs.imgH.toNat - 1) * s.regs.imgPitch.toNat :=
    Nat.mul_le_mul_right _ (by omega)
  unfold outIdx
  omega

/-- The image's indices are distinct. -/
theorem outIdx_inj {s : State} (h : imageOk s) {r c r' c' : Nat} (hc : c < s.regs.imgW.toNat)
    (hc' : c' < s.regs.imgW.toNat) (he : outIdx s.regs r c = outIdx s.regs r' c') : r = r' ∧ c = c' := by
  obtain ⟨_, _, h3, _⟩ := h
  unfold outIdx at he
  have hr : r = r' := by
    rcases Nat.lt_trichotomy r r' with h | h | h
    · have : (r + 1) * s.regs.imgPitch.toNat ≤ r' * s.regs.imgPitch.toNat := Nat.mul_le_mul_right _ h
      rw [Nat.add_mul] at this
      omega
    · exact h
    · have : (r' + 1) * s.regs.imgPitch.toNat ≤ r * s.regs.imgPitch.toNat := Nat.mul_le_mul_right _ h
      rw [Nat.add_mul] at this
      omega
  subst hr
  exact ⟨rfl, by omega⟩

/-! ## Bounded loops -/

@[simp] theorem forUp_zero {σ : Type} (body : Nat → σ → Eff σ) (i : Nat) (x : σ) : forUp body 0 i x = .ok x := rfl

theorem forUp_succ {σ : Type} (body : Nat → σ → Eff σ) (n i : Nat) (x : σ) :
    forUp body (n + 1) i x = body i x >>= forUp body n (i + 1) := by
  simp only [forUp]
  cases body i x <;> rfl

theorem forUp_succ_ok {σ : Type} {body : Nat → σ → Eff σ} {n i : Nat} {x z : σ} :
    forUp body (n + 1) i x = .ok z ↔ ∃ y, body i x = .ok y ∧ forUp body n (i + 1) y = .ok z := by
  rw [forUp_succ, Eff.bind_ok]

/-- A loop keeps what its body keeps. -/
theorem can_forUp {σ : Type} {codes : List ErrCode} {body : Nat → σ → Eff σ} (inv : Nat → σ → Prop) (n i : Nat) (x : σ)
    (hx : inv i x) (hb : ∀ j y, i ≤ j → j < i + n → inv j y → Eff.Can codes (inv (j + 1)) (body j y)) :
    Eff.Can codes (inv (i + n)) (forUp body n i x) := by
  induction n generalizing i x with
  | zero => exact hx
  | succ n ih =>
    rw [forUp_succ]
    refine Eff.can_bind (hb i x le_rfl (by omega) hx) fun y hy => ?_
    have := ih (i + 1) y hy fun j z h1 h2 hz => hb j z (by omega) (by omega) hz
    rwa [show i + (n + 1) = i + 1 + n by omega]

/-- What a completed loop keeps. -/
theorem forUp_invariant {σ : Type} {body : Nat → σ → Eff σ} (inv : Nat → σ → Prop) {n i : Nat} {x z : σ}
    (hx : inv i x) (hb : ∀ j y y', i ≤ j → j < i + n → inv j y → body j y = .ok y' → inv (j + 1) y')
    (h : forUp body n i x = .ok z) : inv (i + n) z := by
  induction n generalizing i x with
  | zero => cases h; exact hx
  | succ n ih =>
    obtain ⟨y, hy, hz⟩ := forUp_succ_ok.mp h
    have := ih (hb i x y le_rfl (by omega) hx hy) (fun j a b h1 h2 => hb j a b (by omega) (by omega)) hz
    rwa [show i + (n + 1) = i + 1 + n by omega]

/-! ## IN -/

theorem readIn_ok {s : State} {raced : List Nat} {a : Nat} {b : Byte} :
    readIn s raced a = .ok b ↔ a < s.par.inSize ∧
      b = if a ∈ s.inRaced ∨ a ∈ raced then Config.racedByte s.draws a
        else (Memory.get s.inMem a).getD (Config.inInitial a) := by
  unfold readIn
  by_cases h : a < s.par.inSize
  · rw [if_pos h]
    by_cases h' : a ∈ s.inRaced ∨ a ∈ raced
    · have h2 : (s.inRaced.elem a || raced.elem a) = true := by simpa using h'
      rw [if_pos h2, if_pos h']
      exact ⟨fun e => ⟨h, (Except.ok.inj e).symm⟩, fun e => by rw [e.2]⟩
    · have h2 : ¬ (s.inRaced.elem a || raced.elem a) = true := by simpa using h'
      rw [if_neg h2, if_neg h']
      exact ⟨fun e => ⟨h, (Except.ok.inj e).symm⟩, fun e => by rw [e.2]⟩
  · rw [if_neg h]
    exact ⟨fun e => (by cases e), fun e => absurd e.1 h⟩

theorem can_readIn {codes : List ErrCode} {s : State} {raced : List Nat} {a : Nat} (h : a < s.par.inSize) :
    Eff.Can codes (fun _ => True) (readIn s raced a) := by
  unfold readIn
  rw [if_pos h]
  split <;> trivial

/-- A stream's byte, where it exists. -/
theorem readIn_stream {s : State} {a : Nat} (h : a < s.par.inSize) : readIn s [] a = .ok (inByte s a) := by
  rw [readIn_ok]
  refine ⟨h, ?_⟩
  simp [inByte]

theorem readInBytes_stream {s : State} (n : Nat) {a : Nat} (h : a + n ≤ s.par.inSize) :
    readInBytes s [] a n = .ok ((List.range n).map fun i => inByte s (a + i)) := by
  induction n generalizing a with
  | zero => rfl
  | succ n ih =>
    simp only [readInBytes]
    rw [readIn_stream (by omega), Eff.ok_bind, ih (by omega), Eff.ok_bind, Eff.pure_ok, List.range_succ_eq_map]
    simp [Function.comp_def, Nat.add_assoc, Nat.add_comm 1]

theorem can_readInBytes {codes : List ErrCode} {s : State} {raced : List Nat} (n : Nat) {a : Nat}
    (h : a + n ≤ s.par.inSize) : Eff.Can codes (fun l => l.length = n) (readInBytes s raced a n) := by
  induction n generalizing a with
  | zero => rfl
  | succ n ih =>
    simp only [readInBytes]
    refine Eff.can_bind (can_readIn (by omega)) fun b _ => Eff.can_bind (ih (by omega)) fun l hl => ?_
    simp [hl, Eff.Can]

/-! ## OUT -/

theorem readOut_ok {par : Params} {m : OutMemory} {i : Nat} {v : Sample} :
    readOut par m i = .ok v ↔ i < par.outSize ∧ v = outSample m i := by
  unfold readOut
  split <;> simp_all [eq_comm]

theorem can_readOut {codes : List ErrCode} {par : Params} {m : OutMemory} {i : Nat} (h : i < par.outSize) :
    Eff.Can codes (fun v => v = outSample m i) (readOut par m i) := by
  unfold readOut
  rw [if_pos h]
  rfl

theorem writeOut_ok {par : Params} {m m' : OutMemory} {i : Nat} {v : Sample} :
    writeOut par m i v = .ok m' ↔ i < par.outSize ∧ m' = Memory.put m i v := by
  unfold writeOut
  split <;> simp_all [eq_comm]

theorem can_writeOut {codes : List ErrCode} {par : Params} {m : OutMemory} {i : Nat} {v : Sample}
    (h : i < par.outSize) : Eff.Can codes (fun m' => m' = Memory.put m i v) (writeOut par m i v) := by
  unfold writeOut
  rw [if_pos h]
  rfl

/-- The region test is membership in the region (20_memory.md R78). -/
theorem ImageRegion.holds_iff {g : ImageRegion} {x : Nat} : g.holds x = true ↔ g.Has x := by
  simp only [ImageRegion.holds, ImageRegion.Has, decide_eq_true_eq]
  constructor
  · rintro ⟨h0, h1, h2⟩
    have h3 : min ((x - g.base.toNat) / g.pitch.toNat) (g.height.toNat - 1) * g.pitch.toNat ≤ x - g.base.toNat :=
      (Nat.mul_le_mul_right _ (min_le_left _ _)).trans (Nat.div_mul_le_self _ _)
    exact ⟨min ((x - g.base.toNat) / g.pitch.toNat) (g.height.toNat - 1), _,
      lt_of_le_of_lt (min_le_right _ _) (by omega), h2, by omega⟩
  · rintro ⟨r, c, hr, hc, rfl⟩
    refine ⟨by omega, by omega, ?_⟩
    rw [show g.base.toNat + r * g.pitch.toNat + c - g.base.toNat = r * g.pitch.toNat + c by omega]
    have h4 : r * g.pitch.toNat ≤
        min ((r * g.pitch.toNat + c) / g.pitch.toNat) (g.height.toNat - 1) * g.pitch.toNat := by
      rcases Nat.eq_zero_or_pos g.pitch.toNat with h | h
      · rw [h]; simp
      · exact Nat.mul_le_mul_right _ (le_min ((Nat.le_div_iff_mul_le h).mpr (by omega)) (by omega))
    omega

/-- Whether a host access to OUT may see a sample as written, said once (20_memory.md R72, R78). -/
theorem hidden_iff {s : State} {x : Nat} : (s.busyRegion x || s.unseenSample x) = true ↔ HiddenSample s x := by
  simp only [Bool.or_eq_true, State.busyRegion, State.unseenSample, Bool.and_eq_true, List.any_eq_true,
    ImageRegion.holds_iff, HiddenSample]

theorem inWindow_iff {off size : Word} {a : Nat} :
    inWindow off size a = true ↔ off.toNat ≤ a ∧ a < off.toNat + size.toNat := by simp [inWindow]

/-- Some slot of a vector, as a check over its list finds it. -/
theorem any_slot {α : Type} {n : Nat} {v : Vector α n} {f : α → Bool} :
    v.toList.any f = true ↔ ∃ k : Fin n, f v[k] = true := by
  rw [List.any_eq_true]
  constructor
  · rintro ⟨x, hx, h⟩
    obtain ⟨k, hk, rfl⟩ := List.mem_iff_getElem.mp hx
    exact ⟨⟨k, by simpa using hk⟩, by simpa using h⟩
  · rintro ⟨k, h⟩
    exact ⟨v[k], by simp, h⟩

/-- When a host write of a byte of IN is a race, said once (20_memory.md R77). -/
theorem State.racesIn_iff {s : State} {a : Nat} :
    s.racesIn a = true ↔
      (s.status.busy = true ∧
        ((∃ k : StreamIx, s.streams[k].valid = true ∧ inWindow s.streams[k].off s.streams[k].size a = true) ∨
          ∃ p : PumpIx, s.pumps[p].valid = true ∧ inWindow s.pumps[p].off s.pumps[p].size a = true)) ∨
      (∃ p : PumpIx, s.pumps[p].unconsumed a = true) ∨ s.sv0.willRead a = true := by
  simp only [State.racesIn, State.liveWindow, Bool.or_eq_true, Bool.and_eq_true, any_slot, or_assoc]

/-! ## An illegal word -/

/-- What an illegal word leaves besides the error state: SV0.ready, cleared for SV0_STRIPES and SV0_DECODE, and nothing
else (30_encoding.md R84, 46_samsung.md R210, R211, R215). -/
theorem State.raiseIllegal_eq (s : State) :
    s.raiseIllegal =
      ({ s with sv0 := { s.sv0 with ready := if clearsReady s.cmd then false else s.sv0.ready } } : State).enterError
        ⟨.illegal, 0, 0, 0, s.cmd.toNat⟩ := by
  unfold State.raiseIllegal
  split <;> rfl

/-! ## How a command finishes -/

/-- Everything a primitive command can do. -/
theorem finishPrimitive_next {s t : State} {r : Eff State} :
    finishPrimitive s r = .next t ↔
      (∃ u, r = .ok u ∧ t = u.complete) ∨ ∃ e, r = .error (.raised e) ∧ t = s.enterError e := by
  match r with
  | .ok u => simp [finishPrimitive, eq_comm]
  | .error (.raised e) => simp [finishPrimitive, eq_comm]
  | .error (.fault f) => simp [finishPrimitive]

/-- Everything a decoding macro command can do. -/
theorem finishMacro_next {s t : State} {p : PumpIx} {r : Eff State} :
    finishMacro s p r = .next t ↔
      (∃ u, r = .ok u ∧ t = u.settleMacro.complete) ∨
        ∃ e, r = .error (.raised e) ∧ t = (s.spoilMacro p).enterError e := by
  match r with
  | .ok u => simp [finishMacro, eq_comm]
  | .error (.raised e) => simp [finishMacro, eq_comm]
  | .error (.fault f) => simp [finishMacro]

/-- A primitive command that cannot fault answers a next state. -/
theorem finishPrimitive_can {codes : List ErrCode} {post : State → Prop} {s : State} {r : Eff State}
    (h : Eff.Can codes post r) : ∃ t, finishPrimitive s r = .next t := by
  match r, h with
  | .ok u, _ => exact ⟨_, rfl⟩
  | .error (.raised e), _ => exact ⟨_, rfl⟩

/-- A decoding macro command that cannot fault answers a next state. -/
theorem finishMacro_can {codes : List ErrCode} {post : State → Prop} {s : State} {p : PumpIx} {r : Eff State}
    (h : Eff.Can codes post r) : ∃ t, finishMacro s p r = .next t := by
  match r, h with
  | .ok u, _ => exact ⟨_, rfl⟩
  | .error (.raised e), _ => exact ⟨_, rfl⟩

/-- The pump a failed macro command leaves is a legal slot (log 7). -/
theorem freePumpSlot_legal (par : Params) (draw : Nat) : (freePumpSlot par draw).legal par = true := by
  unfold freePumpSlot
  split
  · assumption
  · rfl

end Sys2Proof.Machine
end

