-- ==== Sys2Proof/Laws/Pump.lean ====
section
/-! SUPPORT. Everything a pump procedure can do, said once: the fetches, FILL, PGET, PPEEK, PSKIP (spec 42_bitpump.md
R141, R146), on a pump that keeps R37 and R39. -/

namespace Sys2Proof.Machine

/-! ## Bit strings -/

@[simp] theorem bitsOf_length (n v : Nat) : (bitsOf n v).length = n := by simp [bitsOf]

@[simp] theorem bits8_length (b : Byte) : (bits8 b).length = 8 := by simp [bits8]

@[simp] theorem bits32_length (w : Word) : (bits32 w).length = 32 := by simp [bits32]

theorem bitsVal_foldl (b : Bits) (acc : Nat) :
    b.foldl (fun a x => 2 * a + bitNat x) acc = acc * 2 ^ b.length + bitsVal b := by
  induction b generalizing acc with
  | nil => simp [bitsVal]
  | cons x r ih =>
    simp only [List.foldl_cons, List.length_cons, bitsVal]
    rw [ih, ih (2 * 0 + bitNat x)]
    ring

/-- The value of a string is its first part's shifted past the rest (00_scope.md R9). -/
theorem bitsVal_append (a b : Bits) : bitsVal (a ++ b) = bitsVal a * 2 ^ b.length + bitsVal b := by
  rw [bitsVal, List.foldl_append, bitsVal_foldl]
  rfl

theorem bitNat_le (x : Bool) : bitNat x ≤ 1 := by cases x <;> decide

theorem bitsVal_lt (b : Bits) : bitsVal b < 2 ^ b.length := by
  induction b with
  | nil => simp [bitsVal]
  | cons x r ih =>
    have := bitsVal_append [x] r
    simp only [List.singleton_append] at this
    rw [this, List.length_cons, pow_succ]
    have h1 : bitsVal [x] ≤ 1 := by simpa [bitsVal] using bitNat_le x
    have h2 : bitsVal [x] * 2 ^ r.length ≤ 1 * 2 ^ r.length := Nat.mul_le_mul_right _ h1
    omega

/-! ## Legal pumps -/

/-- R37 and R39 of a valid pump of a block with the spec's values, as facts. -/
structure Pump.Fits (par : Params) (p : Pump) : Prop where
  build : par.decided = true
  valid : p.valid = true
  full : p.cache.length ≤ 64
  pad : p.pad ≤ p.cache.length
  window : p.off.toNat + p.size.toNat ≤ par.inSize
  cursor : p.inpos.toNat ≤ p.size.toNat
  dry : p.ended = false → p.pad = 0
  marker : p.marker = true → p.ended = true
  place : p.ended = true → p.endPlaceOk = true

theorem Pump.fits_iff {par : Params} {p : Pump} :
    p.Fits par ↔ par.decided = true ∧ p.valid = true ∧ p.legal par = true := by
  constructor
  · rintro ⟨h0, h1, h2, h3, h4, h5, h6, h7, h8⟩
    have hc := Params.cacheWidth_eq h0
    refine ⟨h0, h1, ?_⟩
    cases he : p.ended <;> cases hm : p.marker <;>
      simp_all [Pump.legal]
  · rintro ⟨h0, h1, h⟩
    simp only [Pump.legal, Params.cacheWidth_eq h0, h1, Bool.not_true, Bool.false_or, Bool.and_eq_true,
      decide_eq_true_eq, Bool.or_eq_true, Bool.not_eq_true'] at h
    obtain ⟨⟨h2, h3⟩, ⟨⟨⟨h4, h5⟩, h6⟩, h7⟩, h8⟩ := h
    refine ⟨h0, h1, h2, h3, h4, h5, ?_, ?_, ?_⟩
    · intro he; rcases h6 with h6 | h6
      · simp [he] at h6
      · exact h6
    · intro hm; rcases h7 with h7 | h7
      · simp [hm] at h7
      · exact h7
    · intro he; rcases h8 with h8 | h8
      · simp [he] at h8
      · exact h8

/-- What a fetch or a read never changes about a pump. -/
structure Pump.SameWindow (p q : Pump) : Prop where
  valid : q.valid = p.valid
  mode : q.mode = p.mode
  off : q.off = p.off
  size : q.size = p.size
  raced : q.raced = p.raced

theorem Pump.SameWindow.refl (p : Pump) : p.SameWindow p := ⟨rfl, rfl, rfl, rfl, rfl⟩

theorem Pump.SameWindow.trans {p q r : Pump} (h : p.SameWindow q) (h' : q.SameWindow r) : p.SameWindow r :=
  ⟨h'.1.trans h.1, h'.2.trans h.2, h'.3.trans h.3, h'.4.trans h.4, h'.5.trans h.5⟩

/-- A pump BP_INIT has just started fits its window. -/
theorem freshPump_fits {par : Params} {m : PumpMode} {off size : Word} (hp : par.decided = true)
    (h : off.toNat + size.toNat ≤ par.inSize) : (freshPump m off size).Fits par :=
  ⟨hp, rfl, by simp [freshPump], by simp [freshPump], h, by simp [freshPump], fun _ => rfl, by simp [freshPump],
    by simp [freshPump]⟩

/-! ## Fetches -/

/-- A fetch of n bits: the window stays, the cache is not touched yet, the padding grows by 0 or n, the rest of R39 is
kept. -/
structure Fetched (par : Params) (n : Nat) (p q : Pump) : Prop where
  window : p.SameWindow q
  cache : q.cache = p.cache
  consumed : q.consumed = p.consumed
  pad : q.pad = p.pad ∨ q.pad = p.pad + n
  cursor : q.inpos.toNat ≤ q.size.toNat
  dry : q.ended = false → q.pad = 0
  marker : q.marker = true → q.ended = true
  place : q.ended = true → q.endPlaceOk = true

theorem can_nextByte {codes : List ErrCode} {s : State} {p : Pump} (h : p.Fits s.par) :
    Eff.Can codes (fun x => Fetched s.par 8 p x.2) (nextByte s p) := by
  unfold nextByte
  by_cases he : p.ended = true
  · rw [if_pos he]
    exact ⟨⟨rfl, rfl, rfl, rfl, rfl⟩, rfl, rfl, .inr rfl, h.cursor, fun c => by simp [Pump.padded, he] at c,
      h.marker, h.place⟩
  rw [if_neg he]
  have he' : p.ended = false := by simpa using he
  have hmk : p.marker = false := by
    cases hk : p.marker
    · rfl
    · exact absurd (h.marker hk) he
  by_cases hs : p.size.toNat ≤ p.inpos.toNat
  · rw [if_pos hs]
    have hin : p.inpos = p.size := BitVec.eq_of_toNat_eq (by have := h.cursor; omega)
    refine ⟨⟨rfl, rfl, rfl, rfl, rfl⟩, rfl, rfl, .inr rfl, h.cursor, fun c => by simp [Pump.padded] at c,
      fun _ => rfl, fun _ => ?_⟩
    unfold Pump.endPlaceOk
    cases p.mode <;> simp [Pump.padded, hin]
  rw [if_neg hs]
  have hlt : p.inpos.toNat < p.size.toNat := by omega
  have hw := h.window
  refine Eff.can_bind (can_readIn (by omega)) fun b _ => ?_
  have hinc : ∀ k : Nat, p.inpos.toNat + k ≤ p.size.toNat →
      (p.inpos + BitVec.ofNat 32 k).toNat = p.inpos.toNat + k := by
    intro k hk
    have := p.size.isLt
    rw [BitVec.toNat_add, BitVec.toNat_ofNat, Nat.mod_eq_of_lt (a := k) (by omega), Nat.mod_eq_of_lt (by omega)]
  by_cases hff : p.mode = .jpeg ∧ b = 0xFF#8
  · rw [if_pos hff]
    refine Eff.can_bind (mid := fun b => b = true → p.inpos.toNat + 1 < p.size.toNat) ?_ fun st hst => ?_
    · unfold stuffedAt
      split
      · exact Eff.can_bind (can_readIn (by omega)) fun _ _ _ => ‹_›
      · exact fun c => by cases c
    · cases st
      · refine ⟨⟨rfl, rfl, rfl, rfl, rfl⟩, rfl, rfl, .inr rfl, h.cursor, fun c => by simp [Pump.padded] at c,
          fun _ => rfl, fun _ => ?_⟩
        unfold Pump.endPlaceOk
        simp [Pump.padded, hff.1]
      · have := hinc 2 (by have := hst rfl; omega)
        refine ⟨⟨rfl, rfl, rfl, rfl, rfl⟩, rfl, rfl, .inl rfl, ?_, fun _ => h.dry he', fun c => ?_, fun c => ?_⟩
        · show (p.inpos + 2).toNat ≤ p.size.toNat
          rw [show (2 : Word) = BitVec.ofNat 32 2 from rfl, this]
          have := hst rfl
          omega
        · exact absurd (h.marker c) he
        · exact absurd c he
  · rw [if_neg hff]
    have := hinc 1 (by omega)
    refine ⟨⟨rfl, rfl, rfl, rfl, rfl⟩, rfl, rfl, .inl rfl, ?_, fun _ => h.dry he', fun c => ?_, fun c => ?_⟩
    · show (p.inpos + 1).toNat ≤ p.size.toNat
      rw [show (1 : Word) = BitVec.ofNat 32 1 from rfl, this]
      omega
    · exact absurd (h.marker c) he
    · exact absurd c he

theorem can_nextWord {codes : List ErrCode} {s : State} {p : Pump} (h : p.Fits s.par) (hm : p.mode = .msb32) :
    Eff.Can codes (fun x => Fetched s.par 32 p x.2) (nextWord s p) := by
  unfold nextWord
  by_cases hs : p.size.toNat ≤ p.inpos.toNat
  · rw [if_pos hs]
    have hin : p.inpos = p.size := BitVec.eq_of_toNat_eq (by have := h.cursor; omega)
    refine ⟨⟨rfl, rfl, rfl, rfl, rfl⟩, rfl, rfl, .inr rfl, h.cursor, fun c => by simp [Pump.padded] at c,
      fun _ => rfl, fun _ => ?_⟩
    cases he : p.ended
    · simp [Pump.endPlaceOk, Pump.padded, hm, hin]
    · have := h.place he
      simp only [Pump.endPlaceOk, hm, decide_eq_true_eq] at this
      simp [Pump.endPlaceOk, Pump.padded, hm, this.1, this.2]
  · rw [if_neg hs]
    have hlt : p.inpos.toNat < p.size.toNat := by omega
    have he : ¬ p.ended = true := by
      intro he
      have := h.place he
      simp only [Pump.endPlaceOk, hm, decide_eq_true_eq] at this
      rw [this.1] at hlt
      omega
    have hw := h.window
    refine Eff.can_bind (can_readInBytes _ (by omega)) fun l hl => ?_
    have hsz := p.size.isLt
    refine ⟨⟨rfl, rfl, rfl, rfl, rfl⟩, rfl, rfl, .inl rfl, ?_, fun c => h.dry (by simpa using he), fun c => ?_,
      fun c => absurd c he⟩
    · show (p.inpos + BitVec.ofNat 32 l.length).toNat ≤ p.size.toNat
      rw [BitVec.toNat_add, BitVec.toNat_ofNat, Nat.mod_eq_of_lt (a := l.length) (by omega),
        Nat.mod_eq_of_lt (by omega)]
      omega
    · exact absurd (h.marker c) he

/-! ## FILL -/

/-- A pump with some bits appended that a fetch brought. -/
structure Grown (par : Params) (n : Nat) (p q : Pump) : Prop where
  fits : q.Fits par
  window : p.SameWindow q
  consumed : q.consumed = p.consumed
  grown : q.cache.length = p.cache.length + n
  keeps : p.cache <+: q.cache

theorem Grown.trans {par : Params} {n m : Nat} {p q r : Pump} (h : Grown par n p q) (h' : Grown par m q r) :
    Grown par (n + m) p r :=
  ⟨h'.fits, h.window.trans h'.window, h'.consumed.trans h.consumed, by rw [h'.grown, h.grown]; omega,
    h.keeps.trans h'.keeps⟩

theorem grown_of_fetched {par : Params} {n : Nat} {p q : Pump} {b : Bits} (h : p.Fits par) (hq : Fetched par n p q)
    (hb : b.length = n) (hn : p.cache.length + n ≤ 64) : Grown par n p { q with cache := q.cache ++ b } := by
  have hp := h.pad
  have hw := hq.window
  refine ⟨⟨h.build, hw.valid.trans h.valid, ?_, ?_, ?_, hq.cursor, hq.dry, hq.marker, ?_⟩,
    ⟨hw.valid, hw.mode, hw.off, hw.size, hw.raced⟩, hq.consumed, ?_, ?_⟩
  · simp [hq.cache, hb]; omega
  · have hpad := hq.pad
    simp only [hq.cache, List.length_append, hb]
    omega
  · show q.off.toNat + q.size.toNat ≤ par.inSize
    rw [hw.off, hw.size]
    exact h.window
  · exact hq.place
  · simp [hq.cache, hb]
  · rw [hq.cache]
    exact List.prefix_append _ _

theorem can_fetchByte {codes : List ErrCode} {s : State} {p : Pump} (h : p.Fits s.par)
    (hn : p.cache.length ≤ 56) : Eff.Can codes (Grown s.par 8 p) (fetchByte s p) :=
  Eff.can_bind (can_nextByte h) fun _ hq => grown_of_fetched h hq (bits8_length _) (by omega)

theorem can_fetchWord {codes : List ErrCode} {s : State} {p : Pump} (h : p.Fits s.par) (hm : p.mode = .msb32)
    (hn : p.cache.length ≤ 32) : Eff.Can codes (Grown s.par 32 p) (fetchWord s p) :=
  Eff.can_bind (can_nextWord h hm) fun _ hq => grown_of_fetched h hq (bits32_length _) (by omega)

theorem can_fetchFourBytes {codes : List ErrCode} {s : State} {p : Pump} (h : p.Fits s.par)
    (hn : p.cache.length < 32) : Eff.Can codes (Grown s.par 32 p) (fetchFourBytes s p) := by
  have := can_forUp (codes := codes) (body := fun _ q => fetchByte s q) (fun j q => Grown s.par (8 * j) p q) 4 0 p
    ⟨h, .refl p, rfl, rfl, List.prefix_refl _⟩ fun j q _ hj hq =>
      Eff.can_mono (can_fetchByte hq.fits (by rw [hq.grown]; omega))
        (fun _ hc => hc) fun r hr => by
          have := hq.trans hr
          rwa [show 8 * j + 8 = 8 * (j + 1) by ring] at this
  exact this

/-- Everything FILL can do on a legal pump: it raises nothing and faults on nothing; at 32 bits or more it changes
nothing, below it appends 32 bits (42_bitpump.md R141). -/
theorem can_fill {codes : List ErrCode} {s : State} {p : Pump} (h : p.Fits s.par) :
    Eff.Can codes (fun q => q.Fits s.par ∧ p.SameWindow q ∧ q.consumed = p.consumed ∧ p.cache <+: q.cache ∧
      32 ≤ q.cache.length ∧ (32 ≤ p.cache.length → q = p) ∧
      (p.cache.length < 32 → q.cache.length = p.cache.length + 32)) (fill s p) := by
  unfold fill
  rw [Params.fillThreshold_eq h.build]
  by_cases hc : 32 ≤ p.cache.length
  · rw [if_pos hc]
    exact ⟨h, .refl p, rfl, List.prefix_refl _, hc, fun _ => rfl, fun c => by omega⟩
  · rw [if_neg hc]
    have hlt : p.cache.length < 32 := by omega
    have key : ∀ {x : Eff Pump}, Eff.Can codes (Grown s.par 32 p) x →
        Eff.Can codes (fun q => q.Fits s.par ∧ p.SameWindow q ∧ q.consumed = p.consumed ∧ p.cache <+: q.cache ∧
          32 ≤ q.cache.length ∧ (32 ≤ p.cache.length → q = p) ∧
          (p.cache.length < 32 → q.cache.length = p.cache.length + 32)) x :=
      fun hx => Eff.can_mono hx (fun _ hc => hc) fun q hq =>
        ⟨hq.fits, hq.window, hq.consumed, hq.keeps, by rw [hq.grown]; omega, fun c => by omega, fun _ => hq.grown⟩
    cases hm : p.mode
    · exact key (can_fetchFourBytes h hlt)
    · exact key (can_fetchFourBytes h hlt)
    · exact key (can_fetchWord h hm (by omega))

/-! ## Reads -/

/-- A read of n cached bits keeps R37 and R39. -/
theorem deliver_fits {par : Params} {p : Pump} (n : Nat) (h : p.Fits par) : (p.deliver n).Fits par := by
  refine ⟨h.build, h.valid, ?_, ?_, h.window, h.cursor, fun he => ?_, h.marker, h.place⟩
  · have := h.full
    simp [Pump.deliver]
    omega
  · simp [Pump.deliver]
  · have := h.dry he
    simp [Pump.deliver, this]

/-- Everything PGET can do on a legal pump: a value below 2^n and a legal pump on the same window, or E_IO_BOUNDS
(42_bitpump.md R146). -/
theorem can_pget {codes : List ErrCode} {s : State} {ix : PumpIx} {p : Pump} {n : Nat} (hc : .ioBounds ∈ codes)
    (h : p.Fits s.par) : Eff.Can codes (fun x => x.1 < 2 ^ n ∧ x.2.Fits s.par ∧ p.SameWindow x.2)
      (pget s ix p n) := by
  unfold pget
  refine Eff.can_bind (can_fill h) fun q hq => Eff.can_bind (can_require hc) fun _ _ => ⟨?_, deliver_fits n hq.1, ?_⟩
  · refine lt_of_lt_of_le (bitsVal_lt _) (Nat.pow_le_pow_right (by norm_num) ?_)
    simp
  · exact ⟨hq.2.1.valid, hq.2.1.mode, hq.2.1.off, hq.2.1.size, hq.2.1.raced⟩

/-- Everything PPEEK can do on a legal pump (42_bitpump.md R146). -/
theorem can_ppeek {codes : List ErrCode} {s : State} {p : Pump} {n : Nat} (h : p.Fits s.par) :
    Eff.Can codes (fun x => x.1 < 2 ^ n ∧ x.2.Fits s.par ∧ p.SameWindow x.2) (ppeek s p n) := by
  unfold ppeek
  refine Eff.can_bind (can_fill h) fun q hq => ⟨?_, hq.1, hq.2.1⟩
  refine lt_of_lt_of_le (bitsVal_lt _) (Nat.pow_le_pow_right (by norm_num) ?_)
  simp

/-- Everything PSKIP can do on a legal pump (42_bitpump.md R146). -/
theorem can_pskip {codes : List ErrCode} {s : State} {ix : PumpIx} {p : Pump} {n : Nat} (hc : .ioBounds ∈ codes)
    (h : p.Fits s.par) : Eff.Can codes (fun q => q.Fits s.par ∧ p.SameWindow q) (pskip s ix p n) :=
  Eff.can_bind (can_pget hc h) fun _ hq => hq.2

end Sys2Proof.Machine
end

