-- ==== Sys2Proof/Laws/Huffman.lean ====
section
/-! SUPPORT. Everything the Huffman procedures can do, said once: HSYM, HDIFF, CANON and the table loads (spec
43_huffman.md R164-R169). -/

namespace Sys2Proof.Machine

/-! ## Decoding -/

theorem can_hsymFrom {codes : List ErrCode} {s : State} {t : TableIx} {ix : PumpIx} (hb : .ioBounds ∈ codes)
    (hc : .corrupt ∈ codes) (fuel l code : Nat) {p : Pump} (h : p.Fits s.par) :
    Eff.Can codes (fun x => x.1 < 256 ∧ x.2.Fits s.par ∧ p.SameWindow x.2) (hsymFrom s t ix fuel l code p) := by
  induction fuel generalizing l code p with
  | zero => exact Eff.can_raise hc
  | succ fuel ih =>
    refine Eff.can_bind (can_pget hb h) fun x hx => ?_
    dsimp only
    split
    · exact ⟨BitVec.isLt _, hx.2.1, hx.2.2⟩
    · exact Eff.can_mono (ih _ _ hx.2.1) (fun _ hc => hc) fun y hy => ⟨hy.1, hy.2.1, hx.2.2.trans hy.2.2⟩

/-- Everything HSYM can do on a legal pump: a symbol 0..255 and a legal pump, E_IO_BOUNDS or E_CORRUPT
(43_huffman.md R165). -/
theorem can_hsym {codes : List ErrCode} {s : State} {t : TableIx} {ix : PumpIx} {p : Pump} (hb : .ioBounds ∈ codes)
    (hc : .corrupt ∈ codes) (h : p.Fits s.par) :
    Eff.Can codes (fun x => x.1 < 256 ∧ x.2.Fits s.par ∧ p.SameWindow x.2) (hsym s t ix p) :=
  can_hsymFrom hb hc _ _ _ h

/-- Everything HDIFF can do on a legal pump (43_huffman.md R166). -/
theorem can_hdiff {codes : List ErrCode} {s : State} {t : TableIx} {ix : PumpIx} {p : Pump} (hb : .ioBounds ∈ codes)
    (hc : .corrupt ∈ codes) (h : p.Fits s.par) :
    Eff.Can codes (fun x => x.2.Fits s.par ∧ p.SameWindow x.2) (hdiff s t ix p) := by
  unfold hdiff
  refine Eff.can_bind (can_hsym hb hc h) fun x hx => ?_
  dsimp only
  split
  · exact hx.2
  split
  · exact Eff.can_raise hc
  split
  · split
    · exact Eff.can_bind (can_pskip hb hx.2.1) fun q hq => ⟨hq.1, hx.2.2.trans hq.2⟩
    · exact hx.2
  · exact Eff.can_bind (can_pget hb hx.2.1) fun y hy => ⟨hy.2.1, hx.2.2.trans hy.2.2⟩

/-! ## CANON -/

theorem firstCode_succ (h : HuffTable) (l : Nat) :
    firstCode h (l + 1) = 2 * (firstCode h l + h.countOf (l + 1)) := by
  unfold firstCode
  rw [List.range_succ, List.map_append, List.sum_append]
  have : (List.range l).map (fun i => h.countOf (i + 1) * 2 ^ (l + 1 - i)) =
      (List.range l).map (fun i => 2 * (h.countOf (i + 1) * 2 ^ (l - i))) := by
    refine List.map_congr_left fun i hi => ?_
    have : i < l := List.mem_range.mp hi
    rw [show l + 1 - i = (l - i) + 1 by omega, pow_succ]
    ring
  rw [this, List.sum_map_mul_left]
  simp only [List.map_cons, List.map_nil, List.sum_cons, List.sum_nil, show l + 1 - l = 1 by omega]
  ring

theorem codesBelow_succ (h : HuffTable) (l : Nat) : codesBelow h (l + 1) = codesBelow h l + h.countOf (l + 1) := by
  unfold codesBelow
  rw [List.range_succ, List.map_append, List.sum_append]
  simp

/-- The arrays CANON has filled below a length. -/
structure CanonAt (c : HuffTable) (l : Nat) (x : Canon) : Prop where
  code : x.code = firstCode c l
  placed : x.placed = codesBelow c l
  first : ∀ j (h : j < 16), j < l → x.first[j] = firstCode c j
  index : ∀ j (h : j < 16), j < l → x.index[j] = codesBelow c j
  fits : ∀ j < l, firstCode c j + c.countOf (j + 1) ≤ 2 ^ (j + 1)

theorem can_canonStep {codes : List ErrCode} {t : TableIx} {c : HuffTable} {l : Nat} {x : Canon}
    (hc : .corrupt ∈ codes) (hl : l < 16) (h : CanonAt c l x) :
    Eff.Can codes (CanonAt c (l + 1)) (canonStep t c l x) := by
  refine Eff.can_bind (can_require hc) fun _ hok => ?_
  have hok : x.code + c.countOf (l + 1) ≤ 2 ^ (l + 1) := by simpa using hok
  rw [h.code] at hok
  refine ⟨?_, ?_, fun j hj hjl => ?_, fun j hj hjl => ?_, fun j hjl => ?_⟩
  · rw [firstCode_succ, h.code]
  · rw [codesBelow_succ, h.placed]
  · show (x.first.setIfInBounds l x.code)[j] = _
    rw [Vector.getElem_setIfInBounds]
    split
    · rw [h.code]; congr
    · exact h.first j hj (by omega)
  · show (x.index.setIfInBounds l x.placed)[j] = _
    rw [Vector.getElem_setIfInBounds]
    split
    · rw [h.placed]; congr
    · exact h.index j hj (by omega)
  · rcases Nat.lt_succ_iff_lt_or_eq.mp hjl with h1 | h1
    · exact h.fits j h1
    · subst h1; exact hok

/-- The canonical code of a table's counts (43_huffman.md R164). -/
structure Canonical (c h : HuffTable) : Prop where
  rest : h = { c with first := h.first, index := h.index }
  first : ∀ l < 16, h.firstOf (l + 1) = firstCode c l
  index : ∀ l < 16, h.indexOf (l + 1) = codesBelow c l
  fits : ∀ l < 16, firstCode c l + c.countOf (l + 1) ≤ 2 ^ (l + 1)

/-- Everything CANON can do: the canonical code, or E_CORRUPT (43_huffman.md R164). -/
theorem can_canon {codes : List ErrCode} {par : Params} {t : TableIx} {c : HuffTable} (hp : par.decided = true)
    (hc : .corrupt ∈ codes) : Eff.Can codes (Canonical c) (canon par t c) := by
  unfold canon
  rw [Params.htMaxLen_eq hp]
  refine Eff.can_bind (can_forUp (CanonAt c) 16 0 _ ⟨rfl, rfl, fun j _ h => by omega, fun j _ h => by omega,
    fun j h => by omega⟩ fun j y _ hj hy => can_canonStep hc (by omega) hy) fun x hx => ?_
  refine ⟨rfl, fun l hl => ?_, fun l hl => ?_, fun l hl => hx.fits l (by omega)⟩
  · simp only [HuffTable.firstOf, Nat.add_sub_cancel, Vector.getElem?_eq_getElem hl, Option.getD_some]
    exact hx.first l hl (by omega)
  · simp only [HuffTable.indexOf, Nat.add_sub_cancel, Vector.getElem?_eq_getElem hl, Option.getD_some]
    exact hx.index l hl (by omega)

theorem firstCode_congr {c h : HuffTable} (e : h.count = c.count) (l : Nat) : firstCode h l = firstCode c l := by
  simp [firstCode, HuffTable.countOf, e]

theorem codesBelow_congr {c h : HuffTable} (e : h.count = c.count) (l : Nat) : codesBelow h l = codesBelow c l := by
  simp [codesBelow, HuffTable.countOf, e]

/-- A canonical table made READY is a legal slot. -/
theorem Canonical.legal {c h : HuffTable} (hc : Canonical c h) (d : Bool) (h1 : 1 ≤ countSum c.count)
    (h2 : countSum c.count ≤ 256) (hn : c.nvalues = countSum c.count) :
    ({ h with dng16 := d, state := .ready } : HuffTable).legal = true := by
  have e : h.count = c.count := by rw [hc.rest]
  have en : h.nvalues = c.nvalues := by rw [hc.rest]
  have key : ∀ l < 16,
      ({ h with dng16 := d, state := .ready } : HuffTable).firstOf (l + 1) =
          firstCode { h with dng16 := d, state := .ready } l ∧
        ({ h with dng16 := d, state := .ready } : HuffTable).indexOf (l + 1) =
          codesBelow { h with dng16 := d, state := .ready } l ∧
        ({ h with dng16 := d, state := .ready } : HuffTable).firstOf (l + 1) +
          ({ h with dng16 := d, state := .ready } : HuffTable).countOf (l + 1) ≤ 2 ^ (l + 1) := by
    intro l hl
    have k1 : ({ h with dng16 := d, state := .ready } : HuffTable).firstOf (l + 1) = firstCode c l := hc.first l hl
    have k2 : ({ h with dng16 := d, state := .ready } : HuffTable).indexOf (l + 1) = codesBelow c l := hc.index l hl
    have k3 : ({ h with dng16 := d, state := .ready } : HuffTable).countOf (l + 1) = c.countOf (l + 1) := by
      simp [HuffTable.countOf, e]
    rw [k1, k2, k3, firstCode_congr (c := c) (h := { h with dng16 := d, state := .ready }) e,
      codesBelow_congr (c := c) (h := { h with dng16 := d, state := .ready }) e]
    exact ⟨rfl, rfl, hc.fits l hl⟩
  unfold HuffTable.legal
  simp only [Bool.and_eq_true, Bool.or_eq_true, decide_eq_true_eq, Bool.not_eq_true', List.all_eq_true,
    List.mem_range]
  refine ⟨⟨⟨?_, .inr ⟨?_, ?_⟩⟩, .inr ?_⟩, .inr key⟩
  · show h.nvalues ≤ 256
    omega
  · show 1 ≤ countSum h.count
    rw [e]; exact h1
  · show countSum h.count ≤ 256
    rw [e]; exact h2
  · show h.nvalues = countSum h.count
    rw [en, e, hn]

end Sys2Proof.Machine
end

