-- ==== Sys2Proof/Laws/Streams.lean ====
section
/-! SUPPORT. Everything the byte-stream procedures can do on a slot that keeps R36, said once (spec 41_bytestream.md
R110, R111). -/

namespace Sys2Proof.Machine

/-- R36 of a valid slot, as facts. -/
theorem StreamSlot.legal_iff {par : Params} {v : StreamSlot} (hv : v.valid = true) :
    v.legal par = true ↔ v.off.toNat + v.size.toNat ≤ par.inSize ∧ v.pos.toNat ≤ v.size.toNat := by
  simp [StreamSlot.legal, hv]

theorem needRemaining_ok {k : StreamIx} {v : StreamSlot} {n : Nat} {u : Unit} :
    needRemaining k v n = .ok u ↔ v.pos.toNat + n ≤ v.size.toNat := by
  simp [needRemaining]

theorem can_needRemaining {codes : List ErrCode} {k : StreamIx} {v : StreamSlot} {n : Nat} (h : .ioBounds ∈ codes) :
    Eff.Can codes (fun _ => v.pos.toNat + n ≤ v.size.toNat) (needRemaining k v n) :=
  Eff.can_mono (can_require h) (fun _ hc => hc) fun _ hp => of_decide_eq_true hp

/-- The bytes of a window that lies in IN. -/
theorem windowBytes_ok {s : State} {v : StreamSlot} {at_ n : Nat} (h : v.off.toNat + at_ + n ≤ s.par.inSize) :
    windowBytes s v at_ n = .ok ((List.range n).map fun i => inByte s (v.off.toNat + at_ + i)) :=
  readInBytes_stream n h

theorem leValue_lt (l : List Byte) : leValue l < 256 ^ l.length := by
  induction l with
  | nil => simp [leValue]
  | cons b r ih =>
    have := b.isLt
    simp only [leValue, List.length_cons, pow_succ]
    omega

theorem orderedValue_lt (be : Bool) (l : List Byte) : orderedValue be l < 256 ^ l.length := by
  cases be
  · exact leValue_lt l
  · simpa [orderedValue, beValue] using leValue_lt l.reverse

theorem leValue_append (a b : List Byte) : leValue (a ++ b) = leValue a + 256 ^ a.length * leValue b := by
  induction a with
  | nil => simp [leValue]
  | cons x r ih =>
    simp only [List.cons_append, leValue, ih, List.length_cons, pow_succ]
    ring

/-- Little-endian bytes by their sum (41_bytestream.md R111). -/
theorem leValue_map (n : Nat) (b : Nat → Byte) :
    leValue ((List.range n).map b) = ((List.range n).map fun i => (b i).toNat * 256 ^ i).sum := by
  induction n with
  | zero => rfl
  | succ n ih =>
    rw [List.range_succ, List.map_append, leValue_append, ih, List.map_append, List.sum_append]
    simp [leValue]
    ring

/-- Big-endian bytes by their sum (41_bytestream.md R111). -/
theorem beValue_map (n : Nat) (b : Nat → Byte) :
    beValue ((List.range n).map b) = ((List.range n).map fun i => (b i).toNat * 256 ^ (n - 1 - i)).sum := by
  induction n with
  | zero => rfl
  | succ n ih =>
    have hs : ((List.range n).map fun i => (b i).toNat * 256 ^ (n + 1 - 1 - i)) =
        (List.range n).map fun i => 256 * ((b i).toNat * 256 ^ (n - 1 - i)) := by
      refine List.map_congr_left fun i hi => ?_
      have : i < n := List.mem_range.mp hi
      rw [show n + 1 - 1 - i = (n - 1 - i) + 1 by omega, pow_succ]
      ring
    rw [List.range_succ, List.map_append, List.map_append, List.sum_append, hs, List.sum_map_mul_left, ← ih]
    simp [beValue, leValue]
    ring

/-- RD's value is the slot's byte order applied to the bytes at the cursor (41_bytestream.md R111). -/
theorem orderedValue_map (be : Bool) (n : Nat) (b : Nat → Byte) :
    orderedValue be ((List.range n).map b) = assembled be n b := by
  cases be
  · exact leValue_map n b
  · exact beValue_map n b

theorem windowValue_ok {s : State} {v : StreamSlot} {at_ n : Nat} (h : v.off.toNat + at_ + n ≤ s.par.inSize) :
    windowValue s v at_ n = .ok (assembled v.be n fun i => inByte s (v.off.toNat + at_ + i)) := by
  unfold windowValue
  rw [windowBytes_ok h, Eff.ok_bind, orderedValue_map]
  rfl

theorem can_windowBytes {codes : List ErrCode} {s : State} {v : StreamSlot} {at_ n : Nat}
    (h : v.off.toNat + at_ + n ≤ s.par.inSize) : Eff.Can codes (fun l => l.length = n) (windowBytes s v at_ n) :=
  can_readInBytes n h

theorem can_windowValue {codes : List ErrCode} {s : State} {v : StreamSlot} {at_ n : Nat}
    (h : v.off.toNat + at_ + n ≤ s.par.inSize) : Eff.Can codes (fun x => x < 256 ^ n) (windowValue s v at_ n) :=
  Eff.can_bind (can_windowBytes h) fun l hl => by rw [← hl]; exact orderedValue_lt _ l

/-- Everything RD can do: the value at the cursor, or E_IO_BOUNDS (41_bytestream.md R111). -/
theorem streamRead_ok {s : State} {k : StreamIx} {v : StreamSlot} {n : Nat} (hv : v.valid = true)
    (hl : v.legal s.par = true) (h : v.pos.toNat + n ≤ v.size.toNat) :
    streamRead s k v n = .ok (assembled v.be n (cursorByte s v)) := by
  have hw := (StreamSlot.legal_iff hv).mp hl
  unfold streamRead
  rw [(needRemaining_ok (u := ())).mpr h, Eff.ok_bind, windowValue_ok (by omega)]
  rfl

theorem can_streamRead {codes : List ErrCode} {s : State} {k : StreamIx} {v : StreamSlot} {n : Nat}
    (hc : .ioBounds ∈ codes) (hv : v.valid = true) (hl : v.legal s.par = true) :
    Eff.Can codes (fun x => x < 256 ^ n ∧ v.pos.toNat + n ≤ v.size.toNat) (streamRead s k v n) := by
  have hw := (StreamSlot.legal_iff hv).mp hl
  exact Eff.can_bind (can_needRemaining hc) fun _ h =>
    Eff.can_mono (can_windowValue (by omega)) (fun _ hc => hc) fun x hx => ⟨hx, h⟩

/-- Everything the prefix compare can do on a legal slot: it raises nothing (41_bytestream.md R124). -/
theorem can_prefixMatches {codes : List ErrCode} {s : State} {v : StreamSlot} {n : Nat} (hv : v.valid = true)
    (hl : v.legal s.par = true) :
    Eff.Can codes (fun b => b = true → v.pos.toNat + n ≤ v.size.toNat) (prefixMatches s v n) := by
  have hw := (StreamSlot.legal_iff hv).mp hl
  unfold prefixMatches
  split
  · exact Eff.can_bind (can_windowBytes (by omega)) fun _ _ _ => ‹_›
  · exact fun h => by cases h

/-- A moved cursor keeps the slot legal (10_state.md R36). -/
theorem legal_with_pos {par : Params} {v : StreamSlot} {n : Nat} (hv : v.valid = true) (hl : v.legal par = true)
    (h : v.pos.toNat + n ≤ v.size.toNat) :
    ({ v with pos := BitVec.ofNat 32 (v.pos.toNat + n) } : StreamSlot).legal par = true := by
  have hw := (StreamSlot.legal_iff hv).mp hl
  have := v.size.isLt
  refine (StreamSlot.legal_iff (v := { v with pos := BitVec.ofNat 32 (v.pos.toNat + n) }) hv).mpr ⟨hw.1, ?_⟩
  show (BitVec.ofNat 32 (v.pos.toNat + n)).toNat ≤ v.size.toNat
  rw [BitVec.toNat_ofNat, Nat.mod_eq_of_lt (by omega)]
  exact h

/-- A fresh stream over a window of IN is legal (10_state.md R36). -/
theorem legal_freshStream {par : Params} {off size : Nat} {be : Bool} (hp : par.legal = true)
    (h : off + size ≤ par.inSize) : (freshStream off size be).legal par = true := by
  have hi : par.inSize ≤ 2 ^ 32 := (Params.legal_iff.mp hp).1.2.1
  have h1 := Nat.mod_le off (2 ^ 32)
  have h2 := Nat.mod_le size (2 ^ 32)
  refine (StreamSlot.legal_iff (v := freshStream off size be) rfl).mpr ⟨?_, ?_⟩
  · show (BitVec.ofNat 32 off).toNat + (BitVec.ofNat 32 size).toNat ≤ par.inSize
    rw [BitVec.toNat_ofNat, BitVec.toNat_ofNat]
    omega
  · exact Nat.zero_le _

end Sys2Proof.Machine
end

