-- ==== Sys2Proof/Laws/Decoders.lean ====
section
/-! SUPPORT. Everything the pieces of the decoding commands can do, said once: LJ_DECODE, PX_DECODE, SV0_DECODE and
FJ_SAMPLE_* (spec 44_ljpeg.md, 45_pentax.md, 46_samsung.md, 47_fuji.md). -/

namespace Sys2Proof.Machine

/-! ## Lossless JPEG -/

/-- What LJ_DECODE's loop keeps: a legal pump on its window and a good image of OUT. -/
def LjKeeps (s : State) (p : PumpIx) (x : LjRun) : Prop :=
  x.pump.Fits s.par ∧ (s.pumps[p]).SameWindow x.pump ∧ goodOut s.par.outSize x.out

theorem can_ljStep {s : State} {p : PumpIx} {tabs : List TableIx} {r i : Nat} {x : LjRun} (hi : imageOk s)
    (hp : s.regs.ljTx + s.regs.ljTw ≤ s.regs.imgW.toNat ∧ s.regs.ljTy + s.regs.ljTh ≤ s.regs.imgH.toNat)
    (hr : r < s.regs.ljTh) (h : LjKeeps s p x) :
    Eff.Can [.ioBounds, .corrupt] (LjKeeps s p) (ljStep s p tabs r i x) := by
  refine Eff.can_bind (can_hdiff (by simp) (by simp) h.1) fun d hd => ?_
  dsimp only
  split
  · have hx := outIdx_lt hi (r := s.regs.ljTy + r) (c := s.regs.ljTx + x.col) (by omega) (by omega)
    refine Eff.can_bind (can_writeOut hx) fun m hm => ⟨hd.1, h.2.1.trans hd.2, ?_⟩
    rw [hm]
    exact goodOut_put _ hx h.2.2
  · exact ⟨hd.1, h.2.1.trans hd.2, h.2.2⟩

theorem can_ljRow {s : State} {p : PumpIx} {tabs : List TableIx} {r : Nat} {x : LjRun} (hi : imageOk s)
    (hp : s.regs.ljTx + s.regs.ljTw ≤ s.regs.imgW.toNat ∧ s.regs.ljTy + s.regs.ljTh ≤ s.regs.imgH.toNat)
    (hr : r < s.regs.ljTh) (h : LjKeeps s p x) :
    Eff.Can [.ioBounds, .corrupt] (LjKeeps s p) (ljRow s p tabs r x) := by
  refine Eff.can_bind (can_forUp (fun _ => LjKeeps s p) s.regs.ljFw 0 _ (by exact h) fun b y _ _ hy => ?_)
    fun y hy => hy
  refine Eff.can_bind (can_forUp (fun _ => LjKeeps s p) s.regs.ljN 0 _ hy fun i z _ _ hz =>
    can_ljStep hi hp hr hz) fun z hz => ?_
  split
  · exact hz
  · exact hz

/-! ## Pentax -/

/-- What PX_DECODE's loop keeps. -/
def PxKeeps (s : State) (p : PumpIx) (x : PxRun) : Prop :=
  x.pump.Fits s.par ∧ (s.pumps[p]).SameWindow x.pump ∧ goodOut s.par.outSize x.out

theorem can_pxPut {s : State} {m : OutMemory} {r c : Nat} {v : Int} (hi : imageOk s) (hr : r < s.regs.imgH.toNat)
    (hc : c < s.regs.imgW.toNat) (h : goodOut s.par.outSize m) :
    Eff.Can [.ioBounds, .corrupt] (fun m' => goodOut s.par.outSize m' ∧ 0 ≤ v ∧ v ≤ 65535) (pxPut s m r c v) := by
  refine Eff.can_bind (can_require (by simp)) fun _ hv => ?_
  have hx := outIdx_lt hi hr hc
  refine Eff.can_mono (can_writeOut hx) (fun _ hc => hc) fun m' hm' => ⟨?_, of_decide_eq_true hv⟩
  rw [hm']
  exact goodOut_put _ hx h

theorem can_pxPair {s : State} {t : TableIx} {p : PumpIx} {r j : Nat} {x : PxRun} (hi : imageOk s)
    (hr : r < s.regs.imgH.toNat) (hj : 2 * j + 3 < s.regs.imgW.toNat) (h : PxKeeps s p x) :
    Eff.Can [.ioBounds, .corrupt] (PxKeeps s p) (pxPair s t p r j x) := by
  refine Eff.can_bind (can_hdiff (by simp) (by simp) h.1) fun d hd =>
    Eff.can_bind (can_hdiff (by simp) (by simp) hd.1) fun e he => ?_
  dsimp only
  refine Eff.can_bind (can_pxPut hi hr (by omega) h.2.2) fun m hm =>
    Eff.can_bind (can_pxPut hi hr (by omega) hm.1) fun m' hm' => ?_
  exact ⟨he.1, (h.2.1.trans hd.2).trans he.2, hm'.1⟩

theorem can_pxRow {s : State} {t : TableIx} {p : PumpIx} {r : Nat} {x : PxRun} (hi : imageOk s)
    (hw : s.regs.imgW.toNat % 2 = 0) (hr : r < s.regs.imgH.toNat) (h : PxKeeps s p x) :
    Eff.Can [.ioBounds, .corrupt] (PxKeeps s p) (pxRow s t p r x) := by
  have hw0 := hi.1
  refine Eff.can_bind (can_hdiff (by simp) (by simp) h.1) fun d hd =>
    Eff.can_bind (can_hdiff (by simp) (by simp) hd.1) fun e he => ?_
  dsimp only
  refine Eff.can_bind (can_pxPut hi hr (by omega) h.2.2) fun m hm =>
    Eff.can_bind (can_pxPut hi hr (by omega) hm.1) fun m' hm' => ?_
  exact can_forUp (fun _ => PxKeeps s p) _ 0 _ ⟨he.1, (h.2.1.trans hd.2).trans he.2, hm'.1⟩
    fun j y _ hj hy => can_pxPair hi hr (by omega) hy

/-! ## Samsung V0 -/

/-- What ROWDEC keeps: a legal pump, four lengths within 0..16 and a good image of OUT. -/
def SvKeeps (s : State) (x : SvRun) : Prop :=
  x.pump.Fits s.par ∧ goodOut s.par.outSize x.out ∧ ∀ n ∈ x.len, 0 ≤ n ∧ n ≤ 16

theorem can_svAdjust {codes : List ErrCode} {s : State} {p : PumpIx} {q : Pump} {b : Nat} (hc : .ioBounds ∈ codes)
    (h : q.Fits s.par) : Eff.Can codes (fun x => x.2.Fits s.par) (svAdjust s p q b) := by
  unfold svAdjust
  split
  · exact h
  · exact Eff.can_bind (can_pget hc h) fun _ hx => hx.2.1

theorem can_svOps {codes : List ErrCode} {s : State} {p : PumpIx} (hc : .ioBounds ∈ codes) (n : Nat) {q : Pump}
    (h : q.Fits s.par) :
    Eff.Can codes (fun x => x.1.length = n ∧ x.2.Fits s.par) (svOps s p n q) := by
  induction n generalizing q with
  | zero => exact ⟨rfl, h⟩
  | succ n ih =>
    refine Eff.can_bind (can_pget hc h) fun x hx => Eff.can_bind (ih hx.2.1) fun y hy => ⟨?_, hy.2⟩
    simp [hy.1]

theorem can_svAdapt {s : State} {p : PumpIx} {r col : Nat} {ops : List Nat} {i : Nat} {x : SvRun}
    (h : SvKeeps s x) : Eff.Can [.ioBounds, .corrupt] (SvKeeps s) (svAdapt s p r col ops i x) := by
  refine Eff.can_bind (mid := fun y => y.2.Fits s.par) ?_ fun y hy => ?_
  · unfold svNewLength
    split
    · exact Eff.can_bind (can_pget (by simp) h.1) fun _ hx => hx.2.1
    split
    · exact h.1
    split
    · exact h.1
    · exact h.1
  · dsimp only
    refine Eff.can_bind (can_require (by simp)) fun _ hn => ⟨hy, h.2.1, fun n hmem => ?_⟩
    rcases List.mem_or_eq_of_mem_set hmem with hm | hm
    · exact h.2.2 n hm
    · rw [hm]
      exact of_decide_eq_true hn

theorem can_svUpColumn {s : State} {p : PumpIx} {r col up c : Nat} {x : SvRun} (hi : imageOk s)
    (hr : r < s.regs.imgH.toNat) (hc : col + c < s.regs.imgW.toNat) (h : SvKeeps s x) :
    Eff.Can [.ioBounds, .corrupt] (SvKeeps s) (svUpColumn s p r col up c x) := by
  refine Eff.can_bind (can_svAdjust (by simp) h.1) fun a ha => ?_
  dsimp only
  have hx := outIdx_lt hi hr hc
  refine Eff.can_bind (can_readOut (outIdx_lt hi (r := r - up) (by omega) hc)) fun v _ =>
    Eff.can_bind (can_writeOut hx) fun m hm => ⟨ha, ?_, h.2.2⟩
  rw [hm]
  exact goodOut_put _ hx h.2.1

theorem can_svLeftColumn {s : State} {p : PumpIx} {r col left c : Nat} {x : SvRun} (hi : imageOk s)
    (hr : r < s.regs.imgH.toNat) (h : SvKeeps s x) :
    Eff.Can [.ioBounds, .corrupt] (SvKeeps s) (svLeftColumn s p r col left c x) := by
  refine Eff.can_bind (can_svAdjust (by simp) h.1) fun a ha => ?_
  dsimp only
  split
  · have hx := outIdx_lt hi hr (c := col + c) ‹_›
    refine Eff.can_bind (can_writeOut hx) fun m hm => ⟨ha, ?_, h.2.2⟩
    rw [hm]
    exact goodOut_put _ hx h.2.1
  · exact ⟨ha, h.2.1, h.2.2⟩

theorem can_svLeft {codes : List ErrCode} {s : State} {m : OutMemory} {r col back : Nat} (hi : imageOk s)
    (hr : r < s.regs.imgH.toNat) (hc : col < s.regs.imgW.toNat) :
    Eff.Can codes (fun _ => True) (svLeft s m r col back) := by
  unfold svLeft
  split
  · trivial
  · exact Eff.can_bind (can_readOut (outIdx_lt hi hr (by omega))) fun _ _ => trivial

theorem can_svSamples {s : State} {p : PumpIx} {r col dir : Nat} {x : SvRun} (hi : imageOk s)
    (hr : r < s.regs.imgH.toNat) (hc : col < s.regs.imgW.toNat) (h : SvKeeps s x) :
    Eff.Can [.ioBounds, .corrupt] (SvKeeps s) (svSamples s p r col dir x) := by
  unfold svSamples
  split
  · refine Eff.can_bind (can_require (by simp)) fun _ _ => Eff.can_bind (can_require (by simp)) fun _ h2 => ?_
    have h2 : col + 16 < s.regs.imgW.toNat := of_decide_eq_true h2
    refine Eff.can_bind (can_forUp (fun _ => SvKeeps s) 8 0 _ h fun j y _ hj hy =>
      can_svUpColumn hi hr (by omega) hy) fun y hy => ?_
    exact can_forUp (fun _ => SvKeeps s) 8 0 _ hy fun j z _ hj hz => can_svUpColumn hi hr (by omega) hz
  · refine Eff.can_bind (can_svLeft hi hr hc) fun l _ => ?_
    refine Eff.can_bind (can_forUp (fun _ => SvKeeps s) 8 0 _ h fun j y _ _ hy => can_svLeftColumn hi hr hy)
      fun y hy => Eff.can_bind (can_svLeft hi hr hc) fun l' _ => ?_
    exact can_forUp (fun _ => SvKeeps s) 8 0 _ hy fun j z _ _ hz => can_svLeftColumn hi hr hz

theorem can_svGroup {s : State} {p : PumpIx} {r g : Nat} {x : SvRun} (hi : imageOk s) (hr : r < s.regs.imgH.toNat)
    (hg : 16 * g < s.regs.imgW.toNat) (h : SvKeeps s x) :
    Eff.Can [.ioBounds, .corrupt] (SvKeeps s) (svGroup s p r g x) := by
  refine Eff.can_bind (can_pget (by simp) h.1) fun d hd => Eff.can_bind (can_svOps (by simp) 4 hd.2.1) fun o ho => ?_
  dsimp only
  refine Eff.can_bind (can_forUp (fun _ => SvKeeps s) 4 0 _ ⟨ho.2, h.2.1, h.2.2⟩ fun i y _ _ hy => can_svAdapt hy)
    fun y hy => can_svSamples hi hr hg hy

/-- The pump of a stripe inside IN is a legal one. -/
theorem stripePump_fits {s : State} {mode : PumpMode} {x : Stripe} (hp : s.par.decided = true)
    (h : x.off.toNat + x.size.toNat ≤ s.par.inSize) : (stripePump s mode x).Fits s.par :=
  have f := freshPump_fits (m := mode) hp h
  ⟨f.1, f.2, f.3, f.4, f.5, f.6, f.7, f.8, f.9⟩

/-- Everything ROWDEC can do on a stripe inside IN: a legal pump and a good image of OUT, E_IO_BOUNDS or E_CORRUPT
(46_samsung.md R212). -/
theorem can_svRow {s : State} {p : PumpIx} {mode : PumpMode} {r : Nat} {x : Pump × OutMemory} (hi : imageOk s)
    (hp : s.par.decided = true) (hr : r < s.regs.imgH.toNat)
    (hs : (s.sv0.stripes.getD r ⟨0, 0⟩).off.toNat + (s.sv0.stripes.getD r ⟨0, 0⟩).size.toNat ≤ s.par.inSize)
    (h : goodOut s.par.outSize x.2) :
    Eff.Can [.ioBounds, .corrupt] (fun y => y.1.Fits s.par ∧ goodOut s.par.outSize y.2) (svRow s p mode r x) := by
  refine Eff.can_bind (can_forUp (fun _ => SvKeeps s) _ 0 _ ⟨stripePump_fits hp hs, h, fun n hn => ?_⟩
    fun g y _ hg hy => can_svGroup hi hr (by omega) hy) fun y hy => ⟨hy.1, hy.2.1⟩
  unfold svInitialLengths at hn
  split at hn <;> (simp at hn; omega)

theorem can_svFixup {codes : List ErrCode} {s : State} {m : OutMemory} (hi : imageOk s)
    (h : goodOut s.par.outSize m) : Eff.Can codes (goodOut s.par.outSize) (svFixup s m) := by
  refine can_forUp (fun _ => goodOut s.par.outSize) _ 0 m h fun i m' _ hi' hm' =>
    can_forUp (fun _ => goodOut s.par.outSize) _ 0 m' hm' fun j m'' _ hj hm'' => ?_
  have h1 := outIdx_lt hi (r := 2 * i) (c := 2 * j + 1) (by omega) (by omega)
  have h2 := outIdx_lt hi (r := 2 * i + 1) (c := 2 * j) (by omega) (by omega)
  refine Eff.can_bind (can_readOut h1) fun _ _ => Eff.can_bind (can_readOut h2) fun _ _ =>
    Eff.can_bind (can_writeOut h1) fun a ha => Eff.can_mono (can_writeOut h2) (fun _ hc => hc) fun b hb => ?_
  rw [hb, ha]
  exact goodOut_put _ h2 (goodOut_put _ h1 hm'')

/-! ## Fuji -/

theorem can_zeroRun {s : State} {ix : PumpIx} (fuel z : Nat) {p : Pump} (h : p.Fits s.par) :
    Eff.Can [.ioBounds, .corrupt] (fun x => x.2.Fits s.par ∧ p.SameWindow x.2) (zeroRun s ix fuel z p) := by
  induction fuel generalizing z p with
  | zero => exact Eff.can_raise (by simp)
  | succ fuel ih =>
    refine Eff.can_bind (can_pget (by simp) h) fun x hx => ?_
    dsimp only
    split
    · exact Eff.can_mono (ih _ hx.2.1) (fun _ hc => hc) fun y hy => ⟨hy.1, hx.2.2.trans hy.2⟩
    · exact hx.2

theorem can_fjRawCode {s : State} {ix : PumpIx} {p : Pump} {pair : GradPair} (h : p.Fits s.par) :
    Eff.Can [.ioBounds, .corrupt] (fun x => x.2.Fits s.par ∧ p.SameWindow x.2) (fjRawCode s ix p pair) := by
  refine Eff.can_bind (can_zeroRun _ _ h) fun x hx => ?_
  dsimp only
  split
  · split
    · exact hx
    · exact Eff.can_bind (can_pget (by simp) hx.1) fun y hy => ⟨hy.2.1, hx.2.trans hy.2.2⟩
  · exact Eff.can_bind (can_pget (by simp) hx.1) fun y hy => ⟨hy.2.1, hx.2.trans hy.2.2⟩

/-- The pair update keeps v2 in 1..64 (47_fuji.md R235). -/
theorem GradPair.update_range {pair : GradPair} {code : Int} (h : 1 ≤ pair.v2 ∧ pair.v2 ≤ 64) :
    1 ≤ (pair.update 64 code).v2 ∧ (pair.update 64 code).v2 ≤ 64 := by
  unfold GradPair.update
  dsimp only
  split <;> (dsimp only; omega)

/-- Everything FJCODE can do on a legal pump: E_CORRUPT, E_IO_BOUNDS, or a code with the pair updated by it
(47_fuji.md R235). -/
theorem can_fjCode {s : State} {ix : PumpIx} {p : Pump} {pair : GradPair} (h : p.Fits s.par) :
    Eff.Can [.ioBounds, .corrupt]
      (fun x => x.pump.Fits s.par ∧ p.SameWindow x.pump ∧ x.pair = pair.update s.fuji.minValue x.code)
      (fjCode s ix p pair) :=
  Eff.can_bind (can_fjRawCode h) fun _ hx => ⟨hx.1, hx.2, rfl⟩

theorem can_neighbourCheck {codes : List ErrCode} {f : Fuji} (hc : .corrupt ∈ codes) (l : List Nat) :
    Eff.Can codes (fun _ => ∀ r ∈ l, (r : Int) ≤ f.q 4) (neighbourCheck f l) := by
  induction l with
  | nil => exact fun r hr => by simp at hr
  | cons a l ih =>
    refine Eff.can_bind (can_require hc) fun _ ha => Eff.can_mono ih (fun _ hc => hc) fun _ hl r hr => ?_
    rcases List.mem_cons.mp hr with e | e
    · rw [e]; exact of_decide_eq_true ha
    · exact hl r e

end Sys2Proof.Machine
end

