-- ==== Sys2Proof/Laws/PerInstr.lean ====
section
/-! SUPPORT. A statement about every command, proved one constructor at a time: its word matches its row's mask and
match (spec 30_encoding.md R87). -/

namespace Sys2Proof.Laws.RowBits

/-- The opcode of a command (30_encoding.md R86). -/
def opcode (i : Instr) : BitVec 8 := (encodeFields i).opc

/-- The mask's fields: a 1 in every bit of OPC and of every field marked "0" (30_encoding.md R87). -/
def maskFields (i : Instr) : Fields :=
  match i with
  | .nop => ⟨0xFF#8, 0xF#4, 0xF#4, 0xFFFF#16⟩
  | .bsInit _ _ => ⟨0xFF#8, 0#4, 0xF#4, 0xFFFE#16⟩
  | .bsGetU8 _ => ⟨0xFF#8, 0#4, 0xF#4, 0xFFFF#16⟩
  | .bsGetU16 _ => ⟨0xFF#8, 0#4, 0xF#4, 0xFFFF#16⟩
  | .bsGetU32 _ => ⟨0xFF#8, 0#4, 0xF#4, 0xFFFF#16⟩
  | .bsGetI32 _ => ⟨0xFF#8, 0#4, 0xF#4, 0xFFFF#16⟩
  | .bsGetF32 _ => ⟨0xFF#8, 0#4, 0xF#4, 0xFFFF#16⟩
  | .bsPeekU8 _ => ⟨0xFF#8, 0#4, 0xF#4, 0xFFFF#16⟩
  | .bsPeekU16 _ => ⟨0xFF#8, 0#4, 0xF#4, 0xFFFF#16⟩
  | .bsPeekU32 _ => ⟨0xFF#8, 0#4, 0xF#4, 0xFFFF#16⟩
  | .bsSkip _ => ⟨0xFF#8, 0#4, 0xF#4, 0xFFFF#16⟩
  | .bsGetStream _ _ => ⟨0xFF#8, 0#4, 0#4, 0xFFFF#16⟩
  | .bsGetSubstream _ _ => ⟨0xFF#8, 0#4, 0#4, 0xFFFF#16⟩
  | .bsHasPrefix _ _ => ⟨0xFF#8, 0#4, 0xF#4, 0xFFF0#16⟩
  | .bsSkipPrefix _ _ => ⟨0xFF#8, 0#4, 0xF#4, 0xFFF0#16⟩
  | .bsRebase _ => ⟨0xFF#8, 0#4, 0xF#4, 0xFFFF#16⟩
  | .bsCheck _ => ⟨0xFF#8, 0#4, 0xF#4, 0xFFFF#16⟩
  | .bpInit _ _ _ => ⟨0xFF#8, 0#4, 0#4, 0xFFFC#16⟩
  | .bpFill _ => ⟨0xFF#8, 0#4, 0xF#4, 0xFFFF#16⟩
  | .bpGetBits _ _ => ⟨0xFF#8, 0#4, 0xF#4, 0xFFC0#16⟩
  | .bpPeekBits _ _ => ⟨0xFF#8, 0#4, 0xF#4, 0xFFC0#16⟩
  | .bpSkipBits _ _ => ⟨0xFF#8, 0#4, 0xF#4, 0xFFC0#16⟩
  | .htReset _ => ⟨0xFF#8, 0#4, 0xF#4, 0xFFFF#16⟩
  | .htSetCounts _ => ⟨0xFF#8, 0#4, 0xF#4, 0xFFFF#16⟩
  | .htSetValues _ _ _ => ⟨0xFF#8, 0#4, 0#4, 0xFE00#16⟩
  | .htSetup _ _ => ⟨0xFF#8, 0#4, 0xF#4, 0xFFFE#16⟩
  | .htDecodeSym _ _ => ⟨0xFF#8, 0#4, 0#4, 0xFFFF#16⟩
  | .htDecodeDiff _ _ => ⟨0xFF#8, 0#4, 0#4, 0xFFFF#16⟩
  | .htLoadPentaxLegacy _ => ⟨0xFF#8, 0#4, 0xF#4, 0xFFFF#16⟩
  | .htLoadPentax _ _ => ⟨0xFF#8, 0#4, 0#4, 0xFFFF#16⟩
  | .ljDecode _ => ⟨0xFF#8, 0#4, 0xF#4, 0xFFFF#16⟩
  | .pxDecode _ _ => ⟨0xFF#8, 0#4, 0#4, 0xFFFF#16⟩
  | .sv0Stripes _ _ => ⟨0xFF#8, 0#4, 0#4, 0xFFFF#16⟩
  | .sv0Decode _ _ => ⟨0xFF#8, 0#4, 0xF#4, 0xFFFC#16⟩
  | .fjInit _ => ⟨0xFF#8, 0xF#4, 0xF#4, 0xFFE0#16⟩
  | .fjGradReset => ⟨0xFF#8, 0xF#4, 0xF#4, 0xFFFF#16⟩
  | .fjSampleEven _ _ => ⟨0xFF#8, 0#4, 0#4, 0xFFFF#16⟩
  | .fjSampleOdd _ _ => ⟨0xFF#8, 0#4, 0#4, 0xFFFF#16⟩
  | .fjEndStrip => ⟨0xFF#8, 0xF#4, 0xF#4, 0xFFFF#16⟩
  | .fjStripWidth _ => ⟨0xFF#8, 0xF#4, 0xF#4, 0#16⟩
  | .fjStripOffset _ => ⟨0xFF#8, 0xF#4, 0xF#4, 0#16⟩

/-- The word of a command under its row's mask is its row's match, `OPC << 24` (30_encoding.md R87). -/
def Statement (i : Instr) : Prop := encode i &&& wordOf (maskFields i) = wordOf ⟨opcode i, 0, 0, 0⟩

/-- Masking a word masks its fields. -/
theorem wordOf_and (f g : Fields) :
    wordOf f &&& wordOf g = wordOf ⟨f.opc &&& g.opc, f.a &&& g.a, f.b &&& g.b, f.imm &&& g.imm⟩ := by
  apply BitVec.eq_of_getLsbD_eq
  intro i hi
  simp only [wordOf, BitVec.getLsbD_and, BitVec.getLsbD_append]
  by_cases h1 : i < 16 <;> by_cases h2 : i - 16 < 4 <;> by_cases h3 : i - 16 - 4 < 4 <;> simp [h1, h2, h3]

/-- Masking with all ones keeps an opcode. -/
theorem and_ones (x : BitVec 8) : x &&& 0xFF#8 = x := by decide +revert

/-- A command matches its row when its fields do. -/
theorem of_fields {i : Instr} (ho : (maskFields i).opc = 0xFF#8) (ha : (encodeFields i).a &&& (maskFields i).a = 0)
    (hb : (encodeFields i).b &&& (maskFields i).b = 0) (hi : (encodeFields i).imm &&& (maskFields i).imm = 0) :
    Statement i := by
  unfold Statement encode
  rw [wordOf_and, ho, ha, hb, hi, and_ones]
  rfl

theorem flag_masked (e : Bool) : flagField e &&& 0xFFFE#16 = 0 := by cases e <;> decide

theorem mode_masked (m : PumpMode) : (modeBits m).setWidth 16 &&& 0xFFFC#16 = 0 := by cases m <;> decide

theorem length_masked (n : BitVec 4) : n.setWidth 16 &&& 0xFFF0#16 = 0 := by decide +revert

theorem bits_masked (n : BitVec 6) : n.setWidth 16 &&& 0xFFC0#16 = 0 := by decide +revert

theorem depth_masked (n : BitVec 5) : n.setWidth 16 &&& 0xFFE0#16 = 0 := by decide +revert

theorem count_masked (n : BitVec 9) : n.setWidth 16 &&& 0xFE00#16 = 0 := by decide +revert +kernel

theorem nop : Statement (.nop) :=
  of_fields rfl (by simp [encodeFields, maskFields]) (by simp [encodeFields, maskFields]) (by simp [encodeFields, maskFields])

theorem bsInit (k : StreamIx) (be : Bool) : Statement (.bsInit k be) :=
  of_fields rfl (by simp [encodeFields, maskFields]) (by simp [encodeFields, maskFields]) (flag_masked _)

theorem bsGetU8 (k : StreamIx) : Statement (.bsGetU8 k) :=
  of_fields rfl (by simp [encodeFields, maskFields]) (by simp [encodeFields, maskFields]) (by simp [encodeFields, maskFields])

theorem bsGetU16 (k : StreamIx) : Statement (.bsGetU16 k) :=
  of_fields rfl (by simp [encodeFields, maskFields]) (by simp [encodeFields, maskFields]) (by simp [encodeFields, maskFields])

theorem bsGetU32 (k : StreamIx) : Statement (.bsGetU32 k) :=
  of_fields rfl (by simp [encodeFields, maskFields]) (by simp [encodeFields, maskFields]) (by simp [encodeFields, maskFields])

theorem bsGetI32 (k : StreamIx) : Statement (.bsGetI32 k) :=
  of_fields rfl (by simp [encodeFields, maskFields]) (by simp [encodeFields, maskFields]) (by simp [encodeFields, maskFields])

theorem bsGetF32 (k : StreamIx) : Statement (.bsGetF32 k) :=
  of_fields rfl (by simp [encodeFields, maskFields]) (by simp [encodeFields, maskFields]) (by simp [encodeFields, maskFields])

theorem bsPeekU8 (k : StreamIx) : Statement (.bsPeekU8 k) :=
  of_fields rfl (by simp [encodeFields, maskFields]) (by simp [encodeFields, maskFields]) (by simp [encodeFields, maskFields])

theorem bsPeekU16 (k : StreamIx) : Statement (.bsPeekU16 k) :=
  of_fields rfl (by simp [encodeFields, maskFields]) (by simp [encodeFields, maskFields]) (by simp [encodeFields, maskFields])

theorem bsPeekU32 (k : StreamIx) : Statement (.bsPeekU32 k) :=
  of_fields rfl (by simp [encodeFields, maskFields]) (by simp [encodeFields, maskFields]) (by simp [encodeFields, maskFields])

theorem bsSkip (k : StreamIx) : Statement (.bsSkip k) :=
  of_fields rfl (by simp [encodeFields, maskFields]) (by simp [encodeFields, maskFields]) (by simp [encodeFields, maskFields])

theorem bsGetStream (src dst : StreamIx) : Statement (.bsGetStream src dst) :=
  of_fields rfl (by simp [encodeFields, maskFields]) (by simp [encodeFields, maskFields]) (by simp [encodeFields, maskFields])

theorem bsGetSubstream (src dst : StreamIx) : Statement (.bsGetSubstream src dst) :=
  of_fields rfl (by simp [encodeFields, maskFields]) (by simp [encodeFields, maskFields]) (by simp [encodeFields, maskFields])

theorem bsHasPrefix (k : StreamIx) (n : BitVec 4) : Statement (.bsHasPrefix k n) :=
  of_fields rfl (by simp [encodeFields, maskFields]) (by simp [encodeFields, maskFields]) (length_masked _)

theorem bsSkipPrefix (k : StreamIx) (n : BitVec 4) : Statement (.bsSkipPrefix k n) :=
  of_fields rfl (by simp [encodeFields, maskFields]) (by simp [encodeFields, maskFields]) (length_masked _)

theorem bsRebase (k : StreamIx) : Statement (.bsRebase k) :=
  of_fields rfl (by simp [encodeFields, maskFields]) (by simp [encodeFields, maskFields]) (by simp [encodeFields, maskFields])

theorem bsCheck (k : StreamIx) : Statement (.bsCheck k) :=
  of_fields rfl (by simp [encodeFields, maskFields]) (by simp [encodeFields, maskFields]) (by simp [encodeFields, maskFields])

theorem bpInit (p : PumpIx) (k : StreamIx) (mode : PumpMode) : Statement (.bpInit p k mode) :=
  of_fields rfl (by simp [encodeFields, maskFields]) (by simp [encodeFields, maskFields]) (mode_masked _)

theorem bpFill (p : PumpIx) : Statement (.bpFill p) :=
  of_fields rfl (by simp [encodeFields, maskFields]) (by simp [encodeFields, maskFields]) (by simp [encodeFields, maskFields])

theorem bpGetBits (p : PumpIx) (n : BitVec 6) : Statement (.bpGetBits p n) :=
  of_fields rfl (by simp [encodeFields, maskFields]) (by simp [encodeFields, maskFields]) (bits_masked _)

theorem bpPeekBits (p : PumpIx) (n : BitVec 6) : Statement (.bpPeekBits p n) :=
  of_fields rfl (by simp [encodeFields, maskFields]) (by simp [encodeFields, maskFields]) (bits_masked _)

theorem bpSkipBits (p : PumpIx) (n : BitVec 6) : Statement (.bpSkipBits p n) :=
  of_fields rfl (by simp [encodeFields, maskFields]) (by simp [encodeFields, maskFields]) (bits_masked _)

theorem htReset (t : TableIx) : Statement (.htReset t) :=
  of_fields rfl (by simp [encodeFields, maskFields]) (by simp [encodeFields, maskFields]) (by simp [encodeFields, maskFields])

theorem htSetCounts (t : TableIx) : Statement (.htSetCounts t) :=
  of_fields rfl (by simp [encodeFields, maskFields]) (by simp [encodeFields, maskFields]) (by simp [encodeFields, maskFields])

theorem htSetValues (t : TableIx) (k : StreamIx) (n : BitVec 9) : Statement (.htSetValues t k n) :=
  of_fields rfl (by simp [encodeFields, maskFields]) (by simp [encodeFields, maskFields]) (count_masked _)

theorem htSetup (t : TableIx) (dng16 : Bool) : Statement (.htSetup t dng16) :=
  of_fields rfl (by simp [encodeFields, maskFields]) (by simp [encodeFields, maskFields]) (flag_masked _)

theorem htDecodeSym (t : TableIx) (p : PumpIx) : Statement (.htDecodeSym t p) :=
  of_fields rfl (by simp [encodeFields, maskFields]) (by simp [encodeFields, maskFields]) (by simp [encodeFields, maskFields])

theorem htDecodeDiff (t : TableIx) (p : PumpIx) : Statement (.htDecodeDiff t p) :=
  of_fields rfl (by simp [encodeFields, maskFields]) (by simp [encodeFields, maskFields]) (by simp [encodeFields, maskFields])

theorem htLoadPentaxLegacy (t : TableIx) : Statement (.htLoadPentaxLegacy t) :=
  of_fields rfl (by simp [encodeFields, maskFields]) (by simp [encodeFields, maskFields]) (by simp [encodeFields, maskFields])

theorem htLoadPentax (t : TableIx) (k : StreamIx) : Statement (.htLoadPentax t k) :=
  of_fields rfl (by simp [encodeFields, maskFields]) (by simp [encodeFields, maskFields]) (by simp [encodeFields, maskFields])

theorem ljDecode (p : PumpIx) : Statement (.ljDecode p) :=
  of_fields rfl (by simp [encodeFields, maskFields]) (by simp [encodeFields, maskFields]) (by simp [encodeFields, maskFields])

theorem pxDecode (p : PumpIx) (t : TableIx) : Statement (.pxDecode p t) :=
  of_fields rfl (by simp [encodeFields, maskFields]) (by simp [encodeFields, maskFields]) (by simp [encodeFields, maskFields])

theorem sv0Stripes (offs raw : StreamIx) : Statement (.sv0Stripes offs raw) :=
  of_fields rfl (by simp [encodeFields, maskFields]) (by simp [encodeFields, maskFields]) (by simp [encodeFields, maskFields])

theorem sv0Decode (p : PumpIx) (mode : PumpMode) : Statement (.sv0Decode p mode) :=
  of_fields rfl (by simp [encodeFields, maskFields]) (by simp [encodeFields, maskFields]) (mode_masked _)

theorem fjInit (rb : BitVec 5) : Statement (.fjInit rb) :=
  of_fields rfl (by simp [encodeFields, maskFields]) (by simp [encodeFields, maskFields]) (depth_masked _)

theorem fjGradReset : Statement (.fjGradReset) :=
  of_fields rfl (by simp [encodeFields, maskFields]) (by simp [encodeFields, maskFields]) (by simp [encodeFields, maskFields])

theorem fjSampleEven (p : PumpIx) (j : GradSet) : Statement (.fjSampleEven p j) :=
  of_fields rfl (by simp [encodeFields, maskFields]) (by simp [encodeFields, maskFields]) (by simp [encodeFields, maskFields])

theorem fjSampleOdd (p : PumpIx) (j : GradSet) : Statement (.fjSampleOdd p j) :=
  of_fields rfl (by simp [encodeFields, maskFields]) (by simp [encodeFields, maskFields]) (by simp [encodeFields, maskFields])

theorem fjEndStrip : Statement (.fjEndStrip) :=
  of_fields rfl (by simp [encodeFields, maskFields]) (by simp [encodeFields, maskFields]) (by simp [encodeFields, maskFields])

theorem fjStripWidth (i : BitVec 16) : Statement (.fjStripWidth i) :=
  of_fields rfl (by simp [encodeFields, maskFields]) (by simp [encodeFields, maskFields]) (by simp [encodeFields, maskFields])

theorem fjStripOffset (i : BitVec 16) : Statement (.fjStripOffset i) :=
  of_fields rfl (by simp [encodeFields, maskFields]) (by simp [encodeFields, maskFields]) (by simp [encodeFields, maskFields])

end Sys2Proof.Laws.RowBits
end

