-- ==== Sys2Proof/Tests/Slice0.lean ====
section
/-! SUPPORT. The model's own tests: the well-formedness smoke test, one word written out from 30_encoding.md R86 for
every command, at most two one-step tests for each command with the expected results of 95_test_vectors.md, and for
every obligation with hypotheses a state and operands that meet them. -/

-- One after another: kernel evaluations that all run at once would each take a thread.
set_option Elab.async false

namespace Sys2Proof.Tests

open Sys2Proof Sys2Proof.Machine

/-! ## Small states -/

/-- Whether an outcome is a next state with a property. -/
def answers (o : Host.Outcome State Fault Refusal) (f : State → Bool) : Bool :=
  match o with
  | .next t => f t
  | .fault _ => false
  | .refused _ => false

theorem answers_next {o : Host.Outcome State Fault Refusal} {f : State → Bool} (h : answers o f = true) :
    ∃ t, o = .next t ∧ f t = true := by
  match o, h with
  | .next t, h => exact ⟨t, rfl, h⟩

/-- The reset state with an IN and an OUT of the given sizes. -/
def sized (inSize outSize : Nat) : State :=
  { State.reset with par := { Config.resetParams with inSize := inSize, outSize := outSize } }

/-- Bytes of IN from an address on. -/
def bytesAt (a : Nat) (l : List Nat) : InMemory := l.zipIdx.map (fun x => (a + x.2, BitVec.ofNat 8 x.1))

/-- IN holds exactly the bytes. -/
def loaded (l : List Nat) (outSize : Nat) : State := { sized l.length outSize with inMem := bytesAt 0 l }

/-- ARG0 and ARG1. -/
def withArgs (s : State) (a0 a1 : Nat) : State :=
  { s with regs := { s.regs with arg0 := BitVec.ofNat 32 a0, arg1 := BitVec.ofNat 32 a1 } }

/-- The common start of 95_test_vectors.md 2.2: eight bytes of IN and S0 over them, at a position. -/
def bsAt (be : Bool) (pos a0 a1 : Nat) : State :=
  (withArgs (loaded [0x12, 0x34, 0x56, 0x78, 0x9A, 0xBC, 0xDE, 0xF0] 8) a0 a1).setStream 0
    ⟨true, 0, 8, BitVec.ofNat 32 pos, be⟩

/-- A stream S0 = (off, size, pos) over an IN of 10000 bytes that nothing has written. -/
def windowAt (off size pos a0 a1 : Nat) : State :=
  (withArgs (sized 10000 8) a0 a1).setStream 0
    ⟨true, BitVec.ofNat 32 off, BitVec.ofNat 32 size, BitVec.ofNat 32 pos, false⟩

/-- The start of 95_test_vectors.md 2.3: S0 and a fresh pump p0 over exactly the bytes of IN. -/
def pumpOn (mode : PumpMode) (l : List Nat) : State :=
  ((loaded l 32).setStream 0 ⟨true, 0, BitVec.ofNat 32 l.length, 0, false⟩).setPump 0
    (freshPump mode 0 (BitVec.ofNat 32 l.length))

/-- A table with counts of the lengths from 1 on and values, after HT_SET_VALUES. -/
def valuesTable (counts values : List Nat) : HuffTable :=
  loadedTable (Vector.ofFn (fun i => BitVec.ofNat 8 (counts.getD i.val 0))) (values.map (BitVec.ofNat 8))

/-- The READY table of counts and values. -/
def readyTable (counts values : List Nat) (dng16 : Bool) : HuffTable :=
  match canon Config.resetParams 0 (valuesTable counts values) with
  | .ok h => { h with state := .ready, dng16 := dng16 }
  | .error _ => .reset

/-- The table of V-HT-1, READY. -/
def tableOne : HuffTable := readyTable [1, 1, 2] [0, 1, 2, 3] false

/-- The legacy Pentax table. -/
def legacyTable : HuffTable :=
  match canon Config.resetParams 0 (loadedTable pentaxLegacyCounts pentaxLegacyValues) with
  | .ok h => { h with state := .ready }
  | .error _ => .reset

/-- Table t0 and an MSB pump p0 over data bytes. -/
def huffOn (h : HuffTable) (l : List Nat) : State := (pumpOn .msb l).setTable 0 h

/-- Table t0, and a stream S1 = (0, n) over value bytes. -/
def valuesOn (h : HuffTable) (l : List Nat) : State :=
  ((loaded l 8).setTable 0 h).setStream 1 ⟨true, 0, BitVec.ofNat 32 l.length, 0, false⟩

/-- The image descriptor, IMG_BASE 0. -/
def withImage (s : State) (pitch w h : Nat) : State :=
  { s with regs := { s.regs with
      imgPitch := BitVec.ofNat 32 pitch, imgW := BitVec.ofNat 32 w, imgH := BitVec.ofNat 32 h } }

/-- The base set-up of 95_test_vectors.md 2.5: table t0 of V-HT-1, the data bytes under p0, and the LJ registers. -/
def ljState (cfg samp wh : Word) : State :=
  let s := withImage ((pumpOn .jpeg [0xB7, 0x49, 0xB2, 0xDD, 0x26, 0xC0]).setTable 0 tableOne) 8 8 2
  { s with regs := { s.regs with
      ljCfg := cfg, ljSamp := samp, ljFrame := 0x00020004#32, ljTileWh := wh } }

/-- The start of 95_test_vectors.md 2.6. -/
def pxState (l : List Nat) (w h : Nat) : State := withImage ((pumpOn .msb l).setTable 0 legacyTable) w w h

/-- A Samsung image of one row over raw bytes at IN[0..], its stripe placed as SV0_STRIPES places it. -/
def svState (l : List Nat) (w : Nat) : State :=
  { withImage (loaded l 64) w w 1 with sv0 := ⟨true, [⟨0, BitVec.ofNat 32 l.length⟩], []⟩ }

/-- The offset stream S0 over little-endian bytes and a raw stream S1 of a size. -/
def stripesState (offs : List Nat) (h rawSize : Nat) : State :=
  let s := withImage (loaded (offs.flatMap (fun o => [o, 0, 0, 0])) 64) 16 16 h
  { ((s.setStream 0 ⟨true, 0, BitVec.ofNat 32 (4 * offs.length), 0, false⟩).setStream 1
    ⟨true, 0, BitVec.ofNat 32 rawSize, 0, false⟩) with par := { Config.resetParams with inSize := 4096, outSize := 64 } }

/-- The start of 95_test_vectors.md 2.8: depth 14, an MSB pump over the bytes, the neighbours. -/
def fjState (l : List Nat) (ra rb rc rd rf rg : Nat) : State :=
  let s := pumpOn .msb l
  { s with
    fuji := fuji14
    regs := { s.regs with
      fjNb0 := BitVec.ofNat 32 (ra + 65536 * rb)
      fjNb1 := BitVec.ofNat 32 (rc + 65536 * rd)
      fjNb2 := BitVec.ofNat 32 (rf + 65536 * rg) } }

/-- FJ_GEOM0 and FJ_GEOM1. -/
def geomState (g0 g1 : Word) : State :=
  { sized 8 8 with regs := { HostRegs.reset with fjGeom0 := g0, fjGeom1 := g1 } }

/-- An accepted command, with moves still to come. -/
def busyWith (s : State) (cmd : Word) (l : List Event) : State :=
  { s with cmd := cmd, status := { s.status with busy := true }, events := l }

/-- Moves still to come. -/
def moves (s : State) (l : List Event) : State := { s with events := l }

/-- Whether a command ended in an error with these registers: `ERR(code, row, col, comp, val)`. -/
def errIs (code row col comp : Nat) (val : Int) (t : State) : Bool :=
  decide (t.status.err = true ∧ t.status.busy = false ∧ t.err.code.number = code ∧ t.err.row.toNat = row ∧
    t.err.col.toNat = col ∧ t.err.comp.toNat = comp ∧ t.err.val = u32 val)

/-- Whether a command completed, with this value in RES. -/
def resIs (v : Word) (t : State) : Bool :=
  decide (t.status.done = true ∧ t.status.err = false ∧ t.cmdcnt = 1#32 ∧ t.res = v)

/-- Whether stream k stands at (off, size, pos). -/
def streamIs (k : StreamIx) (off size pos : Nat) (t : State) : Bool :=
  decide (t.streams[k].off.toNat = off ∧ t.streams[k].size.toNat = size ∧ t.streams[k].pos.toNat = pos ∧
    t.status.err = false)

/-- Whether OUT holds these samples from index 0 on and nothing else. -/
def outIs (l : List Nat) (t : State) : Bool :=
  decide (t.outMem = l.zipIdx.map (fun x => (x.2, BitVec.ofNat 16 x.1)) ∧ t.status.err = false)

/-! ## Well-formedness: what 30_encoding.md R86 marks illegal is refused -/

theorem test_wf_prefix_length :
    (Instr.bsHasPrefix 0 0#4).wf = false ∧ (Instr.bsHasPrefix 0 9#4).wf = false ∧
      (Instr.bsSkipPrefix 3 0#4).wf = false ∧ (Instr.bsSkipPrefix 3 9#4).wf = false ∧
      (Instr.bsHasPrefix 0 1#4).wf = true ∧ (Instr.bsSkipPrefix 0 8#4).wf = true := by decide

theorem test_wf_bit_count :
    (Instr.bpGetBits 0 33#6).wf = false ∧ (Instr.bpPeekBits 0 33#6).wf = false ∧
      (Instr.bpSkipBits 1 63#6).wf = false ∧ (Instr.bpGetBits 0 32#6).wf = true ∧
      (Instr.bpPeekBits 0 0#6).wf = true := by decide

theorem test_wf_value_count :
    (Instr.htSetValues 0 0 0#9).wf = false ∧ (Instr.htSetValues 0 0 257#9).wf = false ∧
      (Instr.htSetValues 0 0 1#9).wf = true ∧ (Instr.htSetValues 0 0 256#9).wf = true := by decide

/-! ## Decoding: OPC, A, B and IMM are the hex digits 7-6, 5, 4 and 3-0 (30_encoding.md R80, R86) -/

theorem test_decode_control_and_bytestream :
    decode 0x00000000#32 = .ok .nop ∧
    decode 0x10200001#32 = .ok (.bsInit 2 true) ∧ decode 0x10100000#32 = .ok (.bsInit 1 false) ∧
    decode 0x11200000#32 = .ok (.bsGetU8 2) ∧ decode 0x12100000#32 = .ok (.bsGetU16 1) ∧
    decode 0x13300000#32 = .ok (.bsGetU32 3) ∧ decode 0x14100000#32 = .ok (.bsGetI32 1) ∧
    decode 0x15200000#32 = .ok (.bsGetF32 2) ∧ decode 0x16300000#32 = .ok (.bsPeekU8 3) ∧
    decode 0x17100000#32 = .ok (.bsPeekU16 1) ∧ decode 0x18200000#32 = .ok (.bsPeekU32 2) ∧
    decode 0x19300000#32 = .ok (.bsSkip 3) ∧ decode 0x1A230000#32 = .ok (.bsGetStream 2 3) ∧
    decode 0x1B120000#32 = .ok (.bsGetSubstream 1 2) ∧ decode 0x1C200008#32 = .ok (.bsHasPrefix 2 8#4) ∧
    decode 0x1D300001#32 = .ok (.bsSkipPrefix 3 1#4) ∧ decode 0x1E100000#32 = .ok (.bsRebase 1) ∧
    decode 0x1F200000#32 = .ok (.bsCheck 2) := by decide

theorem test_decode_bitpump_and_huffman :
    decode 0x30120001#32 = .ok (.bpInit 1 2 .jpeg) ∧ decode 0x31100000#32 = .ok (.bpFill 1) ∧
    decode 0x3210001F#32 = .ok (.bpGetBits 1 31#6) ∧ decode 0x33000020#32 = .ok (.bpPeekBits 0 32#6) ∧
    decode 0x34100007#32 = .ok (.bpSkipBits 1 7#6) ∧ decode 0x40300000#32 = .ok (.htReset 3) ∧
    decode 0x41200000#32 = .ok (.htSetCounts 2) ∧ decode 0x421200A5#32 = .ok (.htSetValues 1 2 165#9) ∧
    decode 0x43300001#32 = .ok (.htSetup 3 true) ∧ decode 0x44210000#32 = .ok (.htDecodeSym 2 1) ∧
    decode 0x45310000#32 = .ok (.htDecodeDiff 3 1) ∧ decode 0x46200000#32 = .ok (.htLoadPentaxLegacy 2) ∧
    decode 0x47130000#32 = .ok (.htLoadPentax 1 3) := by decide

theorem test_decode_decoders_and_fuji :
    decode 0x50100000#32 = .ok (.ljDecode 1) ∧ decode 0x51120000#32 = .ok (.pxDecode 1 2) ∧
    decode 0x52230000#32 = .ok (.sv0Stripes 2 3) ∧ decode 0x53100002#32 = .ok (.sv0Decode 1 .msb32) ∧
    decode 0x6000000C#32 = .ok (.fjInit 12#5) ∧ decode 0x61000000#32 = .ok .fjGradReset ∧
    decode 0x62120000#32 = .ok (.fjSampleEven 1 2) ∧ decode 0x63010000#32 = .ok (.fjSampleOdd 0 1) ∧
    decode 0x64000000#32 = .ok .fjEndStrip ∧ decode 0x65001234#32 = .ok (.fjStripWidth 0x1234#16) ∧
    decode 0x66008001#32 = .ok (.fjStripOffset 0x8001#16) := by decide

/-- V-CT-2 to V-CT-6, V-CT-9 to V-CT-12: words with a reserved opcode or a field that must be 0. -/
theorem test_decode_refuses_nonzero :
    decode 0x01000000#32 = .error .reservedOpcode ∧
    decode 0x20000000#32 = .error .reservedOpcode ∧
    decode 0xFF000000#32 = .error .reservedOpcode ∧
    decode 0x00000001#32 = .error .nonzeroField ∧
    decode 0x11010000#32 = .error .nonzeroField ∧
    decode 0x10000002#32 = .error .nonzeroField ∧
    decode 0x1C000010#32 = .error .nonzeroField ∧
    decode 0x32000040#32 = .error .nonzeroField ∧
    decode 0x42000200#32 = .error .nonzeroField ∧
    decode 0x43000002#32 = .error .nonzeroField ∧
    decode 0x60000020#32 = .error .nonzeroField ∧
    decode 0x65100000#32 = .error .nonzeroField := by decide

/-- V-CT-4, V-CT-7 to V-CT-12: words with a slot, an index or an immediate out of range. -/
theorem test_decode_refuses_range :
    decode 0x11400000#32 = .error .operandRange ∧
    decode 0x30200000#32 = .error .operandRange ∧
    decode 0x44040000#32 = .error .operandRange ∧
    decode 0x51040000#32 = .error .operandRange ∧
    decode 0x62030000#32 = .error .operandRange ∧
    decode 0x1C000000#32 = .error .illegalImmediate ∧
    decode 0x1C000009#32 = .error .illegalImmediate ∧
    decode 0x30000003#32 = .error .illegalImmediate ∧
    decode 0x32000021#32 = .error .illegalImmediate ∧
    decode 0x42000000#32 = .error .illegalImmediate ∧
    decode 0x42000101#32 = .error .illegalImmediate ∧
    decode 0x53000003#32 = .error .illegalImmediate := by decide

/-- A slot that the block at hand has not is refused (30_encoding.md R82, R84). -/
theorem test_decode_in_smaller_block :
    decodeIn { Config.resetParams with ns := 2 } 0x11200000#32 = .error .operandRange ∧
    decodeIn { Config.resetParams with ns := 2 } 0x11100000#32 = .ok (.bsGetU8 1) ∧
    decodeIn Config.resetParams 0x11300000#32 = .ok (.bsGetU8 3) := by decide

/-- An instruction's table bits are its command word (30_encoding.md R80). -/
theorem test_table_word : decodeTableWord 32 0x44210000 = some (.htDecodeSym 2 1) := by decide

/-! ## Control and the host port (95_test_vectors.md 2.1, 2.9) -/

/-- V-CT-1. -/
theorem test_nop : answers (exec .nop (sized 8 8)) (resIs 0) = true := by decide

/-- V-CT-2: a word that fails the decode check. -/
theorem test_illegal_word :
    answers (step (busyWith (sized 8 8) 1#32 [])) (fun t => errIs 1 0 0 0 1 t && decide (t.cmdcnt = 0#32)) = true := by
  decide

/-- 46_samsung.md R210, R211, R215: an illegal word of SV0_STRIPES (IMM not 0) or SV0_DECODE (mode 3) clears SV0.ready; one
of another opcode leaves it (30_encoding.md R84). -/
theorem test_illegal_word_clears_ready :
    answers (step (busyWith (svState [0, 0, 0, 0] 16) 0x52010001#32 []))
      (fun t => decide (t.sv0.ready = false) && errIs 1 0 0 0 0x52010001 t) = true ∧
    answers (step (busyWith (svState [0, 0, 0, 0] 16) 0x53000003#32 []))
      (fun t => decide (t.sv0.ready = false) && errIs 1 0 0 0 0x53000003 t) = true ∧
    answers (step (busyWith (svState [0, 0, 0, 0] 16) 0x50200000#32 []))
      (fun t => decide (t.sv0.ready = true) && errIs 1 0 0 0 0x50200000 t) = true := by decide

/-- V-CT-13 and V-CT-19: a CMD write while ERR or BUSY is dropped. -/
theorem test_cmd_lost :
    answers (step (moves { sized 8 8 with status := ⟨false, false, true, false, false⟩ } [.regWrite .word 0x014#10 0#32]))
      (fun t => decide (t.status.word = 0xC#32)) = true ∧
    answers (step (busyWith (sized 8 8) 1#32 [.regWrite .word 0x014#10 0#32]))
      (fun t => decide (t.status.cmdLost = true ∧ t.cmd = 1#32)) = true := by decide

/-- V-CT-18: a register write while BUSY is dropped; one to a read-only register (RES) flags nothing (10_state.md R45,
92_eei_decisions.md D51). -/
theorem test_write_lost :
    answers (step (busyWith (sized 8 8) 0#32 [.regWrite .word 0x040#10 7#32]))
      (fun t => decide (t.status.wrLost = true ∧ t.regs.arg0 = 0#32)) = true ∧
    answers (step (busyWith (sized 8 8) 0#32 [.regWrite .word 0x018#10 7#32]))
      (fun t => decide (t.status.wrLost = false ∧ t.res = 0#32)) = true := by decide

/-- V-RS-2: CTRL.SOFT_RESET while an error is pending. -/
theorem test_soft_reset :
    answers (step (moves { bsAt true 3 1 2 with
        irqEn := ⟨true, true⟩, cmdcnt := 3#32, status := ⟨false, true, true, true, true⟩
        err := ⟨.illegal, 1, 2, 3, 4, 5⟩ } [.regWrite .word 0x008#10 1#32]))
      (fun t => decide (t.status = Status.reset ∧ t.irqEn = ⟨false, false⟩ ∧ t.cmdcnt = 0#32 ∧ t.err = ErrRegs.reset ∧
        t.streams[0] = StreamSlot.reset ∧ t.regs = HostRegs.reset ∧ t.inMem.length = 8)) = true := by decide

/-- 20_memory.md R72: the read of STATUS that returns BUSY = 0 and DONE = 1 shows the host a command's samples; one that
returns BUSY = 1 shows nothing. -/
theorem test_status_read :
    answers (step (moves { sized 8 8 with status := ⟨false, true, false, false, false⟩, unseen := [⟨0, 4, 4, 1⟩] }
      [.regRead .word 0x00C#10])) (fun t => decide (t.hostData = 2#32 ∧ t.unseen = [])) = true ∧
    answers (step (busyWith { sized 8 8 with unseen := [⟨0, 4, 4, 1⟩] } 0#32 [.regRead .word 0x00C#10]))
      (fun t => decide (t.hostData = 1#32 ∧ t.unseen.length = 1)) = true := by decide

/-- 20_memory.md R77: a host write into a ready stripe is a race for the pump SV0_DECODE will start there; one past it is
none. -/
theorem test_stripe_race :
    answers (step (moves (svState [0, 0, 0, 0] 16) [.inWrite 3 1#8]))
      (fun t => decide (t.sv0.raced = [3] ∧ t.inRaced = [3])) = true ∧
    answers (step (moves { svState [0, 0, 0, 0] 16 with sv0 := ⟨true, [⟨0, 3⟩], []⟩ } [.inWrite 3 1#8]))
      (fun t => decide (t.sv0.raced = [] ∧ t.inRaced = [])) = true := by decide

/-- 20_memory.md R75, R77: an idle host write of a byte a pump has fetched and not consumed is a race, ended or not, and
one of a byte consumed or not fetched is none. -/
theorem test_cached_race :
    let p := { freshPump .msb 0 8 with inpos := 4, cache := zeros 13, consumed := 19 }
    let q := { freshPump .msb32 0 8 with inpos := 8, cache := zeros 40, pad := 32, consumed := 56, ended := true }
    let on := fun (v : Pump) (a : Nat) => step (moves ((sized 8 8).setPump 0 v) [.inWrite a 1#8])
    (∀ a ∈ [2, 3, 4, 7], answers (on p a) (fun t => decide (t.inRaced = [a])) = true) ∧
    (∀ a ∈ [0, 1], answers (on p a) (fun t => decide (t.inRaced = [])) = true) ∧
    (∀ a ∈ [4, 7], answers (on q a) (fun t => decide (t.inRaced = [a])) = true) ∧
    answers (on q 3) (fun t => decide (t.inRaced = [])) = true := by decide

/-- 20_memory.md R77: an idle host write of a byte a pump has not fetched is a race for the whole block; one of a byte it
has consumed is none and ends an earlier race, and so is one behind the marker a JPEG pump has stopped at
(42_bitpump.md R141). -/
theorem test_pump_race :
    let p := { freshPump .jpeg 0 8 with inpos := 4, endpos := 4 }
    let s := { (sized 8 8).setPump 0 p with inRaced := [3] }
    let e := { (sized 8 8).setPump 0 { p with ended := true, marker := true } with inRaced := [5] }
    answers (step (moves s [.inWrite 4 1#8])) (fun t => decide (t.inRaced = [4, 3])) = true ∧
    answers (step (moves s [.inWrite 3 1#8])) (fun t => decide (t.inRaced = [])) = true ∧
    answers (step (moves e [.inWrite 5 1#8])) (fun t => decide (t.inRaced = [])) = true := by
  decide

/-! ## Byte streams (95_test_vectors.md 2.2) -/

/-- V-BS-15. -/
theorem test_bsInit :
    answers (exec (.bsInit 0 false) (withArgs (sized 8 8) 8 0)) (fun t => streamIs 0 8 0 0 t && t.streams[0].valid) =
      true := by decide

/-- V-BS-14. -/
theorem test_bsInit_past_the_end :
    answers (exec (.bsInit 0 false) (withArgs (sized 8 8) 4 5)) (fun t => errIs 3 4 5 0 8 t && !t.streams[0].valid) =
      true := by decide

/-- V-BS-1. -/
theorem test_bsGetU8 : answers (exec (.bsGetU8 0) (bsAt false 0 0 0)) (fun t => resIs 0x12 t && streamIs 0 0 8 1 t) =
    true := by decide

/-- V-BS-13. -/
theorem test_bsGetU8_at_the_end : answers (exec (.bsGetU8 0) (bsAt false 8 0 0)) (errIs 3 8 1 0 8) = true := by decide

/-- V-BS-2 and V-BS-3. -/
theorem test_bsGetU16 :
    answers (exec (.bsGetU16 0) (bsAt false 0 0 0)) (resIs 0x3412) = true ∧
    answers (exec (.bsGetU16 0) (bsAt true 0 0 0)) (fun t => resIs 0x1234 t && streamIs 0 0 8 2 t) = true := by decide

/-- V-BS-11. -/
theorem test_bsGetU16_at_the_end :
    answers (exec (.bsGetU16 0) (bsAt false 7 0 0)) (fun t => errIs 3 7 2 0 8 t && decide (t.streams[0].pos = 7#32)) =
      true := by decide

/-- V-BS-4 and V-BS-5. -/
theorem test_bsGetU32 :
    answers (exec (.bsGetU32 0) (bsAt false 0 0 0)) (fun t => resIs 0x78563412 t && streamIs 0 0 8 4 t) = true ∧
    answers (exec (.bsGetU32 0) (bsAt true 0 0 0)) (resIs 0x12345678) = true := by decide

/-- V-BS-6. -/
theorem test_bsGetI32 :
    answers (exec (.bsGetI32 0) (bsAt false 4 0 0)) (fun t => resIs 0xF0DEBC9A t && streamIs 0 0 8 8 t) = true := by
  decide

/-- V-BS-7. -/
theorem test_bsGetF32 :
    answers (exec (.bsGetF32 0) (bsAt true 0 0 0)) (fun t => resIs 0x12345678 t && streamIs 0 0 8 4 t) = true := by
  decide

/-- V-BS-8. -/
theorem test_bsPeekU8 :
    answers (exec (.bsPeekU8 0) (bsAt false 1 0 0)) (fun t => resIs 0x34 t && streamIs 0 0 8 1 t) = true := by decide

/-- V-BS-9. -/
theorem test_bsPeekU16 :
    answers (exec (.bsPeekU16 0) (bsAt true 6 0 0)) (fun t => resIs 0xDEF0 t && streamIs 0 0 8 6 t) = true := by decide

/-- V-BS-10. -/
theorem test_bsPeekU32 :
    answers (exec (.bsPeekU32 0) (bsAt false 4 0 0)) (fun t => resIs 0xF0DEBC9A t && streamIs 0 0 8 4 t) = true := by
  decide

/-- V-BS-12. -/
theorem test_bsPeekU32_near_the_end : answers (exec (.bsPeekU32 0) (bsAt false 5 0 0)) (errIs 3 5 4 0 8) = true := by
  decide

/-- V-BS-17. -/
theorem test_bsSkip :
    answers (exec (.bsSkip 0) (bsAt false 2 6 0)) (streamIs 0 0 8 8) = true ∧
    answers (exec (.bsSkip 0) (bsAt false 8 1 0)) (errIs 3 8 1 0 8) = true := by decide

/-- V-BS-18. -/
theorem test_bsGetStream :
    answers (exec (.bsGetStream 0 1) (bsAt true 2 3 0))
      (fun t => streamIs 0 0 8 5 t && streamIs 1 2 3 0 t && t.streams[1].be) = true := by decide

/-- V-BS-20: source and destination are one slot. -/
theorem test_bsGetStream_onto_itself :
    answers (exec (.bsGetStream 0 0) (bsAt false 2 3 0)) (streamIs 0 2 3 0) = true := by decide

/-- V-BS-21. -/
theorem test_bsGetSubstream :
    answers (exec (.bsGetSubstream 0 2) (bsAt false 5 1 4)) (fun t => streamIs 0 0 8 5 t && streamIs 2 1 4 0 t) =
      true := by decide

/-- V-BS-22. -/
theorem test_bsGetSubstream_past_the_end :
    answers (exec (.bsGetSubstream 0 3) (bsAt false 5 5 4)) (errIs 3 5 4 0 8) = true := by decide

/-- V-BS-23 and V-BS-25. -/
theorem test_bsHasPrefix :
    answers (exec (.bsHasPrefix 0 2#4) (bsAt false 0 0x3412 0)) (fun t => resIs 1 t && streamIs 0 0 8 0 t) = true ∧
    answers (exec (.bsHasPrefix 0 3#4) (bsAt false 6 0xBCF0DE 0)) (resIs 0) = true := by decide

/-- V-BS-26. -/
theorem test_bsHasPrefix_eight :
    answers (exec (.bsHasPrefix 0 8#4) (bsAt false 0 0x78563412 0xF0DEBC9A)) (resIs 1) = true := by decide

/-- V-BS-24. -/
theorem test_bsSkipPrefix :
    answers (exec (.bsSkipPrefix 0 2#4) (bsAt false 0 0x3412 0)) (fun t => resIs 1 t && streamIs 0 0 8 2 t) = true ∧
    answers (exec (.bsSkipPrefix 0 2#4) (bsAt false 2 0x1234 0)) (fun t => resIs 0 t && streamIs 0 0 8 2 t) = true := by
  decide

/-- V-BS-27. -/
theorem test_bsRebase :
    answers (exec (.bsRebase 0) (windowAt 5000 50 10 4000 20)) (streamIs 0 1010 4020 4000) = true := by decide

/-- V-BS-28 and V-BS-29. -/
theorem test_bsRebase_errors :
    answers (exec (.bsRebase 0) (windowAt 100 50 10 4000 20)) (errIs 3 10 20 0 4000) = true ∧
    answers (exec (.bsRebase 0) (windowAt 100 50 10 4 41)) (errIs 3 10 41 0 50) = true := by decide

/-- V-BS-32 and V-BS-33. -/
theorem test_bsCheck :
    answers (exec (.bsCheck 0) (bsAt false 0 3 3)) (errIs 3 0 9 0 8) = true ∧
    answers (exec (.bsCheck 0) (bsAt false 0 0 0xFFFFFFFF)) (resIs 0) = true := by decide

/-- V-BS-34. -/
theorem test_bsCheck_overflow :
    answers (exec (.bsCheck 0) (bsAt false 0 0x10000 0x10000)) (errIs 4 0 65536 0 65536) = true := by decide

/-! ## Bit pumps (95_test_vectors.md 2.3) -/

/-- V-BP-13. -/
theorem test_bpInit :
    answers (exec (.bpInit 0 0 .jpeg) ((sized 16 8).setStream 0 ⟨true, 0, 16, 4, false⟩))
      (fun t => decide (t.pumps[0] = freshPump .jpeg 4 12) && streamIs 0 0 16 4 t) = true := by decide

/-- V-BP-1. -/
theorem test_bpFill_jpeg :
    answers (exec (.bpFill 0) (pumpOn .jpeg [0x12, 0xFF, 0x00, 0x34, 0xFF, 0xD9, 0x56]))
      (fun t => decide (readReg t (.pStat 0) = 0x0008201B#32 ∧ readReg t (.pEndpos 0) = 4#32 ∧
        readReg t (.pInpos 0) = 4#32 ∧ readReg t (.pCacheHi 0) = 0x12FF3400#32 ∧
        readReg t (.pCacheLo 0) = 0#32)) = true := by decide

/-- V-BP-11. -/
theorem test_bpFill_stuffed :
    answers (exec (.bpFill 0) (pumpOn .jpeg [0xFF, 0, 0xFF, 0, 0xFF, 0, 0xFF, 0, 0xFF, 0]))
      (fun t => decide (readReg t (.pCacheHi 0) = 0xFFFFFFFF#32 ∧ readReg t (.pInpos 0) = 8#32 ∧
        t.pumps[0].ended = false)) = true := by decide

/-- V-BP-7 and V-BP-9. -/
theorem test_bpGetBits :
    answers (exec (.bpGetBits 0 32#6) (pumpOn .msb32 [1, 2, 3, 4]))
      (fun t => resIs 0x04030201 t && decide (readReg t (.pConsumed 0) = 32#32 ∧ t.pumps[0].ended = false)) = true ∧
    answers (exec (.bpGetBits 0 16#6) (pumpOn .jpeg [0x12, 0xFF])) (resIs 0x1200) = true := by decide

/-- V-BP-12: a read past an empty window. -/
theorem test_bpGetBits_past_the_data : answers (exec (.bpGetBits 0 1#6) (pumpOn .msb [])) (errIs 3 0 1 0 0) = true := by
  decide

/-- V-BP-3. -/
theorem test_bpPeekBits :
    answers (exec (.bpPeekBits 0 4#6) (pumpOn .msb [0xA5, 0x3C]))
      (fun t => resIs 0xA t && decide (t.pumps[0].consumed = 0 ∧ t.pumps[0].inpos = 2#32 ∧ t.pumps[0].pad = 16 ∧
        t.pumps[0].cache.length = 32 ∧ t.pumps[0].ended = true)) = true := by decide

/-- V-BP-4. -/
theorem test_bpSkipBits :
    answers (exec (.bpSkipBits 0 3#6) (pumpOn .msb [0xA5, 0x3C]))
      (fun t => resIs 0 t && decide (t.pumps[0].consumed = 3 ∧ readReg t (.pCacheHi 0) = 0x29E00000#32)) = true := by
  decide

/-! ## Huffman tables (95_test_vectors.md 2.4) -/

/-- HT_RESET on a READY table (43_huffman.md R160). -/
theorem test_htReset :
    answers (exec (.htReset 0) (valuesOn tableOne [])) (fun t => decide (t.tables[0] = HuffTable.reset)) = true := by
  decide +kernel

/-- V-HT-1's counts, and V-HT-7. -/
theorem test_htSetCounts :
    answers (exec (.htSetCounts 0) (withArgs (sized 8 8) 0x00020101 0))
      (fun t => decide (readReg t (.tStat 0) = 1#32 ∧ t.tables[0].countOf 1 = 1 ∧ t.tables[0].countOf 2 = 1 ∧
        t.tables[0].countOf 3 = 2 ∧ t.tables[0].countOf 4 = 0)) = true ∧
    answers (exec (.htSetCounts 0) (withArgs (sized 8 8) 0xFFFFFFFF 1)) (errIs 5 0 0 0 1021) = true := by
  decide +kernel

/-- HT_SET_VALUES on V-HT-1's counts and stream. -/
theorem test_htSetValues :
    answers (exec (.htSetValues 0 1 4#9) (valuesOn { valuesTable [1, 1, 2] [] with state := .counts } [0, 1, 2, 3]))
      (fun t => decide (readReg t (.tStat 0) = 0x00040002#32 ∧ t.tables[0].valueAt 3 = 3#8) && streamIs 1 0 4 4 t) =
      true := by decide +kernel

/-- V-HT-8 and V-HT-9. -/
theorem test_htSetValues_errors :
    answers (exec (.htSetValues 0 1 3#9) (valuesOn { valuesTable [1, 1] [] with state := .counts } [1, 2]))
      (errIs 5 0 0 0 3) = true ∧
    answers (exec (.htSetValues 0 1 2#9) (valuesOn { valuesTable [1, 1] [] with state := .counts } [1]))
      (errIs 3 0 2 1 1) = true := by decide +kernel

/-- V-HT-1. -/
theorem test_htSetup :
    answers (exec (.htSetup 0 false) (valuesOn (valuesTable [1, 1, 2] [0, 1, 2, 3]) []))
      (fun t => decide (readReg t (.tStat 0) = 0x00040003#32 ∧
        [1, 2, 3, 4].map t.tables[0].firstOf = [0, 2, 6, 16] ∧
        [1, 2, 3, 4].map t.tables[0].indexOf = [0, 1, 2, 4])) = true := by decide +kernel

/-- V-HT-5. -/
theorem test_htSetup_oversubscribed :
    answers (exec (.htSetup 0 false) (valuesOn (valuesTable [1, 2, 2] [1, 2, 3, 4, 5]) [])) (errIs 5 0 3 0 10) =
      true := by decide +kernel

/-- V-HT-2's first symbol. -/
theorem test_htDecodeSym :
    answers (exec (.htDecodeSym 0 0) (huffOn tableOne [0xD1, 0xC0]))
      (fun t => resIs 2 t && decide (readReg t (.pConsumed 0) = 3#32)) = true := by decide +kernel

/-- V-HT-15. -/
theorem test_htDecodeSym_no_code :
    answers (exec (.htDecodeSym 0 0) (huffOn (readyTable [1] [5] false) [0xFF, 0xFF, 0xFF]))
      (fun t => errIs 5 3 0 0 0xFFFF t && decide (t.pumps[0].consumed = 0)) = true := by decide +kernel

/-- V-HT-21. -/
theorem test_htDecodeDiff :
    answers (exec (.htDecodeDiff 0 0) (huffOn (readyTable [1] [8] false) [0x3F, 0x80])) (resIs (u32 (-128))) = true ∧
    answers (exec (.htDecodeDiff 0 0) (huffOn (readyTable [1] [8] false) [0x40, 0x00])) (resIs 128) = true := by
  decide +kernel

/-- V-HT-18. -/
theorem test_htDecodeDiff_dng16 :
    answers (exec (.htDecodeDiff 0 0) (huffOn (readyTable [1] [16] true) [0x55, 0x55, 0x55]))
      (fun t => resIs 0xFFFF8000 t && decide (readReg t (.pConsumed 0) = 17#32)) = true := by decide +kernel

/-- V-HT-12. -/
theorem test_htLoadPentaxLegacy :
    answers (exec (.htLoadPentaxLegacy 2) (sized 8 8))
      (fun t => decide (readReg t (.tStat 2) = 0x000D0003#32 ∧
        [1, 2, 3, 4, 5, 6, 7, 8, 9, 10].map t.tables[2].firstOf = [0, 0, 4, 14, 30, 62, 126, 254, 510, 1022])) =
      true := by decide +kernel

/-- The start of V-HT-24 to V-HT-29. -/
def pentaxOn (l : List Nat) : State := (loaded l 8).setStream 0 ⟨true, 0, BitVec.ofNat 32 l.length, 0, true⟩

/-- V-HT-24. -/
theorem test_htLoadPentax :
    answers (exec (.htLoadPentax 0 0) (pentaxOn [0, 3, 8, 0, 0, 0, 0xC, 0, 2, 1, 2]))
      (fun t => decide (readReg t (.tStat 0) = 0x00030003#32 ∧
        [0, 1, 2].map t.tables[0].valueAt = [1#8, 0#8, 2#8]) && streamIs 0 0 11 11 t) = true := by decide +kernel

/-- V-HT-28 and V-HT-29. -/
theorem test_htLoadPentax_errors :
    answers (exec (.htLoadPentax 0 0) (pentaxOn [0, 2, 8, 0, 8, 0, 1, 1])) (errIs 5 0 0 1 1) = true ∧
    answers (exec (.htLoadPentax 0 0) (pentaxOn [0, 1])) (errIs 3 0 5 0 2) = true := by decide +kernel

/-! ## Image decoders (95_test_vectors.md 2.5-2.7) -/

/-- V-LJ-1. -/
theorem test_ljDecode :
    answers (exec (.ljDecode 0) (ljState 0x12 0x1111 0x00020008))
      (fun t => outIs [1, 1, 3, 1, 2, 4, 2, 4, 2, 2, 4, 2, 3, 5, 3, 5] t &&
        decide (readReg t (.pConsumed 0) = 44#32 ∧ readReg t (.pStat 0) = 0x0030340B#32)) = true := by decide +kernel

/-- V-LJ-4: one row takes 22 bits; V-LJ-13: an unsupported predictor. -/
theorem test_ljDecode_one_row :
    answers (exec (.ljDecode 0) (ljState 0x12 0x1111 0x00010008))
      (fun t => outIs [1, 1, 3, 1, 2, 4, 2, 4] t && decide (readReg t (.pConsumed 0) = 22#32)) = true ∧
    answers (exec (.ljDecode 0) (ljState 0x22 0x1111 0x00020008)) (errIs 6 0 0 0 2) = true := by decide +kernel

/-- V-PX-2. -/
theorem test_pxDecode :
    answers (exec (.pxDecode 0 0) (pxState [0xFB, 0x27, 0xEC, 0x88, 0x17, 0xB2, 0xEF, 0x37, 0x00] 4 2))
      (fun t => outIs [100, 200, 97, 205, 50, 60, 51, 59] t && decide (readReg t (.pConsumed 0) = 66#32)) = true := by
  decide +kernel

/-- V-PX-3 and V-PX-4. -/
theorem test_pxDecode_errors :
    answers (exec (.pxDecode 0 0) (pxState [0xCF, 0x00] 2 2)) (errIs 5 0 0 0 (-1)) = true ∧
    answers (exec (.pxDecode 0 0) (pxState [0x2C, 0xE4, 0x70] 3 2)) (errIs 5 2 3 0 0) = true := by decide +kernel

/-- Two rows of 46_samsung.md R210 in a raw stream of 20 bytes. -/
theorem test_sv0Stripes :
    answers (exec (.sv0Stripes 0 1) (stripesState [0, 8] 2 20))
      (fun t => decide (t.sv0 = ⟨true, [⟨0, 8⟩, ⟨8, 12⟩], []⟩) && streamIs 0 0 8 8 t) = true := by decide

/-- V-SV-3: the last offset passes the raw stream. -/
theorem test_sv0Stripes_short_raw :
    answers (exec (.sv0Stripes 0 1) (stripesState [0, 100, 250] 3 200))
      (fun t => errIs 5 2 0 0 200 t && decide (t.sv0 = ⟨false, [], []⟩ ∧ t.streams[0].pos = 0#32)) = true := by decide

/-- V-SV-1. -/
theorem test_sv0Decode :
    answers (exec (.sv0Decode 0 .msb32) (svState [0x3C, 0x08, 0x90, 0x7F, 0, 0, 0, 0x50] 16))
      (fun t => outIs [129, 127, 127, 128, 126, 127, 128, 128, 128, 128, 128, 128, 128, 128, 128, 128] t &&
        decide (readReg t (.pConsumed 0) = 37#32 ∧ t.sv0.ready = false)) = true := by decide +kernel

/-- V-SV-10 and V-SV-14; and V-SV-9, with the height 0 too: a table for another height is E_STATE before IMGCHK
(92_eei_decisions.md D10). -/
theorem test_sv0Decode_errors :
    answers (exec (.sv0Decode 0 .msb32) (withImage (svState [0] 16) 16 16 2)) (errIs 2 1 0 0 2) = true ∧
    answers (exec (.sv0Decode 0 .msb32) (withImage (svState [0] 16) 16 16 0)) (errIs 2 1 0 0 0) = true ∧
    answers (exec (.sv0Decode 0 .msb32) (svState [0, 0, 0, 0x80] 32)) (errIs 5 0 0 0 1) = true ∧
    answers (exec (.sv0Decode 0 .msb32) (svState [0, 0] 16)) (errIs 3 2 7 0 30) = true := by decide +kernel

/-! ## Fuji (95_test_vectors.md 2.8) -/

/-- V-FJ-1 and V-FJ-2. -/
theorem test_fjInit :
    answers (exec (.fjInit 12#5) (sized 8 8))
      (fun t => decide (readReg t .fjStat = 0x00300C01#32 ∧ t.fuji.ge.pair 2 40 = ⟨64, 1⟩)) = true ∧
    answers (exec (.fjInit 13#5) (sized 8 8)) (errIs 5 0 0 0 13) = true := by decide +kernel

/-- V-FJ-9's gradient reset, and V-FJ-3. -/
theorem test_fjGradReset :
    answers (exec .fjGradReset { sized 8 8 with fuji := { fuji14 with errcnt := 1, ge := GradArray.filled ⟨7, 7⟩ } })
      (fun t => decide (t.fuji = fuji14)) = true ∧
    answers (exec .fjGradReset (sized 8 8)) (errIs 2 0 0 0 0) = true := by decide +kernel

/-- V-FJ-5. -/
theorem test_fjSampleEven :
    answers (exec (.fjSampleEven 0 0) (fjState [0x82, 0x80] 100 100 100 100 200 100))
      (fun t => resIs 103 t && decide (t.fuji.ge.pair 0 27 = ⟨259, 2⟩ ∧ t.fuji.ge.pair 0 0 = ⟨256, 1⟩)) = true := by
  decide +kernel

/-- V-FJ-13 and V-FJ-11. -/
theorem test_fjSampleEven_wraps :
    answers (exec (.fjSampleEven 0 0) (fjState [0x82, 0x80] 0 0 0 0 0 0)) (resIs 16381) = true ∧
    answers (exec (.fjSampleEven 0 0) (fjState [0x82, 0x80] 100 16384 100 100 100 100)) (errIs 5 0 0 0 16384) =
      true := by decide +kernel

/-- V-FJ-6. -/
theorem test_fjSampleOdd :
    answers (exec (.fjSampleOdd 0 0) (fjState [0x82, 0x00] 200 100 50 150 100 300))
      (fun t => resIs 252 t && decide (t.fuji.go.pair 0 15 = ⟨258, 2⟩)) = true := by decide +kernel

/-- V-FJ-8: END_STRIP on an error count, and V-FJ-9. -/
theorem test_fjEndStrip :
    answers (exec .fjEndStrip { sized 8 8 with fuji := { fuji14 with errcnt := 1 } }) (errIs 5 0 0 0 1) = true ∧
    answers (exec .fjEndStrip { sized 8 8 with fuji := fuji14 }) (resIs 0) = true := by decide

/-- V-FJ-19, V-FJ-20 and V-FJ-22. -/
theorem test_fjStripWidth :
    answers (exec (.fjStripWidth 4#16) (geomState 0x00050040 300)) (resIs 44) = true ∧
    answers (exec (.fjStripWidth 5#16) (geomState 0x00050040 300)) (errIs 5 0 0 5 5) = true ∧
    answers (exec (.fjStripWidth 4#16) (geomState 0x00050040 256)) (errIs 5 5 64 0 256) = true := by decide

/-- V-FJ-19. -/
theorem test_fjStripOffset :
    answers (exec (.fjStripOffset 4#16) (geomState 0x00050040 300)) (resIs 256) = true ∧
    answers (exec (.fjStripOffset 0#16) (geomState 0x00050040 300)) (resIs 0) = true := by decide

/-! ## Witnesses: for each obligation with hypotheses, a state and operands that meet them -/

/-- Whether a piece of pseudocode answers a value with a property. -/
def okWith {α : Type} (x : Eff α) (f : α → Bool) : Bool :=
  match x with
  | .ok a => f a
  | .error _ => false

theorem okWith_ok {α : Type} {x : Eff α} {f : α → Bool} (h : okWith x f = true) : ∃ a, x = .ok a ∧ f a = true := by
  match x, h with
  | .ok a, h => exact ⟨a, rfl, h⟩

/-- Whether a piece of pseudocode raises an error with a property. -/
def raisedWith {α : Type} (x : Eff α) (f : ErrInfo → Bool) : Bool :=
  match x with
  | .error (.raised e) => f e
  | _ => false

theorem raisedWith_error {α : Type} {x : Eff α} {f : ErrInfo → Bool} (h : raisedWith x f = true) :
    ∃ e, x = .error (.raised e) ∧ f e = true := by
  match x, h with
  | .error (.raised e), h => exact ⟨e, rfl, h⟩

/-- No n bits from a pump on, for 1 ≤ n < l, are a code of the table. -/
def noneShorter (s : State) (ix : PumpIx) (p : Pump) (h : HuffTable) (l : Nat) : Bool :=
  (List.range l).all fun k => decide (k = 0) ||
    match readCode s ix k p with
    | .ok (c, _) => !decide (h.firstOf k ≤ c ∧ c < h.firstOf k + h.countOf k)
    | .error _ => true

theorem noneShorter_spec {s : State} {ix : PumpIx} {p : Pump} {h : HuffTable} {l : Nat}
    (hn : noneShorter s ix p h l = true) :
    ∀ k c' q', 1 ≤ k → k < l → readCode s ix k p = .ok (c', q') → ¬ h.hasCode k c' := by
  intro k c' q' h1 hk hr hc
  have := List.all_eq_true.mp hn k (List.mem_range.mpr hk)
  rw [hr] at this
  have hk0 : ¬ k = 0 := by omega
  simp only [hk0, decide_false, Bool.false_or, Bool.not_eq_true', decide_eq_false_iff_not] at this
  exact this hc

theorem noneShorter_within {s : State} {ix : PumpIx} {p : Pump} {h : HuffTable} {n : Nat}
    (hn : noneShorter s ix p h (n + 1) = true) : NoCodeWithin s ix p h n :=
  fun k c' q' h1 hk => noneShorter_spec hn k c' q' h1 (by omega)

/-- Whether a code of length l stands at a pump, with a property of the code and the pump after. -/
def codeAt (s : State) (ix : PumpIx) (p : Pump) (h : HuffTable) (l : Nat) (f : Nat × Pump → Bool) : Bool :=
  decide (1 ≤ l ∧ l ≤ 16) && noneShorter s ix p h l &&
    okWith (readCode s ix l p) (fun x => decide (h.firstOf l ≤ x.1 ∧ x.1 < h.firstOf l + h.countOf l) && f x)

theorem codeAt_starts {s : State} {ix : PumpIx} {p : Pump} {h : HuffTable} {l : Nat} {f : Nat × Pump → Bool}
    (hx : codeAt s ix p h l f = true) : ∃ c q, StartsWithCode s ix p h l c q ∧ f (c, q) = true := by
  simp only [codeAt, Bool.and_eq_true, decide_eq_true_eq] at hx
  obtain ⟨x, hr, hf⟩ := okWith_ok hx.2
  simp only [Bool.and_eq_true, decide_eq_true_eq] at hf
  exact ⟨x.1, x.2, ⟨hx.1.1.1, hx.1.1.2, hr, hf.1, noneShorter_spec hx.1.2⟩, hf.2⟩

/-! Encoding and launch. -/

theorem witness_DecodeOfEncodeIsTheCommand :
    (Instr.bpGetBits 1 32#6).wf = true ∧ (Instr.bsHasPrefix 3 8#4).wf = true ∧
      (Instr.htSetValues 3 3 256#9).wf = true ∧ Config.resetParams.decided = true := by decide

theorem witness_DecodedWordIsTheWordOfItsCommand : decode 0x42330100#32 = .ok (.htSetValues 3 3 256#9) := by decide

theorem witness_StepRunsTheDecodedCommand :
    (∃ s : State, s.status.busy = true ∧ decode s.cmd = .ok (.bsGetU8 0) ∧ (Instr.bsGetU8 0).fits s.par = true ∧
      s.events = []) ∧
    (∃ s : State, s.status.busy = true ∧ decode s.cmd = .ok (.bsGetU8 0) ∧ (Instr.bsGetU8 0).fits s.par = true ∧
      s.events = .sequencer :: [.inRead 3]) ∧
    (∃ s : State, s.status.busy = false ∧ s.events = []) ∧
    (∃ s : State, s.status.busy = false ∧ s.events = .sequencer :: [.inRead 3]) ∧
    ∃ s : State, s.events = .regWrite .word 0x014#10 0x11000000#32 :: [] ∧ s.status.busy = false ∧
      s.status.err = false :=
  ⟨⟨busyWith (bsAt false 0 0 0) 0x11000000#32 [], by decide⟩,
    ⟨busyWith (bsAt false 0 0 0) 0x11000000#32 [.sequencer, .inRead 3], by decide⟩,
    ⟨sized 8 8, by decide⟩,
    ⟨moves (sized 8 8) [.sequencer, .inRead 3], by decide⟩,
    ⟨moves (bsAt false 0 0 0) [.regWrite .word 0x014#10 0x11000000#32], by decide⟩⟩

theorem witness_IllegalWordEntersTheErrorState :
    ∀ a ∈ [(0x11010000#32, DecodeError.nonzeroField, 0x11#8), (0x50200000#32, .operandRange, 0x50#8),
        (0x51040000#32, .operandRange, 0x51#8), (0x52010001#32, .nonzeroField, 0x52#8),
        (0x53000003#32, .illegalImmediate, 0x53#8)],
      ∀ l ∈ [[], [Event.sequencer, .inRead 3]],
        let s := busyWith (bsAt false 0 0 0) a.1 l
        s.status.busy = true ∧ decodeIn s.par s.cmd = .error a.2.1 ∧ s.cmd.extractLsb' 24 8 = a.2.2 ∧
          (s.events = [] ∨ s.events = .sequencer :: [.inRead 3]) := by
  intro a h
  simp only [List.mem_cons, List.not_mem_nil, or_false] at h
  rcases h with h | h | h | h | h <;> subst h <;> decide

theorem witness_CommandWriteIsDroppedWhenBusyOrInError :
    (∃ s : State, s.events = .regWrite .word 0x014#10 0#32 :: [] ∧ s.status.busy = true) ∧
    ∃ s : State, s.events = .regWrite .word 0x014#10 0#32 :: [] ∧ s.status.err = true :=
  ⟨⟨busyWith (sized 8 8) 0#32 [.regWrite .word 0x014#10 0#32], by decide⟩,
    ⟨moves { sized 8 8 with status := ⟨false, false, true, false, false⟩ } [.regWrite .word 0x014#10 0#32], by decide⟩⟩

/-! The register space. -/

/-- A state whose next move is one host write of a word. -/
def writing (busy : Bool) (o : Nat) : State :=
  { sized 8 8 with
    status := ⟨busy, false, false, false, false⟩
    events := [.regWrite .word (BitVec.ofNat 10 o) 0xFFFFFFFF#32] }

theorem witness_RegisterWritesAreStoredOrDropped :
    (∀ o ∈ [0x010, 0x040, 0x060, 0x074, 0x090], ∀ b : Bool,
      (writing b o).events = .regWrite .word (BitVec.ofNat 10 o) 0xFFFFFFFF#32 :: [] ∧
        (BitVec.ofNat 10 o).toNat = o ∧ o % 4 = 0 ∧ (writing b o).status.busy = b ∧
        (o = 0x010 ∨ (0x040 ≤ o ∧ o ≤ 0x090))) ∧
    ∀ o ∈ [0x000, 0x004, 0x018, 0x034, 0x094, 0x09C, 0x100, 0x13C, 0x200, 0x23C, 0x300, 0x30C], ∀ b : Bool,
      (writing b o).events = .regWrite .word (BitVec.ofNat 10 o) 0xFFFFFFFF#32 :: [] ∧
        (BitVec.ofNat 10 o).toNat = o ∧ o % 4 = 0 ∧ (writing b o).status.busy = b ∧
        (o ≤ 0x004 ∨ (0x018 ≤ o ∧ o ≤ 0x034) ∨ (0x094 ≤ o ∧ o ≤ 0x09C) ∨ (0x100 ≤ o ∧ o ≤ 0x13C) ∨
          (0x200 ≤ o ∧ o ≤ 0x23C) ∨ (0x300 ≤ o ∧ o ≤ 0x30C)) := by
  refine ⟨fun o h b => ?_, fun o h b => ?_⟩ <;> (simp only [List.mem_cons, List.not_mem_nil, or_false] at h)
  · rcases h with h | h | h | h | h <;> subst h <;> cases b <;> decide
  · rcases h with h | h | h | h | h | h | h | h | h | h | h | h <;> subst h <;> cases b <;> decide

/-- A state whose next move is one host read of a word. -/
def reading (o : Nat) : State := { sized 8 8 with events := [.regRead .word (BitVec.ofNat 10 o)] }

/-- Every offset of the register space's words; each clause of the statement names some of them. -/
theorem witness_RegisterReadsShowTheState (n : Fin 256) :
    ((reading (4 * n.val)).par.decided = true ∧
      (reading (4 * n.val)).events = .regRead .word (BitVec.ofNat 10 (4 * n.val)) :: [] ∧
      (BitVec.ofNat 10 (4 * n.val)).toNat = 4 * n.val ∧ (4 * n.val) % 4 = 0) ∧
    ∃ s : State, s.par.decided = true ∧ s.events = .regRead .word 0x00C#10 :: [] ∧ s.status.busy = false ∧
      s.status.done = true ∧ s.unseen ≠ [] := by
  refine ⟨⟨rfl, rfl, ?_, by omega⟩, { reading 0x00C with
    status := ⟨false, true, false, false, false⟩, unseen := [⟨0, 4, 4, 1⟩] }, by decide⟩
  rw [BitVec.toNat_ofNat]
  omega

theorem witness_OtherRegisterAccessesAreRefusedOrIgnored :
    (∃ s : State, s.events = .regRead .half 0x00C#10 :: [] ∧ AccessWidth.half ≠ .word) ∧
    (∃ s : State, s.events = .regWrite .word 0x00E#10 0#32 :: [] ∧ (0x00E#10).toNat % 4 ≠ 0) ∧
    ∀ o ∈ [0x038#10, 0x03C#10, 0x0A0#10, 0x0FC#10, 0x140#10, 0x1FC#10, 0x240#10, 0x2FC#10, 0x310#10, 0x3FC#10],
      (∃ s : State, s.events = .regRead .word o :: []) ∧ (∃ s : State, s.events = .regWrite .word o 7#32 :: []) ∧
        o.toNat % 4 = 0 ∧
        (o.toNat = 0x038 ∨ o.toNat = 0x03C ∨ (0x0A0 ≤ o.toNat ∧ o.toNat ≤ 0x0FC) ∨
          (0x140 ≤ o.toNat ∧ o.toNat ≤ 0x1FC) ∨ (0x240 ≤ o.toNat ∧ o.toNat ≤ 0x2FC) ∨ 0x310 ≤ o.toNat) := by
  refine ⟨⟨moves (sized 8 8) [.regRead .half 0x00C#10], by decide⟩,
    ⟨moves (sized 8 8) [.regWrite .word 0x00E#10 0#32], by decide⟩, fun o h =>
    ⟨⟨moves (sized 8 8) [.regRead .word o], rfl⟩, ⟨moves (sized 8 8) [.regWrite .word o 7#32], rfl⟩, ?_⟩⟩
  simp only [List.mem_cons, List.not_mem_nil, or_false] at h
  rcases h with h | h | h | h | h | h | h | h | h | h <;> subst h <;> decide

theorem witness_StatusWriteAcknowledgesFlags :
    ∃ s : State, s.events = .regWrite .word 0x00C#10 0x1A#32 :: [] ∧ s.status.done = true :=
  ⟨moves { sized 8 8 with status := ⟨false, true, false, true, true⟩ } [.regWrite .word 0x00C#10 0x1A#32], by decide⟩

theorem witness_ErrorClearReturnsFromTheError (b : Bool) :
    (∃ s : State, s.events = .regWrite .word 0x008#10 2#32 :: [] ∧ (2#32).getLsbD 0 = false ∧
      (2#32).getLsbD 1 = true ∧ s.status.err = b) ∧
    ∃ s : State, s.events = .regWrite .word 0x008#10 0xFFFFFFFC#32 :: [] ∧ (0xFFFFFFFC#32).getLsbD 0 = false ∧
      (0xFFFFFFFC#32).getLsbD 1 = false ∧ s.status.err = b :=
  ⟨⟨moves { sized 8 8 with status := ⟨false, false, b, false, false⟩ } [.regWrite .word 0x008#10 2#32], by
    cases b <;> decide⟩,
    ⟨moves { sized 8 8 with status := ⟨false, false, b, false, false⟩ } [.regWrite .word 0x008#10 0xFFFFFFFC#32], by
    cases b <;> decide⟩⟩

/-- An idle block, an accepted LJ_DECODE and an accepted SV0_STRIPES. -/
theorem witness_ResetRestoresEveryRegister :
    (∃ s : State, s.events = .resetInput :: [] ∧ s.macroBusy = false) ∧
    (∃ s : State, s.events = .regWrite .word 0x008#10 3#32 :: [] ∧ (3#32).getLsbD 0 = true ∧ s.macroBusy = false ∧
      s.streams[0].valid = true) ∧
    (∃ s : State, s.events = .resetInput :: [] ∧ s.macroBusy = true ∧ s.regs.imgH = 2#32) ∧
    ∃ s : State, s.events = .resetInput :: [] ∧ s.status.busy = true ∧ decode s.cmd = .ok (.sv0Stripes 0 1) ∧
      s.macroBusy = false :=
  ⟨⟨moves (sized 8 8) [.resetInput], by decide⟩,
    ⟨moves (bsAt true 3 0 0) [.regWrite .word 0x008#10 3#32], by decide⟩,
    ⟨busyWith (withImage (sized 8 8) 2 2 2) 0x50000000#32 [.resetInput], by decide⟩,
    ⟨busyWith (sized 8 8) 0x52010000#32 [.resetInput], by decide⟩⟩

/-! Whole-machine rules and frames: a command that completes and one that raises an error. -/

theorem witness_CommandEndsDoneOrInError :
    (∃ t, exec (.bsGetU8 0) (bsAt false 0 0 0) = .next t ∧ t.status.done = true) ∧
    ∃ t, exec (.bsGetU8 0) (bsAt false 8 0 0) = .next t ∧ t.status.err = true :=
  ⟨answers_next (by decide), answers_next (by decide)⟩

theorem witness_FailedCommandsLeaveTheRest :
    (∃ t, exec (.bsGetU8 0) (bsAt false 8 0 0) = .next t ∧ t.status.err = true) ∧
    (∃ t, exec (.sv0Stripes 0 1) (stripesState [0, 100, 250] 3 200) = .next t ∧ t.status.err = true) ∧
    (∃ t, exec (.ljDecode 0) (ljState 0x22 0x1111 0x00020008) = .next t ∧ t.status.err = true) ∧
    (∃ t, exec (.pxDecode 0 0) (pxState [0xCF, 0x00] 2 2) = .next t ∧ t.status.err = true) ∧
    (∃ t, exec (.sv0Decode 0 .msb32) (svState [0, 0] 16) = .next t ∧ t.status.err = true) ∧
    (bsAt false 8 0 0).status.err = false ∧ (stripesState [0, 100, 250] 3 200).status.err = false ∧
    (ljState 0x22 0x1111 0x00020008).status.err = false ∧ (pxState [0xCF, 0x00] 2 2).status.err = false ∧
    (svState [0, 0] 16).status.err = false ∧
    isDecodingMacro (.bsGetU8 0) = false ∧ isDecodingMacro (.sv0Stripes 0 1) = false :=
  ⟨answers_next (by decide), answers_next (by decide), answers_next (by decide +kernel),
    answers_next (by decide +kernel), answers_next (by decide +kernel), by decide, by decide, by decide +kernel,
    by decide, by decide, by decide, by decide⟩

theorem witness_OnlyTheListedCodesAreRaised :
    (Instr.bsGetU8 0).wf = true ∧ (bsAt false 8 0 0).status.err = false ∧
      ∃ t, exec (.bsGetU8 0) (bsAt false 8 0 0) = .next t ∧ t.status.err = true :=
  ⟨by decide, by decide, answers_next (by decide)⟩

theorem witness_ReadyTablesChangeOnlyByResetOrLoad :
    let i := Instr.htDecodeSym 0 0
    let s := huffOn tableOne [0xD1, 0xC0]
    i ≠ .htReset 0 ∧ i ≠ .htLoadPentaxLegacy 0 ∧ (∀ k, i ≠ .htLoadPentax 0 k) ∧ s.tables[0].state = .ready ∧
      ∃ t, exec i s = .next t ∧ t.status.done = true :=
  ⟨by decide, by decide, by decide, by decide +kernel, answers_next (by decide +kernel)⟩

theorem witness_StreamAndPumpCommandsLeaveTheRest :
    ((writesOf .nop).family = .control ∧ ∃ t, exec .nop (sized 8 8) = .next t ∧ t.status.done = true) ∧
    ((writesOf (.bsGetStream 0 1)).family = .byteStream ∧
      ∃ t, exec (.bsGetStream 0 1) (bsAt true 2 3 0) = .next t ∧ t.status.done = true) ∧
    ((writesOf (.bpGetBits 0 16#6)).family = .bitPump ∧
      ∃ t, exec (.bpGetBits 0 16#6) (pumpOn .jpeg [0x12, 0xFF]) = .next t ∧ t.status.done = true) :=
  ⟨⟨rfl, answers_next (by decide)⟩, ⟨rfl, answers_next (by decide)⟩, ⟨rfl, answers_next (by decide)⟩⟩

theorem witness_TableAndFujiCommandsLeaveTheRest :
    ((writesOf (.htDecodeDiff 0 0)).family = .huffman ∧
      ∃ t, exec (.htDecodeDiff 0 0) (huffOn tableOne [0xD1, 0xC0]) = .next t ∧ t.status.done = true) ∧
    ((writesOf (.fjSampleEven 0 0)).family = .fuji ∧
      ∃ t, exec (.fjSampleEven 0 0) (fjState [0x82, 0x80] 100 100 100 100 100 100) = .next t ∧ t.status.done = true) :=
  ⟨⟨rfl, answers_next (by decide +kernel)⟩, ⟨rfl, answers_next (by decide +kernel)⟩⟩

theorem witness_DecoderCommandsLeaveTheRest :
    ((writesOf (.pxDecode 0 0)).family = .decoder ∧
      ∃ t, exec (.pxDecode 0 0) (pxState [0x2C, 0xE4, 0x70] 2 2) = .next t ∧ t.status.done = true) ∧
    ((writesOf (.sv0Stripes 0 1)).family = .decoder ∧
      ∃ t, exec (.sv0Stripes 0 1) (stripesState [0, 8] 2 20) = .next t ∧ t.status.done = true) :=
  ⟨⟨rfl, answers_next (by decide +kernel)⟩, ⟨rfl, answers_next (by decide)⟩⟩

/-! Byte streams. -/

theorem witness_BsInitBindsAWindow :
    (withArgs (sized 8 8) 4 4).regs.arg0.toNat + (withArgs (sized 8 8) 4 4).regs.arg1.toNat = 8 ∧
    (withArgs (sized 8 8) 4 5).regs.arg0.toNat + (withArgs (sized 8 8) 4 5).regs.arg1.toNat = 8 + 1 ∧
    (withArgs (sized 8 8) 4 4).par.inSize = 8 ∧ (withArgs (sized 8 8) 4 5).par.inSize = 8 := by decide

theorem witness_TypedReadsGiveTheValueAtTheCursor :
    (typedRead (.bsGetU32 0) = some (0, 4, true) ∧ (bsAt true 4 0 0).streams[0].valid = true ∧
      (bsAt true 4 0 0).streams[0].legal (bsAt true 4 0 0).par = true ∧
      (bsAt true 4 0 0).streams[0].pos.toNat + 4 = (bsAt true 4 0 0).streams[0].size.toNat) ∧
    (typedRead (.bsPeekU16 0) = some (0, 2, false) ∧ (bsAt true 7 0 0).streams[0].valid = true ∧
      (bsAt true 7 0 0).streams[0].legal (bsAt true 7 0 0).par = true ∧
      (bsAt true 7 0 0).streams[0].pos.toNat + 2 = (bsAt true 7 0 0).streams[0].size.toNat + 1) := by decide

theorem witness_SkipAndCheckTestTheWindow :
    (bsAt false 2 6 0).streams[0].valid = true ∧ (bsAt false 8 1 0).streams[0].valid = true ∧
    (2 + (bsAt false 2 6 0).regs.arg0.toNat = 8 ∧ (bsAt false 2 6 0).streams[0].pos.toNat = 2 ∧
      (bsAt false 2 6 0).streams[0].size.toNat = 8) ∧
    ((bsAt false 8 1 0).streams[0].pos.toNat + (bsAt false 8 1 0).regs.arg0.toNat =
      (bsAt false 8 1 0).streams[0].size.toNat + 1) ∧
    ((bsAt false 0 2 4).regs.arg0.toNat * (bsAt false 0 2 4).regs.arg1.toNat = 8 ∧
      (bsAt false 0 2 4).streams[0].pos.toNat + 8 = (bsAt false 0 2 4).streams[0].size.toNat) ∧
    ((bsAt false 0 1 0xFFFFFFFF).regs.arg0.toNat * (bsAt false 0 1 0xFFFFFFFF).regs.arg1.toNat = 2 ^ 32 - 1 ∧
      (bsAt false 0 1 0xFFFFFFFF).streams[0].size.toNat < 2 ^ 32 - 1) ∧
    (bsAt false 0 0x10000 0x10000).regs.arg0.toNat * (bsAt false 0 0x10000 0x10000).regs.arg1.toNat = 2 ^ 32 := by
  decide

theorem witness_SubStreamsShareTheWindow :
    (∀ pos ∈ [5, 6], (bsAt false pos 3 0).streams[0].valid = true) ∧
    (bsAt false 5 3 0).streams[0].pos.toNat + (bsAt false 5 3 0).regs.arg0.toNat =
      (bsAt false 5 3 0).streams[0].size.toNat ∧
    (bsAt false 6 3 0).streams[0].pos.toNat + (bsAt false 6 3 0).regs.arg0.toNat =
      (bsAt false 6 3 0).streams[0].size.toNat + 1 ∧
    (bsAt false 5 8 0).regs.arg0.toNat + (bsAt false 5 8 0).regs.arg1.toNat =
      (bsAt false 5 8 0).streams[0].size.toNat ∧
    (bsAt false 5 5 4).regs.arg0.toNat + (bsAt false 5 5 4).regs.arg1.toNat =
      (bsAt false 5 5 4).streams[0].size.toNat + 1 := by decide

/-- The prefix bytes of 95_test_vectors.md V-BS-26 and V-BS-25. -/
theorem witness_PrefixCommandsCompareBytes :
    (let s := bsAt false 0 0x78563412 0xF0DEBC9A;
      s.streams[0].valid = true ∧ s.streams[0].legal s.par = true ∧ (8#4).toNat ≤ 8 ∧
      s.streams[0].pos.toNat + (8#4).toNat ≤ s.streams[0].size.toNat ∧
      ∀ i < (8#4).toNat, cursorByte s s.streams[0] i =
        if i < 4 then s.regs.arg0.extractLsb' (8 * i) 8 else s.regs.arg1.extractLsb' (8 * (i - 4)) 8) ∧
    (let s := bsAt false 7 0xF0 0;
      s.streams[0].valid = true ∧ s.streams[0].legal s.par = true ∧ 1 ≤ (1#4).toNat ∧
      s.streams[0].pos.toNat + (1#4).toNat ≤ s.streams[0].size.toNat ∧
      ∀ i < (1#4).toNat, cursorByte s s.streams[0] i =
        if i < 4 then s.regs.arg0.extractLsb' (8 * i) 8 else s.regs.arg1.extractLsb' (8 * (i - 4)) 8) ∧
    (let s := bsAt false 6 0xBCF0DE 0;
      s.streams[0].valid = true ∧ s.streams[0].legal s.par = true ∧
      ¬ s.streams[0].pos.toNat + (3#4).toNat ≤ s.streams[0].size.toNat) := by decide

theorem witness_RebaseKeepsTheContent :
    (let s := windowAt 100 50 10 4 41;
      s.par.legal = true ∧ s.streams[0].valid = true ∧ s.streams[0].legal s.par = true ∧
      s.streams[0].pos.toNat + s.regs.arg1.toNat = s.streams[0].size.toNat + 1) ∧
    (let s := windowAt 100 50 10 111 40;
      s.par.legal = true ∧ s.streams[0].valid = true ∧ s.streams[0].legal s.par = true ∧
      s.streams[0].pos.toNat + s.regs.arg1.toNat = s.streams[0].size.toNat ∧
      s.streams[0].off.toNat + s.streams[0].pos.toNat + 1 = s.regs.arg0.toNat) ∧
    (let s : State := { (withArgs (sized (2 ^ 32) 8) 0xFFFFFFF0 16).setStream 0
        ⟨true, 0xFFFFFFF0, 16, 0, false⟩ with inMem := [] };
      s.par.legal = true ∧ s.streams[0].valid = true ∧ s.streams[0].legal s.par = true ∧
      s.streams[0].pos.toNat + s.regs.arg1.toNat ≤ s.streams[0].size.toNat ∧
      s.regs.arg0.toNat ≤ s.streams[0].off.toNat + s.streams[0].pos.toNat ∧
      s.regs.arg0.toNat + s.regs.arg1.toNat = 2 ^ 32) ∧
    (let s := windowAt 100 50 10 110 40;
      s.par.legal = true ∧ s.streams[0].valid = true ∧ s.streams[0].legal s.par = true ∧
      s.streams[0].pos.toNat + s.regs.arg1.toNat = s.streams[0].size.toNat ∧
      s.regs.arg0.toNat = s.streams[0].off.toNat + s.streams[0].pos.toNat ∧
      s.regs.arg0.toNat + s.regs.arg1.toNat ≤ 2 ^ 32 - 1) := by decide

theorem witness_InvalidStreamRaisesState :
    (Instr.bsHasPrefix 2 8#4).wf = true ∧ sourceStream (.bsHasPrefix 2 8#4) = some 2 ∧
      (sized 8 8).streams[2].valid = false := by decide

/-! Memories. -/

/-- Byte 7 of IN, the last of eight: idle and busy, the last of a stream's window, the first and the last a pump has not
fetched, the last of a stripe; in each mode the first byte fetched and not consumed; and byte 0, in a pump's window and fetched, and in no window. -/
theorem witness_HostWriteOfInChangesOneByte :
    (let s := moves (bsAt false 0 0 0) [.inWrite 7 0xAB#8];
      s.events = .inWrite 7 0xAB#8 :: [] ∧ 7 < s.par.inSize ∧ s.status.busy = false ∧ s.sv0.ready = false ∧
      ∀ p : PumpIx, s.pumps[p].valid = false) ∧
    (let s := busyWith (bsAt false 0 0 0) 0#32 [.inWrite 7 0xAB#8];
      s.events = .inWrite 7 0xAB#8 :: [] ∧ s.status.busy = true ∧ s.streams[0].valid = true ∧
      s.streams[0].off.toNat ≤ 7 ∧ 7 + 1 = s.streams[0].off.toNat + s.streams[0].size.toNat) ∧
    (let s := busyWith ((sized 8 8).setPump 0 { freshPump .msb 0 8 with inpos := 7 }) 0#32 [.inWrite 7 0xAB#8];
      s.events = .inWrite 7 0xAB#8 :: [] ∧ s.status.busy = true ∧ s.pumps[0].valid = true ∧ s.pumps[0].ended = false ∧
      s.pumps[0].off.toNat + s.pumps[0].inpos.toNat = 7 ∧
      7 + 1 = s.pumps[0].off.toNat + s.pumps[0].size.toNat) ∧
    (let s := busyWith ((sized 8 8).setPump 0 { freshPump .msb 0 8 with inpos := 7 }) 0#32 [.inWrite 0 0xAB#8];
      s.events = .inWrite 0 0xAB#8 :: [] ∧ s.status.busy = true ∧ s.pumps[0].valid = true ∧
      s.pumps[0].off.toNat = 0 ∧ 0 < s.pumps[0].size.toNat) ∧
    (let s := moves ((sized 8 8).setPump 0 (freshPump .msb 0 8)) [.inWrite 7 0xAB#8];
      s.events = .inWrite 7 0xAB#8 :: [] ∧ s.status.busy = false ∧ s.pumps[0].valid = true ∧ s.pumps[0].ended = false ∧
      s.pumps[0].off.toNat + s.pumps[0].inpos.toNat ≤ 7 ∧
      7 + 1 = s.pumps[0].off.toNat + s.pumps[0].size.toNat) ∧
    (∀ a ∈ [(PumpMode.msb, 3, 8), (.msb32, 0, 32), (.jpeg, 0, 16)], ∀ b : Bool,
      let s := moves ((sized 8 8).setPump 0 { freshPump a.1 0 8 with
        inpos := 4, cache := zeros a.2.2, ended := b }) [.inWrite a.2.1 0xAB#8];
      s.events = .inWrite a.2.1 0xAB#8 :: [] ∧ s.status.busy = false ∧ s.pumps[0].valid = true ∧
      s.pumps[0].off.toNat + (match s.pumps[0].mode with
        | .msb => s.pumps[0].inpos.toNat - (s.pumps[0].cache.length - s.pumps[0].pad + 7) / 8
        | .msb32 => min s.pumps[0].inpos.toNat
            (4 * ((s.pumps[0].inpos.toNat + 3) / 4) - 4 * ((s.pumps[0].cache.length - s.pumps[0].pad + 31) / 32))
        | .jpeg => s.pumps[0].inpos.toNat - 2 * ((s.pumps[0].cache.length - s.pumps[0].pad + 7) / 8)) = a.2.1 ∧
      a.2.1 < s.pumps[0].inpos.toNat) ∧
    (let s := moves ((sized 8 8).setPump 0 { freshPump .jpeg 0 8 with ended := true, marker := true })
        [.inWrite 0 0xAB#8];
      s.events = .inWrite 0 0xAB#8 :: [] ∧ s.status.busy = false ∧ s.sv0.ready = false ∧ s.pumps[0].valid = true ∧
      s.pumps[0].ended = true ∧ ∀ p : PumpIx, p ≠ 0 → s.pumps[p].valid = false) ∧
    (let s := moves (svState [0, 0, 0, 0, 0, 0, 0, 0] 16) [.inWrite 7 0xAB#8];
      s.events = .inWrite 7 0xAB#8 :: [] ∧ s.sv0.ready = true ∧ s.sv0.stripes = [⟨0, 8⟩]) ∧
    (let s := busyWith (sized 8 8) 0#32 [.inWrite 0 0xAB#8];
      s.events = .inWrite 0 0xAB#8 :: [] ∧ s.status.busy = true ∧ s.sv0.ready = false ∧
      (∀ k : StreamIx, s.streams[k].valid = false) ∧
      ∀ p : PumpIx, s.pumps[p].valid = false) := by decide

/-- OUT of eight samples shared by two instances; the first four are the image region of an LJ_DECODE that is accepted,
or of one that has ended unseen. -/
def outState (busy unseen : Bool) (order : ByteOrder) (l : List Event) : State :=
  let s := withImage (sized 8 8) 4 4 1
  { s with
    par := { s.par with nInst := 2, outOrder := order }
    cmd := 0x50000000#32
    status := { s.status with busy := busy }
    unseen := if unseen then [s.regs.image] else []
    events := l }

/-- Samples 3 and 4 stand on either side of the region's end, and sample 7 is OUT's last. -/
theorem witness_ByteViewOfOutFollowsTheOrder :
    (∀ l ∈ [[Event.outByteWrite (2 * 7) 0x34#8, .outByteWrite (2 * 7 + 1) 0x12#8], [.outByteRead (2 * 7 + 1)],
        [.outRead 7], [.outWrite 7 1#16], [.peerWrite 7 1#16]],
      ∀ order : ByteOrder, (outState false false order l).events = l ++ [] ∧
        7 + 1 = (outState false false order l).par.outSize ∧ (outState false false order l).par.outOrder = order ∧
        1 < (outState false false order l).par.nInst ∧ ¬ HiddenSample (outState false false order l) 7) ∧
    (∀ l ∈ [[Event.outRead 3], [.outWrite 3 1#16]], HiddenSample (outState true false .little l) 3 ∧
      HiddenSample (outState false true .little l) 3 ∧ (outState true false .little l).macroBusy = true ∧
      (outState true false .little l).regs.image.Has 3) ∧
    (let l := [Event.outWrite 4 1#16];
      ¬ HiddenSample (outState true false .little l) 4 ∧ ¬ HiddenSample (outState false true .little l) 4 ∧
      ¬ (outState true false .little l).regs.image.Has 4) ∧
    (let s := { ljState 0x12 0x1111 0x00020008 with outRaced := [0] };
      isDecodingMacro (.ljDecode 0) = true ∧ 0 ∈ s.outRaced ∧
        ∃ t, exec (.ljDecode 0) s = .next t ∧ t.status.done = true) := by
  refine ⟨fun l h order => ⟨(List.append_nil l).symm, rfl, rfl, (by decide : 1 < 2), mt hidden_iff.mpr ?_⟩, fun l h => ?_,
    ⟨mt hidden_iff.mpr (by decide), mt hidden_iff.mpr (by decide), mt ImageRegion.holds_iff.mpr (by decide)⟩,
    by decide, by decide, answers_next (by decide +kernel)⟩
  · simp only [List.mem_cons, List.not_mem_nil, or_false] at h
    rcases h with h | h | h | h | h <;> subst h <;> cases order <;> decide
  · simp only [List.mem_cons, List.not_mem_nil, or_false] at h
    rcases h with h | h <;> subst h <;>
      exact ⟨hidden_iff.mp (by decide), hidden_iff.mp (by decide), by decide, ImageRegion.holds_iff.mp (by decide)⟩

/-! Bit pumps. -/

theorem witness_BpInitStartsAPump :
    (bsAt false 3 0 0).streams[0].valid = true ∧ (sized 8 8).streams[3].valid = false := by decide

/-- A pump whose cache holds n bits. -/
def cachedPump (n : Nat) : State :=
  (sized 8 8).setPump 0 { freshPump .msb 0 8 with inpos := 4, cache := zeros n }

theorem witness_PumpCommandsDeliverTheCache :
    ((sized 8 8).par.decided = true ∧ ∀ l m, (pumpOn m l).par.decided = true) ∧
    (∀ n ∈ [31, 32], (cachedPump n).par = (sized 8 8).par ∧ (cachedPump n).pumps[0].valid = true ∧
      (cachedPump n).pumps[0].legal (cachedPump n).par = true ∧ (cachedPump n).pumps[0].cache.length = n) ∧
    ((pumpOn .msb [1, 2, 3, 4]).pumps[0].valid = true ∧
      (pumpOn .msb [1, 2, 3, 4]).pumps[0].legal (pumpOn .msb [1, 2, 3, 4]).par = true ∧ (32#6).toNat ≤ 32) ∧
    (pumpOn .msb [1, 2, 3, 4]).pumps[0].mayDeliver (pumpOn .msb [1, 2, 3, 4]).par (32#6).toNat ∧
    (pumpOn .jpeg []).pumps[0].mayDeliver (pumpOn .jpeg []).par (32#6).toNat := by
  refine ⟨⟨by decide, fun _ _ => rfl⟩, ?_⟩
  unfold Pump.mayDeliver
  decide

/-- The pump of a PGET is p0's own, and one that stands elsewhere in its data. -/
theorem witness_OverReadRaisesBounds :
    ((9#6).toNat ≤ 32 ∧ (pumpOn .msb [0xA5]).pumps[0].valid = true ∧
      (pumpOn .msb [0xA5]).pumps[0].legal (pumpOn .msb [0xA5]).par = true) ∧
    ¬ (pumpOn .msb [0xA5]).pumps[0].mayDeliver (pumpOn .msb [0xA5]).par (9#6).toNat ∧
    ¬ (pumpOn .msb32 []).pumps[0].mayDeliver (pumpOn .msb32 []).par (1#6).toNat ∧
    (let s := pumpOn .msb [0xA5];
      let v : Pump := { s.pumps[0] with consumed := 8 };
      v.legal s.par = true ∧ v.valid = true ∧ ¬ v.mayDeliver s.par 1) ∧
    (sized 8 8).pumps[1].valid = false := by
  unfold Pump.mayDeliver
  decide

theorem witness_PeekThenSkipIsGet :
    let s := pumpOn .msb [0xA5, 0x3C]
    s.par.decided = true ∧ (16#6).toNat ≤ 32 ∧ s.status.err = false ∧
      (∃ t, exec (.bpPeekBits 0 16#6) s = .next t ∧ ∃ u, exec (.bpSkipBits 0 16#6) t = .next u) ∧
      ∃ w, exec (.bpGetBits 0 16#6) s = .next w ∧ w.status.err = false := by
  refine ⟨rfl, by decide, by decide, ?_, ?_⟩
  · obtain ⟨t, ht, h⟩ := answers_next (o := exec (.bpPeekBits 0 16#6) (pumpOn .msb [0xA5, 0x3C]))
      (f := fun t => answers (exec (.bpSkipBits 0 16#6) t) (fun _ => true)) (by decide)
    obtain ⟨u, hu, -⟩ := answers_next h
    exact ⟨t, ht, u, hu⟩
  · obtain ⟨w, hw, h⟩ := answers_next (o := exec (.bpGetBits 0 16#6) (pumpOn .msb [0xA5, 0x3C]))
      (f := fun t => !t.status.err) (by decide)
    exact ⟨w, hw, by simpa using h⟩

/-- A pump in step with the window of its data, and what its next fill leaves. -/
def FillsInStep (s : State) (p : Pump) (f : Pump → Bool) : Prop :=
  s.par.decided = true ∧ InStep s p ∧ quietWindow s p ∧ p.cache.length < 32 ∧ ∃ q, fill s p = .ok q ∧ f q = true

/-- V-BP-1's fill, which reaches the marker at 4 with its fourth fetch; a fill within the data; fills that reach the
window's end in MSB, JPEG and MSB32 mode; and one of a pump whose data has ended. -/
theorem witness_MarkerStopsTheJpegPump_fill :
    (let s := pumpOn .jpeg [0x12, 0xFF, 0x00, 0x34, 0xFF, 0xD9, 0x56];
      markerAt s s.pumps[0] 4 = true ∧ placeAfter s s.pumps[0] 3 = 4 ∧
      FillsInStep s s.pumps[0] (fun q => q.ended && q.marker && decide (q.pad = 8 ∧ q.endpos = 4#32))) ∧
    (let s := pumpOn .msb [1, 2, 3, 4]; FillsInStep s s.pumps[0] (fun q => !q.ended && decide (q.pad = 0))) ∧
    (let s := pumpOn .msb [0xA5, 0x3C];
      FillsInStep s s.pumps[0] (fun q => q.ended && decide (q.pad = 16 ∧ q.endpos = 2#32))) ∧
    (let s := pumpOn .jpeg [0xA5, 0x3C];
      FillsInStep s s.pumps[0] (fun q => q.ended && !q.marker && decide (q.pad = 16 ∧ q.endpos = 2#32))) ∧
    (let s := pumpOn .msb32 [];
      FillsInStep s s.pumps[0] (fun q => q.ended && decide (q.pad = 32 ∧ q.endpos = 0#32))) ∧
    (let s := pumpOn .msb [0xA5, 0x3C];
      FillsInStep s { s.pumps[0] with
        inpos := 2, cache := (bits8 0xA5#8 ++ bits8 0x3C#8 ++ zeros 16).drop 3, pad := 16, ended := true
        endpos := 2, consumed := 3 } (fun q => q.ended && decide (q.pad = 48 ∧ q.endpos = 2#32))) := by
  have quiet : ∀ (s : State) (p : Pump), s.inRaced = [] → p.raced = [] → quietWindow s p := fun s p h h' _ _ _ => by
    simp [h, h']
  refine ⟨⟨by decide, by decide, ?_⟩, ?_, ?_, ?_, ?_, ?_⟩ <;>
    exact ⟨rfl, by unfold InStep; decide +kernel, quiet _ _ rfl rfl, by decide, okWith_ok (by decide +kernel)⟩

/-- V-BP-1's bytes, with the marker at 4; a 0xFF as the last byte; a marker at the cursor; and no marker, at the window's
end and before it. -/
theorem witness_MarkerStopsTheJpegPump :
    (∀ a ∈ [([0x12, 0xFF, 0x00, 0x34, 0xFF, 0xD9, 0x56], 4), ([0x12, 0xFF], 1), ([0xFF, 0xD9], 0)],
      let s := pumpOn .jpeg a.1
      let p := s.pumps[0]
      p.mode = .jpeg ∧ quietWindow s p ∧ p.inpos.toNat ≤ p.size.toNat ∧ p.ended = false ∧ p.marker = false ∧
        p.inpos.toNat ≤ a.2 ∧ markerAt s p a.2 = true ∧ (∀ i < a.2, markerAt s p i = false) ∧
        ∃ q, fill s p = .ok q ∧ q.ended = true) ∧
    ∀ a ∈ [([0xFF, 0x00, 0x34], true), ([0x12, 0xFF, 0x00, 0x34, 0x56], false)],
      let s := pumpOn .jpeg a.1
      let p := s.pumps[0]
      p.mode = .jpeg ∧ quietWindow s p ∧ p.inpos.toNat ≤ p.size.toNat ∧ p.ended = false ∧ p.marker = false ∧
        (∀ i < p.size.toNat, markerAt s p i = false) ∧ ∃ q, fill s p = .ok q ∧ decide (q.ended = a.2) = true := by
  refine ⟨?_, ?_⟩ <;> intro a h <;> simp only [List.mem_cons, List.not_mem_nil, or_false] at h
  · rcases h with h | h | h <;> subst h <;>
      exact ⟨by decide, fun _ _ _ => ⟨List.not_mem_nil, List.not_mem_nil⟩, by decide, by decide, by decide, by decide,
        by decide, by decide, okWith_ok (by decide)⟩
  · rcases h with h | h <;> subst h <;>
      exact ⟨by decide, fun _ _ _ => ⟨List.not_mem_nil, List.not_mem_nil⟩, by decide, by decide, by decide, by decide,
        okWith_ok (by decide)⟩

/-- Pumps at their window's start and further on: MSB32, MSB past its data, and JPEG over V-BP-1's bytes, a stuffed byte
and a marker, and past that marker. -/
theorem witness_PumpDeliversTheWindowsBitsInOrder :
    (∀ m l, (pumpOn m l).par.decided = true) ∧
    (let s := pumpOn .msb32 [1, 2, 3, 4, 5];
      InStep s s.pumps[0] ∧ quietWindow s s.pumps[0] ∧ s.pumps[0].consumed.toNat + 32 < 2 ^ 36 ∧
        ∃ x, pget s 0 s.pumps[0] 32 = .ok x ∧ decide (x.1 = 0x04030201) = true) ∧
    (let s := pumpOn .msb [0xA5, 0x3C];
      let p : Pump := { s.pumps[0] with
        inpos := 2, cache := (bits8 0xA5#8 ++ bits8 0x3C#8 ++ zeros 16).drop 3, pad := 16, ended := true
        endpos := 2, consumed := 3 };
      InStep s p ∧ quietWindow s p ∧ p.consumed.toNat + 13 < 2 ^ 36 ∧
        ∃ x, pget s 0 p 13 = .ok x ∧ decide (x.1 = 0x053C) = true) ∧
    (let s := pumpOn .jpeg [0x12, 0xFF, 0x00, 0x34, 0xFF, 0xD9, 0x56];
      let p : Pump := { s.pumps[0] with
        inpos := 4, cache := (bits8 0x12#8 ++ bits8 0xFF#8 ++ bits8 0x34#8 ++ zeros 8).drop 20, pad := 8
        ended := true, marker := true, endpos := 4, consumed := 20 };
      (InStep s s.pumps[0] ∧ quietWindow s s.pumps[0] ∧ s.pumps[0].consumed.toNat + 32 < 2 ^ 36 ∧
        ∃ x, pget s 0 s.pumps[0] 32 = .ok x ∧ decide (x.1 = 0x12FF3400) = true) ∧
      InStep s p ∧ quietWindow s p ∧ p.consumed.toNat + 32 < 2 ^ 36 ∧
        ∃ x, pget s 0 p 32 = .ok x ∧ decide (x.1 = 0x40000000) = true) := by
  refine ⟨fun _ _ => rfl, ⟨by unfold InStep; decide +kernel, fun _ _ _ => ⟨List.not_mem_nil, List.not_mem_nil⟩,
    by decide, okWith_ok (by decide +kernel)⟩, ⟨by unfold InStep; decide +kernel,
    fun _ _ _ => ⟨List.not_mem_nil, List.not_mem_nil⟩, by decide, okWith_ok (by decide +kernel)⟩,
    ⟨by unfold InStep; decide +kernel, fun _ _ _ => ⟨List.not_mem_nil, List.not_mem_nil⟩, by decide,
      okWith_ok (by decide +kernel)⟩,
    by unfold InStep; decide +kernel, fun _ _ _ => ⟨List.not_mem_nil, List.not_mem_nil⟩, by decide,
    okWith_ok (by decide +kernel)⟩

/-! Huffman tables. -/

/-- Counts of the lengths 1 to 5 whose sums are 0, 1, 256 and 257. -/
theorem witness_TableResetAndCounts :
    (∀ a ∈ [(0, 0, 0), (1, 0, 1), (0xFF, 1, 256), (0xFF, 2, 257)],
      let s := withArgs (valuesOn tableOne []) a.1 a.2.1
      s.par.decided = true ∧ (∀ l : Fin 16, s.regs.codeCounts[l] =
        (if l.val < 4 then s.regs.arg0 else if l.val < 8 then s.regs.arg1 else if l.val < 12 then s.regs.arg2
          else s.regs.arg3).extractLsb' (8 * (l.val % 4)) 8) ∧
      (s.regs.codeCounts.toList.map BitVec.toNat).sum = a.2.2 ∧ s.tables[0].state = .ready ∧
        s.tables[1].state ≠ .ready) := by
  intro a h
  simp only [List.mem_cons, List.not_mem_nil, or_false] at h
  rcases h with h | h | h | h <;> subst h <;> decide +kernel

/-- The table of HT_SET_VALUES' clauses: 256 counted values, or 2. -/
def countedTable (counts : List Nat) : HuffTable := { valuesTable counts [] with state := .counts }

theorem witness_TableValuesComeFromTheStream :
    ((sized 8 8).tables[0].state ≠ .counts ∧ 1 ≤ (1#9).toNat ∧ (256#9).toNat ≤ 256) ∧
    (let s := (sized 8 8).setTable 0 (countedTable [1, 1]);
      s.tables[0].state = .counts ∧ s.streams[1].valid = false) ∧
    (let s := valuesOn (countedTable [1, 1]) [1, 2];
      s.tables[0].state = .counts ∧ s.streams[1].valid = true ∧ (3#9).toNat ≠ countSum s.tables[0].count ∧
      (2#9).toNat = countSum s.tables[0].count ∧ s.streams[1].legal s.par = true ∧
      s.streams[1].pos.toNat + (2#9).toNat = s.streams[1].size.toNat) ∧
    (let s := valuesOn (countedTable [1, 1]) [1];
      s.tables[0].state = .counts ∧ s.streams[1].valid = true ∧ (2#9).toNat = countSum s.tables[0].count ∧
      s.streams[1].size.toNat + 1 = s.streams[1].pos.toNat + (2#9).toNat) := by decide +kernel

theorem witness_SetupAssignsCanonicalCodes :
    (sized 8 8).par.decided = true ∧ (∀ h l, (valuesOn h l).par.decided = true) ∧
    ((sized 8 8).tables[0].state ≠ .values) ∧
    (let h := (valuesOn (valuesTable [1, 1, 2] [0, 1, 2, 3]) []).tables[0];
      h.state = .values ∧ ∀ l < 16, firstCode h l + h.countOf (l + 1) ≤ 2 ^ (l + 1)) ∧
    (let h := (valuesOn (valuesTable [1, 2, 2] [1, 2, 3, 4, 5]) []).tables[0];
      h.state = .values ∧ (∀ k < 2, firstCode h k + h.countOf (k + 1) ≤ 2 ^ (k + 1)) ∧
      2 ^ (2 + 1) < firstCode h 2 + h.countOf (2 + 1)) ∧
    (let h := (valuesOn (valuesTable [3] [1, 2, 3]) []).tables[0];
      h.state = .values ∧ (∀ k < 0, firstCode h k + h.countOf (k + 1) ≤ 2 ^ (k + 1)) ∧
      2 ^ (0 + 1) < firstCode h 0 + h.countOf (0 + 1)) :=
  ⟨by decide, fun _ _ => rfl, by decide +kernel⟩

theorem witness_CanonicalCodesArePrefixFree :
    legacyTable.legal = true ∧ legacyTable.state = .ready ∧ legacyTable.hasCode 10 1023 ∧
      legacyTable.hasCode 9 510 := by
  unfold HuffTable.hasCode
  decide +kernel

/-- A table whose one code has sixteen bits. -/
def longTable : HuffTable := readyTable [0, 0, 0, 0, 0, 0, 0, 0, 0, 0, 0, 0, 0, 0, 0, 1] [7] false

/-- A table that is not READY; a READY one with an invalid pump; codes of 3, 1 and 16 bits; V-HT-15; no data at all; and
V-HT-23's over-read within a code, after one bit. -/
theorem witness_SymbolDecodeFollowsTheCode :
    ((sized 8 8).par.decided = true ∧ ∀ h l, (huffOn h l).par.decided = true) ∧
    ((sized 8 8).tables[0].state ≠ .ready) ∧
    ((huffOn tableOne []).tables[0].state = .ready ∧ (huffOn tableOne []).pumps[1].valid = false) ∧
    (let s := huffOn tableOne [0xD1, 0xC0];
      s.tables[0].state = .ready ∧ s.pumps[0].valid = true ∧
        ∃ c q, StartsWithCode s 0 s.pumps[0] s.tables[0] 3 c q ∧ decide (c = 6) = true) ∧
    (let s := huffOn tableOne [0x7F];
      s.tables[0].state = .ready ∧ s.pumps[0].valid = true ∧
        ∃ c q, StartsWithCode s 0 s.pumps[0] s.tables[0] 1 c q ∧ decide (c = 0) = true) ∧
    (let s := huffOn longTable [0, 0];
      s.tables[0].state = .ready ∧ s.pumps[0].valid = true ∧
        ∃ c q, StartsWithCode s 0 s.pumps[0] s.tables[0] 16 c q ∧ decide (c = 0) = true) ∧
    (let s := huffOn (readyTable [1] [5] false) [0xFF, 0xFF, 0xFF];
      s.tables[0].state = .ready ∧ s.pumps[0].valid = true ∧
        (∃ x, readCode s 0 16 s.pumps[0] = .ok x ∧ decide (x.1 = 0xFFFF) = true) ∧
        NoCodeWithin s 0 s.pumps[0] s.tables[0] 16) ∧
    (let s := huffOn tableOne [];
      s.tables[0].state = .ready ∧ s.pumps[0].valid = true ∧ NoCodeWithin s 0 s.pumps[0] s.tables[0] 0 ∧
        ∃ e, readCode s 0 (0 + 1) s.pumps[0] = .error (.raised e) ∧ decide (e.code = .ioBounds) = true) ∧
    (let s := huffOn longTable [0xFF];
      s.tables[0].state = .ready ∧ s.pumps[0].valid = true ∧ NoCodeWithin s 0 s.pumps[0] s.tables[0] 8 ∧
        ∃ e, readCode s 0 (8 + 1) s.pumps[0] = .error (.raised e) ∧
          decide (e = ⟨.ioBounds, 1, 1, 0, 8⟩) = true) := by
  refine ⟨⟨by decide, fun _ _ => rfl⟩, by decide, by decide +kernel,
    ⟨by decide +kernel, by decide, codeAt_starts (f := fun x => decide (x.1 = 6)) (by decide +kernel)⟩,
    ⟨by decide +kernel, by decide, codeAt_starts (f := fun x => decide (x.1 = 0)) (by decide +kernel)⟩,
    ⟨by decide +kernel, by decide, codeAt_starts (f := fun x => decide (x.1 = 0)) (by decide +kernel)⟩,
    ⟨by decide +kernel, by decide, okWith_ok (by decide +kernel), noneShorter_within (by decide +kernel)⟩,
    ⟨by decide +kernel, by decide, noneShorter_within (by decide +kernel), raisedWith_error (by decide +kernel)⟩,
    by decide +kernel, by decide, noneShorter_within (by decide +kernel), raisedWith_error (by decide +kernel)⟩

/-- A table with one code '0' of a difference length, and one data byte stream of zeros. -/
def diffOn (len : Nat) (dng16 : Bool) : State := huffOn (readyTable [1] [len] dng16) [0, 0, 0]

/-- Whether the code stands for the difference length, and as many bits follow it (at most 16). -/
def diffBits (s : State) (len : Nat) (x : Nat × Pump) : Bool :=
  decide ((s.tables[0].valueAt (s.tables[0].indexOf 1 + x.1 - s.tables[0].firstOf 1)).toNat = len) &&
    okWith (pget s 0 x.2 (min len 16)) (fun _ => true)

/-- Whether the code stands for the difference length, and reading its bits over-reads the one data byte. -/
def diffFails (s : State) (len : Nat) (x : Nat × Pump) : Bool :=
  decide ((s.tables[0].valueAt (s.tables[0].indexOf 1 + x.1 - s.tables[0].firstOf 1)).toNat = len) &&
    raisedWith (pget s 0 x.2 len) (fun e => decide (e = ⟨.ioBounds, 1, len, 0, 1⟩))

/-- The hypotheses of DifferenceDecodeExtends: every length's clause with bits left for those that read some; additional
bits that over-read the data; and the clauses that end before a code, as for HT_DECODE_SYM. -/
theorem witness_DifferenceDecodeExtends :
    ((sized 8 8).par.decided = true ∧ ∀ h l, (huffOn h l).par.decided = true) ∧
    (sized 8 8).tables[0].state ≠ .ready ∧
    ((huffOn tableOne []).tables[0].state = .ready ∧ (huffOn tableOne []).pumps[1].valid = false) ∧
    (let s := huffOn (readyTable [1] [5] false) [0xFF, 0xFF, 0xFF];
      s.tables[0].state = .ready ∧ s.pumps[0].valid = true ∧
        (∃ x, readCode s 0 16 s.pumps[0] = .ok x ∧ decide (x.1 = 0xFFFF) = true) ∧
        NoCodeWithin s 0 s.pumps[0] s.tables[0] 16) ∧
    (let s := huffOn longTable [0xFF];
      s.tables[0].state = .ready ∧ s.pumps[0].valid = true ∧ NoCodeWithin s 0 s.pumps[0] s.tables[0] 8 ∧
        ∃ e, readCode s 0 (8 + 1) s.pumps[0] = .error (.raised e) ∧
          decide (e = ⟨.ioBounds, 1, 1, 0, 8⟩) = true) ∧
    (∀ a ∈ [(8, false), (15, false), (16, true)],
      let s := huffOn (readyTable [1] [a.1] a.2) [0]
      s.tables[0].state = .ready ∧ s.pumps[0].valid = true ∧ s.tables[0].dng16 = a.2 ∧
        ∃ c q, StartsWithCode s 0 s.pumps[0] s.tables[0] 1 c q ∧ diffFails s a.1 (c, q) = true) ∧
    ∀ a ∈ [(0, false), (1, false), (15, false), (16, false), (16, true), (17, false), (255, false)],
      let s := diffOn a.1 a.2
      let h := s.tables[0]
      h.state = .ready ∧ s.pumps[0].valid = true ∧ h.dng16 = a.2 ∧
        ∃ c q, StartsWithCode s 0 s.pumps[0] h 1 c q ∧
          diffBits s a.1 (c, q) = true := by
  refine ⟨⟨by decide, fun _ _ => rfl⟩, by decide, by decide +kernel,
    ⟨by decide +kernel, by decide, okWith_ok (by decide +kernel), noneShorter_within (by decide +kernel)⟩,
    ⟨by decide +kernel, by decide, noneShorter_within (by decide +kernel), raisedWith_error (by decide +kernel)⟩,
    ?_, ?_⟩
  all_goals intro a h; simp only [List.mem_cons, List.not_mem_nil, or_false] at h
  · rcases h with h | h | h <;> subst h <;>
      exact ⟨by decide +kernel, by decide +kernel, by decide +kernel,
        codeAt_starts (f := diffFails _ _) (by decide +kernel)⟩
  rcases h with h | h | h | h | h | h | h <;> subst h <;>
    exact ⟨by decide +kernel, by decide +kernel, by decide +kernel, codeAt_starts (f := diffBits _ _) (by decide +kernel)⟩

theorem witness_LegacyPentaxTableHasItsCodes : State.reset.par.decided = true ∧ (sized 8 8).par.decided = true := by
  decide

/-- Code i, length i and prefix i of the big-endian metadata stream S0, and the code space its lengths take up to l + 1. -/
def pentaxCode (s : State) (i : Nat) : Nat :=
  assembled true 2 (fun j => cursorByte s s.streams[0] (2 + 2 * i + j))

def pentaxLen (s : State) (depth i : Nat) : Nat := (cursorByte s s.streams[0] (2 + 2 * depth + i)).toNat

def pentaxKey (s : State) (depth i : Nat) : Nat := pentaxCode s i / 2 ^ (12 - pentaxLen s depth i)

def pentaxSpace (s : State) (depth l : Nat) : Nat :=
  ((List.range (l + 1)).map (fun i =>
    ((List.range depth).filter (fun j => decide (pentaxLen s depth j = i + 1))).length * 2 ^ (l - i))).sum

/-- Whether bytes stand as a valid big-endian metadata stream with a depth. -/
def pentaxDepth (l : List Nat) (depth : Nat) : Bool :=
  let s := pentaxOn l
  let v := s.streams[0]
  v.valid && v.legal s.par && v.be && decide (v.pos.toNat + 2 ≤ v.size.toNat) &&
    decide (depth = assembled true 2 (fun i => cursorByte s v i))

/-- An invalid stream, one byte, depths 0 and 16, a stream one byte short, lengths 0 and 13, a tie, an oversubscribed
length, and V-HT-24's bytes. -/
theorem witness_PentaxTableComesFromTheStream :
    (∀ l, (pentaxOn l).par.decided = true) ∧
    ((sized 8 8).streams[0].valid = false) ∧
    (let v := (pentaxOn [0]).streams[0]; v.valid = true ∧ v.size.toNat + 1 = v.pos.toNat + 2) ∧
    (pentaxDepth [0, 0] 0 = true ∧ pentaxDepth [0, 16] 16 = true) ∧
    (pentaxDepth [0, 1, 8, 0] 1 = true ∧ (pentaxOn [0, 1, 8, 0]).streams[0].size.toNat + 1 = 0 + 2 + 3 * 1) ∧
    (let l := [0, 2, 8, 0, 0, 0, 1, 13];
      pentaxDepth l 2 = true ∧ (pentaxOn l).streams[0].size.toNat = 2 + 3 * 2 ∧ pentaxLen (pentaxOn l) 2 0 = 1 ∧
      pentaxLen (pentaxOn l) 2 1 = 13) ∧
    (let l := [0, 1, 8, 0, 0]; pentaxDepth l 1 = true ∧ pentaxLen (pentaxOn l) 1 0 = 0) ∧
    (let l := [0, 2, 8, 0, 8, 0, 1, 1];
      pentaxDepth l 2 = true ∧ (pentaxOn l).streams[0].size.toNat = 2 + 3 * 2 ∧
      (∀ i < 2, 1 ≤ pentaxLen (pentaxOn l) 2 i ∧ pentaxLen (pentaxOn l) 2 i ≤ 12) ∧
      pentaxKey (pentaxOn l) 2 0 = pentaxKey (pentaxOn l) 2 1) ∧
    (let l := [0, 3, 0, 0, 8, 0, 8, 0, 1, 1, 2];
      pentaxDepth l 3 = true ∧ (pentaxOn l).streams[0].size.toNat = 2 + 3 * 3 ∧
      (∀ i < 3, 1 ≤ pentaxLen (pentaxOn l) 3 i ∧ pentaxLen (pentaxOn l) 3 i ≤ 12) ∧
      (∀ j < 3, ∀ i < j, pentaxKey (pentaxOn l) 3 i ≠ pentaxKey (pentaxOn l) 3 j) ∧
      pentaxSpace (pentaxOn l) 3 0 ≤ 2 ^ (0 + 1) ∧ 2 ^ (1 + 1) < pentaxSpace (pentaxOn l) 3 1) ∧
    (let l := [0, 3, 8, 0, 0, 0, 0xC, 0, 2, 1, 2];
      pentaxDepth l 3 = true ∧ (pentaxOn l).streams[0].size.toNat = 2 + 3 * 3 ∧
      (∀ i < 3, 1 ≤ pentaxLen (pentaxOn l) 3 i ∧ pentaxLen (pentaxOn l) 3 i ≤ 12) ∧
      (∀ j < 3, ∀ i < j, pentaxKey (pentaxOn l) 3 i ≠ pentaxKey (pentaxOn l) 3 j) ∧
      ∀ l' < 16, pentaxSpace (pentaxOn l) 3 l' ≤ 2 ^ (l' + 1)) :=
  ⟨fun _ => rfl, by decide +kernel⟩

/-! Image decoders. -/

/-- V-LJ-1's tables. -/
theorem accepts_ljState : LjAccepts (ljState 0x12 0x1111 0x00020008) 0 [0, 0] where
  pump := by decide +kernel
  comps := by decide +kernel
  predictor := by decide +kernel
  sampling := by decide +kernel
  count := by decide +kernel
  slots := by
    have h : ∀ i : Fin 2, ([0, 0] : List TableIx)[i].val = (ljState 0x12 0x1111 0x00020008).regs.ljTblOf i.val ∧
        (ljState 0x12 0x1111 0x00020008).tables[([0, 0] : List TableIx)[i]].state = .ready := by decide +kernel
    exact fun i hi => h ⟨i, hi⟩
  image := by unfold imageOk; decide +kernel
  tile := by decide +kernel
  frame := by decide +kernel
  place := by decide +kernel

/-- V-LJ-1, and V-LJ-10's over-read. -/
theorem witness_LjDecodeStoresThePredictedSamples :
    (let s := ljState 0x12 0x1111 0x00020008;
      s.par.decided = true ∧ LjAccepts s 0 [0, 0] ∧
        ∃ x, readDiffs s 0 (ljOrder s.regs [0, 0]) s.pumps[0] = .ok x ∧
          decide (x.1 = [1, 1, 2, 0, -1, 3, 0, 0, 1, 1, 2, 0, -1, 3, 0, 0]) = true) ∧
    (let s := (ljState 0x12 0x1111 0x00020008).setPump 0 (freshPump .msb 0 2);
      s.par.decided = true ∧ LjAccepts s 0 [0, 0] ∧
        ∃ e, readDiffs s 0 (ljOrder s.regs [0, 0]) s.pumps[0] = .error (.raised e) ∧
          decide (e = ⟨.ioBounds, 2, 1, 0, 16⟩) = true) :=
  ⟨⟨rfl, accepts_ljState, okWith_ok (by decide +kernel)⟩,
    ⟨rfl, { accepts_ljState with pump := by decide }, raisedWith_error (by decide +kernel)⟩⟩

/-- V-LJ-1 and its first three columns at column 2. -/
theorem witness_LjDecodeConsumesTheWholeFrameRow :
    let s := ljState 0x12 0x1111 0x00020008
    let s' : State := { s with regs := { s.regs with ljTileXy := 2#32, ljTileWh := 0x00020003#32 } }
    (2#32).extractLsb' 16 16 = s.regs.ljTileXy.extractLsb' 16 16 ∧
      (0x00020003#32).extractLsb' 16 16 = s.regs.ljTileWh.extractLsb' 16 16 ∧ s.outRaced = [] ∧
      s.status.err = false ∧ (∃ t, exec (.ljDecode 0) s = .next t ∧ (!t.status.err) = true) ∧
      ∃ t', exec (.ljDecode 0) s' = .next t' ∧ (!t'.status.err) = true :=
  ⟨by decide +kernel, by decide +kernel, by decide +kernel, by decide +kernel, answers_next (by decide +kernel),
    answers_next (by decide +kernel)⟩

/-- V-LJ-1's state with other table slots, tile and image. -/
def ljVariant (tbl xy wh : Word) (pitch w h : Nat) : State :=
  let s := withImage (ljState 0x12 0x1111 wh) pitch w h
  { s with regs := { s.regs with ljTbl := tbl, ljTileXy := xy } }

theorem comps_ljVariant (tbl xy wh : Word) (pitch w h : Nat) : (ljVariant tbl xy wh pitch w h).regs.ljN = 2 := by
  change field 0x12#32 0 3 = 2
  decide

theorem scan_ljVariant (tbl xy wh : Word) (pitch w h : Nat) : LjScanOk (ljVariant tbl xy wh pitch w h) where
  comps := by rw [comps_ljVariant]; decide
  predictor := by
    change field 0x12#32 4 3 = 1
    decide
  sampling := by
    rw [comps_ljVariant]
    change ∀ i < 2, field 0x1111#32 (8 * i) 4 = 1 ∧ field 0x1111#32 (8 * i + 4) 4 = 1
    decide

theorem slots_ljVariant (xy wh : Word) (pitch w h : Nat) :
    ∀ i < (ljVariant 0 xy wh pitch w h).regs.ljN, ljSlotReady (ljVariant 0 xy wh pitch w h) i := by
  have h0 : tableOne.state = .ready := by decide +kernel
  have ht : ∀ i < 2, 0 = field 0#32 (4 * i) 4 := by decide
  rw [comps_ljVariant]
  exact fun i hi => ⟨0, ht i hi, h0⟩

/-- V-LJ-11 to V-LJ-14; a table slot of 4 and one that is EMPTY, after a READY one; each of IMGCHK's errors; an empty tile;
a tile one wider and one higher than the frame; and one that passes the image's right and lower edge by one. -/
theorem witness_LjDecodeRefusesUnsupportedScans :
    ((sized 8 8).par.decided = true ∧ (∀ c f w, (ljState c f w).par.decided = true) ∧
      ∀ (tbl xy wh : Word) (pitch w h : Nat), (ljVariant tbl xy wh pitch w h).par.decided = true) ∧
    ((sized 8 8).pumps[1].valid = false) ∧
    (∀ a ∈ [(0x10#32, 0), (0x15#32, 5)], (ljState a.1 0x1111 0x00020008).regs.ljN = a.2 ∧
      (ljState a.1 0x1111 0x00020008).pumps[0].valid = true) ∧
    (∀ a ∈ [(0x01#32, 1, 0), (0x24#32, 4, 2)], (ljState a.1 0x1111 0x00020008).regs.ljN = a.2.1 ∧
      (ljState a.1 0x1111 0x00020008).regs.ljPsv = a.2.2 ∧
      (ljState a.1 0x1111 0x00020008).pumps[0].valid = true) ∧
    (let s := ljState 0x14#32 0x21111111#32 0x00020008;
      s.pumps[0].valid = true ∧ s.regs.ljN = 4 ∧ s.regs.ljPsv = 1 ∧
      (∀ j < 3, s.regs.ljHi j = 1 ∧ s.regs.ljVi j = 1) ∧ s.regs.ljVi 3 ≠ 1) ∧
    (∀ (tbl xy wh : Word) (pitch w h : Nat), (ljVariant tbl xy wh pitch w h).pumps[0].valid = true ∧
      LjScanOk (ljVariant tbl xy wh pitch w h) ∧
      ∀ i < (ljVariant 0 xy wh pitch w h).regs.ljN, ljSlotReady (ljVariant 0 xy wh pitch w h) i) ∧
    ((ljVariant 0x40 0 0x00020008 8 8 2).regs.ljTblOf 1 = 4 ∧
      (∀ j < 1, ljSlotReady (ljVariant 0x40 0 0x00020008 8 8 2) j) ∧
      (ljVariant 0x10 0 0x00020008 8 8 2).regs.ljTblOf 1 = (1 : TableIx).val ∧
      (∀ j < 1, ljSlotReady (ljVariant 0x10 0 0x00020008 8 8 2) j) ∧
      (ljVariant 0x10 0 0x00020008 8 8 2).tables[(1 : TableIx)].state ≠ .ready) ∧
    (ImageFails (ljVariant 0 0 0x00020008 8 8 0) .corrupt 0 8 0 ∧ ImageFails (ljVariant 0 0 0x00020008 7 8 2) .corrupt 0 0 7 ∧
      ImageFails (ljVariant 0 0 0x00020008 25 8 2) .ioBounds 0 0 0) ∧
    (∀ a ∈ [(0#32, 0x00020000#32), (0, 0x00000008), (0, 0x00020009), (0, 0x00030008), (1, 0x00020008),
        (0x00010000, 0x00020008)], imageOk (ljVariant 0 a.1 a.2 8 8 2)) ∧
    (let g := (ljVariant 0 0 0x00020009 8 8 2).regs;
      g.ljTw = g.ljFw * g.ljN + 1 ∧ g.ljTh ≠ 0) ∧
    (let g := (ljVariant 0 0 0x00030008 8 8 2).regs;
      g.ljTh = g.ljFh + 1 ∧ g.ljTw ≠ 0) ∧
    (let g := (ljVariant 0 1 0x00020008 8 8 2).regs;
      g.ljTw ≠ 0 ∧ g.ljTh ≠ 0 ∧ g.ljTw ≤ g.ljFw * g.ljN ∧ g.ljTh ≤ g.ljFh ∧ g.imgW.toNat + 1 = g.ljTx + g.ljTw) ∧
    (let g := (ljVariant 0 0x00010000 0x00020008 8 8 2).regs;
      g.ljTw ≠ 0 ∧ g.ljTh ≠ 0 ∧ g.ljTw ≤ g.ljFw * g.ljN ∧ g.ljTh ≤ g.ljFh ∧ g.imgH.toNat + 1 = g.ljTy + g.ljTh) := by
  have h0 : tableOne.state = .ready := by decide +kernel
  refine ⟨⟨by decide, fun _ _ _ => rfl, fun _ _ _ _ _ _ => rfl⟩, by decide, ?_, ?_, by decide +kernel,
    fun tbl xy wh pitch w h => ⟨rfl, scan_ljVariant .., slots_ljVariant xy wh pitch w h⟩,
    ⟨by decide, fun j hj => ⟨0, by interval_cases j; rfl, h0⟩, by decide, fun j hj => ⟨0, by interval_cases j; rfl, h0⟩,
      by decide⟩, ⟨.inl (by decide), .inr (.inl (by decide)), .inr (.inr (by decide))⟩, ?_, by decide, by decide, by decide, by decide⟩
  all_goals intro a h; simp only [List.mem_cons, List.not_mem_nil, or_false] at h
  · rcases h with h | h <;> subst h <;> decide +kernel
  · rcases h with h | h <;> subst h <;> decide +kernel
  · rcases h with h | h | h | h | h | h <;> subst h <;> (unfold imageOk; decide)

/-- V-PX-2; an EMPTY table; IMGCHK's bounds error; an odd width, one above PX_MAX_W and a height above PX_MAX_H; and the
value -1 at the first place of the image (V-PX-3) and at the second; and an over-read at the first difference, at the
second of a pair, and in the second row (V-PX-6). -/
theorem witness_PxDecodeStoresThePredictedImage :
    (let s := pxState [0xFB, 0x27, 0xEC, 0x88, 0x17, 0xB2, 0xEF, 0x37, 0x00] 4 2;
      PxAccepts s 0 0 ∧
        ∃ x, readDiffs s 0 (List.replicate (2 * 4) 0) s.pumps[0] = .ok x ∧
          (List.range 2).all (fun r => (List.range 4).all (fun c =>
            decide (0 ≤ pxValue 4 x.1 r c ∧ pxValue 4 x.1 r c ≤ 65535))) = true) ∧
    (let s := pxState [0xCF, 0x00] 2 2;
      s.pumps[1].valid = false ∧ s.pumps[0].valid = true ∧ s.tables[1].state ≠ .ready ∧ s.tables[0].state = .ready) ∧
    ImageFails (pxState [0xCF, 0x00] 8 5) .ioBounds 0 0 0 ∧
    (imageOk (pxState [0xCF, 0x00] 3 2) ∧
      ∀ a ∈ [(2, 4), (4, 1)],
        imageOk { pxState [0xCF, 0x00] 4 2 with par := { (pxState [0xCF, 0x00] 4 2).par with pxMaxW := a.1, pxMaxH := a.2 } }) ∧
    (∀ a ∈ [([0xCF, 0x00], 0), ([0xF6, 0x00], 1)],
      let s := pxState a.1 2 2
      PxAccepts s 0 0 ∧
        ∃ x, readDiffs s 0 (List.replicate (0 * 2 + 2 * (a.2 / 2) + 2) 0) s.pumps[0] = .ok x ∧
          ((List.range a.2).all (fun c => decide (0 ≤ pxValue 2 x.1 0 c ∧ pxValue 2 x.1 0 c ≤ 65535)) &&
            decide (pxValue 2 x.1 0 a.2 = -1)) = true) ∧
    (∀ a ∈ [([], 0, 0), ([0xBF], 0, 1), ([0x2C, 0xE4], 1, 1)],
      let s := pxState a.1 2 2
      PxAccepts s 0 0 ∧
        ∃ x, readDiffs s 0 (List.replicate (a.2.1 * 2 + a.2.2) 0) s.pumps[0] = .ok x ∧
          ((List.range 2).all (fun c => (List.range a.2.1).all (fun r =>
              decide (0 ≤ pxValue 2 x.1 r c ∧ pxValue 2 x.1 r c ≤ 65535))) &&
            raisedWith (hdiff s 0 0 x.2) (fun e => decide (e.code = .ioBounds))) = true) := by
  have ready : legacyTable.state = .ready := by decide +kernel
  refine ⟨⟨⟨rfl, ready, by unfold imageOk; decide, by decide⟩, okWith_ok (by decide +kernel)⟩,
    ⟨by decide, by decide, by decide, ready⟩, Or.inr (.inr (by decide)), ⟨by unfold imageOk; decide, ?_⟩, ?_, ?_⟩
  all_goals intro a h; simp only [List.mem_cons, List.not_mem_nil, or_false] at h
  · rcases h with h | h <;> subst h <;> (unfold imageOk; decide)
  · rcases h with h | h <;> subst h <;>
      exact ⟨⟨rfl, ready, by unfold imageOk; decide, by decide⟩, okWith_ok (by decide +kernel)⟩
  · rcases h with h | h | h <;> subst h <;>
      exact ⟨⟨rfl, ready, by unfold imageOk; decide, by decide⟩, okWith_ok (by decide +kernel)⟩

/-- Increasing offsets (46_samsung.md R210), V-SV-3, an invalid stream at either operand, heights of 0 and 65536, and an
offset stream 4 bytes short. -/
theorem witness_StripesComeFromIncreasingOffsets :
    (∀ l h r, (stripesState l h r).par.decided = true) ∧
    (let s := stripesState [0, 8] 2 20;
      let o := fun r => [0, 8, 20].getD r 0;
      s.streams[0].valid = true ∧ s.streams[1].valid = true ∧ s.streams[0].legal s.par = true ∧
      s.regs.imgH.toNat = 2 ∧ s.streams[0].pos.toNat + 4 * 2 ≤ s.streams[0].size.toNat ∧
      (∀ r < 2, o r = assembled s.streams[0].be 4 (fun i => cursorByte s s.streams[0] (4 * r + i))) ∧
      o 2 = s.streams[1].size.toNat ∧ ∀ r < 2, o r < o (r + 1)) ∧
    (let s := stripesState [0, 100, 250] 3 200;
      let o := fun r => [0, 100, 250, 200].getD r 0;
      s.streams[0].valid = true ∧ s.streams[1].valid = true ∧ s.streams[0].legal s.par = true ∧
      s.regs.imgH.toNat = 3 ∧ s.streams[0].pos.toNat + 4 * 3 ≤ s.streams[0].size.toNat ∧
      (∀ r < 3, o r = assembled s.streams[0].be 4 (fun i => cursorByte s s.streams[0] (4 * r + i))) ∧
      o 3 = s.streams[1].size.toNat ∧ (∀ k < 2, o k < o (k + 1)) ∧ o (2 + 1) ≤ o 2) ∧
    (let s := stripesState [0, 8] 2 20;
      s.streams[0].valid = true ∧ s.streams[1].valid = true ∧ s.streams[2].valid = false) ∧
    (stripesState [0, 8] 0 20).regs.imgH.toNat = 0 ∧ (stripesState [0, 8] 65536 20).regs.imgH.toNat = 65535 + 1 ∧
    (let s := stripesState [0, 8] 3 20;
      s.regs.imgH.toNat = 3 ∧ s.streams[0].size.toNat + 4 = s.streams[0].pos.toNat + 4 * 3) :=
  ⟨fun _ _ _ => rfl, by decide +kernel⟩

/-- An image of three rows of 32 samples, and a run whose lengths are all 1 at the start of zero bytes. -/
def groupState : State := withImage (loaded (List.replicate 12 0) 96) 32 32 3

/-- The run. -/
def groupRun : SvRun := ⟨freshPump .msb32 0 12, [], [1, 16, 0, 1]⟩

/-- A row that decodes and one that does not; a group whose opcodes are 3, 2, 1, 0 with the new length 5, and groups whose
length 16 grows and whose length 0 shrinks; the places of a group where upward prediction is refused; and over-reads of
the direction, of the opcodes, of the first and of the last new length, and of an adjustment. -/
theorem witness_SamsungGroupAddsAdjustments :
    (let s := svState [0x3C, 0x08, 0x90, 0x7F, 0, 0, 0, 0x50] 16;
      s.sv0.stripes[0]? = some ⟨0, 8⟩ ∧
        ∃ y, forUp (svGroup s 0 0) ((s.regs.imgW.toNat + 15) / 16) 0
          ⟨{ freshPump .msb32 0 8 with raced := s.sv0.raced }, [], List.replicate 4 7⟩ = .ok y ∧
          (fun _ => true) y = true) ∧
    (∀ a ∈ [([0x72, 0x28], [7, 7, 7, 7], [3, 2, 1, 0], 4, [5, 6, 8, 7]),
        ([0x08, 0x00], [4, 16, 0, 4], [0, 1, 0, 0], 2, [4, 17]), ([0x04, 0x00], [4, 16, 0, 4], [0, 0, 2, 0], 3, [4, 16, -1])],
      let s := pumpOn .msb a.1
      a.2.1.length = 4 ∧
        ∃ x, pget s 0 s.pumps[0] 1 = .ok x ∧
          (decide (x.1 = 0) && okWith (readNumbers s 0 [2, 2, 2, 2] x.2) (fun y => decide (y.1 = a.2.2.1) &&
            okWith (readNumbers s 0 (newLengthBits (y.1.take a.2.2.2.1)) y.2)
              (fun z => decide (adaptedLengths (y.1.take a.2.2.2.1) a.2.1 z.1 = a.2.2.2.2)))) = true) ∧
    (imageOk groupState ∧ groupRun.len.length = 4) ∧
    (1 < groupState.regs.imgH.toNat ∧ 1 < 2) ∧
    (2 < groupState.regs.imgH.toNat ∧ 16 < groupState.regs.imgW.toNat ∧ 16 % 16 = 0 ∧
      groupState.regs.imgW.toNat ≤ 16 + 16) ∧
    (0 + 16 < groupState.regs.imgW.toNat ∧
      ∃ x, readNumbers groupState 0 ((groupLengths groupRun.len).filter (fun n => decide (n ≠ 0))) groupRun.pump = .ok x ∧
        (fun _ => true) x = true) ∧
    (let s := pumpOn .msb []; ∃ e, pget s 0 s.pumps[0] 1 = .error (.raised e) ∧ decide (e.code = .ioBounds) = true) ∧
    (let s := pumpOn .msb [0];
      ∃ x, pget s 0 s.pumps[0] 1 = .ok x ∧
        raisedWith (readNumbers s 0 [2, 2, 2, 2] x.2) (fun e => decide (e.code = .ioBounds)) = true) ∧
    (∀ a ∈ [([0x60, 0x00], 0), ([0x01, 0x80], 3)],
      let s := pumpOn .msb a.1
      let v : Pump := { s.pumps[0] with consumed := 4 }
      ∃ x, pget s 0 v 1 = .ok x ∧
        okWith (readNumbers s 0 [2, 2, 2, 2] x.2) (fun y => decide (y.1.getD a.2 0 = 3) &&
          okWith (readNumbers s 0 (newLengthBits (y.1.take a.2)) y.2) (fun z =>
            decide (adaptedLengths (y.1.take a.2) [7, 7, 7, 7] z.1 = List.replicate a.2 7) &&
              raisedWith (pget s 0 z.2 4) (fun e => decide (e.code = .ioBounds)))) = true) ∧
    (let x : SvRun := { groupRun with pump := freshPump .msb32 0 4 };
      ∃ e, readNumbers groupState 0 ((groupLengths x.len).filter (fun n => decide (n ≠ 0))) x.pump = .error (.raised e) ∧
        decide (e.code = .ioBounds) = true) := by
  refine ⟨⟨by decide, okWith_ok (by decide +kernel)⟩, fun a h => ?_, ⟨by unfold imageOk; decide, by decide⟩, by decide,
    by decide, ⟨by decide, okWith_ok (by decide +kernel)⟩,
    raisedWith_error (by decide +kernel), okWith_ok (by decide +kernel), fun a h => ?_,
    raisedWith_error (by decide +kernel)⟩ <;> simp only [List.mem_cons, List.not_mem_nil, or_false] at h
  · rcases h with h | h | h <;> subst h <;> exact ⟨by decide, okWith_ok (by decide +kernel)⟩
  · rcases h with h | h <;> subst h <;> exact okWith_ok (by decide +kernel)

/-- V-SV-1; no ready table; IMGCHK's bounds error; a table for one row with an image of two and of none; and the failing rows of
V-SV-10 and V-SV-14. -/
theorem witness_Sv0DecodeSwapsOnceAfterTheRows :
    (let s := svState [0x3C, 0x08, 0x90, 0x7F, 0, 0, 0, 0x50] 16;
      s.sv0.ready = true ∧ imageOk s ∧ s.sv0.stripes.length = s.regs.imgH.toNat ∧
        ∃ x, forUp (svRow s 0 .msb32) s.regs.imgH.toNat 0 (s.pumps[0], s.outMem) = .ok x ∧
          decide (x.1.consumed = 37) = true) ∧
    (sized 8 8).sv0.ready = false ∧
    ((svState [0] 65).sv0.ready = true ∧ (svState [0] 65).sv0.stripes.length = (svState [0] 65).regs.imgH.toNat ∧
      ImageFails (svState [0] 65) .ioBounds 0 0 0) ∧
    (∀ h ∈ [2, 0], let s := withImage (svState [0] 16) 16 16 h;
      s.sv0.ready = true ∧ s.sv0.stripes.length ≠ s.regs.imgH.toNat) ∧
    ∀ a ∈ [([0, 0, 0, 0x80], 32, (⟨.corrupt, 0, 0, 0, 1⟩ : ErrInfo)), ([0, 0], 16, ⟨.ioBounds, 2, 7, 0, 30⟩)],
      let s := svState a.1 a.2.1
      s.sv0.ready = true ∧ imageOk s ∧ s.sv0.stripes.length = s.regs.imgH.toNat ∧
        ∃ e, forUp (svRow s 0 .msb32) s.regs.imgH.toNat 0 (s.pumps[0], s.outMem) = .error (.raised e) ∧
          decide (e = a.2.2) = true := by
  refine ⟨⟨by decide, by unfold imageOk; decide, by decide, okWith_ok (by decide +kernel)⟩, by decide,
    ⟨by decide, by decide, Or.inr (.inr (by decide))⟩, by decide, fun a h => ?_⟩
  simp only [List.mem_cons, List.not_mem_nil, or_false] at h
  rcases h with h | h <;> subst h <;>
    exact ⟨by decide, by unfold imageOk; decide, by decide, raisedWith_error (by decide +kernel)⟩

/-- Sixteen zero bytes: the least that 121 bits fit in. -/
theorem witness_ZeroStripesDecodeToTheSeed :
    let s := svState (List.replicate 16 0) 16
    s.sv0.ready = true ∧ imageOk s ∧ s.sv0.stripes.length = s.regs.imgH.toNat ∧ s.par.legal = true ∧
      ∀ x ∈ s.sv0.stripes, x.inside s.par = true ∧ 121 * ((s.regs.imgW.toNat + 15) / 16) ≤ 8 * x.size.toNat ∧
        ∀ a, x.off.toNat ≤ a → a < x.off.toNat + x.size.toNat → inByte s a = 0#8 ∧ a ∉ s.sv0.raced := by
  refine ⟨by decide, by unfold imageOk; decide, by decide, by decide, fun x hx => ?_⟩
  obtain rfl : x = ⟨0, 16⟩ := by simpa [svState] using hx
  have h : ∀ a < 16, inByte (svState (List.replicate 16 0) 16) a = 0#8 := by decide
  exact ⟨by decide, by decide, fun a _ ha => ⟨h a (by simpa using ha), List.not_mem_nil⟩⟩

/-! Fuji. -/

theorem witness_FujiSetupAndStripEnd :
    ((14#5).toNat = 14 ∧ (12#5).toNat = 12 ∧ (13#5).toNat ≠ 14 ∧ (13#5).toNat ≠ 12) ∧
    (fuji14.valid = true ∧ fuji14.errcnt = 0) ∧
    (({ fuji14 with errcnt := 1 } : Fuji).valid = true ∧ ({ fuji14 with errcnt := 1 } : Fuji).errcnt ≠ 0) ∧
    (sized 8 8).fuji.valid = false := by decide

/-- The values where WRAP's clauses meet, at both depths. -/
theorem witness_GradientsAndWrapStayInRange :
    fuji14.sameSetup fuji14 = true ∧ fuji12.sameSetup fuji12 = true ∧
    (-(fuji14.totalValues : Int) ≤ -16384 ∧ (32767 : Int) < 2 * fuji14.totalValues ∧
      (-16385 : Int) < -(fuji14.totalValues : Int) ∧ 2 * (fuji14.totalValues : Int) ≤ 32768) := by decide

/-- V-FJ-4's and V-FJ-6's neighbours; V-FJ-10's zero run and V-FJ-15's over-read, in both commands; no context; no pump; and a neighbour of 16384, one above the largest, at the first
and at the last place. -/
theorem witness_FujiSamplesInterpolateAndCorrect :
    (let s := fjState [0x82, 0x80] 100 16383 100 100 100 100;
      s.fuji.valid = true ∧ s.pumps[0].valid = true ∧ s.regs.rb = s.fuji.qp[(4 : Fin 5)] ∧
      s.regs.rc ≤ s.fuji.qp[(4 : Fin 5)] ∧ s.regs.rd ≤ s.fuji.qp[(4 : Fin 5)] ∧
      s.regs.rf ≤ s.fuji.qp[(4 : Fin 5)] ∧
      ∃ x, fjCode s 0 s.pumps[0] (s.fuji.ge.pair 2 (gradIndex
          (s.fuji.quantize ((s.regs.rb : Int) - s.regs.rf) * 9 + s.fuji.quantize ((s.regs.rc : Int) - s.regs.rb)))) =
        .ok x ∧ decide (x.code = -3) = true) ∧
    (let s := fjState [0x82, 0x00] 200 100 50 150 100 300;
      s.fuji.valid = true ∧ s.pumps[0].valid = true ∧ s.regs.rb ≤ s.fuji.qp[(4 : Fin 5)] ∧
      s.regs.rc ≤ s.fuji.qp[(4 : Fin 5)] ∧ s.regs.rd ≤ s.fuji.qp[(4 : Fin 5)] ∧
      s.regs.ra ≤ s.fuji.qp[(4 : Fin 5)] ∧ s.regs.rg ≤ s.fuji.qp[(4 : Fin 5)] ∧
      ∃ x, fjCode s 0 s.pumps[0] (s.fuji.go.pair 0 (gradIndex
          (s.fuji.quantize ((s.regs.rb : Int) - s.regs.rc) * 9 + s.fuji.quantize ((s.regs.rc : Int) - s.regs.ra)))) =
        .ok x ∧ decide (x.code = 2) = true) ∧
    (∀ a ∈ [(List.replicate 8 0, (⟨.corrupt, 0, 0, 0, 56⟩ : ErrInfo)), ([0x82], ⟨.ioBounds, 1, 8, 0, 1⟩)],
      let s := fjState a.1 100 100 100 100 100 100
      let f := s.fuji
      let g := s.regs
      f.valid = true ∧ s.pumps[0].valid = true ∧
        (∀ r ∈ [g.ra, g.rb, g.rc, g.rd, g.rf, g.rg], r ≤ f.qp[(4 : Fin 5)]) ∧
        (∃ e, fjCode s 0 s.pumps[0] (f.ge.pair 0 (gradIndex
            (f.quantize ((g.rb : Int) - g.rf) * 9 + f.quantize ((g.rc : Int) - g.rb)))) = .error (.raised e) ∧
          decide (e = a.2) = true) ∧
        ∃ e, fjCode s 0 s.pumps[0] (f.go.pair 0 (gradIndex
            (f.quantize ((g.rb : Int) - g.rc) * 9 + f.quantize ((g.rc : Int) - g.ra)))) = .error (.raised e) ∧
          decide (e = a.2) = true) ∧
    ((sized 8 8).fuji.valid = false ∧ (fjState [] 0 0 0 0 0 0).fuji.valid = true ∧
      (fjState [] 0 0 0 0 0 0).pumps[1].valid = false) ∧
    (let g := (fjState [] 16384 16384 0 0 0 0).regs;
      [g.rb, g.rc, g.rd, g.rf] = [] ++ 16384 :: [0, 0, 0] ∧ [g.ra, g.rb, g.rc, g.rd, g.rg] = [] ++ 16384 :: [16384, 0, 0, 0]) ∧
    (let g := (fjState [] 0 0 0 16383 16384 16384).regs;
      [g.rb, g.rc, g.rd, g.rf] = [0, 0, 16383] ++ 16384 :: [] ∧
      [g.ra, g.rb, g.rc, g.rd, g.rg] = [0, 0, 0, 16383] ++ 16384 :: []) ∧
    fuji14.qp[(4 : Fin 5)] + 1 = 16384 := by
  refine ⟨⟨by decide, by decide, by decide, by decide, by decide, by decide, okWith_ok (by decide +kernel)⟩,
    ⟨by decide, by decide, by decide, by decide, by decide, by decide, by decide, okWith_ok (by decide +kernel)⟩,
    fun a h => ?_, by decide, by decide, by decide, by decide⟩
  simp only [List.mem_cons, List.not_mem_nil, or_false] at h
  rcases h with h | h <;> subst h <;>
    exact ⟨by decide, by decide, by decide, raisedWith_error (by decide +kernel), raisedWith_error (by decide +kernel)⟩

/-- What a code's first z + 1 bits and the d bits after them give. -/
def codeBits (s : State) (z d : Nat) : Bool :=
  okWith (readCode s 0 (z + 1) s.pumps[0]) (fun x => decide (x.1 = 1) && okWith (pget s 0 x.2 d) (fun _ => true))

theorem codeBits_spec {s : State} {z d : Nat} (h : codeBits s z d = true) :
    ∃ q b q', readCode s 0 (z + 1) s.pumps[0] = .ok (1, q) ∧ pget s 0 q d = .ok (b, q') := by
  obtain ⟨⟨c, q⟩, hr, hx⟩ := okWith_ok h
  simp only [Bool.and_eq_true, decide_eq_true_eq] at hx
  obtain ⟨⟨b, q'⟩, hp, -⟩ := okWith_ok hx.2
  obtain ⟨rfl, -⟩ := hx
  exact ⟨q, b, q', hr, hp⟩

theorem bitDiff_witness : IsBitDiff 256 1 8 ∧ IsBitDiff 1 1 0 ∧ IsBitDiff 100000 1 13 := by
  refine ⟨Or.inr ⟨by decide, by decide, by decide, by decide, ?_⟩, Or.inl (by decide),
    Or.inr ⟨by decide, by decide, by decide, by decide, ?_⟩⟩ <;>
    (intro e h1 h2; interval_cases e <;> decide)

/-- The short form at its longest run of zeros (40), the d = 0 form, the escape form at its shortest and longest runs
(41 and 55), a run of 56 zeros, and over-reads in the run of zeros, of the short form's bits and of the escape bits. -/
theorem witness_FujiCodeReadsTheAdaptiveCode :
    (let s := fjState [0, 0, 0, 0, 0, 0x82, 0x80] 0 0 0 0 0 0;
      40 < s.fuji.maxBits ∧ 40 + s.fuji.rawBits + 1 < s.fuji.maxBits ∧
        ∃ q b q', readCode s 0 (40 + 1) s.pumps[0] = .ok (1, q) ∧ pget s 0 q 8 = .ok (b, q')) ∧
    (let s := fjState [0x80] 0 0 0 0 0 0;
      0 + s.fuji.rawBits + 1 < s.fuji.maxBits ∧
        ∃ q b q', readCode s 0 (0 + 1) s.pumps[0] = .ok (1, q) ∧ pget s 0 q 0 = .ok (b, q')) ∧
    (let s := fjState [0, 0, 0, 0, 0, 0x40, 5] 0 0 0 0 0 0;
      s.fuji.maxBits = 41 + s.fuji.rawBits + 1 ∧
        ∃ q b q', readCode s 0 (41 + 1) s.pumps[0] = .ok (1, q) ∧ pget s 0 q 14 = .ok (b, q')) ∧
    (let s := fjState [0, 0, 0, 0, 0, 0, 1, 0, 0] 0 0 0 0 0 0;
      55 + 1 = s.fuji.maxBits ∧
        ∃ q b q', readCode s 0 (55 + 1) s.pumps[0] = .ok (1, q) ∧ pget s 0 q 14 = .ok (b, q')) ∧
    (let s := fjState [0, 0, 0, 0, 0, 0, 0, 0] 0 0 0 0 0 0;
      ∃ x, readCode s 0 s.fuji.maxBits s.pumps[0] = .ok x ∧ decide (x.1 = 0) = true) ∧
    (∀ z ∈ [0, 8],
      let s := fjState (List.replicate (z / 8) 0) 0 0 0 0 0 0
      z < s.fuji.maxBits ∧
        ∃ x, readCode s 0 z s.pumps[0] = .ok x ∧
          (decide (x.1 = 0) && raisedWith (pget s 0 x.2 1) (fun e => decide (e.code = .ioBounds))) = true) ∧
    (∀ a ∈ [([0x80], 0, 8), ([0, 0, 0, 0, 0, 0x40], 41, 14)],
      let s := fjState a.1 0 0 0 0 0 0
      a.2.1 < s.fuji.maxBits ∧ (a.2.1 + s.fuji.rawBits + 1 < s.fuji.maxBits ↔ a.2.2 = 8) ∧
        ∃ x, readCode s 0 (a.2.1 + 1) s.pumps[0] = .ok x ∧
          (decide (x.1 = 1) && raisedWith (pget s 0 x.2 a.2.2) (fun e => decide (e.code = .ioBounds))) = true) ∧
    IsBitDiff 256 1 8 ∧ IsBitDiff 1 1 0 := by
  refine ⟨⟨by decide, by decide, codeBits_spec (by decide +kernel)⟩, ⟨by decide, codeBits_spec (by decide +kernel)⟩,
    ⟨by decide, codeBits_spec (by decide +kernel)⟩, ⟨by decide, codeBits_spec (by decide +kernel)⟩,
    okWith_ok (by decide +kernel), fun z h => ?_, fun a h => ?_, bitDiff_witness.1, bitDiff_witness.2.1⟩ <;>
    simp only [List.mem_cons, List.not_mem_nil, or_false] at h <;> rcases h with h | h <;> subst h
  · exact ⟨by decide, okWith_ok (by decide +kernel)⟩
  · exact ⟨by decide, okWith_ok (by decide +kernel)⟩
  · exact ⟨by decide, by decide, okWith_ok (by decide +kernel)⟩
  · exact ⟨by decide, by decide, okWith_ok (by decide +kernel)⟩

/-- V-FJ-19 to V-FJ-23, with RAW_WIDTH at both ends of the consistent range and just outside it. -/
theorem witness_StripsPartitionTheRawWidth :
    (let g := (geomState 0x00050040 257).regs;
      g.blockSize = 64 ∧ g.blocksInRow = 5 ∧ g.rawWidth = 64 * (5 - 1) + 1 ∧ (4#16).toNat = 5 - 1 ∧ (5#16).toNat = 5) ∧
    (geomState 0x00050040 320).regs.rawWidth = 64 * 5 ∧ (geomState 0x00050040 256).regs.rawWidth = 64 * (5 - 1) ∧
    (geomState 0x00050040 321).regs.rawWidth = 64 * 5 + 1 ∧ (geomState 0x00050000 300).regs.blockSize = 0 ∧
    (geomState 0x00000040 300).regs.blocksInRow = 0 := by decide

/-! The invariant. -/

/-- A busy block with a stream, a fresh pump over it and an accepted BP_FILL. -/
def safeState : State := busyWith (pumpOn .jpeg [0x12, 0xFF, 0x00, 0x34]) 0x31000000#32 [.inRead 3, .regRead .word 0x20C#10]

theorem safeState_inv : safeState.Inv where
  par := by decide
  status := by decide
  errCode := by decide
  regs := by decide
  streams := by decide
  pumps := by decide
  tables := by decide +kernel
  sv0 := by decide
  fuji := by decide
  inMem := by decide
  inSize := by decide
  outMem := by decide
  outSize := by decide
  outRaced := by decide

theorem witness_EveryStepKeepsTheMachineSafe :
    safeState.Inv ∧ (∃ t, step safeState = .next t ∧ (fun _ => true) t = true) ∧
      (moves safeState []).Inv ∧ ∃ t, step (moves safeState []) = .next t ∧ decide (t.status.done = true) = true :=
  ⟨safeState_inv, answers_next (by decide), { safeState_inv with }, answers_next (by decide)⟩

theorem witness_SafeMachineNeverStops : safeState.Inv ∧ safeState.scheduleInside :=
  ⟨safeState_inv, by unfold State.scheduleInside; decide⟩

end Sys2Proof.Tests
end

/-! SUPPORT. From a safe state every command answers a next state: it completes or raises, and it moves neither the
parameters nor the schedule (spec 00_scope.md R11, 40_control.md R101, R103). One lemma per piece of pseudocode, in the
order of the model's files. -/

namespace Sys2Proof.Machine

/-! ## Answers -/

/-- The parameters and the moves still to come are as they were: what a schedule's being inside depends on. -/
structure SameSchedule (s t : State) : Prop where
  par : t.par = s.par
  events : t.events = s.events

/-- An outcome of a move from s: a next state, with the parameters and the schedule of s. -/
def Answers (s : State) (o : Host.Outcome State Fault Refusal) : Prop := ∃ t, o = .next t ∧ SameSchedule s t

theorem SameSchedule.refl (s : State) : SameSchedule s s := ⟨rfl, rfl⟩

theorem SameSchedule.inside {s t : State} (h : SameSchedule s t) (hs : s.scheduleInside) : t.scheduleInside := by
  unfold State.scheduleInside at hs ⊢
  rw [h.par, h.events]
  exact hs

theorem Answers.next {s t : State} (h : SameSchedule s t) : Answers s (.next t) := ⟨t, rfl, h⟩

/-- A move made from a state with the schedule of s is one from s. -/
theorem Answers.after {s u : State} {o : Host.Outcome State Fault Refusal} (hu : SameSchedule s u) (h : Answers u o) :
    Answers s o :=
  have ⟨t, ho, ht⟩ := h
  ⟨t, ho, ht.par.trans hu.par, ht.events.trans hu.events⟩

theorem Answers.inside {s : State} {o : Host.Outcome State Fault Refusal} (h : Answers s o) (hs : s.scheduleInside) :
    ∃ t, o = .next t ∧ t.scheduleInside :=
  have ⟨t, ho, ht⟩ := h
  ⟨t, ho, ht.inside hs⟩

/-- A primitive command whose pseudocode cannot fault answers. -/
theorem finishPrimitive_answers {codes : List ErrCode} {s : State} {r : Eff State}
    (h : Eff.Can codes (SameSchedule s) r) : Answers s (finishPrimitive s r) := by
  match r, h with
  | .ok _, h => exact .next ⟨h.par, h.events⟩
  | .error (.raised _), _ => exact .next ⟨rfl, rfl⟩

/-- A decoding command of OUT whose pseudocode cannot fault answers. -/
theorem finishMacro_answers {codes : List ErrCode} {s : State} {p : PumpIx} {r : Eff State}
    (h : Eff.Can codes (SameSchedule s) r) : Answers s (finishMacro s p r) := by
  match r, h with
  | .ok _, h => exact .next ⟨h.par, h.events⟩
  | .error (.raised _), _ => exact .next ⟨rfl, rfl⟩

/-! ## What a safe state gives a command -/

theorem State.Inv.decided {s : State} (h : s.Inv) : s.par.decided = true := (Params.legal_iff.mp h.par).2

theorem State.Inv.goodOut {s : State} (h : s.Inv) : goodOut s.par.outSize s.outMem := ⟨h.outMem, h.outSize⟩

/-- SCHK gives a valid stream whose window lies in IN (10_state.md R36). -/
theorem can_schk_legal {codes : List ErrCode} {s : State} {k : StreamIx} (hc : .state ∈ codes) (h : s.Inv) :
    Eff.Can codes (fun v => v.valid = true ∧ v.legal s.par = true) (schk s k) :=
  Eff.can_mono (can_schk hc) (fun _ hc => hc) fun _ ⟨hv, hvalid⟩ => ⟨hvalid, hv ▸ h.streams k⟩

/-- PCHK gives a pump of R37 and R39 (10_state.md). -/
theorem can_pchk_fits {codes : List ErrCode} {s : State} {p : PumpIx} (hc : .state ∈ codes) (h : s.Inv) :
    Eff.Can codes (fun v => v = s.pumps[p] ∧ v.Fits s.par) (pchk s p) :=
  Eff.can_mono (can_pchk hc) (fun _ hc => hc) fun _ ⟨hv, hvalid⟩ =>
    ⟨hv, Pump.fits_iff.mpr ⟨h.decided, hvalid, hv ▸ h.pumps p⟩⟩

/-- A stripe of the table lies in IN (10_state.md R42). -/
theorem State.Inv.stripe_inside {s : State} (h : s.Inv) {r : Nat} (hr : r < s.sv0.stripes.length) :
    (s.sv0.stripes.getD r ⟨0, 0⟩).off.toNat + (s.sv0.stripes.getD r ⟨0, 0⟩).size.toNat ≤ s.par.inSize := by
  have hall : s.sv0.stripes.all (Stripe.inside s.par) = true := (Bool.and_eq_true_iff.mp h.sv0).2
  have hin := List.all_eq_true.mp hall _ (List.getElem_mem hr)
  rw [List.getD_eq_getElem _ _ hr]
  exact (of_decide_eq_true hin).2

/-! ## Byte streams (41_bytestream.md) -/

theorem can_bsInit {s : State} {k : StreamIx} {be : Bool} :
    Eff.Can [.ioBounds] (SameSchedule s) (bsInit k be s) :=
  Eff.can_bind (can_require (by simp)) fun _ _ => ⟨rfl, rfl⟩

theorem can_streamGet {s : State} {k : StreamIx} {n : Nat} (h : s.Inv) :
    Eff.Can [.state, .ioBounds] (SameSchedule s) (streamGet s k n) :=
  Eff.can_bind (can_schk_legal (by simp) h) fun _ ⟨hv, hl⟩ =>
    Eff.can_bind (can_streamRead (by simp) hv hl) fun _ _ => ⟨rfl, rfl⟩

theorem can_streamPeek {s : State} {k : StreamIx} {n : Nat} (h : s.Inv) :
    Eff.Can [.state, .ioBounds] (SameSchedule s) (streamPeek s k n) :=
  Eff.can_bind (can_schk_legal (by simp) h) fun _ ⟨hv, hl⟩ =>
    Eff.can_bind (can_streamRead (by simp) hv hl) fun _ _ => ⟨rfl, rfl⟩

theorem can_bsSkip {s : State} {k : StreamIx} : Eff.Can [.state, .ioBounds] (SameSchedule s) (bsSkip k s) :=
  Eff.can_bind (can_schk (by simp)) fun _ _ => Eff.can_bind (can_needRemaining (by simp)) fun _ _ => ⟨rfl, rfl⟩

theorem can_bsGetStream {s : State} {a b : StreamIx} :
    Eff.Can [.state, .ioBounds] (SameSchedule s) (bsGetStream a b s) :=
  Eff.can_bind (can_schk (by simp)) fun _ _ => Eff.can_bind (can_needRemaining (by simp)) fun _ _ => ⟨rfl, rfl⟩

theorem can_bsGetSubstream {s : State} {a b : StreamIx} :
    Eff.Can [.state, .ioBounds] (SameSchedule s) (bsGetSubstream a b s) :=
  Eff.can_bind (can_schk (by simp)) fun _ _ => Eff.can_bind (can_require (by simp)) fun _ _ => ⟨rfl, rfl⟩

theorem can_bsHasPrefix {s : State} {k : StreamIx} {n : BitVec 4} (h : s.Inv) :
    Eff.Can [.illegal, .state] (SameSchedule s) (bsHasPrefix k n s) :=
  Eff.can_bind (can_require (by simp)) fun _ _ => Eff.can_bind (can_schk_legal (by simp) h) fun _ ⟨hv, hl⟩ =>
    Eff.can_bind (can_prefixMatches hv hl) fun _ _ => ⟨rfl, rfl⟩

theorem can_bsSkipPrefix {s : State} {k : StreamIx} {n : BitVec 4} (h : s.Inv) :
    Eff.Can [.illegal, .state] (SameSchedule s) (bsSkipPrefix k n s) := by
  refine Eff.can_bind (can_require (by simp)) fun _ _ => Eff.can_bind (can_schk_legal (by simp) h) fun _ ⟨hv, hl⟩ =>
    Eff.can_bind (can_prefixMatches hv hl) fun hit _ => ?_
  cases hit
  · exact ⟨rfl, rfl⟩
  · exact ⟨rfl, rfl⟩

theorem can_bsRebase {s : State} {k : StreamIx} :
    Eff.Can [.state, .ioBounds, .ioOverflow] (SameSchedule s) (bsRebase k s) :=
  Eff.can_bind (can_schk (by simp)) fun _ _ => Eff.can_bind (can_needRemaining (by simp)) fun _ _ =>
    Eff.can_bind (can_require (by simp)) fun _ _ => Eff.can_bind (can_require (by simp)) fun _ _ => ⟨rfl, rfl⟩

theorem can_bsCheck {s : State} {k : StreamIx} :
    Eff.Can [.state, .ioBounds, .ioOverflow] (SameSchedule s) (bsCheck k s) :=
  Eff.can_bind (can_schk (by simp)) fun _ _ => Eff.can_bind (can_require (by simp)) fun _ _ =>
    Eff.can_bind (can_needRemaining (by simp)) fun _ _ => .refl s

/-! ## Bit pumps (42_bitpump.md) -/

theorem can_bpInit {s : State} {p : PumpIx} {k : StreamIx} {mode : PumpMode} :
    Eff.Can [.state] (SameSchedule s) (bpInit p k mode s) :=
  Eff.can_bind (can_schk (by simp)) fun _ _ => ⟨rfl, rfl⟩

theorem can_bpFill {s : State} {p : PumpIx} (h : s.Inv) : Eff.Can [.state] (SameSchedule s) (bpFill p s) :=
  Eff.can_bind (can_pchk_fits (by simp) h) fun _ ⟨_, hv⟩ => Eff.can_bind (can_fill hv) fun _ _ => ⟨rfl, rfl⟩

theorem can_bpGetBits {s : State} {p : PumpIx} {n : BitVec 6} (h : s.Inv) :
    Eff.Can [.illegal, .state, .ioBounds] (SameSchedule s) (bpGetBits p n s) :=
  Eff.can_bind (can_require (by simp)) fun _ _ => Eff.can_bind (can_pchk_fits (by simp) h) fun _ ⟨_, hv⟩ =>
    Eff.can_bind (can_pget (by simp) hv) fun _ _ => ⟨rfl, rfl⟩

theorem can_bpPeekBits {s : State} {p : PumpIx} {n : BitVec 6} (h : s.Inv) :
    Eff.Can [.illegal, .state] (SameSchedule s) (bpPeekBits p n s) :=
  Eff.can_bind (can_require (by simp)) fun _ _ => Eff.can_bind (can_pchk_fits (by simp) h) fun _ ⟨_, hv⟩ =>
    Eff.can_bind (can_ppeek hv) fun _ _ => ⟨rfl, rfl⟩

theorem can_bpSkipBits {s : State} {p : PumpIx} {n : BitVec 6} (h : s.Inv) :
    Eff.Can [.illegal, .state, .ioBounds] (SameSchedule s) (bpSkipBits p n s) :=
  Eff.can_bind (can_require (by simp)) fun _ _ => Eff.can_bind (can_pchk_fits (by simp) h) fun _ ⟨_, hv⟩ =>
    Eff.can_bind (can_pskip (by simp) hv) fun _ _ => ⟨rfl, rfl⟩

/-! ## Huffman tables (43_huffman.md) -/

theorem can_htSetCounts {s : State} {t : TableIx} :
    Eff.Can [.state, .corrupt] (SameSchedule s) (htSetCounts t s) := by
  unfold htSetCounts
  dsimp only
  -- Which sum the counts have does not matter here, and computing it makes the check slow.
  generalize countSum s.regs.codeCounts = sum
  exact Eff.can_bind (can_require (by simp)) fun _ _ => Eff.can_bind (can_require (by simp)) fun _ _ => ⟨rfl, rfl⟩

theorem can_htSetValues {s : State} {t : TableIx} {k : StreamIx} {n : BitVec 9} (h : s.Inv) :
    Eff.Can [.illegal, .state, .ioBounds, .corrupt] (SameSchedule s) (htSetValues t k n s) := by
  refine Eff.can_bind (can_require (by simp)) fun _ _ => Eff.can_bind (can_require (by simp)) fun _ _ =>
    Eff.can_bind (can_schk_legal (by simp) h) fun v ⟨hv, hl⟩ => Eff.can_bind (can_require (by simp)) fun _ _ =>
    Eff.can_bind (can_needRemaining (by simp)) fun _ hn => ?_
  obtain ⟨hwindow, -⟩ := (StreamSlot.legal_iff hv).mp hl
  exact Eff.can_bind (can_windowBytes (by omega)) fun _ _ => ⟨rfl, rfl⟩

theorem can_htSetup {s : State} {t : TableIx} {d : Bool} (h : s.Inv) :
    Eff.Can [.state, .corrupt] (SameSchedule s) (htSetup t d s) :=
  Eff.can_bind (can_require (by simp)) fun _ _ => Eff.can_bind (can_canon h.decided (by simp)) fun _ _ => ⟨rfl, rfl⟩

theorem can_htDecodeSym {s : State} {t : TableIx} {p : PumpIx} (h : s.Inv) :
    Eff.Can [.state, .ioBounds, .corrupt] (SameSchedule s) (htDecodeSym t p s) :=
  Eff.can_bind (can_tchk (by simp)) fun _ _ => Eff.can_bind (can_pchk_fits (by simp) h) fun _ ⟨_, hv⟩ =>
    Eff.can_bind (can_hsym (by simp) (by simp) hv) fun _ _ => ⟨rfl, rfl⟩

theorem can_htDecodeDiff {s : State} {t : TableIx} {p : PumpIx} (h : s.Inv) :
    Eff.Can [.state, .ioBounds, .corrupt] (SameSchedule s) (htDecodeDiff t p s) :=
  Eff.can_bind (can_tchk (by simp)) fun _ _ => Eff.can_bind (can_pchk_fits (by simp) h) fun _ ⟨_, hv⟩ =>
    Eff.can_bind (can_hdiff (by simp) (by simp) hv) fun _ _ => ⟨rfl, rfl⟩

theorem can_loadTable {codes : List ErrCode} {s : State} {t : TableIx} {c : Vector Byte Config.htMaxLen}
    {values : List Byte} (hc : .corrupt ∈ codes) (h : s.Inv) :
    Eff.Can codes (SameSchedule s) (loadTable t c values s) :=
  Eff.can_bind (can_canon h.decided hc) fun _ _ => ⟨rfl, rfl⟩

theorem can_pentaxCodes {codes : List ErrCode} {s : State} {v : StreamSlot} (n : Nat) {at_ : Nat}
    (h : v.off.toNat + at_ + 2 * n ≤ s.par.inSize) :
    Eff.Can codes (fun l => l.length = n) (pentaxCodes s v at_ n) := by
  induction n generalizing at_ with
  | zero => rfl
  | succ n ih =>
    exact Eff.can_bind (can_windowValue (by omega)) fun _ _ => Eff.can_bind (ih (by omega)) fun _ hl =>
      congrArg (· + 1) hl

theorem can_pentaxEntries {codes : List ErrCode} {s : State} {v : StreamSlot} (hc : .corrupt ∈ codes) (l : List Nat)
    {at_ i : Nat} (h : v.off.toNat + at_ + l.length ≤ s.par.inSize) :
    Eff.Can codes (fun _ => True) (pentaxEntries s v at_ i l) := by
  induction l generalizing at_ i with
  | nil => trivial
  | cons code rest ih =>
    rw [List.length_cons] at h
    exact Eff.can_bind (can_windowValue (by omega)) fun _ _ => Eff.can_bind (can_require hc) fun _ _ =>
      Eff.can_bind (ih (by omega)) fun _ _ => trivial

theorem can_htLoadPentax {s : State} {t : TableIx} {k : StreamIx} (h : s.Inv) :
    Eff.Can [.state, .ioBounds, .corrupt] (SameSchedule s) (htLoadPentax t k s) := by
  refine Eff.can_bind (can_schk_legal (by simp) h) fun v ⟨hv, hl⟩ => ?_
  obtain ⟨hwindow, -⟩ := (StreamSlot.legal_iff hv).mp hl
  refine Eff.can_bind (can_require (by simp)) fun _ hhead => ?_
  have hhead : v.pos.toNat + 2 ≤ v.size.toNat := of_decide_eq_true hhead
  refine Eff.can_bind (can_windowValue (by omega)) fun depth _ => Eff.can_bind (can_require (by simp)) fun _ _ =>
    Eff.can_bind (can_require (by simp)) fun _ hall => ?_
  have hall : v.pos.toNat + 2 + 3 * depth ≤ v.size.toNat := of_decide_eq_true hall
  refine Eff.can_bind (can_pentaxCodes depth (by omega)) fun codes hlen =>
    Eff.can_bind (can_pentaxEntries (by simp) codes (by omega)) fun entries _ => ?_
  split
  · exact Eff.can_raise (by simp)
  · exact Eff.can_bind (can_loadTable (by simp) h) fun _ hr => ⟨hr.par, hr.events⟩

/-! ## Image decoders (44_ljpeg.md, 45_pentax.md, 46_samsung.md) -/

theorem can_ljTable {codes : List ErrCode} {s : State} {i : Nat} (hc : .state ∈ codes) :
    Eff.Can codes (fun _ => True) (ljTable s i) := by
  unfold ljTable
  split
  · exact Eff.can_bind (can_tchk hc) fun _ _ => trivial
  · exact Eff.can_raise hc

theorem can_ljTables {codes : List ErrCode} {s : State} (hc : .state ∈ codes) (n : Nat) {i : Nat} :
    Eff.Can codes (fun _ => True) (ljTables s n i) := by
  induction n generalizing i with
  | zero => trivial
  | succ n ih => exact Eff.can_bind (can_ljTable hc) fun _ _ => Eff.can_bind ih fun _ _ => trivial

/-- LJ_DECODE's checks leave a tile inside an image that OUT holds (44_ljpeg.md R190). -/
theorem can_ljCheck {s : State} :
    Eff.Can [.state, .ioBounds, .corrupt, .unsupported]
      (fun _ => imageOk s ∧ s.regs.ljTx + s.regs.ljTw ≤ s.regs.imgW.toNat ∧
        s.regs.ljTy + s.regs.ljTh ≤ s.regs.imgH.toNat) (ljCheck s) :=
  Eff.can_bind (can_require (by simp)) fun _ _ => Eff.can_bind (can_require (by simp)) fun _ _ =>
    Eff.can_bind (can_forUp (fun _ _ => True) _ 0 () trivial fun _ _ _ _ _ =>
      Eff.can_mono (can_require (by simp)) (fun _ hc => hc) fun _ _ => trivial) fun _ _ =>
    Eff.can_bind (can_ljTables (by simp) _) fun _ _ => Eff.can_bind (can_imgChk (by simp) (by simp)) fun _ himage =>
    Eff.can_bind (can_require (by simp)) fun _ _ => Eff.can_bind (can_require (by simp)) fun _ _ =>
    Eff.can_bind (can_require (by simp)) fun _ hplace => ⟨himage, of_decide_eq_true hplace⟩

theorem can_ljDecode {s : State} {p : PumpIx} (h : s.Inv) :
    Eff.Can [.state, .ioBounds, .corrupt, .unsupported] (SameSchedule s) (ljDecode p s) := by
  refine Eff.can_bind (can_pchk_fits (by simp) h) fun v ⟨hv, hfits⟩ =>
    Eff.can_bind can_ljCheck fun tabs ⟨himage, hplace⟩ => ?_
  have hstart : LjKeeps s p ⟨v, s.outMem, s.regs.ljPreds, s.regs.ljPreds, 0⟩ :=
    ⟨hfits, hv ▸ .refl v, h.goodOut⟩
  exact Eff.can_bind (can_forUp (fun _ => LjKeeps s p) _ 0 _ hstart fun r _ _ hr hx =>
    Eff.can_mono (can_ljRow himage hplace (by omega) hx) (by simp) fun _ hy => hy) fun _ _ => ⟨rfl, rfl⟩

/-- PX_DECODE's checks leave an image of even width that OUT holds (45_pentax.md R200). -/
theorem can_pxCheck {codes : List ErrCode} {s : State} (hc : .corrupt ∈ codes) (hb : .ioBounds ∈ codes) :
    Eff.Can codes (fun _ => imageOk s ∧ s.regs.imgW.toNat % 2 = 0) (pxCheck s) :=
  Eff.can_bind (can_imgChk hc hb) fun _ himage =>
    Eff.can_mono (can_require hc) (fun _ hc => hc) fun _ hw => ⟨himage, (of_decide_eq_true hw).1⟩

theorem can_pxDecode {s : State} {p : PumpIx} {t : TableIx} (h : s.Inv) :
    Eff.Can [.state, .ioBounds, .corrupt] (SameSchedule s) (pxDecode p t s) := by
  refine Eff.can_bind (can_pchk_fits (by simp) h) fun v ⟨hv, hfits⟩ => Eff.can_bind (can_tchk (by simp)) fun _ _ =>
    Eff.can_bind (can_pxCheck (by simp) (by simp)) fun _ ⟨himage, hw⟩ => ?_
  have hstart : PxKeeps s p ⟨v, s.outMem, [0, 0], [0, 0], 0, 0⟩ := ⟨hfits, hv ▸ .refl v, h.goodOut⟩
  exact Eff.can_bind (can_forUp (fun _ => PxKeeps s p) _ 0 _ hstart fun r _ _ hr hx =>
    Eff.can_mono (can_pxRow himage hw (by omega) hx) (by simp) fun _ hy => hy) fun _ _ => ⟨rfl, rfl⟩

theorem can_stripeOffsets {codes : List ErrCode} {s : State} {v : StreamSlot} (n : Nat) {at_ : Nat}
    (h : v.off.toNat + at_ + 4 * n ≤ s.par.inSize) : Eff.Can codes (fun _ => True) (stripeOffsets s v at_ n) := by
  induction n generalizing at_ with
  | zero => trivial
  | succ n ih =>
    exact Eff.can_bind (can_windowValue (by omega)) fun _ _ => Eff.can_bind (ih (by omega)) fun _ _ => trivial

theorem can_stripesFrom {codes : List ErrCode} {rawOff sentinel : Nat} (hc : .corrupt ∈ codes) (l : List Nat)
    {r : Nat} : Eff.Can codes (fun _ => True) (stripesFrom rawOff sentinel r l) := by
  induction l generalizing r with
  | nil => trivial
  | cons o rest ih => exact Eff.can_bind (can_require hc) fun _ _ => Eff.can_bind ih fun _ _ => trivial

theorem can_sv0Stripes {s : State} {a b : StreamIx} (h : s.Inv) :
    Eff.Can [.state, .ioBounds, .corrupt, .unsupported] (SameSchedule s) (sv0Stripes a b s) := by
  refine Eff.can_bind (can_schk_legal (by simp) h) fun offs ⟨hv, hl⟩ => ?_
  obtain ⟨hwindow, -⟩ := (StreamSlot.legal_iff hv).mp hl
  refine Eff.can_bind (can_schk (by simp)) fun _ _ => Eff.can_bind (can_require (by simp)) fun _ _ =>
    Eff.can_bind (can_require (by simp)) fun _ _ => Eff.can_bind (can_require (by simp)) fun _ hn => ?_
  have hn : offs.pos.toNat + 4 * s.regs.imgH.toNat ≤ offs.size.toNat := of_decide_eq_true hn
  exact Eff.can_bind (can_stripeOffsets _ (by omega)) fun os _ =>
    Eff.can_bind (can_stripesFrom (by simp) os) fun _ _ => ⟨rfl, rfl⟩

theorem can_sv0Decode {s : State} {p : PumpIx} {mode : PumpMode} (h : s.Inv) :
    Eff.Can [.state, .ioBounds, .corrupt] (SameSchedule s) (sv0Decode p mode s) := by
  refine Eff.can_bind (can_require (by simp)) fun _ _ => Eff.can_bind (can_require (by simp)) fun _ hrows =>
    Eff.can_bind (can_imgChk (by simp) (by simp)) fun _ himage => ?_
  have hrows : s.sv0.stripes.length = s.regs.imgH.toNat := of_decide_eq_true hrows
  refine Eff.can_bind (can_forUp (fun _ x => goodOut s.par.outSize x.2) _ 0 _ h.goodOut fun r _ _ hr hx =>
    Eff.can_mono (can_svRow himage h.decided (by omega) (h.stripe_inside (by omega)) hx) (by simp) fun _ hy => hy.2)
    fun x hx => ?_
  exact Eff.can_bind (can_svFixup himage hx) fun _ _ => ⟨rfl, rfl⟩

/-! ## Fuji (47_fuji.md) -/

theorem can_fjInit {s : State} {rb : BitVec 5} : Eff.Can [.corrupt] (SameSchedule s) (fjInit rb s) := by
  unfold fjInit
  split
  · exact ⟨rfl, rfl⟩
  split
  · exact ⟨rfl, rfl⟩
  · exact Eff.can_raise (by simp)

theorem can_fjGradReset {s : State} : Eff.Can [.state] (SameSchedule s) (fjGradReset s) :=
  Eff.can_bind (can_require (by simp)) fun _ _ => ⟨rfl, rfl⟩

theorem can_fjSampleEven {s : State} {p : PumpIx} {j : GradSet} (h : s.Inv) :
    Eff.Can [.state, .ioBounds, .corrupt] (SameSchedule s) (fjSampleEven p j s) :=
  Eff.can_bind (can_require (by simp)) fun _ _ => Eff.can_bind (can_pchk_fits (by simp) h) fun _ ⟨_, hv⟩ =>
    Eff.can_bind (can_neighbourCheck (by simp) _) fun _ _ =>
    Eff.can_bind (Eff.can_mono (can_fjCode hv) (by simp) fun _ hx => hx) fun _ _ => ⟨rfl, rfl⟩

theorem can_fjSampleOdd {s : State} {p : PumpIx} {j : GradSet} (h : s.Inv) :
    Eff.Can [.state, .ioBounds, .corrupt] (SameSchedule s) (fjSampleOdd p j s) :=
  Eff.can_bind (can_require (by simp)) fun _ _ => Eff.can_bind (can_pchk_fits (by simp) h) fun _ ⟨_, hv⟩ =>
    Eff.can_bind (can_neighbourCheck (by simp) _) fun _ _ =>
    Eff.can_bind (Eff.can_mono (can_fjCode hv) (by simp) fun _ hx => hx) fun _ _ => ⟨rfl, rfl⟩

theorem can_fjEndStrip {s : State} : Eff.Can [.state, .corrupt] (SameSchedule s) (fjEndStrip s) :=
  Eff.can_bind (can_require (by simp)) fun _ _ => Eff.can_bind (can_require (by simp)) fun _ _ => .refl s

theorem can_stripCheck {s : State} {i : Nat} : Eff.Can [.corrupt] (fun _ => i < s.regs.blocksInRow) (stripCheck s i) :=
  Eff.can_bind (can_require (by simp)) fun _ _ => Eff.can_bind (can_require (by simp)) fun _ _ =>
    Eff.can_mono (can_require (by simp)) (fun _ hc => hc) fun _ hi => of_decide_eq_true hi

theorem can_fjStripWidth {s : State} {i : BitVec 16} : Eff.Can [.corrupt] (SameSchedule s) (fjStripWidth i s) :=
  Eff.can_bind can_stripCheck fun _ _ => ⟨rfl, rfl⟩

theorem can_fjStripOffset {s : State} {i : BitVec 16} : Eff.Can [.corrupt] (SameSchedule s) (fjStripOffset i s) :=
  Eff.can_bind can_stripCheck fun _ _ => ⟨rfl, rfl⟩

end Sys2Proof.Machine

/-! SUPPORT. From a safe state every move answers a next state: the sequencer's and, inside the memories and the
register space, those of the surroundings (spec 00_scope.md R16, 10_state.md R44, 20_memory.md R60, R61, R64). -/

namespace Sys2Proof.Machine

/-! ## The sequencer -/

/-- Clearing SV0.ready keeps the invariant: R42 speaks of the stripes whether the table is ready or not. -/
theorem State.Inv.clearReady {s : State} (h : s.Inv) : s.clearReady.Inv := { h with }

theorem sameSchedule_clearReady (s : State) : SameSchedule s s.clearReady := ⟨rfl, rfl⟩

/-- The invariant does not speak of the schedule. -/
theorem State.Inv.withEvents {s : State} (h : s.Inv) (l : List Event) : ({ s with events := l } : State).Inv :=
  { h with }

/-- No command of a safe state faults or refuses, well-formed or not. -/
theorem exec_answers {s : State} (h : s.Inv) (i : Instr) : Answers s (exec i s) := by
  cases i with
  | nop => exact finishPrimitive_answers (codes := []) (Eff.can_ok (.refl s))
  | bsInit k be => exact finishPrimitive_answers can_bsInit
  | bsGetU8 k => exact finishPrimitive_answers (can_streamGet h)
  | bsGetU16 k => exact finishPrimitive_answers (can_streamGet h)
  | bsGetU32 k => exact finishPrimitive_answers (can_streamGet h)
  | bsGetI32 k => exact finishPrimitive_answers (can_streamGet h)
  | bsGetF32 k => exact finishPrimitive_answers (can_streamGet h)
  | bsPeekU8 k => exact finishPrimitive_answers (can_streamPeek h)
  | bsPeekU16 k => exact finishPrimitive_answers (can_streamPeek h)
  | bsPeekU32 k => exact finishPrimitive_answers (can_streamPeek h)
  | bsSkip k => exact finishPrimitive_answers can_bsSkip
  | bsGetStream src dst => exact finishPrimitive_answers can_bsGetStream
  | bsGetSubstream src dst => exact finishPrimitive_answers can_bsGetSubstream
  | bsHasPrefix k n => exact finishPrimitive_answers (can_bsHasPrefix h)
  | bsSkipPrefix k n => exact finishPrimitive_answers (can_bsSkipPrefix h)
  | bsRebase k => exact finishPrimitive_answers can_bsRebase
  | bsCheck k => exact finishPrimitive_answers can_bsCheck
  | bpInit p k mode => exact finishPrimitive_answers can_bpInit
  | bpFill p => exact finishPrimitive_answers (can_bpFill h)
  | bpGetBits p n => exact finishPrimitive_answers (can_bpGetBits h)
  | bpPeekBits p n => exact finishPrimitive_answers (can_bpPeekBits h)
  | bpSkipBits p n => exact finishPrimitive_answers (can_bpSkipBits h)
  | htReset t => exact finishPrimitive_answers (codes := []) (r := .ok (s.setTable t .reset)) ⟨rfl, rfl⟩
  | htSetCounts t => exact finishPrimitive_answers can_htSetCounts
  | htSetValues t k n => exact finishPrimitive_answers (can_htSetValues h)
  | htSetup t dng16 => exact finishPrimitive_answers (can_htSetup h)
  | htDecodeSym t p => exact finishPrimitive_answers (can_htDecodeSym h)
  | htDecodeDiff t p => exact finishPrimitive_answers (can_htDecodeDiff h)
  | htLoadPentaxLegacy t => exact finishPrimitive_answers (can_loadTable (codes := [.corrupt]) (by simp) h)
  | htLoadPentax t k => exact finishPrimitive_answers (can_htLoadPentax h)
  | ljDecode p => exact finishMacro_answers (can_ljDecode h)
  | pxDecode p t => exact finishMacro_answers (can_pxDecode h)
  | sv0Stripes offs raw =>
    exact (finishPrimitive_answers (can_sv0Stripes h.clearReady)).after (sameSchedule_clearReady s)
  | sv0Decode p mode =>
    have hrun : Eff.Can _ (SameSchedule s.clearReady) (sv0Decode p mode s) :=
      Eff.can_mono (can_sv0Decode h) (fun _ hc => hc) fun _ ht => ⟨ht.par, ht.events⟩
    exact (finishMacro_answers hrun).after (sameSchedule_clearReady s)
  | fjInit rb => exact finishPrimitive_answers can_fjInit
  | fjGradReset => exact finishPrimitive_answers can_fjGradReset
  | fjSampleEven p j => exact finishPrimitive_answers (can_fjSampleEven h)
  | fjSampleOdd p j => exact finishPrimitive_answers (can_fjSampleOdd h)
  | fjEndStrip => exact finishPrimitive_answers can_fjEndStrip
  | fjStripWidth strip => exact finishPrimitive_answers can_fjStripWidth
  | fjStripOffset strip => exact finishPrimitive_answers can_fjStripOffset

/-- The sequencer's step answers: a command, E_ILLEGAL, or nothing to do (30_encoding.md R84, 60_exceptions.md R277). -/
theorem runCommand_answers {s : State} (h : s.Inv) : Answers s (runCommand s) := by
  unfold runCommand
  split
  · split
    · exact exec_answers h _
    · rw [State.raiseIllegal_eq]
      exact .next ⟨rfl, rfl⟩
  · exact .next (.refl s)

/-! ## The surroundings -/

theorem sameSchedule_writeCtrl (s : State) (v : Word) : SameSchedule s (s.writeCtrl v) := by
  unfold State.writeCtrl
  split
  · exact ⟨rfl, rfl⟩
  split
  · unfold State.clearError
    split
    · exact ⟨rfl, rfl⟩
    · exact .refl s
  · exact .refl s

theorem sameSchedule_writeCmd (s : State) (v : Word) : SameSchedule s (s.writeCmd v) := by
  unfold State.writeCmd
  split
  · exact ⟨rfl, rfl⟩
  · exact ⟨rfl, rfl⟩

theorem SameSchedule.writeUnlessBusy {s t : State} (h : SameSchedule s t) : SameSchedule s (s.writeUnlessBusy t) := by
  unfold State.writeUnlessBusy
  split
  · exact ⟨rfl, rfl⟩
  · exact h

theorem sameSchedule_writeReg (s : State) (r : HostReg) (v : Word) : SameSchedule s (s.writeReg r v) := by
  unfold State.writeReg
  split
  · exact sameSchedule_writeCtrl s v
  · exact ⟨rfl, rfl⟩
  · exact sameSchedule_writeCmd s v
  · exact SameSchedule.writeUnlessBusy ⟨rfl, rfl⟩
  · split
    · exact SameSchedule.writeUnlessBusy ⟨rfl, rfl⟩
    · exact .refl s

theorem hostReadReg_answers {s : State} {width : AccessWidth} {offset : BitVec 10} (h : aligned width offset = true) :
    Answers s (hostReadReg s width offset) := by
  unfold hostReadReg
  rw [if_pos h]
  split
  · exact .next ⟨rfl, rfl⟩
  · exact .next ⟨rfl, rfl⟩

theorem hostWriteReg_answers {s : State} {width : AccessWidth} {offset : BitVec 10} {v : Word}
    (h : aligned width offset = true) : Answers s (hostWriteReg s width offset v) := by
  unfold hostWriteReg
  rw [if_pos h]
  split
  · exact .next (sameSchedule_writeReg s _ v)
  · exact .next (.refl s)

theorem outsideWrite_answers {s : State} {i : Nat} {v : Sample} (h : i < s.par.outSize) :
    Answers s (outsideWrite s i v) := by
  unfold outsideWrite
  rw [if_pos h]
  exact .next ⟨rfl, rfl⟩

theorem peerWrite_answers {s : State} {i : Nat} {v : Sample} (h : i < s.par.outSize) :
    Answers s (peerWrite s i v) := by
  unfold peerWrite
  split
  · exact outsideWrite_answers h
  · exact .next (.refl s)

/-- A move of the surroundings that stays inside answers. -/
theorem outsideMove_answers {s : State} {e : Event} (h : e.inside s.par = true) : Answers s (outsideMove s e) := by
  cases e with
  | sequencer => exact .next (.refl s)
  | regRead width offset => exact hostReadReg_answers h
  | regWrite width offset v => exact hostWriteReg_answers h
  | inRead a => exact ⟨_, if_pos (of_decide_eq_true h), rfl, rfl⟩
  | inWrite a v => exact ⟨_, if_pos (of_decide_eq_true h), rfl, rfl⟩
  | outRead i => exact ⟨_, if_pos (of_decide_eq_true h), rfl, rfl⟩
  | outWrite i v => exact outsideWrite_answers (of_decide_eq_true h)
  | peerWrite i v => exact peerWrite_answers (of_decide_eq_true h)
  | outByteRead a => exact ⟨_, if_pos (of_decide_eq_true h), rfl, rfl⟩
  | outByteWrite a b => exact ⟨_, if_pos (of_decide_eq_true h), rfl, rfl⟩
  | resetInput => exact .next ⟨rfl, rfl⟩

/-! ## The step -/

theorem step_of_no_events {s : State} (h : s.events = []) : step s = runCommand s := by
  unfold step
  rw [h]

theorem step_of_sequencer {s : State} {rest : List Event} (h : s.events = .sequencer :: rest) :
    step s = runCommand { s with events := rest } := by
  unfold step
  rw [h]

theorem step_of_outside {s : State} {e : Event} {rest : List Event} (h : s.events = e :: rest)
    (he : e ≠ .sequencer) : step s = outsideMove { s with events := rest } e := by
  unfold step
  rw [h]
  cases e with
  | sequencer => exact absurd rfl he
  | _ => rfl

/-- Settles O60: the move the schedule gives, the sequencer's or one of the surroundings, answers a next state with the
rest of the schedule. -/
theorem safeMachineNeverStops : Obligations.SafeMachineNeverStops := by
  intro s hinv hinside
  cases hev : s.events with
  | nil =>
    rw [step_of_no_events hev]
    exact (runCommand_answers hinv).inside hinside
  | cons e rest =>
    have hinv' : ({ s with events := rest } : State).Inv := hinv.withEvents rest
    have hrest : ({ s with events := rest } : State).scheduleInside := fun x hx =>
      hinside x (hev ▸ List.mem_cons_of_mem e hx)
    by_cases he : e = .sequencer
    · rw [step_of_sequencer (he ▸ hev)]
      exact (runCommand_answers hinv').inside hrest
    · have hmove : e.inside s.par = true := hinside e (hev ▸ List.mem_cons_self)
      rw [step_of_outside hev he]
      exact (outsideMove_answers (s := { s with events := rest }) hmove).inside hrest

end Sys2Proof.Machine

/-! SUPPORT. Every update of the state a command or a move makes keeps the invariant, one rule per update (spec
10_state.md R36, R37, R39, R40, R42, R43, 60_exceptions.md R267). -/

namespace Sys2Proof.Machine

/-! ## Slots, contexts and memories -/

theorem State.Inv.setStream {s : State} {k : StreamIx} {v : StreamSlot} (h : s.Inv) (hv : v.legal s.par = true) :
    (s.setStream k v).Inv :=
  { h with
    streams := fun j => by
      by_cases hj : j = k
      · rw [hj, State.setStream_same]
        exact hv
      · rw [State.setStream_other s v hj]
        exact h.streams j }

theorem State.Inv.setPump {s : State} {p : PumpIx} {v : Pump} (h : s.Inv) (hv : v.legal s.par = true) :
    (s.setPump p v).Inv :=
  { h with
    pumps := fun j => by
      by_cases hj : j = p
      · rw [hj, State.setPump_same]
        exact hv
      · rw [State.setPump_other s v hj]
        exact h.pumps j }

theorem State.Inv.setTable {s : State} {t : TableIx} {v : HuffTable} (h : s.Inv) (hv : v.legal = true) :
    (s.setTable t v).Inv :=
  { h with
    tables := fun j => by
      by_cases hj : j = t
      · rw [hj, State.setTable_same]
        exact hv
      · rw [State.setTable_other s v hj]
        exact h.tables j }

theorem State.Inv.setRes {s : State} {v : Int} (h : s.Inv) : (s.setRes v).Inv := { h with }

theorem State.Inv.withFuji {s : State} {f : Fuji} (h : s.Inv) (hf : f.legal = true) :
    ({ s with fuji := f } : State).Inv := { h with fuji := hf }

theorem State.Inv.withSv0 {s : State} {v : Sv0} (h : s.Inv) (hv : v.legal s.par = true) :
    ({ s with sv0 := v } : State).Inv := { h with sv0 := hv }

theorem State.Inv.withOut {s : State} {m : OutMemory} (h : s.Inv) (hm : Machine.goodOut s.par.outSize m) :
    ({ s with outMem := m } : State).Inv := { h with outMem := hm.1, outSize := hm.2 }

/-! ## How a command ends -/

theorem State.Inv.complete {s : State} (h : s.Inv) : s.complete.Inv :=
  { h with status := rfl }

theorem State.Inv.enterError {s : State} {e : ErrInfo} (h : s.Inv) (he : e.code ≠ .none) : (s.enterError e).Inv :=
  { h with
    status := rfl
    errCode := iff_of_false (fun c => nomatch c) he }

theorem State.Inv.clearError {s : State} (h : s.Inv) : s.clearError.Inv := by
  unfold State.clearError
  split
  · refine { h with status := ?_, errCode := iff_of_true rfl rfl }
    have hstatus := h.status
    simp only [Status.legal, Bool.not_eq_true', Bool.and_eq_false_iff, Bool.or_eq_false_iff] at hstatus ⊢
    exact hstatus.imp_right fun hoff => ⟨hoff.1, trivial⟩
  · exact h

theorem State.Inv.spoilImage {s : State} (h : s.Inv) : s.spoilImage.Inv :=
  have hout := goodOut_settleRaced (draw := s.draws) s.outRaced h.outRaced
    (goodOut_spoilRegion (g := s.regs) (draw := s.draws) h.goodOut)
  { h with outMem := hout.1, outSize := hout.2, outRaced := fun _ hi => by cases hi }

theorem State.Inv.spoilMacro {s : State} (h : s.Inv) (p : PumpIx) : (s.spoilMacro p).Inv :=
  h.spoilImage.setPump (freePumpSlot_legal s.par s.draws)

theorem State.Inv.settleMacro {s : State} (h : s.Inv) : s.settleMacro.Inv :=
  have hout := goodOut_settleRaced (draw := s.draws) s.outRaced h.outRaced h.goodOut
  { h with outMem := hout.1, outSize := hout.2, outRaced := fun _ hi => by cases hi }

theorem State.Inv.raiseIllegal {s : State} (h : s.Inv) : s.raiseIllegal.Inv := by
  rw [State.raiseIllegal_eq]
  exact State.Inv.enterError { h with } nofun

/-- A primitive command keeps the invariant when its pseudocode does and names the code of every error. -/
theorem finishPrimitive_inv {codes : List ErrCode} {s t : State} {r : Eff State} (h : s.Inv)
    (hr : Eff.Can codes State.Inv r) (hc : .none ∉ codes) (ht : finishPrimitive s r = .next t) : t.Inv := by
  obtain ⟨u, rfl, rfl⟩ | ⟨e, rfl, rfl⟩ := finishPrimitive_next.mp ht
  · exact hr.complete
  · exact h.enterError fun hnone => hc (hnone ▸ hr)

/-- A decoding command keeps the invariant when its pseudocode does and names the code of every error. -/
theorem finishMacro_inv {codes : List ErrCode} {s t : State} {p : PumpIx} {r : Eff State} (h : s.Inv)
    (hr : Eff.Can codes State.Inv r) (hc : .none ∉ codes) (ht : finishMacro s p r = .next t) : t.Inv := by
  obtain ⟨u, rfl, rfl⟩ | ⟨e, rfl, rfl⟩ := finishMacro_next.mp ht
  · exact hr.settleMacro.complete
  · exact (h.spoilMacro p).enterError fun hnone => hc (hnone ▸ hr)

end Sys2Proof.Machine

/-! SUPPORT. Every command keeps the invariant: one lemma per piece of pseudocode, in the order of the model's files
(spec 41_bytestream.md, 42_bitpump.md, 43_huffman.md). -/

namespace Sys2Proof.Machine

/-! ## Byte streams (41_bytestream.md) -/

/-- A cursor moved within its window keeps the invariant (10_state.md R36). -/
theorem State.Inv.setPos {s : State} {k : StreamIx} {n : Nat} (h : s.Inv) (hv : s.streams[k].valid = true)
    (hn : s.streams[k].pos.toNat + n ≤ s.streams[k].size.toNat) :
    (s.setPos k (s.streams[k].pos.toNat + n)).Inv :=
  h.setStream (legal_with_pos hv (h.streams k) hn)

/-- SCHK gives the slot, valid and legal (41_bytestream.md R110). -/
theorem can_schk_slot {codes : List ErrCode} {s : State} {k : StreamIx} (hc : .state ∈ codes) (h : s.Inv) :
    Eff.Can codes (fun v => v = s.streams[k] ∧ v.valid = true ∧ v.off.toNat + v.size.toNat ≤ s.par.inSize ∧
      v.pos.toNat ≤ v.size.toNat) (schk s k) :=
  Eff.can_mono (can_schk hc) (fun _ hc => hc) fun _ ⟨hv, hvalid⟩ =>
    ⟨hv, hvalid, (StreamSlot.legal_iff hvalid).mp (hv ▸ h.streams k)⟩

theorem bsInit_inv {s : State} {k : StreamIx} {be : Bool} (h : s.Inv) :
    Eff.Can [.ioBounds] State.Inv (bsInit k be s) :=
  Eff.can_bind (can_require (by simp)) fun _ hwindow =>
    h.setStream (legal_freshStream h.par (of_decide_eq_true hwindow))

theorem streamGet_inv {s : State} {k : StreamIx} {n : Nat} (h : s.Inv) :
    Eff.Can [.state, .ioBounds] State.Inv (streamGet s k n) := by
  refine Eff.can_bind (can_schk (by simp)) fun v ⟨hv, hvalid⟩ => ?_
  subst hv
  exact Eff.can_bind (can_streamRead (by simp) hvalid (h.streams k)) fun _ ⟨_, hn⟩ => h.setRes.setPos hvalid hn

theorem streamPeek_inv {s : State} {k : StreamIx} {n : Nat} (h : s.Inv) :
    Eff.Can [.state, .ioBounds] State.Inv (streamPeek s k n) :=
  Eff.can_bind (can_schk_legal (by simp) h) fun _ ⟨hv, hl⟩ =>
    Eff.can_bind (can_streamRead (by simp) hv hl) fun _ _ => h.setRes

theorem bsSkip_inv {s : State} {k : StreamIx} (h : s.Inv) : Eff.Can [.state, .ioBounds] State.Inv (bsSkip k s) := by
  refine Eff.can_bind (can_schk (by simp)) fun v ⟨hv, hvalid⟩ => ?_
  subst hv
  exact Eff.can_bind (can_needRemaining (by simp)) fun _ hn => h.setPos hvalid hn

theorem bsGetStream_inv {s : State} {a b : StreamIx} (h : s.Inv) :
    Eff.Can [.state, .ioBounds] State.Inv (bsGetStream a b s) := by
  refine Eff.can_bind (can_schk_slot (by simp) h) fun v ⟨hv, hvalid, hwindow, _⟩ => ?_
  subst hv
  refine Eff.can_bind (can_needRemaining (by simp)) fun _ hn => ?_
  exact (h.setPos hvalid hn).setStream (legal_freshStream (par := s.par) h.par (by omega))

theorem bsGetSubstream_inv {s : State} {a b : StreamIx} (h : s.Inv) :
    Eff.Can [.state, .ioBounds] State.Inv (bsGetSubstream a b s) := by
  refine Eff.can_bind (can_schk_slot (by simp) h) fun v ⟨_, _, hwindow, _⟩ =>
    Eff.can_bind (can_require (by simp)) fun _ hn => ?_
  have hn : s.regs.arg0.toNat + s.regs.arg1.toNat ≤ v.size.toNat := of_decide_eq_true hn
  exact h.setStream (legal_freshStream h.par (by omega))

theorem bsHasPrefix_inv {s : State} {k : StreamIx} {n : BitVec 4} (h : s.Inv) :
    Eff.Can [.illegal, .state] State.Inv (bsHasPrefix k n s) :=
  Eff.can_bind (can_require (by simp)) fun _ _ => Eff.can_bind (can_schk_legal (by simp) h) fun _ ⟨hv, hl⟩ =>
    Eff.can_bind (can_prefixMatches hv hl) fun _ _ => h.setRes

theorem bsSkipPrefix_inv {s : State} {k : StreamIx} {n : BitVec 4} (h : s.Inv) :
    Eff.Can [.illegal, .state] State.Inv (bsSkipPrefix k n s) := by
  refine Eff.can_bind (can_require (by simp)) fun _ _ => Eff.can_bind (can_schk (by simp)) fun v ⟨hv, hvalid⟩ => ?_
  subst hv
  refine Eff.can_bind (can_prefixMatches hvalid (h.streams k)) fun hit hn => ?_
  cases hit
  · exact h.setRes
  · exact (h.setPos hvalid (hn rfl)).setRes

/-- A window moved back by its new cursor is legal (41_bytestream.md R126). -/
theorem legal_rebased {par : Params} {off size pos : Nat} {be : Bool} (hp : par.legal = true)
    (hwindow : off + size ≤ par.inSize) (hpos : pos ≤ size) (hsize : size ≤ 2 ^ 32 - 1) :
    ({ freshStream off size be with pos := BitVec.ofNat 32 pos } : StreamSlot).legal par = true := by
  have hfresh := (StreamSlot.legal_iff rfl).mp (legal_freshStream (be := be) hp hwindow)
  refine (StreamSlot.legal_iff rfl).mpr ⟨hfresh.1, ?_⟩
  show (BitVec.ofNat 32 pos).toNat ≤ (BitVec.ofNat 32 size).toNat
  rw [BitVec.toNat_ofNat, BitVec.toNat_ofNat, Nat.mod_eq_of_lt (by omega), Nat.mod_eq_of_lt (by omega)]
  exact hpos

theorem bsRebase_inv {s : State} {k : StreamIx} (h : s.Inv) :
    Eff.Can [.state, .ioBounds, .ioOverflow] State.Inv (bsRebase k s) := by
  refine Eff.can_bind (can_schk_slot (by simp) h) fun v ⟨_, _, hwindow, _⟩ =>
    Eff.can_bind (can_needRemaining (by simp)) fun _ hn => Eff.can_bind (can_require (by simp)) fun _ hback =>
    Eff.can_bind (can_require (by simp)) fun _ hsize => ?_
  have hback : s.regs.arg0.toNat ≤ v.off.toNat + v.pos.toNat := of_decide_eq_true hback
  exact h.setStream (legal_rebased h.par (by omega) (Nat.le_add_right _ _) (of_decide_eq_true hsize))

theorem bsCheck_inv {s : State} {k : StreamIx} (h : s.Inv) :
    Eff.Can [.state, .ioBounds, .ioOverflow] State.Inv (bsCheck k s) :=
  Eff.can_bind (can_schk (by simp)) fun _ _ => Eff.can_bind (can_require (by simp)) fun _ _ =>
    Eff.can_bind (can_needRemaining (by simp)) fun _ _ => h

/-! ## Bit pumps (42_bitpump.md) -/

/-- A pump of R37 and R39 stored in a slot keeps the invariant. -/
theorem State.Inv.setFits {s : State} {p : PumpIx} {q : Pump} (h : s.Inv) (hq : q.Fits s.par) :
    (s.setPump p q).Inv := h.setPump (Pump.fits_iff.mp hq).2.2

/-- The rest of a stream's window is a window of IN. -/
theorem restOfWindow_le {off size pos : Word} {n : Nat} (hwindow : off.toNat + size.toNat ≤ n)
    (hpos : pos.toNat ≤ size.toNat) : (off + pos).toNat + (size - pos).toNat ≤ n := by
  have hoff : (off + pos).toNat ≤ off.toNat + pos.toNat := by
    rw [BitVec.toNat_add]
    exact Nat.mod_le _ _
  have hsize : (size - pos).toNat = size.toNat - pos.toNat := BitVec.toNat_sub_of_le
    (by simpa [BitVec.le_def] using hpos)
  omega

theorem bpInit_inv {s : State} {p : PumpIx} {k : StreamIx} {mode : PumpMode} (h : s.Inv) :
    Eff.Can [.state] State.Inv (bpInit p k mode s) :=
  Eff.can_bind (can_schk_slot (by simp) h) fun _ ⟨_, _, hwindow, hpos⟩ =>
    h.setFits (freshPump_fits h.decided (restOfWindow_le hwindow hpos))

theorem bpFill_inv {s : State} {p : PumpIx} (h : s.Inv) : Eff.Can [.state] State.Inv (bpFill p s) :=
  Eff.can_bind (can_pchk_fits (by simp) h) fun _ ⟨_, hv⟩ => Eff.can_bind (can_fill hv) fun _ hq => h.setFits hq.1

theorem bpGetBits_inv {s : State} {p : PumpIx} {n : BitVec 6} (h : s.Inv) :
    Eff.Can [.illegal, .state, .ioBounds] State.Inv (bpGetBits p n s) :=
  Eff.can_bind (can_require (by simp)) fun _ _ => Eff.can_bind (can_pchk_fits (by simp) h) fun _ ⟨_, hv⟩ =>
    Eff.can_bind (can_pget (by simp) hv) fun _ ⟨_, hq, _⟩ => (h.setFits hq).setRes

theorem bpPeekBits_inv {s : State} {p : PumpIx} {n : BitVec 6} (h : s.Inv) :
    Eff.Can [.illegal, .state] State.Inv (bpPeekBits p n s) :=
  Eff.can_bind (can_require (by simp)) fun _ _ => Eff.can_bind (can_pchk_fits (by simp) h) fun _ ⟨_, hv⟩ =>
    Eff.can_bind (can_ppeek hv) fun _ ⟨_, hq, _⟩ => (h.setFits hq).setRes

theorem bpSkipBits_inv {s : State} {p : PumpIx} {n : BitVec 6} (h : s.Inv) :
    Eff.Can [.illegal, .state, .ioBounds] State.Inv (bpSkipBits p n s) :=
  Eff.can_bind (can_require (by simp)) fun _ _ => Eff.can_bind (can_pchk_fits (by simp) h) fun _ ⟨_, hv⟩ =>
    Eff.can_bind (can_pskip (by simp) hv) fun _ ⟨hq, _⟩ => h.setFits hq

/-! ## Huffman tables (43_huffman.md) -/

/-- The sizes of a table that has its counts (10_state.md R40). -/
theorem HuffTable.sizes_of_legal {t : HuffTable} (h : t.legal = true) (ht : t.state ≠ .empty) :
    1 ≤ countSum t.count ∧ countSum t.count ≤ 256 ∧ (t.state ≠ .counts → t.nvalues = countSum t.count) := by
  simp only [HuffTable.legal, Bool.and_eq_true, Bool.or_eq_true, decide_eq_true_eq] at h
  obtain ⟨⟨⟨-, hcount⟩, hvalues⟩, -⟩ := h
  obtain ⟨hlow, hhigh⟩ := hcount.resolve_left ht
  exact ⟨hlow, hhigh, fun hc => hvalues.resolve_left fun he => he.elim ht hc⟩

/-- A table that is not READY is legal by its sizes alone (10_state.md R40). -/
theorem HuffTable.legal_of_sizes {t : HuffTable} (hn : t.nvalues ≤ 256) (hlow : 1 ≤ countSum t.count)
    (hhigh : countSum t.count ≤ 256) (hvalues : t.state = .counts ∨ t.nvalues = countSum t.count)
    (hready : t.state ≠ .ready) : t.legal = true := by
  simp only [HuffTable.legal, Bool.and_eq_true, Bool.or_eq_true, decide_eq_true_eq, Bool.not_eq_true',
    decide_eq_false_iff_not]
  exact ⟨⟨⟨hn, .inr ⟨hlow, hhigh⟩⟩, hvalues.imp .inr id⟩, .inl hready⟩

theorem HuffTable.reset_legal : HuffTable.reset.legal = true := by
  simp [HuffTable.legal, HuffTable.reset]

theorem htSetCounts_inv {s : State} {t : TableIx} (h : s.Inv) :
    Eff.Can [.state, .corrupt] State.Inv (htSetCounts t s) := by
  unfold htSetCounts
  dsimp only
  refine Eff.can_bind (can_require (by simp)) fun _ _ => ?_
  -- The sum is not to be computed here.
  generalize hsum : countSum s.regs.codeCounts = sum
  refine Eff.can_bind (can_require (by simp)) fun _ hrange => ?_
  obtain ⟨hlow, hhigh⟩ := of_decide_eq_true hrange
  have hmax : s.par.htMaxValues = 256 := by
    obtain ⟨-, -, -, -, -, -, -, hmax, -⟩ := Params.decided_iff.mp h.decided
    exact hmax
  refine h.setTable (HuffTable.legal_of_sizes (Nat.zero_le _) ?_ ?_ (.inl rfl) nofun)
  · show 1 ≤ countSum s.regs.codeCounts
    omega
  · show countSum s.regs.codeCounts ≤ 256
    omega

theorem htSetValues_inv {s : State} {t : TableIx} {k : StreamIx} {n : BitVec 9} (h : s.Inv) :
    Eff.Can [.illegal, .state, .ioBounds, .corrupt] State.Inv (htSetValues t k n s) := by
  refine Eff.can_bind (can_require (by simp)) fun _ _ => Eff.can_bind (can_require (by simp)) fun _ hcounts =>
    Eff.can_bind (can_schk_slot (by simp) h) fun v ⟨hv, hvalid, hwindow, _⟩ =>
    Eff.can_bind (can_require (by simp)) fun _ hsum => Eff.can_bind (can_needRemaining (by simp)) fun _ hn => ?_
  subst hv
  have hcounts : s.tables[t].state = .counts := of_decide_eq_true hcounts
  have hsum : n.toNat = countSum s.tables[t].count := of_decide_eq_true hsum
  obtain ⟨hlow, hhigh, -⟩ := HuffTable.sizes_of_legal (h.tables t) (by rw [hcounts]; nofun)
  refine Eff.can_bind (can_windowBytes (by omega)) fun l _ => ?_
  have hfilled : ({ s.tables[t] with values := padValues l, nvalues := n.toNat, state := .values } : HuffTable).legal =
      true := HuffTable.legal_of_sizes (hsum.trans_le hhigh) hlow hhigh (.inr hsum) nofun
  exact (h.setTable hfilled).setPos hvalid hn

theorem htSetup_inv {s : State} {t : TableIx} {d : Bool} (h : s.Inv) :
    Eff.Can [.state, .corrupt] State.Inv (htSetup t d s) := by
  refine Eff.can_bind (can_require (by simp)) fun _ hvalues => ?_
  have hvalues : s.tables[t].state = .values := of_decide_eq_true hvalues
  obtain ⟨hlow, hhigh, hn⟩ := HuffTable.sizes_of_legal (h.tables t) (by rw [hvalues]; nofun)
  exact Eff.can_bind (can_canon h.decided (by simp)) fun _ hc =>
    h.setTable (hc.legal d hlow hhigh (hn (by rw [hvalues]; nofun)))

theorem htDecodeSym_inv {s : State} {t : TableIx} {p : PumpIx} (h : s.Inv) :
    Eff.Can [.state, .ioBounds, .corrupt] State.Inv (htDecodeSym t p s) :=
  Eff.can_bind (can_tchk (by simp)) fun _ _ => Eff.can_bind (can_pchk_fits (by simp) h) fun _ ⟨_, hv⟩ =>
    Eff.can_bind (can_hsym (by simp) (by simp) hv) fun _ ⟨_, hq, _⟩ => (h.setFits hq).setRes

theorem htDecodeDiff_inv {s : State} {t : TableIx} {p : PumpIx} (h : s.Inv) :
    Eff.Can [.state, .ioBounds, .corrupt] State.Inv (htDecodeDiff t p s) :=
  Eff.can_bind (can_tchk (by simp)) fun _ _ => Eff.can_bind (can_pchk_fits (by simp) h) fun _ ⟨_, hv⟩ =>
    Eff.can_bind (can_hdiff (by simp) (by simp) hv) fun _ ⟨hq, _⟩ => (h.setFits hq).setRes

/-- A load keeps the invariant when its counts are those of its values (43_huffman.md R168, R169). -/
theorem loadTable_inv {codes : List ErrCode} {s : State} {t : TableIx} {c : Vector Byte Config.htMaxLen}
    {values : List Byte} (hc : .corrupt ∈ codes) (h : s.Inv) (hlow : 1 ≤ values.length) (hhigh : values.length ≤ 256)
    (hsum : countSum c = values.length) :
    Eff.Can codes (fun u => u.Inv ∧ u.streams = s.streams) (loadTable t c values s) :=
  Eff.can_bind (can_canon h.decided hc) fun x hx =>
    ⟨h.setTable (hx.legal x.dng16 (hsum ▸ hlow) (hsum ▸ hhigh) hsum.symm), rfl⟩

/-- Each entry of a length 1..16 is counted at its length (43_huffman.md R169). -/
theorem countSum_pentaxCounts (l : List PentaxEntry) (hlen : l.length < 256) (h : ∀ e ∈ l, 1 ≤ e.len ∧ e.len ≤ 16) :
    countSum (pentaxCounts l) = l.length := by
  have hsum : ∀ r : List PentaxEntry, (∀ e ∈ r, 1 ≤ e.len ∧ e.len ≤ 16) →
      ∑ i : Fin 16, (r.filter (fun e => decide (e.len = i.val + 1))).length = r.length := by
    intro r hr
    induction r with
    | nil => simp
    | cons e r ih =>
      obtain ⟨h1, h16⟩ := hr e List.mem_cons_self
      have hone : ∑ i : Fin 16, (if e.len = i.val + 1 then 1 else 0) = 1 := by
        rw [Finset.sum_eq_single_of_mem (⟨e.len - 1, by omega⟩ : Fin 16) (Finset.mem_univ _)]
        · exact if_pos (by simp; omega)
        · intro i _ hi
          exact if_neg fun he => hi (Fin.ext (by simp [he]))
      have hcons : ∀ i : Fin 16, ((e :: r).filter (fun e => decide (e.len = i.val + 1))).length =
          (if e.len = i.val + 1 then 1 else 0) + (r.filter (fun e => decide (e.len = i.val + 1))).length := by
        intro i
        by_cases he : e.len = i.val + 1
        · simp [he, Nat.add_comm]
        · simp [he]
      rw [Finset.sum_congr rfl fun i _ => hcons i, Finset.sum_add_distrib, hone,
        ih fun x hx => hr x (List.mem_cons_of_mem _ hx), List.length_cons, Nat.add_comm]
  have hsmall : ∀ i : Fin 16, (l.filter (fun e => decide (e.len = i.val + 1))).length % 2 ^ 8 =
      (l.filter (fun e => decide (e.len = i.val + 1))).length :=
    fun i => Nat.mod_eq_of_lt (lt_of_le_of_lt (List.length_filter_le _ _) hlen)
  rw [← hsum l h]
  simp only [countSum, pentaxCounts, Vector.toList_ofFn, List.map_ofFn, List.sum_ofFn, Function.comp_def,
    BitVec.toNat_ofNat, hsmall]

theorem sortByPrefix_length (l : List PentaxEntry) : (sortByPrefix l).length = l.length := by
  have hinsert : ∀ (e : PentaxEntry) (r : List PentaxEntry), (insertByPrefix e r).length = r.length + 1 := by
    intro e r
    induction r with
    | nil => rfl
    | cons f r ih =>
      unfold insertByPrefix
      split
      · rfl
      · rw [List.length_cons, ih, List.length_cons]
  induction l with
  | nil => rfl
  | cons e l ih => rw [sortByPrefix, List.foldr_cons, hinsert, ← sortByPrefix, ih, List.length_cons]

/-- The entries are as many as the codes, their lengths in 1..12 (43_huffman.md R169). -/
theorem pentaxEntries_ok {s : State} {v : StreamSlot} (l : List Nat) {at_ i : Nat} {r : List PentaxEntry}
    (hr : pentaxEntries s v at_ i l = .ok r) : r.length = l.length ∧ ∀ e ∈ r, 1 ≤ e.len ∧ e.len ≤ 16 := by
  induction l generalizing at_ i r with
  | nil => cases hr; exact ⟨rfl, nofun⟩
  | cons code rest ih =>
    simp only [pentaxEntries, Eff.bind_ok, require_ok, decide_eq_true_eq] at hr
    obtain ⟨len, -, -, ⟨hlow, hhigh⟩, r', hr', hcons⟩ := hr
    obtain ⟨hlength, hmem⟩ := ih hr'
    cases hcons
    refine ⟨congrArg (· + 1) hlength, fun e he => ?_⟩
    rcases List.mem_cons.mp he with rfl | he
    · exact ⟨hlow, le_trans hhigh (by norm_num)⟩
    · exact hmem e he

/-- Knowing what a piece of pseudocode answers when it does. -/
theorem Eff.Can.and_ok {α : Type} {codes : List ErrCode} {post : α → Prop} {x : Eff α} (h : Eff.Can codes post x) :
    Eff.Can codes (fun a => post a ∧ x = .ok a) x := by
  match x, h with
  | .ok _, h => exact ⟨h, rfl⟩
  | .error (.raised _), h => exact h

theorem htLoadPentax_inv {s : State} {t : TableIx} {k : StreamIx} (h : s.Inv) :
    Eff.Can [.state, .ioBounds, .corrupt] State.Inv (htLoadPentax t k s) := by
  refine Eff.can_bind (can_schk_slot (by simp) h) fun v ⟨hv, hvalid, hwindow, _⟩ => ?_
  refine Eff.can_bind (can_require (by simp)) fun _ hhead => ?_
  have hhead : v.pos.toNat + 2 ≤ v.size.toNat := of_decide_eq_true hhead
  refine Eff.can_bind (can_windowValue (by omega)) fun depth _ => Eff.can_bind (can_require (by simp)) fun _ hdepth =>
    Eff.can_bind (can_require (by simp)) fun _ hall => ?_
  obtain ⟨hlow, hhigh⟩ := of_decide_eq_true hdepth
  have hall : v.pos.toNat + 2 + 3 * depth ≤ v.size.toNat := of_decide_eq_true hall
  refine Eff.can_bind (can_pentaxCodes depth (by omega)) fun codes hlen =>
    Eff.can_bind (can_pentaxEntries (by simp) codes (by omega)).and_ok fun entries ⟨_, hentries⟩ => ?_
  obtain ⟨hlength, hlens⟩ := pentaxEntries_ok codes hentries
  split
  · exact Eff.can_raise (by simp)
  · have hvalues : ((sortByPrefix entries).map (fun e => BitVec.ofNat 8 e.ix)).length = depth := by
      rw [List.length_map, sortByPrefix_length, hlength, hlen]
    have hsum := countSum_pentaxCounts entries (by omega) hlens
    refine Eff.can_bind (loadTable_inv (by simp) h (by omega) (by omega) (by omega)) fun u ⟨hu, hstreams⟩ => ?_
    subst hv
    have hpos := hu.setPos (k := k) (n := 2 + 3 * depth) (by rw [hstreams]; exact hvalid) (by rw [hstreams]; omega)
    rw [hstreams, ← Nat.add_assoc] at hpos
    exact hpos

theorem htLoadPentaxLegacy_inv {s : State} {t : TableIx} (h : s.Inv) :
    Eff.Can [.corrupt] State.Inv (loadTable t pentaxLegacyCounts pentaxLegacyValues s) :=
  Eff.can_mono (loadTable_inv (by simp) h (by decide) (by decide) (by decide)) (fun _ hc => hc) fun _ hu => hu.1

end Sys2Proof.Machine

/-! SUPPORT. The decoding and Fuji commands keep the invariant, and so do every command and every move of the
surroundings (spec 44_ljpeg.md, 45_pentax.md, 46_samsung.md, 47_fuji.md, 70_reset_and_hazards.md R290). -/

namespace Sys2Proof.Machine

/-! ## Image decoders (44_ljpeg.md, 45_pentax.md, 46_samsung.md) -/

/-- What a decoding command stores when it completes, its pump and its image, keeps the invariant. -/
theorem State.Inv.decoded {s : State} {p : PumpIx} {q : Pump} {m : OutMemory} (h : s.Inv)
    (hq : q.legal s.par = true) (hm : Machine.goodOut s.par.outSize m) :
    ({ s.setPump p q with outMem := m } : State).Inv := (h.setPump hq).withOut hm

theorem Pump.Fits.legal {par : Params} {q : Pump} (h : q.Fits par) : q.legal par = true := (Pump.fits_iff.mp h).2.2

theorem ljDecode_inv {s : State} {p : PumpIx} (h : s.Inv) :
    Eff.Can [.state, .ioBounds, .corrupt, .unsupported] State.Inv (ljDecode p s) := by
  refine Eff.can_bind (can_pchk_fits (by simp) h) fun v ⟨hv, hfits⟩ =>
    Eff.can_bind can_ljCheck fun tabs ⟨himage, hplace⟩ => ?_
  have hstart : LjKeeps s p ⟨v, s.outMem, s.regs.ljPreds, s.regs.ljPreds, 0⟩ :=
    ⟨hfits, hv ▸ .refl v, h.goodOut⟩
  exact Eff.can_bind (can_forUp (fun _ => LjKeeps s p) _ 0 _ hstart fun r _ _ hr hx =>
    Eff.can_mono (can_ljRow himage hplace (by omega) hx) (by simp) fun _ hy => hy)
    fun _ ⟨hq, _, hout⟩ => h.decoded hq.legal hout

theorem pxDecode_inv {s : State} {p : PumpIx} {t : TableIx} (h : s.Inv) :
    Eff.Can [.state, .ioBounds, .corrupt] State.Inv (pxDecode p t s) := by
  refine Eff.can_bind (can_pchk_fits (by simp) h) fun v ⟨hv, hfits⟩ => Eff.can_bind (can_tchk (by simp)) fun _ _ =>
    Eff.can_bind (can_pxCheck (by simp) (by simp)) fun _ ⟨himage, hw⟩ => ?_
  have hstart : PxKeeps s p ⟨v, s.outMem, [0, 0], [0, 0], 0, 0⟩ := ⟨hfits, hv ▸ .refl v, h.goodOut⟩
  exact Eff.can_bind (can_forUp (fun _ => PxKeeps s p) _ 0 _ hstart fun r _ _ hr hx =>
    Eff.can_mono (can_pxRow himage hw (by omega) hx) (by simp) fun _ hy => hy)
    fun _ ⟨hq, _, hout⟩ => h.decoded hq.legal hout

theorem stripeOffsets_length {s : State} {v : StreamSlot} (n : Nat) {at_ : Nat} {l : List Nat}
    (h : stripeOffsets s v at_ n = .ok l) : l.length = n := by
  induction n generalizing at_ l with
  | zero => cases h; rfl
  | succ n ih =>
    simp only [stripeOffsets, Eff.bind_ok] at h
    obtain ⟨o, -, r, hr, hcons⟩ := h
    cases hcons
    rw [List.length_cons, ih hr]

/-- Increasing offsets below the sentinel give a non-empty window of the raw stream for each (46_samsung.md R210). -/
theorem stripesFrom_ok {par : Params} {rawOff sentinel : Nat} (hin : rawOff + sentinel ≤ par.inSize)
    (hsize : par.inSize ≤ 2 ^ 32) (hsentinel : sentinel < 2 ^ 32) (l : List Nat) {r : Nat} {stripes : List Stripe}
    (h : stripesFrom rawOff sentinel r l = .ok stripes) :
    stripes.length = l.length ∧ l.headD sentinel ≤ sentinel ∧ stripes.all (Stripe.inside par) = true := by
  induction l generalizing r stripes with
  | nil => cases h; exact ⟨rfl, le_rfl, rfl⟩
  | cons o rest ih =>
    simp only [stripesFrom, Eff.bind_ok, require_ok, decide_eq_true_eq] at h
    obtain ⟨-, hlt, stripes', hrest, hcons⟩ := h
    obtain ⟨hlength, hhead, hall⟩ := ih hrest
    cases hcons
    refine ⟨congrArg (· + 1) hlength, (le_of_lt hlt).trans hhead, ?_⟩
    rw [List.all_cons, hall, Bool.and_true]
    refine decide_eq_true ?_
    rw [BitVec.toNat_ofNat, BitVec.toNat_ofNat, Nat.mod_eq_of_lt (by omega), Nat.mod_eq_of_lt (by omega)]
    omega

theorem sv0Stripes_inv {s : State} {a b : StreamIx} (h : s.Inv) :
    Eff.Can [.state, .ioBounds, .corrupt, .unsupported] State.Inv (sv0Stripes a b s) := by
  refine Eff.can_bind (can_schk_slot (by simp) h) fun offs ⟨hv, hvalid, hoffs, _⟩ =>
    Eff.can_bind (can_schk_slot (by simp) h) fun raw ⟨_, _, hraw, _⟩ => Eff.can_bind (can_require (by simp)) fun _ _ =>
    Eff.can_bind (can_require (by simp)) fun _ hrows => Eff.can_bind (can_require (by simp)) fun _ hn => ?_
  have hn : offs.pos.toNat + 4 * s.regs.imgH.toNat ≤ offs.size.toNat := of_decide_eq_true hn
  refine Eff.can_bind (can_stripeOffsets _ (by omega)).and_ok fun os ⟨_, hos⟩ =>
    Eff.can_bind (can_stripesFrom (by simp) os).and_ok fun l ⟨_, hl⟩ => ?_
  have hsize : s.par.inSize ≤ 2 ^ 32 := (Params.legal_iff.mp h.par).1.2.1
  obtain ⟨hlength, -, hall⟩ := stripesFrom_ok hraw hsize raw.size.isLt os hl
  have hlegal : (⟨true, l, []⟩ : Sv0).legal s.par = true := by
    refine Bool.and_eq_true_iff.mpr ⟨decide_eq_true ?_, hall⟩
    rw [Sv0.rows, hlength, stripeOffsets_length _ hos]
    exact of_decide_eq_true hrows
  subst hv
  exact (h.setPos hvalid hn).withSv0 hlegal

theorem sv0Decode_inv {s : State} {p : PumpIx} {mode : PumpMode} (h : s.Inv) :
    Eff.Can [.state, .ioBounds, .corrupt] State.Inv (sv0Decode p mode s) := by
  refine Eff.can_bind (can_require (by simp)) fun _ _ => Eff.can_bind (can_require (by simp)) fun _ hrows =>
    Eff.can_bind (can_imgChk (by simp) (by simp)) fun _ himage => ?_
  have hrows : s.sv0.stripes.length = s.regs.imgH.toNat := of_decide_eq_true hrows
  refine Eff.can_bind (can_forUp (fun _ x => x.1.legal s.par = true ∧ goodOut s.par.outSize x.2) _ 0 _
    ⟨h.pumps p, h.goodOut⟩ fun r _ _ hr hx =>
    Eff.can_mono (can_svRow himage h.decided (by omega) (h.stripe_inside (by omega)) hx.2) (by simp)
      fun _ hy => ⟨hy.1.legal, hy.2⟩) fun x ⟨hq, hout⟩ => ?_
  exact Eff.can_bind (can_svFixup himage hout) fun _ hm => (h.decoded hq hm).withSv0 (v := ⟨false, _, _⟩) h.sv0

/-! ## Fuji (47_fuji.md) -/

theorem GradArray.countsLegal_iff {a : GradArray} :
    a.countsLegal = true ↔ ∀ (j : GradSet) (g : Fin 41), 1 ≤ (a.pair j g).v2 ∧ (a.pair j g).v2 ≤ 64 := by
  constructor
  · intro h j g
    have hrow := List.all_eq_true.mp h a[j] (by simp)
    exact of_decide_eq_true (List.all_eq_true.mp hrow a[j][g] (by simp))
  · intro h
    refine List.all_eq_true.mpr fun row hrow => List.all_eq_true.mpr fun g hg => decide_eq_true ?_
    obtain ⟨j, hj, rfl⟩ := Vector.mem_iff_getElem.mp (Vector.mem_toList_iff.mp hrow)
    obtain ⟨i, hi, rfl⟩ := Vector.mem_iff_getElem.mp (Vector.mem_toList_iff.mp hg)
    exact h ⟨j, hj⟩ ⟨i, hi⟩

/-- A context whose pairs all stand at a count of 1 has legal counts (47_fuji.md R230, R232). -/
theorem GradArray.filled_countsLegal (v : Nat) : (GradArray.filled ⟨v, 1⟩).countsLegal = true := by
  refine GradArray.countsLegal_iff.mpr fun j g => ?_
  simp [GradArray.pair, GradArray.filled]

theorem GradArray.setPair_countsLegal {a : GradArray} {j : GradSet} {g : Fin 41} {v : GradPair}
    (h : a.countsLegal = true) (hv : 1 ≤ v.v2 ∧ v.v2 ≤ 64) : (a.setPair j g v).countsLegal = true := by
  refine GradArray.countsLegal_iff.mpr fun j' g' => ?_
  have hold := GradArray.countsLegal_iff.mp h j' g'
  simp only [GradArray.pair, GradArray.setPair, Fin.getElem_fin, Vector.getElem_set] at hold ⊢
  by_cases hj : j.val = j'.val
  · simp only [hj, if_true, Vector.getElem_set]
    split
    · exact hv
    · exact hold
  · simpa only [hj, if_false] using hold

/-- The facts of a valid Fuji context: FJ_INIT set it up, and its counts are legal (10_state.md R43). -/
theorem Fuji.legal_iff {f : Fuji} (hf : f.valid = true) :
    f.legal = true ↔ ((f.sameSetup fuji14 || f.sameSetup fuji12) = true ∧ f.ge.countsLegal = true) ∧
      f.go.countsLegal = true := by
  simp only [Fuji.legal, hf, Bool.not_true, Bool.false_or, Bool.and_eq_true]

theorem Fuji.minValue_of_legal {f : Fuji} (hf : f.valid = true) (h : f.legal = true) : f.minValue = 64 := by
  obtain ⟨⟨hsetup, -⟩, -⟩ := (Fuji.legal_iff hf).mp h
  rcases Bool.or_eq_true_iff.mp hsetup with hs | hs
  · exact (of_decide_eq_true hs).2.2.2.2.2
  · exact (of_decide_eq_true hs).2.2.2.2.2

/-- New pairs of legal counts keep a context legal: FJ_INIT's numbers stand (10_state.md R43). -/
theorem Fuji.legal_withPairs {f : Fuji} {ge go : GradArray} {errcnt : Word} (hf : f.valid = true)
    (h : f.legal = true) (hge : ge.countsLegal = true) (hgo : go.countsLegal = true) :
    ({ f with ge := ge, go := go, errcnt := errcnt } : Fuji).legal = true :=
  have ⟨⟨hsetup, _⟩, _⟩ := (Fuji.legal_iff hf).mp h
  (Fuji.legal_iff (f := { f with ge := ge, go := go, errcnt := errcnt }) hf).mpr ⟨⟨hsetup, hge⟩, hgo⟩

theorem fjInit_inv {s : State} {rb : BitVec 5} (h : s.Inv) : Eff.Can [.corrupt] State.Inv (fjInit rb s) := by
  have hcounts := GradArray.filled_countsLegal
  unfold fjInit
  split
  · exact h.withFuji ((Fuji.legal_iff rfl).mpr ⟨⟨rfl, hcounts _⟩, hcounts _⟩)
  split
  · exact h.withFuji ((Fuji.legal_iff rfl).mpr ⟨⟨rfl, hcounts _⟩, hcounts _⟩)
  · exact Eff.can_raise (by simp)

theorem fjGradReset_inv {s : State} (h : s.Inv) : Eff.Can [.state] State.Inv (fjGradReset s) :=
  have hcounts := GradArray.filled_countsLegal s.fuji.maxDiff
  Eff.can_bind (can_require (by simp)) fun _ hvalid =>
    h.withFuji (Fuji.legal_withPairs hvalid h.fuji hcounts hcounts)

/-- FJCODE's pair keeps v2 in 1..64 (47_fuji.md R235). -/
theorem fjCode_pair_range {s : State} {pair : GradPair} {code : Int} (h : s.Inv) (hvalid : s.fuji.valid = true)
    (hpair : 1 ≤ pair.v2 ∧ pair.v2 ≤ 64) :
    1 ≤ (pair.update s.fuji.minValue code).v2 ∧ (pair.update s.fuji.minValue code).v2 ≤ 64 := by
  rw [Fuji.minValue_of_legal hvalid h.fuji]
  exact GradPair.update_range hpair

theorem fjSampleEven_inv {s : State} {p : PumpIx} {j : GradSet} (h : s.Inv) :
    Eff.Can [.state, .ioBounds, .corrupt] State.Inv (fjSampleEven p j s) := by
  refine Eff.can_bind (can_require (by simp)) fun _ hvalid => Eff.can_bind (can_pchk_fits (by simp) h) fun _ ⟨_, hv⟩ =>
    Eff.can_bind (can_neighbourCheck (by simp) _) fun _ _ =>
    Eff.can_bind (Eff.can_mono (can_fjCode hv) (by simp) fun _ hx => hx) fun x ⟨hq, _, hx⟩ => ?_
  obtain ⟨⟨-, hge⟩, hgo⟩ := (Fuji.legal_iff hvalid).mp h.fuji
  have hpair := fjCode_pair_range (code := x.code) h hvalid
    (GradArray.countsLegal_iff.mp hge j (gradIndex (evenGradient s.fuji s.regs)))
  rw [← hx] at hpair
  exact (h.setFits hq).setRes.withFuji
    (Fuji.legal_withPairs hvalid h.fuji (GradArray.setPair_countsLegal hge hpair) hgo)

theorem fjSampleOdd_inv {s : State} {p : PumpIx} {j : GradSet} (h : s.Inv) :
    Eff.Can [.state, .ioBounds, .corrupt] State.Inv (fjSampleOdd p j s) := by
  refine Eff.can_bind (can_require (by simp)) fun _ hvalid => Eff.can_bind (can_pchk_fits (by simp) h) fun _ ⟨_, hv⟩ =>
    Eff.can_bind (can_neighbourCheck (by simp) _) fun _ _ =>
    Eff.can_bind (Eff.can_mono (can_fjCode hv) (by simp) fun _ hx => hx) fun x ⟨hq, _, hx⟩ => ?_
  obtain ⟨⟨-, hge⟩, hgo⟩ := (Fuji.legal_iff hvalid).mp h.fuji
  have hpair := fjCode_pair_range (code := x.code) h hvalid
    (GradArray.countsLegal_iff.mp hgo j (gradIndex (oddGradient s.fuji s.regs)))
  rw [← hx] at hpair
  exact (h.setFits hq).setRes.withFuji
    (Fuji.legal_withPairs hvalid h.fuji hge (GradArray.setPair_countsLegal hgo hpair))

theorem fjEndStrip_inv {s : State} (h : s.Inv) : Eff.Can [.state, .corrupt] State.Inv (fjEndStrip s) :=
  Eff.can_bind (can_require (by simp)) fun _ _ => Eff.can_bind (can_require (by simp)) fun _ _ => h

theorem fjStripWidth_inv {s : State} {i : BitVec 16} (h : s.Inv) :
    Eff.Can [.corrupt] State.Inv (fjStripWidth i s) :=
  Eff.can_bind can_stripCheck fun _ _ => h.setRes

theorem fjStripOffset_inv {s : State} {i : BitVec 16} (h : s.Inv) :
    Eff.Can [.corrupt] State.Inv (fjStripOffset i s) :=
  Eff.can_bind can_stripCheck fun _ _ => h.setRes

/-! ## The sequencer -/

/-- Every command keeps the invariant, whether it completes or raises. -/
theorem exec_inv {s t : State} {i : Instr} (h : s.Inv) (ht : exec i s = .next t) : t.Inv := by
  cases i with
  | nop => exact finishPrimitive_inv (codes := []) (r := .ok s) h h nofun ht
  | bsInit k be => exact finishPrimitive_inv h (bsInit_inv h) (by decide) ht
  | bsGetU8 k => exact finishPrimitive_inv h (streamGet_inv h) (by decide) ht
  | bsGetU16 k => exact finishPrimitive_inv h (streamGet_inv h) (by decide) ht
  | bsGetU32 k => exact finishPrimitive_inv h (streamGet_inv h) (by decide) ht
  | bsGetI32 k => exact finishPrimitive_inv h (streamGet_inv h) (by decide) ht
  | bsGetF32 k => exact finishPrimitive_inv h (streamGet_inv h) (by decide) ht
  | bsPeekU8 k => exact finishPrimitive_inv h (streamPeek_inv h) (by decide) ht
  | bsPeekU16 k => exact finishPrimitive_inv h (streamPeek_inv h) (by decide) ht
  | bsPeekU32 k => exact finishPrimitive_inv h (streamPeek_inv h) (by decide) ht
  | bsSkip k => exact finishPrimitive_inv h (bsSkip_inv h) (by decide) ht
  | bsGetStream src dst => exact finishPrimitive_inv h (bsGetStream_inv h) (by decide) ht
  | bsGetSubstream src dst => exact finishPrimitive_inv h (bsGetSubstream_inv h) (by decide) ht
  | bsHasPrefix k n => exact finishPrimitive_inv h (bsHasPrefix_inv h) (by decide) ht
  | bsSkipPrefix k n => exact finishPrimitive_inv h (bsSkipPrefix_inv h) (by decide) ht
  | bsRebase k => exact finishPrimitive_inv h (bsRebase_inv h) (by decide) ht
  | bsCheck k => exact finishPrimitive_inv h (bsCheck_inv h) (by decide) ht
  | bpInit p k mode => exact finishPrimitive_inv h (bpInit_inv h) (by decide) ht
  | bpFill p => exact finishPrimitive_inv h (bpFill_inv h) (by decide) ht
  | bpGetBits p n => exact finishPrimitive_inv h (bpGetBits_inv h) (by decide) ht
  | bpPeekBits p n => exact finishPrimitive_inv h (bpPeekBits_inv h) (by decide) ht
  | bpSkipBits p n => exact finishPrimitive_inv h (bpSkipBits_inv h) (by decide) ht
  | htReset t =>
    exact finishPrimitive_inv (codes := []) (r := .ok (s.setTable t .reset)) h (h.setTable HuffTable.reset_legal)
      nofun ht
  | htSetCounts t => exact finishPrimitive_inv h (htSetCounts_inv h) (by decide) ht
  | htSetValues t k n => exact finishPrimitive_inv h (htSetValues_inv h) (by decide) ht
  | htSetup t dng16 => exact finishPrimitive_inv h (htSetup_inv h) (by decide) ht
  | htDecodeSym t p => exact finishPrimitive_inv h (htDecodeSym_inv h) (by decide) ht
  | htDecodeDiff t p => exact finishPrimitive_inv h (htDecodeDiff_inv h) (by decide) ht
  | htLoadPentaxLegacy t => exact finishPrimitive_inv h (htLoadPentaxLegacy_inv h) (by decide) ht
  | htLoadPentax t k => exact finishPrimitive_inv h (htLoadPentax_inv h) (by decide) ht
  | ljDecode p => exact finishMacro_inv h (ljDecode_inv h) (by decide) ht
  | pxDecode p t => exact finishMacro_inv h (pxDecode_inv h) (by decide) ht
  | sv0Stripes offs raw => exact finishPrimitive_inv h.clearReady (sv0Stripes_inv h.clearReady) (by decide) ht
  | sv0Decode p mode => exact finishMacro_inv h.clearReady (sv0Decode_inv h) (by decide) ht
  | fjInit rb => exact finishPrimitive_inv h (fjInit_inv h) (by decide) ht
  | fjGradReset => exact finishPrimitive_inv h (fjGradReset_inv h) (by decide) ht
  | fjSampleEven p j => exact finishPrimitive_inv h (fjSampleEven_inv h) (by decide) ht
  | fjSampleOdd p j => exact finishPrimitive_inv h (fjSampleOdd_inv h) (by decide) ht
  | fjEndStrip => exact finishPrimitive_inv h (fjEndStrip_inv h) (by decide) ht
  | fjStripWidth strip => exact finishPrimitive_inv h (fjStripWidth_inv h) (by decide) ht
  | fjStripOffset strip => exact finishPrimitive_inv h (fjStripOffset_inv h) (by decide) ht

/-- Answering a state answers only that state. -/
theorem next_inj {u t : State} (h : (.next u : Host.Outcome State Fault Refusal) = .next t) : u = t := by
  cases h
  rfl

theorem runCommand_inv {s t : State} (h : s.Inv) (ht : runCommand s = .next t) : t.Inv := by
  unfold runCommand at ht
  split at ht
  · split at ht
    · exact exec_inv h ht
    · exact next_inj ht ▸ h.raiseIllegal
  · exact next_inj ht ▸ h

/-! ## The surroundings -/

/-- Reset gives every slot and register a legal value, and leaves OUT in canonical form (70_reset_and_hazards.md R290). -/
theorem State.Inv.resetBlock {s : State} (h : s.Inv) : s.resetBlock.Inv where
  par := h.par
  status := rfl
  errCode := iff_of_true rfl rfl
  regs := by
    show HostRegs.reset.reservedZero = true
    decide
  streams := fun k => by
    show (State.reset.streams[k]).legal s.par = true
    simp [State.reset, StreamSlot.legal, StreamSlot.reset]
  pumps := fun p => by
    show (State.reset.pumps[p]).legal s.par = true
    simp [State.reset, Pump.legal, Pump.reset]
  tables := fun t => by
    show (State.reset.tables[t]).legal = true
    simp only [State.reset, Fin.getElem_fin, Vector.getElem_replicate]
    exact HuffTable.reset_legal
  sv0 := Bool.and_eq_true_iff.mpr ⟨decide_eq_true (Nat.zero_le _), rfl⟩
  fuji := rfl
  inMem := h.inMem
  inSize := h.inSize
  outMem := by
    show Memory.wf (if s.macroBusy then _ else _) = true
    split
    · exact h.spoilImage.outMem
    · exact h.outMem
  outSize := by
    show Memory.within s.par.outSize (if s.macroBusy then _ else _) = true
    split
    · exact h.spoilImage.outSize
    · exact h.outSize
  outRaced := fun _ hi => by cases hi

theorem State.Inv.writeCtrl {s : State} (h : s.Inv) (v : Word) : (s.writeCtrl v).Inv := by
  unfold State.writeCtrl
  split
  · exact h.resetBlock
  split
  · exact h.clearError
  · exact h

/-- Acknowledged flags only fall, so BUSY still excludes DONE and ERR (10_state.md R24). -/
theorem State.Inv.acknowledge {s : State} (h : s.Inv) (v : Word) :
    ({ s with status := s.status.acknowledge v } : State).Inv :=
  { h with
    status := by
      have hstatus := h.status
      simp only [Status.legal, Status.acknowledge, Bool.not_eq_true', Bool.and_eq_false_iff,
        Bool.or_eq_false_iff] at hstatus ⊢
      exact hstatus.imp_right fun hoff => ⟨.inl hoff.1, hoff.2⟩ }

theorem State.Inv.writeCmd {s : State} (h : s.Inv) (v : Word) : (s.writeCmd v).Inv := by
  unfold State.writeCmd
  split
  · exact { h with }
  · next hfree =>
    refine { h with status := ?_ }
    simp only [Bool.or_eq_true, not_or, Bool.not_eq_true] at hfree
    simp [Status.legal, hfree.2]

theorem State.Inv.writeUnlessBusy {s t : State} (h : s.Inv) (ht : t.Inv) : (s.writeUnlessBusy t).Inv := by
  unfold State.writeUnlessBusy
  split
  · exact { h with }
  · exact ht

/-- A write of a configuration register leaves its reserved bits 0 (10_state.md R32, R33). -/
theorem HostRegs.write_reservedZero {g g' : HostRegs} {r : HostReg} {v : Word} (h : g.reservedZero = true)
    (hw : g.write r v = some g') : g'.reservedZero = true := by
  have hmask : ∀ m : Word, v &&& m &&& ~~~m = 0 := fun m => by
    rw [BitVec.and_assoc, BitVec.and_not_self]
    exact BitVec.and_zero
  simp only [HostRegs.reservedZero, decide_eq_true_eq] at h ⊢
  obtain ⟨hcfg, htbl, hgeom⟩ := h
  cases r with
  | ljCfg => cases hw; exact ⟨hmask _, htbl, hgeom⟩
  | ljTbl => cases hw; exact ⟨hcfg, hmask _, hgeom⟩
  | fjGeom1 => cases hw; exact ⟨hcfg, htbl, hmask _⟩
  | _ => cases hw <;> exact ⟨hcfg, htbl, hgeom⟩

theorem State.Inv.writeReg {s : State} (h : s.Inv) (r : HostReg) (v : Word) : (s.writeReg r v).Inv := by
  unfold State.writeReg
  split
  · exact h.writeCtrl v
  · exact h.acknowledge v
  · exact h.writeCmd v
  · exact h.writeUnlessBusy { h with }
  · split
    · exact h.writeUnlessBusy { h with regs := HostRegs.write_reservedZero h.regs ‹_› }
    · exact h

/-- A race mark changes nothing R37 and R39 speak of. -/
theorem Pump.noteRace_legal {par : Params} {p : Pump} (a : Nat) : (p.noteRace a).legal par = p.legal par := by
  unfold Pump.noteRace
  split <;> rfl

theorem hostWriteIn_inv {s t : State} {a : Nat} {v : Byte} (h : s.Inv) (ht : hostWriteIn s a v = .next t) :
    t.Inv := by
  unfold hostWriteIn at ht
  split at ht
  · next ha =>
    rw [← next_inj ht]
    exact { h with
      inMem := Memory.wf_put _ a v h.inMem
      inSize := Memory.within_put _ a v ha h.inSize
      pumps := fun p => by
        simp only [Fin.getElem_fin, Vector.getElem_map]
        rw [Pump.noteRace_legal]
        exact h.pumps p
      sv0 := h.sv0 }
  · cases ht

theorem State.Inv.writeSample {s : State} {i : Nat} (h : s.Inv) (hi : i < s.par.outSize) (v : Sample) :
    (s.writeSample i v).Inv :=
  have hout := goodOut_put (if s.unseenSample i then Config.freeSample s.draws i else v) hi h.goodOut
  { h with
    outMem := hout.1
    outSize := hout.2
    outRaced := fun x hx => by
      rw [State.writeSample_outRaced] at hx
      split at hx
      · rcases List.mem_insert_iff.mp hx with rfl | hx
        · exact hi
        · exact h.outRaced x hx
      · exact h.outRaced x hx }

theorem hostReadReg_inv {s t : State} {width : AccessWidth} {offset : BitVec 10} (h : s.Inv)
    (ht : hostReadReg s width offset = .next t) : t.Inv := by
  unfold hostReadReg at ht
  split at ht
  · split at ht
    · exact next_inj ht ▸ { h with }
    · exact next_inj ht ▸ { h with }
  · cases ht

theorem hostWriteReg_inv {s t : State} {width : AccessWidth} {offset : BitVec 10} {v : Word} (h : s.Inv)
    (ht : hostWriteReg s width offset v = .next t) : t.Inv := by
  unfold hostWriteReg at ht
  split at ht
  · split at ht
    · exact next_inj ht ▸ h.writeReg _ v
    · exact next_inj ht ▸ h
  · cases ht

theorem outsideWrite_inv {s t : State} {i : Nat} {v : Sample} (h : s.Inv) (ht : outsideWrite s i v = .next t) :
    t.Inv := by
  unfold outsideWrite at ht
  split at ht
  · exact next_inj ht ▸ h.writeSample ‹_› v
  · cases ht

theorem outsideWriteByte_inv {s t : State} {a : Nat} {b : Byte} (h : s.Inv)
    (ht : outsideWriteByte s a b = .next t) : t.Inv := by
  unfold outsideWriteByte at ht
  split at ht
  · exact next_inj ht ▸ h.writeSample ‹_› _
  · cases ht

/-- A move that answers one state where what it reads exists keeps the invariant when that state does. -/
theorem inv_of_read {t u : State} {c : Prop} [Decidable c] {f : Fault}
    (ht : (if c then .next u else .fault f : Host.Outcome State Fault Refusal) = .next t) (hu : u.Inv) : t.Inv := by
  split at ht
  · exact next_inj ht ▸ hu
  · cases ht

/-- Every move of the surroundings keeps the invariant, inside the memories or not. -/
theorem outsideMove_inv {s t : State} {e : Event} (h : s.Inv) (ht : outsideMove s e = .next t) : t.Inv := by
  cases e with
  | sequencer => exact next_inj ht ▸ h
  | regRead width offset => exact hostReadReg_inv h ht
  | regWrite width offset v => exact hostWriteReg_inv h ht
  | inRead a =>
    unfold outsideMove hostReadIn at ht
    exact inv_of_read ht { h with }
  | inWrite a v => exact hostWriteIn_inv h ht
  | outRead i =>
    unfold outsideMove outsideRead at ht
    exact inv_of_read ht { h with }
  | outWrite i v => exact outsideWrite_inv h ht
  | peerWrite i v =>
    unfold outsideMove peerWrite at ht
    dsimp only at ht
    split at ht
    · exact outsideWrite_inv h ht
    · exact next_inj ht ▸ h
  | outByteRead a =>
    unfold outsideMove outsideReadByte at ht
    exact inv_of_read ht { h with }
  | outByteWrite a b => exact outsideWriteByte_inv h ht
  | resetInput => exact next_inj ht ▸ h.resetBlock

/-- Settles O59: the move the schedule gives, the sequencer's or one of the surroundings, keeps the invariant. -/
theorem everyStepKeepsTheMachineSafe : Obligations.EveryStepKeepsTheMachineSafe := by
  intro s t hinv ht
  cases hev : s.events with
  | nil =>
    rw [step_of_no_events hev] at ht
    exact runCommand_inv hinv ht
  | cons e rest =>
    by_cases he : e = .sequencer
    · rw [step_of_sequencer (he ▸ hev)] at ht
      exact runCommand_inv (hinv.withEvents rest) ht
    · rw [step_of_outside hev he] at ht
      exact outsideMove_inv (hinv.withEvents rest) ht

end Sys2Proof.Machine

/-! SUPPORT. The register space: which register an offset names, what a host access to it does in one step, and the
launch, acknowledge, error clear and reset the host writes there (spec 10_state.md R20-R45, 40_control.md R101-R104,
60_exceptions.md R266, 70_reset_and_hazards.md R290). -/

namespace Sys2Proof.Machine

/-! ## Which register an offset names -/

/-- Below 0x100 the register of an offset is the fixed map's, whatever the parameters. -/
theorem regAt_fixed (par : Params) {o : Nat} (h : o < 0x100) : regAt par o = (fixedRegs[o / 4]?).getD none := if_pos h

theorem regAt_stream (par : Params) {o : Nat} (hlow : 0x100 ≤ o) (hhigh : o < 0x200) :
    regAt par o =
      (slotOf par.ns Config.ns ((o - 0x100) / 0x10)).map (fun k => streamReg k (o % 0x10 / 4)) := by
  rw [regAt, if_neg (by omega), if_pos hhigh]

theorem regAt_pump (par : Params) {o : Nat} (hlow : 0x200 ≤ o) (hhigh : o < 0x300) :
    regAt par o = (slotOf par.np Config.np ((o - 0x200) / 0x20)).map (fun p => pumpReg p (o % 0x20 / 4)) := by
  rw [regAt, if_neg (by omega), if_neg (by omega), if_pos hhigh]

theorem regAt_table (par : Params) {o : Nat} (hlow : 0x300 ≤ o) :
    regAt par o = (slotOf par.nt Config.nt ((o - 0x300) / 4)).map .tStat := by
  rw [regAt, if_neg (by omega), if_neg (by omega), if_neg (by omega)]

theorem slotOf_none_of_le {count n x : Nat} (h : n ≤ x) : slotOf count n x = none := dif_neg (by omega)

/-- The offsets that name no register in any block (10_state.md R44). -/
theorem regAt_reserved (par : Params) {o : Nat} (h4 : o % 4 = 0) (hlt : o < 0x400)
    (h : o = 0x038 ∨ o = 0x03C ∨ (0x0A0 ≤ o ∧ o ≤ 0x0FC) ∨ (0x140 ≤ o ∧ o ≤ 0x1FC) ∨ (0x240 ≤ o ∧ o ≤ 0x2FC) ∨
      0x310 ≤ o) : regAt par o = none := by
  rcases h with rfl | rfl | ⟨hlow, hhigh⟩ | ⟨hlow, hhigh⟩ | ⟨hlow, hhigh⟩ | hlow
  · rfl
  · rfl
  · rw [regAt_fixed par (by omega), List.getElem?_eq_none (by show 40 ≤ o / 4; omega)]
    rfl
  · rw [regAt_stream par (by omega) (by omega), slotOf_none_of_le (by show 4 ≤ _; omega), Option.map_none]
  · rw [regAt_pump par (by omega) (by omega), slotOf_none_of_le (by show 2 ≤ _; omega), Option.map_none]
  · rw [regAt_table par (by omega), slotOf_none_of_le (by show 4 ≤ _; omega), Option.map_none]

/-! ## One access -/

theorem aligned_word {o : BitVec 10} (h : o.toNat % 4 = 0) : aligned .word o = true := decide_eq_true ⟨rfl, h⟩

theorem aligned_false {a : AccessWidth} {o : BitVec 10} (h : a ≠ .word ∨ o.toNat % 4 ≠ 0) : aligned a o = false :=
  decide_eq_false fun hok => h.elim (fun hw => hw hok.1) fun ho => ho hok.2

/-- What a host read of an offset returns: the register's word, 0 where there is none (10_state.md R44). -/
def offsetWord (s : State) (o : BitVec 10) : Word := ((regAt s.par o.toNat).map (readReg s)).getD 0

/-- What a host write of an offset leaves: the register written, nothing changed where there is none. -/
def State.writeOffset (s : State) (o : BitVec 10) (v : Word) : State :=
  ((regAt s.par o.toNat).map (fun r => s.writeReg r v)).getD s

theorem offsetWord_of_regAt {s : State} {o : BitVec 10} {r : HostReg} (h : regAt s.par o.toNat = some r) :
    offsetWord s o = readReg s r := by
  rw [offsetWord, h]
  rfl

theorem State.writeOffset_of_regAt {s : State} {o : BitVec 10} {v : Word} {r : HostReg}
    (h : regAt s.par o.toNat = some r) : s.writeOffset o v = s.writeReg r v := by
  rw [State.writeOffset, h]
  rfl

theorem State.writeOffset_of_none {s : State} {o : BitVec 10} {v : Word} (h : regAt s.par o.toNat = none) :
    s.writeOffset o v = s := by
  rw [State.writeOffset, h]
  rfl

/-- A step in which the host writes a word of the register space. -/
theorem step_regWrite {s : State} {o : BitVec 10} {v : Word} {rest : List Event}
    (h : s.events = .regWrite .word o v :: rest) (h4 : o.toNat % 4 = 0) :
    step s = .next (({ s with events := rest } : State).writeOffset o v) := by
  rw [step_of_outside h nofun]
  show hostWriteReg _ _ _ _ = _
  unfold hostWriteReg State.writeOffset
  rw [if_pos (aligned_word h4)]
  cases regAt ({ s with events := rest } : State).par o.toNat <;> rfl

/-- A step in which the host reads a word of the register space (10_state.md R44, R45). -/
theorem step_regRead {s : State} {o : BitVec 10} {rest : List Event} (h : s.events = .regRead .word o :: rest)
    (h4 : o.toNat % 4 = 0) :
    step s = .next { s with
      events := rest
      hostData := offsetWord s o
      unseen :=
        if regAt s.par o.toNat = some .status ∧ s.status.busy = false ∧ (s.status.done = true ∨ s.status.err = true)
        then [] else s.unseen } := by
  rw [step_of_outside h nofun]
  show hostReadReg _ _ _ = _
  unfold hostReadReg offsetWord
  rw [if_pos (aligned_word h4)]
  cases regAt s.par o.toNat with
  | none => simp
  | some r =>
    simp only [Option.some.injEq, Option.map_some, Option.getD_some]
    rfl

/-! ## Launch (40_control.md R101) -/

theorem runCommand_of_ok {s : State} {i : Instr} (hbusy : s.status.busy = true) (hd : decode s.cmd = .ok i)
    (hfits : i.fits s.par = true) : runCommand s = exec i s := by
  rw [runCommand, if_pos hbusy, decodeIn_ok.mpr ⟨hd, hfits⟩]

theorem runCommand_of_idle {s : State} (h : s.status.busy = false) : runCommand s = .next s :=
  if_neg (by simp [h])

/-- Settles O4: the sequencer's turn, scheduled or not, runs the decoded command of a busy block and nothing in an idle
one, and a CMD write of an idle block without an error is accepted. -/
theorem stepRunsTheDecodedCommand : Obligations.StepRunsTheDecodedCommand := by
  refine fun s i => ⟨fun hbusy hd hfits => ⟨fun hev => ?_, fun rest hev => ?_⟩,
    fun hidle => ⟨fun hev => ?_, fun rest hev => ?_⟩, fun w rest hev hidle herr => ?_⟩
  · rw [step_of_no_events hev]
    exact runCommand_of_ok hbusy hd hfits
  · rw [step_of_sequencer hev]
    exact runCommand_of_ok hbusy hd hfits
  · rw [step_of_no_events hev]
    exact runCommand_of_idle hidle
  · rw [step_of_sequencer hev]
    exact runCommand_of_idle hidle
  · rw [step_regWrite hev rfl, State.writeOffset_of_regAt (r := .cmd) rfl]
    exact congrArg Host.Outcome.next (if_neg (by simp [hidle, herr]))

/-! ## STATUS and CTRL -/

/-- Settles O10: STATUS's flags are cleared where the word has a 1, busy or not. -/
theorem statusWriteAcknowledgesFlags : Obligations.StatusWriteAcknowledgesFlags := by
  intro s w rest hev
  have hclear : ∀ f b : Bool, (f && !b) = if b then false else f := by decide
  rw [step_regWrite hev rfl, State.writeOffset_of_regAt (r := .status) rfl]
  simp only [State.writeReg, Status.acknowledge, hclear]

theorem State.writeCtrl_reset {s : State} {v : Word} (h : v.getLsbD 0 = true) : s.writeCtrl v = s.resetBlock := if_pos h

theorem State.writeCtrl_errClr {s : State} {v : Word} (h0 : v.getLsbD 0 = false) (h1 : v.getLsbD 1 = true) :
    s.writeCtrl v = s.clearError := by
  rw [State.writeCtrl, if_neg (Bool.eq_false_iff.mp h0), if_pos h1]

theorem State.writeCtrl_none {s : State} {v : Word} (h0 : v.getLsbD 0 = false) (h1 : v.getLsbD 1 = false) :
    s.writeCtrl v = s := by
  rw [State.writeCtrl, if_neg (Bool.eq_false_iff.mp h0), if_neg (Bool.eq_false_iff.mp h1)]

/-- A step in which the host writes CTRL (10_state.md R23). -/
theorem step_ctrlWrite {s : State} {v : Word} {rest : List Event} (h : s.events = .regWrite .word 0x008#10 v :: rest) :
    step s = .next (({ s with events := rest } : State).writeCtrl v) := by
  rw [step_regWrite h rfl, State.writeOffset_of_regAt (r := .ctrl) rfl]
  rfl

/-- Settles O11: without SOFT_RESET, ERR_CLR clears the error of a block that has one; otherwise nothing happens. -/
theorem errorClearReturnsFromTheError : Obligations.ErrorClearReturnsFromTheError := by
  intro s w rest hev h0
  rw [step_ctrlWrite hev]
  refine ⟨fun h1 herr => ?_, fun h1 herr => ?_, fun h1 => ?_⟩
  · rw [State.writeCtrl_errClr h0 h1]
    exact congrArg Host.Outcome.next (if_pos herr)
  · rw [State.writeCtrl_errClr h0 h1]
    exact congrArg Host.Outcome.next (if_neg (by simp [herr]))
  · rw [State.writeCtrl_none h0 h1]

/-! ## Reset -/

/-- A sample outside the image region and outside what an outside agent wrote keeps its value when a decoding command is
abandoned or fails. -/
theorem spoilImage_outside {s : State} {x : Nat} (hx : outsideImage s x) :
    outSample s.spoilImage.outMem x = outSample s.outMem x := by
  obtain ⟨hraced, himage⟩ := hx
  rw [State.spoilImage_outMem, settleRaced_outside _ _ hraced, spoilRegion_outside _ himage]

/-- A step that resets the block: the reset input's, or that of a CTRL write with SOFT_RESET. -/
theorem step_reset {s : State} {e : Event} {rest : List Event} (hev : s.events = e :: rest)
    (he : e = .resetInput ∨ ∃ w : Word, e = .regWrite .word 0x008#10 w ∧ w.getLsbD 0 = true) :
    step s = .next ({ s with events := rest } : State).resetBlock := by
  rcases he with rfl | ⟨w, rfl, hw⟩
  · exact step_of_outside hev nofun
  · rw [step_ctrlWrite hev, State.writeCtrl_reset hw]

/-- Settles O12: the reset state, with OUT as it was but for an abandoned decoding command's region. -/
theorem resetRestoresEveryRegister : Obligations.ResetRestoresEveryRegister := by
  intro s e rest hev he
  refine ⟨if s.macroBusy then s.spoilImage.outMem else s.outMem, step_reset hev he, fun hidle => ?_, fun x hx => ?_⟩
  · rw [hidle]
    rfl
  · split
    · exact spoilImage_outside hx
    · rfl

/-! ## Refused and reserved accesses -/

/-- Settles O9: an access of another shape is refused, and an offset that names no register reads 0 and takes no
write. -/
theorem otherRegisterAccessesAreRefusedOrIgnored : Obligations.OtherRegisterAccessesAreRefusedOrIgnored := by
  refine fun s a o w rest => ⟨fun hshape => ⟨fun hev => ?_, fun hev => ?_⟩, fun ha h4 hres => ?_⟩
  · rw [step_of_outside hev nofun]
    exact if_neg (by simp [aligned_false hshape])
  · rw [step_of_outside hev nofun]
    exact if_neg (by simp [aligned_false hshape])
  · subst ha
    have hnone := regAt_reserved s.par h4 o.isLt hres
    refine ⟨fun hev => ?_, fun hev => ?_⟩
    · rw [step_regRead hev h4, offsetWord, hnone]
      simp
    · rw [step_regWrite hev h4, State.writeOffset_of_none (s := { s with events := rest }) hnone]

end Sys2Proof.Machine

/-! SUPPORT. Writes and reads of every register of the map (spec 10_state.md R21-R45, 40_control.md R104). -/

namespace Sys2Proof.Machine

/-! ## Writes -/

/-- The writable bits of a configuration register (10_state.md R30-R33). -/
def writeMask (r : HostReg) : Word :=
  match r with
  | .ljCfg => ljCfgMask
  | .ljTbl => ljTblMask
  | .fjGeom1 => fjGeom1Mask
  | _ => 0xFFFFFFFF#32

/-- A configuration register reads what was written under its mask, and every other register as before. -/
theorem readReg_write {s : State} {g : HostRegs} {r : HostReg} {v : Word} (h : s.regs.write r v = some g) :
    readReg { s with regs := g } r = v &&& writeMask r ∧
      ∀ r', r' ≠ r → readReg { s with regs := g } r' = readReg s r' := by
  have hall : v = v &&& 0xFFFFFFFF#32 := (BitVec.and_allOnes (x := v)).symm
  constructor
  · cases r with
    | ljCfg => cases h; rfl
    | ljTbl => cases h; rfl
    | fjGeom1 => cases h; rfl
    | _ => cases h <;> exact hall
  · intro r' hr
    revert hr
    cases r <;> cases h <;> cases r' <;> simp [readReg]

/-- A write of a configuration register (40_control.md R104). -/
theorem State.writeReg_config {s : State} {g : HostRegs} {r : HostReg} {v : Word} (h : s.regs.write r v = some g) :
    s.writeReg r v = s.writeUnlessBusy { s with regs := g } := by
  unfold State.writeReg
  split
  · cases h
  · cases h
  · cases h
  · cases h
  · rw [h]

/-- The offsets 0x040..0x090 are the configuration registers; 0x060, 0x074 and 0x090 have reserved bits. -/
theorem regAt_config (par : Params) (g : HostRegs) (v : Word) {o : Nat} (h4 : o % 4 = 0) (hlow : 0x040 ≤ o)
    (hhigh : o ≤ 0x090) :
    ∃ r g', regAt par o = some r ∧ g.write r v = some g' ∧
      writeMask r = if o = 0x060 then 0x00000077#32 else if o = 0x074 ∨ o = 0x090 then 0x0000FFFF#32
        else 0xFFFFFFFF#32 := by
  obtain ⟨n, rfl⟩ : ∃ n, o = 4 * n := ⟨o / 4, by omega⟩
  have hn : 16 ≤ n ∧ n ≤ 36 := by omega
  obtain ⟨hn16, hn36⟩ := hn
  interval_cases n <;> exact ⟨_, _, rfl, rfl, rfl⟩

/-- A register no write changes: the read-only ones (10_state.md R45). -/
def HostReg.IgnoresWrites (r : HostReg) : Prop := ∀ (s : State) (v : Word), s.writeReg r v = s

theorem streamReg_ignoresWrites (k : StreamIx) (n : Nat) : (streamReg k n).IgnoresWrites := by
  unfold streamReg
  split <;> exact fun _ _ => rfl

theorem pumpReg_ignoresWrites (p : PumpIx) (n : Nat) : (pumpReg p n).IgnoresWrites := by
  unfold pumpReg
  split <;> exact fun _ _ => rfl

/-- The offsets of the read-only registers name registers that ignore writes, or none. -/
theorem regAt_readOnly (par : Params) {o : Nat} {r : HostReg} (h4 : o % 4 = 0)
    (h : o ≤ 0x004 ∨ (0x018 ≤ o ∧ o ≤ 0x034) ∨ (0x094 ≤ o ∧ o ≤ 0x09C) ∨ (0x100 ≤ o ∧ o ≤ 0x13C) ∨
      (0x200 ≤ o ∧ o ≤ 0x23C) ∨ (0x300 ≤ o ∧ o ≤ 0x30C)) (hr : regAt par o = some r) : r.IgnoresWrites := by
  have hfixed : o ≤ 0x004 ∨ (0x018 ≤ o ∧ o ≤ 0x034) ∨ (0x094 ≤ o ∧ o ≤ 0x09C) → r.IgnoresWrites := by
    intro ho
    obtain ⟨n, rfl⟩ : ∃ n, o = 4 * n := ⟨o / 4, by omega⟩
    have hn : n ≤ 1 ∨ (6 ≤ n ∧ n ≤ 13) ∨ (37 ≤ n ∧ n ≤ 39) := by omega
    obtain hn | ⟨hlow, hhigh⟩ | ⟨hlow, hhigh⟩ := hn <;> interval_cases n <;> cases hr <;> exact fun _ _ => rfl
  rcases h with h | h | h | ⟨hlow, hhigh⟩ | ⟨hlow, hhigh⟩ | ⟨hlow, hhigh⟩
  · exact hfixed (.inl h)
  · exact hfixed (.inr (.inl h))
  · exact hfixed (.inr (.inr h))
  · rw [regAt_stream par hlow (by omega)] at hr
    obtain ⟨k, -, rfl⟩ := Option.map_eq_some_iff.mp hr
    exact streamReg_ignoresWrites k _
  · rw [regAt_pump par hlow (by omega)] at hr
    obtain ⟨p, -, rfl⟩ := Option.map_eq_some_iff.mp hr
    exact pumpReg_ignoresWrites p _
  · rw [regAt_table par hlow] at hr
    obtain ⟨t, -, rfl⟩ := Option.map_eq_some_iff.mp hr
    exact fun _ _ => rfl

theorem State.writeOffset_readOnly {s : State} {o : BitVec 10} {v : Word}
    (h : ∀ r, regAt s.par o.toNat = some r → r.IgnoresWrites) : s.writeOffset o v = s := by
  cases hr : regAt s.par o.toNat with
  | none => exact State.writeOffset_of_none hr
  | some r => rw [State.writeOffset_of_regAt hr, h r hr]

theorem State.writeUnlessBusy_idle {s t : State} (h : s.status.busy = false) : s.writeUnlessBusy t = t :=
  if_neg (Bool.eq_false_iff.mp h)

theorem State.writeUnlessBusy_busy {s t : State} (h : s.status.busy = true) :
    s.writeUnlessBusy t = { s with status := { s.status with wrLost := true } } := if_pos h

theorem State.writeOffset_irqEn {s : State} {o : BitVec 10} {v : Word} (h : o.toNat = 0x010) :
    s.writeOffset o v = s.writeUnlessBusy { s with irqEn := ⟨v.getLsbD 0, v.getLsbD 1⟩ } :=
  State.writeOffset_of_regAt (r := .irqEn) (by rw [h]; rfl)

theorem State.writeOffset_config {s : State} {o : BitVec 10} {r : HostReg} {g : HostRegs} {v : Word}
    (hr : regAt s.par o.toNat = some r) (hg : s.regs.write r v = some g) :
    s.writeOffset o v = s.writeUnlessBusy { s with regs := g } := by
  rw [State.writeOffset_of_regAt hr, State.writeReg_config hg]

/-- IRQ_EN or a configuration register of a busy block: the write is dropped and flagged (40_control.md R104). -/
theorem State.writeOffset_busy {s : State} {o : BitVec 10} {v : Word} (hbusy : s.status.busy = true)
    (h4 : o.toNat % 4 = 0) (h : o.toNat = 0x010 ∨ (0x040 ≤ o.toNat ∧ o.toNat ≤ 0x090)) :
    s.writeOffset o v = { s with status := { s.status with wrLost := true } } := by
  rcases h with ho | ⟨hlow, hhigh⟩
  · rw [State.writeOffset_irqEn ho, State.writeUnlessBusy_busy hbusy]
  · obtain ⟨r, g, hr, hg, -⟩ := regAt_config s.par s.regs v h4 hlow hhigh
    rw [State.writeOffset_config hr hg, State.writeUnlessBusy_busy hbusy]

/-- Settles O7: what the map names at an offset decides whether the write is stored, dropped or ignored. -/
theorem registerWritesAreStoredOrDropped : Obligations.RegisterWritesAreStoredOrDropped := by
  intro s o w rest hev h4
  rw [step_regWrite hev h4]
  refine ⟨fun hidle => ⟨fun ho => ?_, fun ⟨hlow, hhigh⟩ => ?_⟩, fun hbusy ho => ?_, fun ho => ?_⟩
  · exact congrArg Host.Outcome.next ((State.writeOffset_irqEn ho).trans (State.writeUnlessBusy_idle hidle))
  · obtain ⟨r, g, hr, hg, hmask⟩ := regAt_config s.par s.regs w h4 hlow hhigh
    obtain ⟨hself, hother⟩ := readReg_write hg
    refine ⟨g, congrArg Host.Outcome.next ?_, fun r' hr' => ?_⟩
    · exact (State.writeOffset_config (s := { s with events := rest }) hr hg).trans (State.writeUnlessBusy_idle hidle)
    · obtain rfl : r = r' := Option.some.inj (hr.symm.trans hr')
      exact ⟨hmask ▸ hself, hother⟩
  · exact congrArg Host.Outcome.next (State.writeOffset_busy (s := { s with events := rest }) hbusy h4 ho)
  · exact congrArg Host.Outcome.next (State.writeOffset_readOnly (s := { s with events := rest }) fun r hr =>
      regAt_readOnly s.par h4 ho hr)

end Sys2Proof.Machine

/-! SUPPORT. Reads of the register map: the packed registers field by field, and the register at each offset of a block
with the spec's slot counts (spec 10_state.md R21-R41). -/

namespace Sys2Proof.Machine

/-! ## Fields of a packed word -/

/-- A flag of a packed word. -/
theorem getLsbD_packed {n i : Nat} {b : Bool} (hi : i < 32) (h : n / 2 ^ i % 2 = bitNat b) :
    (BitVec.ofNat 32 n).getLsbD i = b := by
  rw [BitVec.getLsbD_ofNat, Nat.testBit_eq_decide_div_mod_eq, h]
  cases b <;> simp [hi, bitNat]

/-- A number in a packed word. -/
theorem extract_packed {n lo k v : Nat} (hn : n < 2 ^ 32) (h : n / 2 ^ lo % 2 ^ k = v) :
    ((BitVec.ofNat 32 n).extractLsb' lo k).toNat = v := by
  rw [BitVec.extractLsb'_toNat, BitVec.toNat_ofNat, Nat.mod_eq_of_lt hn, Nat.shiftRight_eq_div_pow, h]

/-- The bits no field of a packed word takes. -/
theorem packed_and_eq_zero {n m : Nat} (h : ∀ i < 32, m / 2 ^ i % 2 = 1 → n / 2 ^ i % 2 = 0) :
    BitVec.ofNat 32 n &&& BitVec.ofNat 32 m = 0 := by
  refine BitVec.eq_of_getLsbD_eq fun i hi => ?_
  rw [BitVec.getLsbD_and]
  rcases Nat.mod_two_eq_zero_or_one (m / 2 ^ i) with hm | hm
  · rw [getLsbD_packed (n := m) (b := false) hi hm]
    simp
  · rw [getLsbD_packed (n := n) (b := false) hi (h i hi hm)]
    simp

theorem Status.word_fields (f : Status) :
    f.word.getLsbD 0 = f.busy ∧ f.word.getLsbD 1 = f.done ∧ f.word.getLsbD 2 = f.err ∧
      f.word.getLsbD 3 = f.cmdLost ∧ f.word.getLsbD 4 = f.wrLost ∧ f.word >>> 5 = 0 := by
  obtain ⟨busy, done, err, cmdLost, wrLost⟩ := f
  revert busy done err cmdLost wrLost
  decide

theorem IrqEnable.word_fields (e : IrqEnable) :
    e.word.getLsbD 0 = e.doneIe ∧ e.word.getLsbD 1 = e.errIe ∧ e.word >>> 2 = 0 := by
  obtain ⟨doneIe, errIe⟩ := e
  revert doneIe errIe
  decide

theorem StreamSlot.cfgWord_fields (v : StreamSlot) :
    v.cfgWord.getLsbD 0 = v.valid ∧ v.cfgWord.getLsbD 1 = v.be ∧ v.cfgWord >>> 2 = 0 := by
  obtain ⟨valid, off, size, pos, be⟩ := v
  show (BitVec.ofNat 32 (bitNat valid + 2 * bitNat be)).getLsbD 0 = valid ∧
    (BitVec.ofNat 32 (bitNat valid + 2 * bitNat be)).getLsbD 1 = be ∧
    BitVec.ofNat 32 (bitNat valid + 2 * bitNat be) >>> 2 = 0
  revert valid be
  decide

theorem Fuji.statWord_fields (f : Fuji) :
    f.statWord.getLsbD 0 = f.valid ∧ (f.statWord.extractLsb' 8 5).toNat = f.rawBits % 32 ∧
      (f.statWord.extractLsb' 16 8).toNat = f.maxBits % 256 ∧ f.statWord &&& 0xFF00E0FE#32 = 0 := by
  have hvalid := bitNat_le f.valid
  unfold Fuji.statWord
  refine ⟨getLsbD_packed (by omega) (by omega), extract_packed (by omega) (by omega),
    extract_packed (by omega) (by omega), packed_and_eq_zero fun i hi hm => ?_⟩
  interval_cases i <;> omega

theorem Sv0.statWord_fields (v : Sv0) :
    v.statWord.getLsbD 0 = v.ready ∧ (v.statWord.extractLsb' 16 16).toNat = v.stripes.length % 65536 ∧
      v.statWord &&& 0x0000FFFE#32 = 0 := by
  have hready := bitNat_le v.ready
  unfold Sv0.statWord Sv0.rows
  refine ⟨getLsbD_packed (by omega) (by omega), extract_packed (by omega) (by omega),
    packed_and_eq_zero fun i hi hm => ?_⟩
  interval_cases i <;> omega

theorem HuffTable.statWord_fields (t : HuffTable) :
    (t.statWord.extractLsb' 0 2 =
      match t.state with
      | .empty => 0#2
      | .counts => 1#2
      | .values => 2#2
      | .ready => 3#2) ∧
    t.statWord.getLsbD 2 = t.dng16 ∧ (t.statWord.extractLsb' 16 9).toNat = t.nvalues % 512 ∧
      t.statWord &&& 0xFE00FFF8#32 = 0 := by
  have hdng := bitNat_le t.dng16
  have hstate : t.state.number ≤ 3 := by cases t.state <;> decide
  unfold HuffTable.statWord
  refine ⟨?_, getLsbD_packed (by omega) (by omega), extract_packed (by omega) (by omega),
    packed_and_eq_zero fun i hi hm => ?_⟩
  · refine BitVec.eq_of_toNat_eq ((extract_packed (v := t.state.number) (by omega) (by omega)).trans ?_)
    cases t.state <;> rfl
  · interval_cases i <;> omega

theorem Pump.statWord_fields (p : Pump) :
    p.statWord.getLsbD 0 = p.valid ∧
    (p.statWord.extractLsb' 1 2 =
      match p.mode with
      | .msb => 0#2
      | .jpeg => 1#2
      | .msb32 => 2#2) ∧
    p.statWord.getLsbD 3 = p.ended ∧ p.statWord.getLsbD 4 = p.marker ∧
    (p.statWord.extractLsb' 8 7).toNat = p.cache.length % 128 ∧ (p.statWord.extractLsb' 16 7).toNat = p.pad % 128 ∧
      p.statWord &&& 0xFF8080E0#32 = 0 := by
  have hvalid := bitNat_le p.valid
  have hended := bitNat_le p.ended
  have hmarker := bitNat_le p.marker
  have hmode : modeNumber p.mode ≤ 2 := by cases p.mode <;> decide
  unfold Pump.statWord
  refine ⟨getLsbD_packed (by omega) (by omega), ?_, getLsbD_packed (by omega) (by omega),
    getLsbD_packed (by omega) (by omega), extract_packed (by omega) (by omega),
    extract_packed (by omega) (by omega), packed_and_eq_zero fun i hi hm => ?_⟩
  · refine BitVec.eq_of_toNat_eq ((extract_packed (v := modeNumber p.mode) (by omega) (by omega)).trans ?_)
    cases p.mode <;> rfl
  · interval_cases i <;> omega

/-- 32 bits of a cache fit a register. -/
theorem toNat_ofNat_bitsVal {b : Bits} (h : b.length ≤ 32) : (BitVec.ofNat 32 (bitsVal b)).toNat = bitsVal b := by
  rw [BitVec.toNat_ofNat, Nat.mod_eq_of_lt]
  exact (bitsVal_lt b).trans_le (Nat.pow_le_pow_right (by norm_num) h)

/-- PARAM of a block with the spec's values (10_state.md R22). -/
theorem paramWord_of_decided {par : Params} (h : par.decided = true) : paramWord par = 0xFFFF0424#32 := by
  obtain ⟨hns, hnp, hnt, -, -, -, -, -, hrows⟩ := Params.decided_iff.mp h
  rw [paramWord, hns, hnp, hnt, hrows]
  rfl

/-! ## The register at an offset -/

theorem regAt_streamReg {par : Params} (hp : par.decided = true) (k : StreamIx) {j : Nat} (hj : j < 4) :
    regAt par (0x100 + 0x10 * k.val + 4 * j) = some (streamReg k j) := by
  obtain ⟨hns, -⟩ := Params.decided_iff.mp hp
  have hk : k.val < 4 := k.isLt
  rw [regAt_stream par (by omega) (by omega),
    slotOf_some.mpr (⟨by omega, by omega⟩ : k.val = (0x100 + 0x10 * k.val + 4 * j - 0x100) / 0x10 ∧ _), Option.map_some,
    show (0x100 + 0x10 * k.val + 4 * j) % 0x10 / 4 = j by omega]

theorem regAt_pumpReg {par : Params} (hp : par.decided = true) (p : PumpIx) {j : Nat} (hj : j < 8) :
    regAt par (0x200 + 0x20 * p.val + 4 * j) = some (pumpReg p j) := by
  obtain ⟨-, hnp, -⟩ := Params.decided_iff.mp hp
  have hk : p.val < 2 := p.isLt
  rw [regAt_pump par (by omega) (by omega),
    slotOf_some.mpr (⟨by omega, by omega⟩ : p.val = (0x200 + 0x20 * p.val + 4 * j - 0x200) / 0x20 ∧ _), Option.map_some,
    show (0x200 + 0x20 * p.val + 4 * j) % 0x20 / 4 = j by omega]

theorem regAt_tStat {par : Params} (hp : par.decided = true) (t : TableIx) :
    regAt par (0x300 + 4 * t.val) = some (.tStat t) := by
  obtain ⟨-, -, hnt, -⟩ := Params.decided_iff.mp hp
  have hk : t.val < 4 := t.isLt
  rw [regAt_table par (by omega),
    slotOf_some.mpr (⟨by omega, by omega⟩ : t.val = (0x300 + 4 * t.val - 0x300) / 4 ∧ _), Option.map_some]

theorem offsetWord_stream {s : State} {o : BitVec 10} (hp : s.par.decided = true) (k : StreamIx) {j : Nat} (hj : j < 4)
    (ho : o.toNat = 0x100 + 0x10 * k.val + 4 * j) : offsetWord s o = readReg s (streamReg k j) :=
  offsetWord_of_regAt (ho ▸ regAt_streamReg hp k hj)

theorem offsetWord_pump {s : State} {o : BitVec 10} (hp : s.par.decided = true) (p : PumpIx) {j : Nat} (hj : j < 8)
    (ho : o.toNat = 0x200 + 0x20 * p.val + 4 * j) : offsetWord s o = readReg s (pumpReg p j) :=
  offsetWord_of_regAt (ho ▸ regAt_pumpReg hp p hj)

/-- STATUS stands at 0x00C only (10_state.md R24). -/
theorem regAt_status_iff (par : Params) {o : BitVec 10} (h4 : o.toNat % 4 = 0) :
    regAt par o.toNat = some .status ↔ o = 0x00C#10 := by
  refine ⟨fun hr => ?_, fun ho => by rw [ho]; rfl⟩
  have hfixed : ∀ n < 64, (fixedRegs[n]?).getD none = some .status → n = 3 := by decide
  have hstream : ∀ (k : StreamIx) (j : Nat), streamReg k j ≠ .status := by
    intro k j
    unfold streamReg
    split <;> nofun
  have hpump : ∀ (p : PumpIx) (j : Nat), pumpReg p j ≠ .status := by
    intro p j
    unfold pumpReg
    split <;> nofun
  rcases Nat.lt_or_ge o.toNat 0x100 with hlt | h100
  · rw [regAt_fixed par hlt] at hr
    have hthree := hfixed _ (by omega) hr
    exact BitVec.eq_of_toNat_eq (by show o.toNat = 12; omega)
  rcases Nat.lt_or_ge o.toNat 0x200 with hlt | h200
  · rw [regAt_stream par h100 hlt] at hr
    obtain ⟨k, -, hk⟩ := Option.map_eq_some_iff.mp hr
    exact absurd hk (hstream k _)
  rcases Nat.lt_or_ge o.toNat 0x300 with hlt | h300
  · rw [regAt_pump par h200 hlt] at hr
    obtain ⟨p, -, hk⟩ := Option.map_eq_some_iff.mp hr
    exact absurd hk (hpump p _)
  · rw [regAt_table par h300] at hr
    obtain ⟨t, -, ht⟩ := Option.map_eq_some_iff.mp hr
    cases ht

/-! ## O8 -/

/-- Settles O8: the value at each offset is the word of the register the map names there. -/
theorem registerReadsShowTheState : Obligations.RegisterReadsShowTheState := by
  intro s o rest hp hev h4
  have hstep := step_regRead hev h4
  simp only [regAt_status_iff s.par h4] at hstep
  have fixed : ∀ {c : BitVec 10} {x : Word}, offsetWord s c = x → o = c → offsetWord s o = x := fun hx h => h ▸ hx
  have hcode : offsetWord s 0x020#10 =
      match s.err.code with
      | .none => 0#32
      | .illegal => 1#32
      | .state => 2#32
      | .ioBounds => 3#32
      | .ioOverflow => 4#32
      | .corrupt => 5#32
      | .unsupported => 6#32 := by
    show BitVec.ofNat 32 s.err.code.number = _
    cases s.err.code <;> rfl
  have hcache : ∀ b : Bits, (b.take 32).length ≤ 32 := fun b => by simp
  refine ⟨offsetWord s o, hstep, fixed rfl, fixed (paramWord_of_decided hp), fixed rfl,
    fun h => fixed (x := s.status.word) rfl h ▸ s.status.word_fields,
    fun h => fixed (x := s.irqEn.word) rfl h ▸ s.irqEn.word_fields,
    fixed rfl, fixed rfl, fixed rfl, fixed hcode, fixed rfl, fixed rfl, fixed rfl, fixed rfl, fixed rfl, fixed rfl,
    fixed rfl, fixed rfl, fixed rfl, fixed rfl, fixed rfl, fixed rfl, fixed rfl, fixed rfl, fixed rfl, fixed rfl,
    fixed rfl, fixed rfl, fixed rfl, fixed rfl, fixed rfl, fixed rfl, fixed rfl, fixed rfl, fixed rfl, fixed rfl,
    fun h => fixed (x := s.fuji.statWord) rfl h ▸ s.fuji.statWord_fields, fixed rfl,
    fun h => fixed (x := s.sv0.statWord) rfl h ▸ s.sv0.statWord_fields, fun k => ?_, fun p => ?_, fun t h => ?_⟩
  · refine ⟨fun h => offsetWord_stream hp k (j := 0) (by omega) h,
      fun h => offsetWord_stream hp k (j := 1) (by omega) (by omega),
      fun h => offsetWord_stream hp k (j := 2) (by omega) (by omega), fun h => ?_⟩
    rw [offsetWord_stream hp k (j := 3) (by omega) (by omega)]
    exact s.streams[k].cfgWord_fields
  · refine ⟨fun h => offsetWord_pump hp p (j := 0) (by omega) h,
      fun h => offsetWord_pump hp p (j := 1) (by omega) (by omega),
      fun h => offsetWord_pump hp p (j := 2) (by omega) (by omega), fun h => ?_,
      fun h => offsetWord_pump hp p (j := 4) (by omega) (by omega), fun h => ?_, fun h => ?_, fun h => ?_⟩
    · rw [offsetWord_pump hp p (j := 3) (by omega) (by omega)]
      exact s.pumps[p].statWord_fields
    · rw [offsetWord_pump hp p (j := 5) (by omega) (by omega)]
      exact BitVec.toNat_ofNat _ _
    · rw [offsetWord_pump hp p (j := 6) (by omega) (by omega), ← Params.cacheWidth_eq hp]
      exact toNat_ofNat_bitsVal (hcache _)
    · rw [offsetWord_pump hp p (j := 7) (by omega) (by omega), ← Params.cacheWidth_eq hp]
      exact toNat_ofNat_bitsVal (hcache _)
  · rw [offsetWord_of_regAt (h ▸ regAt_tStat hp t)]
    exact s.tables[t].statWord_fields

end Sys2Proof.Machine

/-! SUPPORT. What a piece of pseudocode can do in any state, safe or not: answer, raise one of its codes, or fault. One
lemma per procedure, in the order of the model's files (spec 40_control.md R101, R103, 60_exceptions.md R262). -/

namespace Sys2Proof.Machine

/-! ## Sequencing and checks -/

/-- What a piece of pseudocode can do: it answers a value with the property, raises one of the codes, or faults. -/
def Eff.May {α : Type} (codes : List ErrCode) (post : α → Prop) (x : Eff α) : Prop :=
  match x with
  | .ok a => post a
  | .error (.raised e) => e.code ∈ codes
  | .error (.fault _) => True

/-- A piece of pseudocode whose errors are among the codes, whatever it answers. -/
abbrev Eff.Only {α : Type} (codes : List ErrCode) (x : Eff α) : Prop := Eff.May codes (fun _ => True) x

theorem Eff.may_raise {α : Type} {codes : List ErrCode} {post : α → Prop} {code : ErrCode} {r c m v : Int}
    (h : code ∈ codes) : Eff.May codes post (raiseError (α := α) code r c m v) := h

theorem Eff.may_bind {α β : Type} {codes : List ErrCode} {mid : α → Prop} {post : β → Prop} {x : Eff α}
    {f : α → Eff β} (hx : Eff.May codes mid x) (hf : ∀ a, mid a → Eff.May codes post (f a)) :
    Eff.May codes post (x >>= f) := by
  match x, hx with
  | .ok a, h => exact hf a h
  | .error (.raised _), h => exact h
  | .error (.fault _), _ => trivial

theorem may_require {codes : List ErrCode} {ok : Bool} {e : ErrInfo} (h : e.code ∈ codes) :
    Eff.May codes (fun _ => ok = true) (require ok e) := by
  cases ok
  · exact h
  · rfl

theorem only_require {codes : List ErrCode} {ok : Bool} {e : ErrInfo} (h : e.code ∈ codes) :
    Eff.Only codes (require ok e) := by
  cases ok
  · exact h
  · trivial

theorem may_schk {codes : List ErrCode} {s : State} {k : StreamIx} (h : .state ∈ codes) :
    Eff.Only codes (schk s k) := by
  unfold schk
  split
  · trivial
  · exact h

theorem may_pchk {codes : List ErrCode} {s : State} {p : PumpIx} (h : .state ∈ codes) :
    Eff.Only codes (pchk s p) := by
  unfold pchk
  split
  · trivial
  · exact h

theorem may_tchk {codes : List ErrCode} {s : State} {t : TableIx} (h : .state ∈ codes) :
    Eff.Only codes (tchk s t) := by
  unfold tchk
  split
  · trivial
  · exact h

theorem may_imgChk {codes : List ErrCode} {s : State} (hc : .corrupt ∈ codes) (hb : .ioBounds ∈ codes) :
    Eff.Only codes (imgChk s) :=
  Eff.may_bind (may_require hc) fun _ _ => Eff.may_bind (may_require hc) fun _ _ => only_require hb

/-- A loop raises what its body raises. -/
theorem may_forUp {σ : Type} {codes : List ErrCode} {body : Nat → σ → Eff σ} (n i : Nat) (x : σ)
    (hb : ∀ j y, Eff.Only codes (body j y)) : Eff.Only codes (forUp body n i x) := by
  induction n generalizing i x with
  | zero => trivial
  | succ n ih =>
    rw [forUp_succ]
    exact Eff.may_bind (hb i x) fun y _ => ih (i + 1) y

/-! ## IN and OUT -/

theorem may_readIn {codes : List ErrCode} {s : State} {raced : List Nat} {a : Nat} :
    Eff.Only codes (readIn s raced a) := by
  unfold readIn
  split
  · split <;> trivial
  · trivial

theorem may_readInBytes {codes : List ErrCode} {s : State} {raced : List Nat} (n : Nat) {a : Nat} :
    Eff.Only codes (readInBytes s raced a n) := by
  induction n generalizing a with
  | zero => trivial
  | succ n ih => exact Eff.may_bind may_readIn fun _ _ => Eff.may_bind ih fun _ _ => trivial

theorem may_readOut {codes : List ErrCode} {par : Params} {m : OutMemory} {i : Nat} :
    Eff.Only codes (readOut par m i) := by
  unfold readOut
  split <;> trivial

theorem may_writeOut {codes : List ErrCode} {par : Params} {m : OutMemory} {i : Nat} {v : Sample} :
    Eff.Only codes (writeOut par m i v) := by
  unfold writeOut
  split <;> trivial

/-! ## Byte streams (41_bytestream.md) -/

theorem may_windowBytes {codes : List ErrCode} {s : State} {v : StreamSlot} {at_ n : Nat} :
    Eff.Only codes (windowBytes s v at_ n) := may_readInBytes n

theorem may_windowValue {codes : List ErrCode} {s : State} {v : StreamSlot} {at_ n : Nat} :
    Eff.Only codes (windowValue s v at_ n) := Eff.may_bind may_windowBytes fun _ _ => trivial

theorem may_needRemaining {codes : List ErrCode} {k : StreamIx} {v : StreamSlot} {n : Nat} (h : .ioBounds ∈ codes) :
    Eff.May codes (fun _ => decide (v.pos.toNat + n ≤ v.size.toNat) = true) (needRemaining k v n) := may_require h

theorem may_streamRead {codes : List ErrCode} {s : State} {k : StreamIx} {v : StreamSlot} {n : Nat}
    (h : .ioBounds ∈ codes) : Eff.Only codes (streamRead s k v n) :=
  Eff.may_bind (may_needRemaining h) fun _ _ => may_windowValue

theorem may_prefixMatches {codes : List ErrCode} {s : State} {v : StreamSlot} {n : Nat} :
    Eff.Only codes (prefixMatches s v n) := by
  unfold prefixMatches
  split
  · exact Eff.may_bind may_windowBytes fun _ _ => trivial
  · trivial

/-! ## Bit pumps (42_bitpump.md) -/

theorem may_stuffedAt {codes : List ErrCode} {s : State} {p : Pump} : Eff.Only codes (stuffedAt s p) := by
  unfold stuffedAt
  split
  · exact Eff.may_bind may_readIn fun _ _ => trivial
  · trivial

theorem may_nextByte {codes : List ErrCode} {s : State} {p : Pump} : Eff.Only codes (nextByte s p) := by
  unfold nextByte
  split
  · trivial
  split
  · trivial
  refine Eff.may_bind may_readIn fun b _ => ?_
  split
  · refine Eff.may_bind may_stuffedAt fun stuffed _ => ?_
    split <;> trivial
  · trivial

theorem may_nextWord {codes : List ErrCode} {s : State} {p : Pump} : Eff.Only codes (nextWord s p) := by
  unfold nextWord
  split
  · trivial
  · exact Eff.may_bind (may_readInBytes _) fun _ _ => trivial

/-- FILL raises nothing (42_bitpump.md R141). -/
theorem may_fill {codes : List ErrCode} {s : State} {p : Pump} : Eff.Only codes (fill s p) := by
  have hbytes : Eff.Only codes (fetchFourBytes s p) :=
    may_forUp 4 0 p fun _ _ => Eff.may_bind may_nextByte fun _ _ => trivial
  unfold fill
  split
  · trivial
  split
  · exact Eff.may_bind may_nextWord fun _ _ => trivial
  · exact hbytes
  · exact hbytes

theorem may_pget {codes : List ErrCode} {s : State} {ix : PumpIx} {p : Pump} {n : Nat} (hb : .ioBounds ∈ codes) :
    Eff.Only codes (pget s ix p n) :=
  Eff.may_bind may_fill fun _ _ => Eff.may_bind (may_require hb) fun _ _ => trivial

theorem may_ppeek {codes : List ErrCode} {s : State} {p : Pump} {n : Nat} : Eff.Only codes (ppeek s p n) :=
  Eff.may_bind may_fill fun _ _ => trivial

theorem may_pskip {codes : List ErrCode} {s : State} {ix : PumpIx} {p : Pump} {n : Nat} (hb : .ioBounds ∈ codes) :
    Eff.Only codes (pskip s ix p n) := Eff.may_bind (may_pget hb) fun _ _ => trivial

/-! ## Huffman tables (43_huffman.md) -/

section
variable {codes : List ErrCode} (hb : .ioBounds ∈ codes) (hc : .corrupt ∈ codes)
include hb hc

theorem may_hsymFrom {s : State} {t : TableIx} {ix : PumpIx} (fuel l code : Nat) {p : Pump} :
    Eff.Only codes (hsymFrom s t ix fuel l code p) := by
  induction fuel generalizing l code p with
  | zero => exact Eff.may_raise hc
  | succ fuel ih =>
    refine Eff.may_bind (may_pget hb) fun x _ => ?_
    dsimp only
    split
    · trivial
    · exact ih _ _

theorem may_hdiff {s : State} {t : TableIx} {ix : PumpIx} {p : Pump} : Eff.Only codes (hdiff s t ix p) := by
  unfold hdiff
  refine Eff.may_bind (may_hsymFrom hb hc _ _ _) fun x _ => ?_
  dsimp only
  split
  · trivial
  split
  · exact Eff.may_raise hc
  split
  · split
    · exact Eff.may_bind (may_pskip hb) fun _ _ => trivial
    · trivial
  · exact Eff.may_bind (may_pget hb) fun _ _ => trivial

end

/-- CANON raises E_CORRUPT only and changes no other field of its table (43_huffman.md R164). -/
theorem may_canon {codes : List ErrCode} {par : Params} {t : TableIx} {c : HuffTable} (hc : .corrupt ∈ codes) :
    Eff.Only codes (canon par t c) :=
  Eff.may_bind (may_forUp _ _ _ fun _ _ => Eff.may_bind (may_require hc) fun _ _ => trivial) fun _ _ => trivial

theorem may_pentaxCodes {codes : List ErrCode} {s : State} {v : StreamSlot} (n : Nat) {at_ : Nat} :
    Eff.Only codes (pentaxCodes s v at_ n) := by
  induction n generalizing at_ with
  | zero => trivial
  | succ n ih => exact Eff.may_bind may_windowValue fun _ _ => Eff.may_bind ih fun _ _ => trivial

theorem may_pentaxEntries {codes : List ErrCode} {s : State} {v : StreamSlot} (hc : .corrupt ∈ codes) (l : List Nat)
    {at_ i : Nat} : Eff.Only codes (pentaxEntries s v at_ i l) := by
  induction l generalizing at_ i with
  | nil => trivial
  | cons code rest ih =>
    exact Eff.may_bind may_windowValue fun _ _ => Eff.may_bind (may_require hc) fun _ _ =>
      Eff.may_bind ih fun _ _ => trivial

/-! ## Image decoders (44_ljpeg.md, 45_pentax.md, 46_samsung.md) -/

theorem may_ljTable {codes : List ErrCode} {s : State} {i : Nat} (hs : .state ∈ codes) :
    Eff.Only codes (ljTable s i) := by
  unfold ljTable
  split
  · exact Eff.may_bind (may_tchk hs) fun _ _ => trivial
  · exact Eff.may_raise hs

theorem may_ljTables {codes : List ErrCode} {s : State} (hs : .state ∈ codes) (n : Nat) {i : Nat} :
    Eff.Only codes (ljTables s n i) := by
  induction n generalizing i with
  | zero => trivial
  | succ n ih => exact Eff.may_bind (may_ljTable hs) fun _ _ => Eff.may_bind ih fun _ _ => trivial

theorem may_ljCheck {s : State} : Eff.Only [.state, .ioBounds, .corrupt, .unsupported] (ljCheck s) :=
  Eff.may_bind (may_require (by simp)) fun _ _ => Eff.may_bind (may_require (by simp)) fun _ _ =>
    Eff.may_bind (may_forUp _ 0 () fun _ _ => only_require (by simp)) fun _ _ =>
    Eff.may_bind (may_ljTables (by simp) _) fun _ _ => Eff.may_bind (may_imgChk (by simp) (by simp)) fun _ _ =>
    Eff.may_bind (may_require (by simp)) fun _ _ => Eff.may_bind (may_require (by simp)) fun _ _ =>
    Eff.may_bind (may_require (by simp)) fun _ _ => trivial

section
variable {codes : List ErrCode} (hb : .ioBounds ∈ codes) (hc : .corrupt ∈ codes)
include hb hc

theorem may_ljRow {s : State} {p : PumpIx} {tabs : List TableIx} {r : Nat} {x : LjRun} :
    Eff.Only codes (ljRow s p tabs r x) := by
  refine Eff.may_bind (may_forUp _ _ _ fun b y => Eff.may_bind (may_forUp _ _ _ fun i z =>
    Eff.may_bind (may_hdiff hb hc) fun d _ => ?_) fun y _ => ?_) fun _ _ => trivial
  · dsimp only
    split
    · exact Eff.may_bind may_writeOut fun _ _ => trivial
    · trivial
  · split <;> trivial

theorem may_pxCheck {s : State} : Eff.Only codes (pxCheck s) :=
  Eff.may_bind (may_imgChk hc hb) fun _ _ => only_require hc

omit hb in
theorem may_pxPut {s : State} {m : OutMemory} {r c : Nat} {v : Int} : Eff.Only codes (pxPut s m r c v) :=
  Eff.may_bind (may_require hc) fun _ _ => may_writeOut

theorem may_pxRow {s : State} {t : TableIx} {p : PumpIx} {r : Nat} {x : PxRun} :
    Eff.Only codes (pxRow s t p r x) := by
  refine Eff.may_bind (may_hdiff hb hc) fun d _ => Eff.may_bind (may_hdiff hb hc) fun e _ =>
    Eff.may_bind (may_pxPut hc) fun m _ => Eff.may_bind (may_pxPut hc) fun m' _ => may_forUp _ _ _ fun j y => ?_
  exact Eff.may_bind (may_hdiff hb hc) fun _ _ => Eff.may_bind (may_hdiff hb hc) fun _ _ =>
    Eff.may_bind (may_pxPut hc) fun _ _ => Eff.may_bind (may_pxPut hc) fun _ _ => trivial

omit hb hc in
theorem may_stripeOffsets {s : State} {v : StreamSlot} (n : Nat) {at_ : Nat} :
    Eff.Only codes (stripeOffsets s v at_ n) := by
  induction n generalizing at_ with
  | zero => trivial
  | succ n ih => exact Eff.may_bind may_windowValue fun _ _ => Eff.may_bind ih fun _ _ => trivial

omit hb in
theorem may_stripesFrom {rawOff sentinel : Nat} (l : List Nat) {r : Nat} :
    Eff.Only codes (stripesFrom rawOff sentinel r l) := by
  induction l generalizing r with
  | nil => trivial
  | cons o rest ih => exact Eff.may_bind (may_require hc) fun _ _ => Eff.may_bind ih fun _ _ => trivial

omit hc in
theorem may_svAdjust {s : State} {p : PumpIx} {q : Pump} {b : Nat} : Eff.Only codes (svAdjust s p q b) := by
  unfold svAdjust
  split
  · trivial
  · exact Eff.may_bind (may_pget hb) fun _ _ => trivial

omit hc in
theorem may_svOps {s : State} {p : PumpIx} (n : Nat) {q : Pump} : Eff.Only codes (svOps s p n q) := by
  induction n generalizing q with
  | zero => trivial
  | succ n ih => exact Eff.may_bind (may_pget hb) fun _ _ => Eff.may_bind ih fun _ _ => trivial

theorem may_svAdapt {s : State} {p : PumpIx} {r col : Nat} {ops : List Nat} {i : Nat} {x : SvRun} :
    Eff.Only codes (svAdapt s p r col ops i x) := by
  have hnew : Eff.Only codes (svNewLength s p x.pump (ops.getD i 0) (x.len.getD i 0)) := by
    unfold svNewLength
    split
    · exact Eff.may_bind (may_pget hb) fun _ _ => trivial
    split
    · trivial
    split <;> trivial
  exact Eff.may_bind hnew fun _ _ => Eff.may_bind (may_require hc) fun _ _ => trivial

omit hc in
theorem may_svUpColumn {s : State} {p : PumpIx} {r col up c : Nat} {x : SvRun} :
    Eff.Only codes (svUpColumn s p r col up c x) :=
  Eff.may_bind (may_svAdjust hb) fun _ _ => Eff.may_bind may_readOut fun _ _ =>
    Eff.may_bind may_writeOut fun _ _ => trivial

omit hc in
theorem may_svLeftColumn {s : State} {p : PumpIx} {r col left c : Nat} {x : SvRun} :
    Eff.Only codes (svLeftColumn s p r col left c x) := by
  refine Eff.may_bind (may_svAdjust hb) fun _ _ => ?_
  dsimp only
  split
  · exact Eff.may_bind may_writeOut fun _ _ => trivial
  · trivial

omit hb hc in
theorem may_svLeft {s : State} {m : OutMemory} {r col back : Nat} : Eff.Only codes (svLeft s m r col back) := by
  unfold svLeft
  split
  · trivial
  · exact Eff.may_bind may_readOut fun _ _ => trivial

theorem may_svSamples {s : State} {p : PumpIx} {r col dir : Nat} {x : SvRun} :
    Eff.Only codes (svSamples s p r col dir x) := by
  unfold svSamples
  split
  · exact Eff.may_bind (may_require hc) fun _ _ => Eff.may_bind (may_require hc) fun _ _ =>
      Eff.may_bind (may_forUp _ _ _ fun _ _ => may_svUpColumn hb) fun _ _ =>
      may_forUp _ _ _ fun _ _ => may_svUpColumn hb
  · exact Eff.may_bind may_svLeft fun _ _ =>
      Eff.may_bind (may_forUp _ _ _ fun _ _ => may_svLeftColumn hb) fun _ _ => Eff.may_bind may_svLeft fun _ _ =>
      may_forUp _ _ _ fun _ _ => may_svLeftColumn hb

theorem may_svRow {s : State} {p : PumpIx} {mode : PumpMode} {r : Nat} {x : Pump × OutMemory} :
    Eff.Only codes (svRow s p mode r x) :=
  Eff.may_bind (may_forUp _ _ _ fun _ _ => Eff.may_bind (may_pget hb) fun _ _ => Eff.may_bind (may_svOps hb 4) fun _ _ =>
    Eff.may_bind (may_forUp _ _ _ fun _ _ => may_svAdapt hb hc) fun _ _ => may_svSamples hb hc) fun _ _ => trivial

omit hb hc in
theorem may_svFixup {s : State} {m : OutMemory} : Eff.Only codes (svFixup s m) :=
  may_forUp _ _ _ fun _ _ => may_forUp _ _ _ fun _ _ => Eff.may_bind may_readOut fun _ _ =>
    Eff.may_bind may_readOut fun _ _ => Eff.may_bind may_writeOut fun _ _ => may_writeOut

/-! ## Fuji (47_fuji.md) -/

theorem may_zeroRun {s : State} {ix : PumpIx} (fuel z : Nat) {p : Pump} :
    Eff.Only codes (zeroRun s ix fuel z p) := by
  induction fuel generalizing z p with
  | zero => exact Eff.may_raise hc
  | succ fuel ih =>
    refine Eff.may_bind (may_pget hb) fun x _ => ?_
    dsimp only
    split
    · exact ih _
    · trivial

theorem may_fjRawCode {s : State} {ix : PumpIx} {p : Pump} {pair : GradPair} :
    Eff.Only codes (fjRawCode s ix p pair) := by
  refine Eff.may_bind (may_zeroRun hb hc _ _) fun x _ => ?_
  dsimp only
  split
  · split
    · trivial
    · exact Eff.may_bind (may_pget hb) fun _ _ => trivial
  · exact Eff.may_bind (may_pget hb) fun _ _ => trivial

theorem may_fjCode {s : State} {ix : PumpIx} {p : Pump} {pair : GradPair} :
    Eff.Only codes (fjCode s ix p pair) :=
  Eff.may_bind (may_fjRawCode hb hc) fun _ _ => trivial

omit hb in
theorem may_neighbourCheck {f : Fuji} (l : List Nat) : Eff.Only codes (neighbourCheck f l) := by
  induction l with
  | nil => trivial
  | cons a l ih => exact Eff.may_bind (may_require hc) fun _ _ => ih

omit hb in
theorem may_stripCheck {s : State} {i : Nat} : Eff.Only codes (stripCheck s i) :=
  Eff.may_bind (may_require hc) fun _ _ => Eff.may_bind (may_require hc) fun _ _ => only_require hc

end

end Sys2Proof.Machine

/-! SUPPORT. How every command ends, in any state: completed with only what its Writes line names changed, or in an error
of its row (spec 40_control.md R101, R103, 60_exceptions.md R262, R263). -/

namespace Sys2Proof.Machine

/-! ## What the pseudocode of a command leaves alone -/

/-- What the pseudocode of a command that may write `w` never changes: the rest of the slots and contexts, the
completion and error state, the host's registers, IN, and the model's own fields but those of OUT. -/
structure Frame (w : Writes) (s u : State) : Prop where
  streams : ∀ k : StreamIx, k ∉ w.streams → u.streams[k] = s.streams[k]
  pumps : ∀ p : PumpIx, p ∉ w.pumps → u.pumps[p] = s.pumps[p]
  tables : ∀ h : TableIx, h ∉ w.tables → u.tables[h] = s.tables[h]
  res : w.res = false → u.res = s.res
  sv0 : w.sv0 = false → u.sv0 = s.sv0
  fuji : w.fuji = false → u.fuji = s.fuji
  out : w.out = false → u.outMem = s.outMem ∧ u.outRaced = s.outRaced ∧ u.unseen = s.unseen
  status : u.status = s.status
  err : u.err = s.err
  cmdcnt : u.cmdcnt = s.cmdcnt
  cmd : u.cmd = s.cmd
  irqEn : u.irqEn = s.irqEn
  regs : u.regs = s.regs
  par : u.par = s.par
  inMem : u.inMem = s.inMem
  inRaced : u.inRaced = s.inRaced
  events : u.events = s.events
  hostData : u.hostData = s.hostData
  draws : u.draws = s.draws

section
variable {w : Writes} {s u : State}

theorem Frame.refl (w : Writes) (s : State) : Frame w s s := by
  constructor <;> intros <;> trivial

theorem Frame.setStream (h : Frame w s u) {k : StreamIx} (hk : k ∈ w.streams) (v : StreamSlot) :
    Frame w s (u.setStream k v) :=
  { h with
    streams := fun j hj =>
      (State.setStream_other u v (fun e => hj (e ▸ hk) : j ≠ k)).trans (h.streams j hj) }

theorem Frame.setPos (h : Frame w s u) {k : StreamIx} (hk : k ∈ w.streams) (n : Nat) : Frame w s (u.setPos k n) :=
  h.setStream hk _

theorem Frame.setPump (h : Frame w s u) {p : PumpIx} (hp : p ∈ w.pumps) (v : Pump) : Frame w s (u.setPump p v) :=
  { h with
    pumps := fun j hj =>
      (State.setPump_other u v (fun e => hj (e ▸ hp) : j ≠ p)).trans (h.pumps j hj) }

theorem Frame.setTable (h : Frame w s u) {t : TableIx} (ht : t ∈ w.tables) (v : HuffTable) :
    Frame w s (u.setTable t v) :=
  { h with
    tables := fun j hj =>
      (State.setTable_other u v (fun e => hj (e ▸ ht) : j ≠ t)).trans (h.tables j hj) }

theorem Frame.setRes (h : Frame w s u) (hw : w.res = true) (v : Int) : Frame w s (u.setRes v) :=
  { h with res := fun hn => by rw [hw] at hn; cases hn }

theorem Frame.withSv0 (h : Frame w s u) (hw : w.sv0 = true) (v : Sv0) : Frame w s { u with sv0 := v } :=
  { h with sv0 := fun hn => by rw [hw] at hn; cases hn }

theorem Frame.withFuji (h : Frame w s u) (hw : w.fuji = true) (v : Fuji) : Frame w s { u with fuji := v } :=
  { h with fuji := fun hn => by rw [hw] at hn; cases hn }

theorem Frame.withOut (h : Frame w s u) (hw : w.out = true) (m : OutMemory) : Frame w s { u with outMem := m } :=
  { h with out := fun hn => by rw [hw] at hn; cases hn }

theorem Frame.settleMacro (h : Frame w s u) (hw : w.out = true) : Frame w s u.settleMacro :=
  { h with out := fun hn => by rw [hw] at hn; cases hn }

end

/-! ## The pseudocode of each command -/

/-- What cannot fault may do what it can. -/
theorem Eff.Can.may {α : Type} {codes : List ErrCode} {post : α → Prop} {x : Eff α} (h : Eff.Can codes post x) :
    Eff.Only codes x := by
  match x, h with
  | .ok _, _ => trivial
  | .error (.raised _), h => exact h

section
variable {w : Writes} {s : State}

theorem may_streamGet {k : StreamIx} {n : Nat} (hk : k ∈ w.streams) (hw : w.res = true) :
    Eff.May [.state, .ioBounds] (Frame w s) (streamGet s k n) :=
  Eff.may_bind (may_schk (by simp)) fun _ _ => Eff.may_bind (may_streamRead (by simp)) fun _ _ =>
    ((Frame.refl w s).setRes hw _).setPos hk _

theorem may_streamPeek {k : StreamIx} {n : Nat} (hw : w.res = true) :
    Eff.May [.state, .ioBounds] (Frame w s) (streamPeek s k n) :=
  Eff.may_bind (may_schk (by simp)) fun _ _ => Eff.may_bind (may_streamRead (by simp)) fun _ _ =>
    (Frame.refl w s).setRes hw _

theorem may_bsInit {k : StreamIx} {be : Bool} (hk : k ∈ w.streams) :
    Eff.May [.ioBounds] (Frame w s) (bsInit k be s) :=
  Eff.may_bind (may_require (by simp)) fun _ _ => (Frame.refl w s).setStream hk _

theorem may_bsSkip {k : StreamIx} (hk : k ∈ w.streams) : Eff.May [.state, .ioBounds] (Frame w s) (bsSkip k s) :=
  Eff.may_bind (may_schk (by simp)) fun _ _ => Eff.may_bind (may_needRemaining (by simp)) fun _ _ =>
    (Frame.refl w s).setPos hk _

theorem may_bsGetStream {a b : StreamIx} (ha : a ∈ w.streams) (hb : b ∈ w.streams) :
    Eff.May [.state, .ioBounds] (Frame w s) (bsGetStream a b s) :=
  Eff.may_bind (may_schk (by simp)) fun _ _ => Eff.may_bind (may_needRemaining (by simp)) fun _ _ =>
    ((Frame.refl w s).setPos ha _).setStream hb _

theorem may_bsGetSubstream {a b : StreamIx} (hb : b ∈ w.streams) :
    Eff.May [.state, .ioBounds] (Frame w s) (bsGetSubstream a b s) :=
  Eff.may_bind (may_schk (by simp)) fun _ _ => Eff.may_bind (may_require (by simp)) fun _ _ =>
    (Frame.refl w s).setStream hb _

theorem may_bsHasPrefix {k : StreamIx} {n : BitVec 4} (hw : w.res = true) :
    Eff.May [.illegal, .state] (Frame w s) (bsHasPrefix k n s) :=
  Eff.may_bind (may_require (by simp)) fun _ _ => Eff.may_bind (may_schk (by simp)) fun _ _ =>
    Eff.may_bind may_prefixMatches fun _ _ => (Frame.refl w s).setRes hw _

theorem may_bsSkipPrefix {k : StreamIx} {n : BitVec 4} (hk : k ∈ w.streams) (hw : w.res = true) :
    Eff.May [.illegal, .state] (Frame w s) (bsSkipPrefix k n s) := by
  refine Eff.may_bind (may_require (by simp)) fun _ _ => Eff.may_bind (may_schk (by simp)) fun _ _ =>
    Eff.may_bind may_prefixMatches fun hit _ => ?_
  cases hit
  · exact (Frame.refl w s).setRes hw _
  · exact ((Frame.refl w s).setPos hk _).setRes hw _

theorem may_bsRebase {k : StreamIx} (hk : k ∈ w.streams) :
    Eff.May [.state, .ioBounds, .ioOverflow] (Frame w s) (bsRebase k s) :=
  Eff.may_bind (may_schk (by simp)) fun _ _ => Eff.may_bind (may_needRemaining (by simp)) fun _ _ =>
    Eff.may_bind (may_require (by simp)) fun _ _ => Eff.may_bind (may_require (by simp)) fun _ _ =>
    (Frame.refl w s).setStream hk _

theorem may_bsCheck {k : StreamIx} : Eff.May [.state, .ioBounds, .ioOverflow] (Frame w s) (bsCheck k s) :=
  Eff.may_bind (may_schk (by simp)) fun _ _ => Eff.may_bind (may_require (by simp)) fun _ _ =>
    Eff.may_bind (may_needRemaining (by simp)) fun _ _ => .refl w s

theorem may_bpInit {p : PumpIx} {k : StreamIx} {mode : PumpMode} (hp : p ∈ w.pumps) :
    Eff.May [.state] (Frame w s) (bpInit p k mode s) :=
  Eff.may_bind (may_schk (by simp)) fun _ _ => (Frame.refl w s).setPump hp _

theorem may_bpFill {p : PumpIx} (hp : p ∈ w.pumps) : Eff.May [.state] (Frame w s) (bpFill p s) :=
  Eff.may_bind (may_pchk (by simp)) fun _ _ => Eff.may_bind may_fill fun _ _ => (Frame.refl w s).setPump hp _

theorem may_bpGetBits {p : PumpIx} {n : BitVec 6} (hp : p ∈ w.pumps) (hw : w.res = true) :
    Eff.May [.illegal, .state, .ioBounds] (Frame w s) (bpGetBits p n s) :=
  Eff.may_bind (may_require (by simp)) fun _ _ => Eff.may_bind (may_pchk (by simp)) fun _ _ =>
    Eff.may_bind (may_pget (by simp)) fun _ _ => ((Frame.refl w s).setPump hp _).setRes hw _

theorem may_bpPeekBits {p : PumpIx} {n : BitVec 6} (hp : p ∈ w.pumps) (hw : w.res = true) :
    Eff.May [.illegal, .state] (Frame w s) (bpPeekBits p n s) :=
  Eff.may_bind (may_require (by simp)) fun _ _ => Eff.may_bind (may_pchk (by simp)) fun _ _ =>
    Eff.may_bind may_ppeek fun _ _ => ((Frame.refl w s).setPump hp _).setRes hw _

theorem may_bpSkipBits {p : PumpIx} {n : BitVec 6} (hp : p ∈ w.pumps) :
    Eff.May [.illegal, .state, .ioBounds] (Frame w s) (bpSkipBits p n s) :=
  Eff.may_bind (may_require (by simp)) fun _ _ => Eff.may_bind (may_pchk (by simp)) fun _ _ =>
    Eff.may_bind (may_pskip (by simp)) fun _ _ => (Frame.refl w s).setPump hp _

theorem may_htSetCounts {t : TableIx} (ht : t ∈ w.tables) :
    Eff.May [.state, .corrupt] (Frame w s) (htSetCounts t s) := by
  unfold htSetCounts
  dsimp only
  -- The sum is not to be computed here.
  generalize countSum s.regs.codeCounts = sum
  exact Eff.may_bind (may_require (by simp)) fun _ _ => Eff.may_bind (may_require (by simp)) fun _ _ =>
    (Frame.refl w s).setTable ht _

theorem may_htSetValues {t : TableIx} {k : StreamIx} {n : BitVec 9} (ht : t ∈ w.tables) (hk : k ∈ w.streams) :
    Eff.May [.illegal, .state, .ioBounds, .corrupt] (Frame w s) (htSetValues t k n s) :=
  Eff.may_bind (may_require (by simp)) fun _ _ => Eff.may_bind (may_require (by simp)) fun _ _ =>
    Eff.may_bind (may_schk (by simp)) fun _ _ => Eff.may_bind (may_require (by simp)) fun _ _ =>
    Eff.may_bind (may_needRemaining (by simp)) fun _ _ => Eff.may_bind may_windowBytes fun _ _ =>
    ((Frame.refl w s).setTable ht _).setPos hk _

theorem may_htSetup {t : TableIx} {d : Bool} (ht : t ∈ w.tables) :
    Eff.May [.state, .corrupt] (Frame w s) (htSetup t d s) :=
  Eff.may_bind (may_require (by simp)) fun _ _ => Eff.may_bind (may_canon (by simp)) fun _ _ =>
    (Frame.refl w s).setTable ht _

theorem may_htDecodeSym {t : TableIx} {p : PumpIx} (hp : p ∈ w.pumps) (hw : w.res = true) :
    Eff.May [.state, .ioBounds, .corrupt] (Frame w s) (htDecodeSym t p s) :=
  Eff.may_bind (may_tchk (by simp)) fun _ _ => Eff.may_bind (may_pchk (by simp)) fun _ _ =>
    Eff.may_bind (may_hsymFrom (by simp) (by simp) _ _ _) fun _ _ => ((Frame.refl w s).setPump hp _).setRes hw _

theorem may_htDecodeDiff {t : TableIx} {p : PumpIx} (hp : p ∈ w.pumps) (hw : w.res = true) :
    Eff.May [.state, .ioBounds, .corrupt] (Frame w s) (htDecodeDiff t p s) :=
  Eff.may_bind (may_tchk (by simp)) fun _ _ => Eff.may_bind (may_pchk (by simp)) fun _ _ =>
    Eff.may_bind (may_hdiff (by simp) (by simp)) fun _ _ => ((Frame.refl w s).setPump hp _).setRes hw _

theorem may_loadTable {codes : List ErrCode} {t : TableIx} {c : Vector Byte Config.htMaxLen} {values : List Byte}
    (hc : .corrupt ∈ codes) (ht : t ∈ w.tables) : Eff.May codes (Frame w s) (loadTable t c values s) :=
  Eff.may_bind (may_canon hc) fun _ _ => (Frame.refl w s).setTable ht _

/-- The legacy counts fill every length's codes exactly (43_huffman.md R168). -/
theorem firstCode_legacy_le (l : Nat) :
    firstCode (loadedTable pentaxLegacyCounts pentaxLegacyValues) l +
      (loadedTable pentaxLegacyCounts pentaxLegacyValues).countOf (l + 1) ≤ 2 ^ (l + 1) := by
  rcases Nat.lt_or_ge l 16 with hl | hl
  · have hsmall : ∀ l < 16, firstCode (loadedTable pentaxLegacyCounts pentaxLegacyValues) l +
        (loadedTable pentaxLegacyCounts pentaxLegacyValues).countOf (l + 1) ≤ 2 ^ (l + 1) := by decide
    exact hsmall l hl
  · have hcount : ∀ l ≥ 16, (loadedTable pentaxLegacyCounts pentaxLegacyValues).countOf (l + 1) = 0 := by
      intro l hl
      rw [HuffTable.countOf, Nat.add_sub_cancel, Vector.getElem?_eq_none hl]
      rfl
    have hfirst : firstCode (loadedTable pentaxLegacyCounts pentaxLegacyValues) l ≤ 2 ^ (l + 1) := by
      induction l, hl using Nat.le_induction with
      | base => decide
      | succ l hl ih =>
        rw [firstCode_succ, hcount l hl, pow_succ]
        omega
    rwa [hcount l hl]

/-- A load of the legacy table raises nothing (43_huffman.md R168). -/
theorem may_loadLegacy {t : TableIx} (ht : t ∈ w.tables) :
    Eff.May [] (Frame w s) (loadTable t pentaxLegacyCounts pentaxLegacyValues s) := by
  have hstep : ∀ l x, x.code = firstCode (loadedTable pentaxLegacyCounts pentaxLegacyValues) l →
      Eff.Can [] (fun y => y.code = firstCode (loadedTable pentaxLegacyCounts pentaxLegacyValues) (l + 1))
        (canonStep t (loadedTable pentaxLegacyCounts pentaxLegacyValues) l x) := by
    intro l x hx
    have hfits := firstCode_legacy_le l
    rw [← hx] at hfits
    rw [canonStep, (require_ok (u := ())).mpr (decide_eq_true hfits), Eff.ok_bind]
    show 2 * _ = _
    rw [firstCode_succ, hx]
  have hloop := can_forUp (codes := []) (body := canonStep t (loadedTable pentaxLegacyCounts pentaxLegacyValues))
    (fun l x => x.code = firstCode (loadedTable pentaxLegacyCounts pentaxLegacyValues) l) s.par.htMaxLen 0
    ⟨0, 0, HuffTable.reset.first, HuffTable.reset.index⟩ rfl fun l x _ _ hx => hstep l x hx
  have hcanon : Eff.Only [] (canon s.par t (loadedTable pentaxLegacyCounts pentaxLegacyValues)) :=
    Eff.may_bind hloop.may fun _ _ => trivial
  exact Eff.may_bind hcanon fun _ _ => (Frame.refl w s).setTable ht _

theorem may_htLoadPentax {t : TableIx} {k : StreamIx} (ht : t ∈ w.tables) (hk : k ∈ w.streams) :
    Eff.May [.state, .ioBounds, .corrupt] (Frame w s) (htLoadPentax t k s) := by
  refine Eff.may_bind (may_schk (by simp)) fun _ _ => Eff.may_bind (may_require (by simp)) fun _ _ =>
    Eff.may_bind may_windowValue fun _ _ => Eff.may_bind (may_require (by simp)) fun _ _ =>
    Eff.may_bind (may_require (by simp)) fun _ _ => Eff.may_bind (may_pentaxCodes _) fun codes _ =>
    Eff.may_bind (may_pentaxEntries (by simp) codes) fun entries _ => ?_
  split
  · exact Eff.may_raise (by simp)
  · exact Eff.may_bind (may_loadTable (by simp) ht) fun _ hu => hu.setPos hk _

theorem may_ljDecode {p : PumpIx} (hp : p ∈ w.pumps) (hw : w.out = true) :
    Eff.May [.state, .ioBounds, .corrupt, .unsupported] (Frame w s) (ljDecode p s) :=
  Eff.may_bind (may_pchk (by simp)) fun _ _ => Eff.may_bind may_ljCheck fun _ _ =>
    Eff.may_bind (may_forUp _ _ _ fun _ _ => may_ljRow (by simp) (by simp)) fun _ _ =>
    ((Frame.refl w s).setPump hp _).withOut hw _

theorem may_pxDecode {p : PumpIx} {t : TableIx} (hp : p ∈ w.pumps) (hw : w.out = true) :
    Eff.May [.state, .ioBounds, .corrupt] (Frame w s) (pxDecode p t s) :=
  Eff.may_bind (may_pchk (by simp)) fun _ _ => Eff.may_bind (may_tchk (by simp)) fun _ _ =>
    Eff.may_bind (may_pxCheck (by simp) (by simp)) fun _ _ =>
    Eff.may_bind (may_forUp _ _ _ fun _ _ => may_pxRow (by simp) (by simp)) fun _ _ =>
    ((Frame.refl w s).setPump hp _).withOut hw _

/-- SV0_STRIPES runs after it has cleared SV0.ready (46_samsung.md R210). -/
theorem may_sv0Stripes {u : State} {a b : StreamIx} (hu : Frame w s u) (ha : a ∈ w.streams) (hw : w.sv0 = true) :
    Eff.May [.state, .ioBounds, .corrupt, .unsupported] (Frame w s) (sv0Stripes a b u) :=
  Eff.may_bind (may_schk (by simp)) fun _ _ => Eff.may_bind (may_schk (by simp)) fun _ _ =>
    Eff.may_bind (may_require (by simp)) fun _ _ => Eff.may_bind (may_require (by simp)) fun _ _ =>
    Eff.may_bind (may_require (by simp)) fun _ _ => Eff.may_bind (may_stripeOffsets _) fun os _ =>
    Eff.may_bind (may_stripesFrom (by simp) os) fun _ _ => (hu.setPos ha _).withSv0 hw _

theorem may_sv0Decode {p : PumpIx} {mode : PumpMode} (hp : p ∈ w.pumps) (hw : w.sv0 = true) (hout : w.out = true) :
    Eff.May [.state, .ioBounds, .corrupt] (Frame w s) (sv0Decode p mode s) :=
  Eff.may_bind (may_require (by simp)) fun _ _ => Eff.may_bind (may_require (by simp)) fun _ _ =>
    Eff.may_bind (may_imgChk (by simp) (by simp)) fun _ _ =>
    Eff.may_bind (may_forUp _ _ _ fun _ _ => may_svRow (by simp) (by simp)) fun x _ =>
    Eff.may_bind may_svFixup fun m _ =>
    (((Frame.refl w s).setPump hp x.1).withOut hout m).withSv0 hw { s.sv0 with ready := false }

theorem may_fjInit {rb : BitVec 5} (hw : w.fuji = true) : Eff.May [.corrupt] (Frame w s) (fjInit rb s) := by
  unfold fjInit
  split
  · exact (Frame.refl w s).withFuji hw _
  split
  · exact (Frame.refl w s).withFuji hw _
  · exact Eff.may_raise (by simp)

theorem may_fjGradReset (hw : w.fuji = true) : Eff.May [.state] (Frame w s) (fjGradReset s) :=
  Eff.may_bind (may_require (by simp)) fun _ _ => (Frame.refl w s).withFuji hw _

theorem may_fjSampleEven {p : PumpIx} {j : GradSet} (hp : p ∈ w.pumps) (hres : w.res = true) (hw : w.fuji = true) :
    Eff.May [.state, .ioBounds, .corrupt] (Frame w s) (fjSampleEven p j s) :=
  Eff.may_bind (may_require (by simp)) fun _ _ => Eff.may_bind (may_pchk (by simp)) fun _ _ =>
    Eff.may_bind (may_neighbourCheck (by simp) _) fun _ _ => Eff.may_bind (may_fjCode (by simp) (by simp)) fun _ _ =>
    (((Frame.refl w s).setPump hp _).setRes hres _).withFuji hw _

theorem may_fjSampleOdd {p : PumpIx} {j : GradSet} (hp : p ∈ w.pumps) (hres : w.res = true) (hw : w.fuji = true) :
    Eff.May [.state, .ioBounds, .corrupt] (Frame w s) (fjSampleOdd p j s) :=
  Eff.may_bind (may_require (by simp)) fun _ _ => Eff.may_bind (may_pchk (by simp)) fun _ _ =>
    Eff.may_bind (may_neighbourCheck (by simp) _) fun _ _ => Eff.may_bind (may_fjCode (by simp) (by simp)) fun _ _ =>
    (((Frame.refl w s).setPump hp _).setRes hres _).withFuji hw _

theorem may_fjEndStrip : Eff.May [.state, .corrupt] (Frame w s) (fjEndStrip s) :=
  Eff.may_bind (may_require (by simp)) fun _ _ => Eff.may_bind (may_require (by simp)) fun _ _ => .refl w s

theorem may_fjStripWidth {i : BitVec 16} (hw : w.res = true) : Eff.May [.corrupt] (Frame w s) (fjStripWidth i s) :=
  Eff.may_bind (may_stripCheck (by simp)) fun _ _ => (Frame.refl w s).setRes hw _

theorem may_fjStripOffset {i : BitVec 16} (hw : w.res = true) : Eff.May [.corrupt] (Frame w s) (fjStripOffset i s) :=
  Eff.may_bind (may_stripCheck (by simp)) fun _ _ => (Frame.refl w s).setRes hw _

end

/-! ## How every command ends -/

/-- The state in which a failed command enters its error: SV0_STRIPES and SV0_DECODE have cleared SV0.ready, and a
decoding command has left its image region and pump any value (40_control.md R103). -/
def State.failed (s : State) (i : Instr) : State :=
  match i with
  | .ljDecode p => s.spoilMacro p
  | .pxDecode p _ => s.spoilMacro p
  | .sv0Stripes _ _ => s.clearReady
  | .sv0Decode p _ => s.clearReady.spoilMacro p
  | _ => s

/-- The two ends of a command (40_control.md R101, R103). -/
def Ends (i : Instr) (s t : State) : Prop :=
  (∃ u, Frame (writesOf i) s u ∧ t = u.complete) ∨
    ∃ e : ErrInfo, e.code ∈ .illegal :: allowedCodes i ∧ t = (s.failed i).enterError e

theorem finishPrimitive_ends {i : Instr} {codes : List ErrCode} {s s' t : State} {r : Eff State}
    (hr : Eff.May codes (Frame (writesOf i) s) r) (hc : ∀ c ∈ codes, c ∈ .illegal :: allowedCodes i)
    (hs : s' = s.failed i) (ht : finishPrimitive s' r = .next t) : Ends i s t := by
  obtain ⟨u, rfl, rfl⟩ | ⟨e, rfl, rfl⟩ := finishPrimitive_next.mp ht
  · exact .inl ⟨u, hr, rfl⟩
  · exact .inr ⟨e, hc _ hr, hs ▸ rfl⟩

theorem finishMacro_ends {i : Instr} {codes : List ErrCode} {s s' t : State} {p : PumpIx} {r : Eff State}
    (hr : Eff.May codes (Frame (writesOf i) s) r) (hout : (writesOf i).out = true)
    (hc : ∀ c ∈ codes, c ∈ .illegal :: allowedCodes i) (hs : s'.spoilMacro p = s.failed i)
    (ht : finishMacro s' p r = .next t) : Ends i s t := by
  obtain ⟨u, rfl, rfl⟩ | ⟨e, rfl, rfl⟩ := finishMacro_next.mp ht
  · exact .inl ⟨u.settleMacro, Frame.settleMacro hr hout, rfl⟩
  · exact .inr ⟨e, hc _ hr, hs ▸ rfl⟩

/-- Every command that answers ends in one of its two ways, well-formed or not. -/
theorem exec_ends {i : Instr} {s t : State} (ht : exec i s = .next t) : Ends i s t := by
  have one : ∀ {n : Nat} (k : Fin n), k ∈ [k] := fun k => List.mem_singleton_self k
  cases i with
  | nop => exact finishPrimitive_ends (codes := []) (r := .ok s) (Frame.refl _ s) nofun rfl ht
  | bsInit k be => exact finishPrimitive_ends (may_bsInit (one k)) (by simp [allowedCodes]) rfl ht
  | bsGetU8 k => exact finishPrimitive_ends (may_streamGet (one k) rfl) (by simp [allowedCodes]) rfl ht
  | bsGetU16 k => exact finishPrimitive_ends (may_streamGet (one k) rfl) (by simp [allowedCodes]) rfl ht
  | bsGetU32 k => exact finishPrimitive_ends (may_streamGet (one k) rfl) (by simp [allowedCodes]) rfl ht
  | bsGetI32 k => exact finishPrimitive_ends (may_streamGet (one k) rfl) (by simp [allowedCodes]) rfl ht
  | bsGetF32 k => exact finishPrimitive_ends (may_streamGet (one k) rfl) (by simp [allowedCodes]) rfl ht
  | bsPeekU8 k => exact finishPrimitive_ends (may_streamPeek rfl) (by simp [allowedCodes]) rfl ht
  | bsPeekU16 k => exact finishPrimitive_ends (may_streamPeek rfl) (by simp [allowedCodes]) rfl ht
  | bsPeekU32 k => exact finishPrimitive_ends (may_streamPeek rfl) (by simp [allowedCodes]) rfl ht
  | bsSkip k => exact finishPrimitive_ends (may_bsSkip (one k)) (by simp [allowedCodes]) rfl ht
  | bsGetStream src dst =>
    exact finishPrimitive_ends (may_bsGetStream (by simp [writesOf]) (by simp [writesOf])) (by simp [allowedCodes])
      rfl ht
  | bsGetSubstream src dst => exact finishPrimitive_ends (may_bsGetSubstream (one dst)) (by simp [allowedCodes]) rfl ht
  | bsHasPrefix k n => exact finishPrimitive_ends (may_bsHasPrefix rfl) (by simp [allowedCodes]) rfl ht
  | bsSkipPrefix k n => exact finishPrimitive_ends (may_bsSkipPrefix (one k) rfl) (by simp [allowedCodes]) rfl ht
  | bsRebase k => exact finishPrimitive_ends (may_bsRebase (one k)) (by simp [allowedCodes]) rfl ht
  | bsCheck k => exact finishPrimitive_ends may_bsCheck (by simp [allowedCodes]) rfl ht
  | bpInit p k mode => exact finishPrimitive_ends (may_bpInit (one p)) (by simp [allowedCodes]) rfl ht
  | bpFill p => exact finishPrimitive_ends (may_bpFill (one p)) (by simp [allowedCodes]) rfl ht
  | bpGetBits p n => exact finishPrimitive_ends (may_bpGetBits (one p) rfl) (by simp [allowedCodes]) rfl ht
  | bpPeekBits p n => exact finishPrimitive_ends (may_bpPeekBits (one p) rfl) (by simp [allowedCodes]) rfl ht
  | bpSkipBits p n => exact finishPrimitive_ends (may_bpSkipBits (one p)) (by simp [allowedCodes]) rfl ht
  | htReset t =>
    exact finishPrimitive_ends (codes := []) (r := .ok (s.setTable t .reset))
      ((Frame.refl (writesOf (.htReset t)) s).setTable (one t) _) nofun rfl ht
  | htSetCounts t => exact finishPrimitive_ends (may_htSetCounts (one t)) (by simp [allowedCodes]) rfl ht
  | htSetValues t k n => exact finishPrimitive_ends (may_htSetValues (one t) (one k)) (by simp [allowedCodes]) rfl ht
  | htSetup t dng16 => exact finishPrimitive_ends (may_htSetup (one t)) (by simp [allowedCodes]) rfl ht
  | htDecodeSym t p => exact finishPrimitive_ends (may_htDecodeSym (one p) rfl) (by simp [allowedCodes]) rfl ht
  | htDecodeDiff t p => exact finishPrimitive_ends (may_htDecodeDiff (one p) rfl) (by simp [allowedCodes]) rfl ht
  | htLoadPentaxLegacy t => exact finishPrimitive_ends (may_loadLegacy (one t)) nofun rfl ht
  | htLoadPentax t k => exact finishPrimitive_ends (may_htLoadPentax (one t) (one k)) (by simp [allowedCodes]) rfl ht
  | ljDecode p => exact finishMacro_ends (may_ljDecode (one p) rfl) rfl (by simp [allowedCodes]) rfl ht
  | pxDecode p t => exact finishMacro_ends (may_pxDecode (one p) rfl) rfl (by simp [allowedCodes]) rfl ht
  | sv0Stripes offs raw =>
    exact finishPrimitive_ends (may_sv0Stripes ((Frame.refl _ s).withSv0 rfl _) (one offs) rfl)
      (by simp [allowedCodes]) rfl ht
  | sv0Decode p mode => exact finishMacro_ends (may_sv0Decode (one p) rfl rfl) rfl (by simp [allowedCodes]) rfl ht
  | fjInit rb => exact finishPrimitive_ends (may_fjInit rfl) (by simp [allowedCodes]) rfl ht
  | fjGradReset => exact finishPrimitive_ends (may_fjGradReset rfl) (by simp [allowedCodes]) rfl ht
  | fjSampleEven p j =>
    exact finishPrimitive_ends (may_fjSampleEven (one p) rfl rfl) (by simp [allowedCodes]) rfl ht
  | fjSampleOdd p j => exact finishPrimitive_ends (may_fjSampleOdd (one p) rfl rfl) (by simp [allowedCodes]) rfl ht
  | fjEndStrip => exact finishPrimitive_ends may_fjEndStrip (by simp [allowedCodes]) rfl ht
  | fjStripWidth strip => exact finishPrimitive_ends (may_fjStripWidth rfl) (by simp [allowedCodes]) rfl ht
  | fjStripOffset strip => exact finishPrimitive_ends (may_fjStripOffset rfl) (by simp [allowedCodes]) rfl ht

/-- No command raises without a code. -/
theorem none_not_allowed (i : Instr) : ErrCode.none ∉ ErrCode.illegal :: allowedCodes i := by
  cases i <;> simp [allowedCodes]

/-- What a failed command keeps up to its error entry: the status, the results and every table. -/
structure KeepsResults (s u : State) : Prop where
  status : u.status = s.status
  cmdcnt : u.cmdcnt = s.cmdcnt
  res : u.res = s.res
  cmd : u.cmd = s.cmd
  tables : u.tables = s.tables

theorem State.failed_keeps (s : State) (i : Instr) : KeepsResults s (s.failed i) := by
  cases i <;> exact ⟨rfl, rfl, rfl, rfl, rfl⟩

/-- Settles O15, by the two ends of a command. -/
theorem commandEndsDoneOrInError : Obligations.CommandEndsDoneOrInError := by
  intro i s t ht
  obtain ⟨u, hframe, rfl⟩ | ⟨e, hcode, rfl⟩ := exec_ends ht
  · refine ⟨rfl, .inl ⟨rfl, ?_, hframe.err, ?_⟩⟩
    · rw [State.complete_status, hframe.status]
    · rw [State.complete_cmdcnt, hframe.cmdcnt]
  · have hkeeps := s.failed_keeps i
    refine ⟨rfl, .inr ⟨rfl, ?_, hkeeps.cmdcnt, hkeeps.res, hkeeps.cmd, fun hnone => ?_⟩⟩
    · rw [State.enterError_status, hkeeps.status]
    · exact none_not_allowed i ((show e.code = .none from hnone) ▸ hcode)

/-! ## READY tables (10_state.md R40) -/

/-- The construction commands refuse a READY table (43_huffman.md R161-R163). -/
theorem construction_refuses_ready {s t : State} {h : TableIx} (hready : s.tables[h].state = .ready) {i : Instr}
    (hi : i = .htSetCounts h ∨ (∃ k n, i = .htSetValues h k n) ∨ ∃ d, i = .htSetup h d)
    (ht : exec i s = .next t) : ∃ e, t = s.enterError e := by
  have hstop : ∀ {r : Eff State}, (∀ u, r ≠ .ok u) → finishPrimitive s r = .next t → ∃ e, t = s.enterError e := by
    intro r hr ht
    obtain ⟨u, hu, -⟩ | ⟨e, -, rfl⟩ := finishPrimitive_next.mp ht
    · exact absurd hu (hr u)
    · exact ⟨e, rfl⟩
  rcases hi with rfl | ⟨k, n, rfl⟩ | ⟨d, rfl⟩
  · refine hstop (fun u hu => ?_) ht
    obtain ⟨_, hstate, -⟩ := Eff.bind_ok.mp hu
    exact of_decide_eq_true (require_ok.mp hstate) hready
  · refine hstop (fun u hu => ?_) ht
    obtain ⟨_, -, hu⟩ := Eff.bind_ok.mp hu
    obtain ⟨_, hstate, -⟩ := Eff.bind_ok.mp hu
    have hcounts : s.tables[h].state = .counts := of_decide_eq_true (require_ok.mp hstate)
    rw [hready] at hcounts
    cases hcounts
  · refine hstop (fun u hu => ?_) ht
    obtain ⟨_, hstate, -⟩ := Eff.bind_ok.mp hu
    have hvalues : s.tables[h].state = .values := of_decide_eq_true (require_ok.mp hstate)
    rw [hready] at hvalues
    cases hvalues

/-- The commands that may write a table: its construction, its reset and its loads. -/
theorem mem_writesOf_tables {i : Instr} {h : TableIx} (hi : h ∈ (writesOf i).tables) :
    (i = .htSetCounts h ∨ (∃ k n, i = .htSetValues h k n) ∨ ∃ d, i = .htSetup h d) ∨
      i = .htReset h ∨ i = .htLoadPentaxLegacy h ∨ ∃ k, i = .htLoadPentax h k := by
  cases i <;> simp_all [writesOf]

/-- Settles O18: a command that may write the table either refuses it or is one of the three. -/
theorem readyTablesChangeOnlyByResetOrLoad : Obligations.ReadyTablesChangeOnlyByResetOrLoad := by
  intro i h s t hreset hlegacy hload hready ht
  by_cases hw : h ∈ (writesOf i).tables
  · obtain hbuild | rfl | rfl | ⟨k, rfl⟩ := mem_writesOf_tables hw
    · obtain ⟨e, rfl⟩ := construction_refuses_ready hready hbuild ht
      rfl
    · exact absurd rfl hreset
    · exact absurd rfl hlegacy
    · exact absurd rfl (hload k)
  · obtain ⟨u, hframe, rfl⟩ | ⟨e, -, rfl⟩ := exec_ends ht
    · exact hframe.tables h hw
    · rw [State.enterError_tables, (s.failed_keeps i).tables]

end Sys2Proof.Machine

/-! SUPPORT. The pump commands on a legal pump, in closed form (spec 42_bitpump.md R141-R146). -/

namespace Sys2Proof.Machine

theorem pchk_valid {s : State} {p : PumpIx} (h : s.pumps[p].valid = true) : pchk s p = .ok s.pumps[p] :=
  pchk_ok.mpr ⟨h, rfl⟩

theorem requireLegal_bitCount {s : State} {n : BitVec 6} (h : n.toNat ≤ 32) :
    requireLegal s (bitCountOk n) = .ok () := require_ok.mpr (decide_eq_true h)

/-- A read is refused exactly where its bits may not be delivered (42_bitpump.md R146). -/
theorem overreads_eq_false_iff {par : Params} {p : Pump} {n : Nat} :
    overreads par p n = false ↔ p.mayDeliver par n := by
  unfold overreads Pump.mayDeliver Pump.dataBits
  cases p.mode <;> simp

/-- A fill changes nothing the bound of a read depends on. -/
theorem Pump.SameWindow.mayDeliver {par : Params} {p q : Pump} {n : Nat} (h : p.SameWindow q)
    (hc : q.consumed = p.consumed) : q.mayDeliver par n ↔ p.mayDeliver par n := by
  unfold Pump.mayDeliver Pump.dataBits
  rw [h.mode, h.size, hc]

theorem u32_natCast (n : Nat) : u32 (n : Int) = BitVec.ofNat 32 n := BitVec.ofInt_natCast 32 n

/-- A delivery, with the command's own bit count (42_bitpump.md R146). -/
theorem Pump.deliver_eq (q : Pump) (n : BitVec 6) :
    q.deliver n.toNat = { q with
      cache := q.cache.drop n.toNat
      pad := min q.pad (q.cache.length - n.toNat)
      consumed := q.consumed + n.setWidth 36 } := by
  rw [Pump.deliver, List.length_drop, BitVec.ofNat_toNat]

section
variable {s : State} {p : PumpIx} {q : Pump} {n : BitVec 6} (hvalid : s.pumps[p].valid = true)
  (hfill : fill s s.pumps[p] = .ok q)
include hvalid hfill

theorem execBpFill_eq : exec (.bpFill p) s = .next (s.setPump p q).complete := by
  show finishPrimitive s (bpFill p s) = _
  rw [bpFill, pchk_valid hvalid, Eff.ok_bind, hfill]
  rfl

theorem execBpPeekBits_eq (hn : n.toNat ≤ 32) :
    exec (.bpPeekBits p n) s =
      .next (({ s with res := BitVec.ofNat 32 (bitsVal (q.cache.take n.toNat)) }).setPump p q).complete := by
  show finishPrimitive s (bpPeekBits p n s) = _
  rw [bpPeekBits, requireLegal_bitCount hn, Eff.ok_bind, pchk_valid hvalid, Eff.ok_bind, ppeek, hfill, ← u32_natCast]
  rfl

omit hvalid in
/-- PGET on a pump whose fill is known (42_bitpump.md R146). -/
theorem pget_eq (hmay : q.mayDeliver s.par n.toNat) :
    pget s p s.pumps[p] n.toNat = .ok (bitsVal (q.cache.take n.toNat), q.deliver n.toNat) := by
  rw [pget, hfill, Eff.ok_bind, overreads_eq_false_iff.mpr hmay]
  rfl

theorem execBpGetBits_eq (hn : n.toNat ≤ 32) (hmay : q.mayDeliver s.par n.toNat) :
    exec (.bpGetBits p n) s =
      .next (({ s with res := BitVec.ofNat 32 (bitsVal (q.cache.take n.toNat)) }).setPump p
        (q.deliver n.toNat)).complete := by
  show finishPrimitive s (bpGetBits p n s) = _
  rw [bpGetBits, requireLegal_bitCount hn, Eff.ok_bind, pchk_valid hvalid, Eff.ok_bind, pget_eq hfill hmay,
    ← u32_natCast]
  rfl

theorem execBpSkipBits_eq (hn : n.toNat ≤ 32) (hmay : q.mayDeliver s.par n.toNat) :
    exec (.bpSkipBits p n) s = .next (s.setPump p (q.deliver n.toNat)).complete := by
  show finishPrimitive s (bpSkipBits p n s) = _
  rw [bpSkipBits, requireLegal_bitCount hn, Eff.ok_bind, pchk_valid hvalid, Eff.ok_bind, pskip,
    pget_eq hfill hmay]
  rfl

end

/-- Settles O32: the fill of a legal pump answers, and each command stores what it and the read give. -/
theorem pumpCommandsDeliverTheCache : Obligations.PumpCommandsDeliverTheCache := by
  intro s p n hdecided hvalid hlegal hn
  have hcan := can_fill (codes := []) (Pump.fits_iff.mpr ⟨hdecided, hvalid, hlegal⟩)
  match hfill : fill s s.pumps[p], hcan with
  | .ok q, ⟨hfits, hwindow, hconsumed, hkeeps, _, hfull, hgrown⟩ =>
    refine ⟨q, rfl, hfull, fun hlt => ⟨hgrown hlt, hkeeps⟩, hconsumed, hfits.legal, execBpFill_eq hvalid hfill,
      execBpPeekBits_eq hvalid hfill hn, fun hmay => ?_⟩
    have hmay : q.mayDeliver s.par n.toNat := (hwindow.mayDeliver hconsumed).mpr hmay
    dsimp only
    rw [← Pump.deliver_eq]
    exact ⟨execBpGetBits_eq hvalid hfill hn hmay, execBpSkipBits_eq hvalid hfill hn hmay⟩
  | .error (.raised e), hraise => exact absurd hraise (List.not_mem_nil)

end Sys2Proof.Machine

/-! SUPPORT. How a decoding command raises: the first of its steps that stops gives the error; and LJ_DECODE's
checks in their order (spec 10_state.md R31, 40_control.md R103, 44_ljpeg.md R190). -/

namespace Sys2Proof.Machine

/-! ## The first step that stops -/

theorem Eff.bind_of_ok {α β : Type} {x : Eff α} {a : α} {f : α → Eff β} {r : Eff β} (hx : x = .ok a) (hf : f a = r) :
    (x >>= f) = r := by rw [hx, Eff.ok_bind, hf]

theorem Eff.bind_of_error {α β : Type} {x : Eff α} {e : Stop} {f : α → Eff β} (hx : x = .error e) :
    (x >>= f) = .error e := by rw [hx, Eff.error_bind]

theorem require_of {ok : Bool} {e : ErrInfo} (h : ok = true) : require ok e = .ok () := require_ok.mpr h

theorem require_of_not {ok : Bool} {e : ErrInfo} (h : ok = false) : require ok e = .error (.raised e) :=
  require_error.mpr ⟨h, rfl⟩

theorem pchk_invalid {s : State} {p : PumpIx} (h : s.pumps[p].valid = false) :
    pchk s p = .error (.raised ⟨.state, 0, 0, p.val, 0⟩) := if_neg (Bool.eq_false_iff.mp h)

theorem tchk_ready {s : State} {t : TableIx} (h : s.tables[t].state = .ready) : tchk s t = .ok s.tables[t] := if_pos h

theorem tchk_not_ready {s : State} {t : TableIx} (h : s.tables[t].state ≠ .ready) :
    tchk s t = .error (.raised ⟨.state, 0, 0, t.val, 0⟩) := if_neg h

theorem imgChk_of_imageOk {s : State} (h : imageOk s) : imgChk s = .ok () := imgChk_ok.mpr h

/-- IMGCHK's three errors, in their order (10_state.md R31). -/
theorem imgChk_of_fails {s : State} {code : ErrCode} {row col val : Nat} (h : ImageFails s code row col val) :
    imgChk s = .error (.raised ⟨code, row, col, 0, val⟩) := by
  rcases h with ⟨hzero, rfl, rfl, rfl, rfl⟩ | ⟨hw, hh, hp, rfl, rfl, rfl, rfl⟩ | ⟨hw, hh, hp, hb, rfl, rfl, rfl, rfl⟩
  · exact Eff.bind_of_error (require_of_not (by rw [decide_eq_true hzero]; rfl))
  · exact Eff.bind_of_ok (require_of (by simp [hw, hh])) (Eff.bind_of_error (require_of_not (by simpa using hp)))
  · exact Eff.bind_of_ok (require_of (by simp [hw, hh])) (Eff.bind_of_ok (require_of (by simpa using hp))
      (require_of_not (by simpa using hb)))

/-- A loop of m + n turns is one of m and then one of n. -/
theorem forUp_add {σ : Type} (body : Nat → σ → Eff σ) (m n i : Nat) (x : σ) :
    forUp body (m + n) i x = forUp body m i x >>= forUp body n (i + m) := by
  induction m generalizing i x with
  | zero => rw [Nat.zero_add]; rfl
  | succ m ih =>
    rw [show m + 1 + n = (m + n) + 1 by omega, forUp_succ, forUp_succ]
    cases body i x with
    | error e => rfl
    | ok y => rw [Eff.ok_bind, Eff.ok_bind, ih, show i + 1 + m = i + (m + 1) by omega]

/-- A loop stops with the error of the first turn that stops. -/
theorem forUp_of_error {σ : Type} {body : Nat → σ → Eff σ} {k n i : Nat} {x y : σ} {e : Stop} (hk : k < n)
    (hok : forUp body k i x = .ok y) (he : body (i + k) y = .error e) : forUp body n i x = .error e := by
  rw [show n = k + (n - k - 1 + 1) by omega, forUp_add, hok, Eff.ok_bind, forUp_succ, he, Eff.error_bind]

/-- A loop whose turns all pass and change nothing passes. -/
theorem forUp_checks {σ : Type} {body : Nat → σ → Eff σ} {n i : Nat} {x : σ} (h : ∀ j < n, body (i + j) x = .ok x) :
    forUp body n i x = .ok x := by
  induction n with
  | zero => rfl
  | succ n ih =>
    rw [forUp_add, ih fun j hj => h j (by omega), Eff.ok_bind, forUp_succ, h n (by omega)]
    rfl

/-! ## LJ_DECODE (44_ljpeg.md R190) -/

/-- An error of LJ_DECODE's pseudocode is the command's. -/
theorem ljDecode_raises {s : State} {p : PumpIx} {e : ErrInfo} (h : ljDecode p s = .error (.raised e)) :
    RaisesInfo (.ljDecode p) s e := ⟨_, congrArg (finishMacro s p) h, rfl, rfl, rfl, rfl⟩

theorem ljCheck_raises {s : State} {p : PumpIx} {e : ErrInfo} (hv : s.pumps[p].valid = true)
    (h : ljCheck s = .error (.raised e)) : RaisesInfo (.ljDecode p) s e :=
  ljDecode_raises (Eff.bind_of_ok (pchk_valid hv) (Eff.bind_of_error h))

theorem ljSampling_pass {s : State} {i : Nat} (h : s.regs.ljHi i = 1 ∧ s.regs.ljVi i = 1) :
    ljSampling s i () = .ok () := require_of (decide_eq_true h)

/-- The table slot of a component (44_ljpeg.md R190). -/
theorem ljTable_ready {s : State} {i : Nat} (hnt : s.par.nt = 4) (h : ljSlotReady s i) : ∃ t, ljTable s i = .ok t := by
  obtain ⟨t, ht, hready⟩ := h
  refine ⟨t, ?_⟩
  rw [ljTable, slotOf_some.mpr ⟨ht, by rw [← ht, hnt]; exact t.isLt⟩]
  exact Eff.bind_of_ok (tchk_ready hready) rfl

theorem ljTable_out_of_range {s : State} {i : Nat} (h : 4 ≤ s.regs.ljTblOf i) :
    ljTable s i = .error (.raised ⟨.state, 0, 0, i, s.regs.ljTblOf i⟩) := by
  rw [ljTable, slotOf_none_of_le h]
  rfl

theorem ljTable_not_ready {s : State} {i : Nat} {t : TableIx} (hnt : s.par.nt = 4) (ht : t.val = s.regs.ljTblOf i)
    (h : s.tables[t].state ≠ .ready) : ljTable s i = .error (.raised ⟨.state, 0, 0, t.val, 0⟩) := by
  rw [ljTable, slotOf_some.mpr ⟨ht, by rw [← ht, hnt]; exact t.isLt⟩]
  exact Eff.bind_of_error (tchk_not_ready h)

theorem ljTables_ready {s : State} (hnt : s.par.nt = 4) (n i : Nat) (h : ∀ j < n, ljSlotReady s (i + j)) :
    ∃ tabs, ljTables s n i = .ok tabs := by
  induction n generalizing i with
  | zero => exact ⟨[], rfl⟩
  | succ n ih =>
    obtain ⟨t, ht⟩ := ljTable_ready hnt (h 0 (by omega))
    obtain ⟨tabs, htabs⟩ := ih (i + 1) fun j hj => by
      have hready := h (j + 1) (by omega)
      rwa [show i + (j + 1) = i + 1 + j by omega] at hready
    exact ⟨t :: tabs, Eff.bind_of_ok ht (Eff.bind_of_ok htabs rfl)⟩

/-- The table slots stop at the first component whose slot stops. -/
theorem ljTables_of_error {s : State} (hnt : s.par.nt = 4) {k n i : Nat} {e : Stop} (hk : k < n)
    (h : ∀ j < k, ljSlotReady s (i + j)) (he : ljTable s (i + k) = .error e) : ljTables s n i = .error e := by
  induction k generalizing n i with
  | zero =>
    obtain ⟨n, rfl⟩ : ∃ m, n = m + 1 := ⟨n - 1, by omega⟩
    exact Eff.bind_of_error he
  | succ k ih =>
    obtain ⟨n, rfl⟩ : ∃ m, n = m + 1 := ⟨n - 1, by omega⟩
    obtain ⟨t, ht⟩ := ljTable_ready hnt (h 0 (by omega))
    refine Eff.bind_of_ok ht (Eff.bind_of_error (ih (by omega) (fun j hj => ?_) ?_))
    · have hready := h (j + 1) (by omega)
      rwa [show i + (j + 1) = i + 1 + j by omega] at hready
    · rwa [show i + (k + 1) = i + 1 + k by omega] at he

section
variable {s : State} {e : ErrInfo}

theorem ljSampling_loop (hscan : LjScanOk s) : forUp (ljSampling s) s.regs.ljN 0 () = .ok () :=
  forUp_checks fun j hj => by
    rw [Nat.zero_add]
    exact ljSampling_pass (hscan.sampling j hj)

/-- With the scan parameters accepted, LJ_DECODE's checks stop at the first table slot that stops. -/
theorem ljCheck_of_table_error (hscan : LjScanOk s) (hnt : s.par.nt = 4) {i : Nat} (hi : i < s.regs.ljN)
    (hbefore : ∀ j < i, ljSlotReady s j) (h : ljTable s i = .error (.raised e)) :
    ljCheck s = .error (.raised e) := by
  have htables : ljTables s s.regs.ljN 0 = .error (.raised e) :=
    ljTables_of_error hnt hi (fun j hj => by rw [Nat.zero_add]; exact hbefore j hj) (by rwa [Nat.zero_add])
  exact Eff.bind_of_ok (require_of (decide_eq_true hscan.comps))
    (Eff.bind_of_ok (require_of (decide_eq_true hscan.predictor))
      (Eff.bind_of_ok (ljSampling_loop hscan) (Eff.bind_of_error htables)))

/-- LJ_DECODE's checks of the image and the tile, after the table slots (44_ljpeg.md R190). -/
def ljTileCheck (s : State) (tabs : List TableIx) : Eff (List TableIx) := do
  let g := s.regs
  imgChk s
  require (decide (g.ljTw ≠ 0 ∧ g.ljTh ≠ 0)) ⟨.corrupt, g.ljTh, g.ljTw, 0, 0⟩
  require (decide (g.ljTw ≤ g.ljFw * g.ljN ∧ g.ljTh ≤ g.ljFh)) ⟨.unsupported, g.ljTh, g.ljTw, 0, g.ljFw⟩
  require (decide (g.ljTx + g.ljTw ≤ g.imgW.toNat ∧ g.ljTy + g.ljTh ≤ g.imgH.toNat)) ⟨.corrupt, g.ljTy, g.ljTx, 0, 0⟩
  return tabs

/-- With the scan and the table slots accepted, LJ_DECODE's checks are those of the image and the tile. -/
theorem ljCheck_of_tile_error (hscan : LjScanOk s) (hnt : s.par.nt = 4) (hslots : ∀ i < s.regs.ljN, ljSlotReady s i)
    (h : ∀ tabs, ljTileCheck s tabs = .error (.raised e)) : ljCheck s = .error (.raised e) := by
  obtain ⟨tabs, htabs⟩ := ljTables_ready hnt s.regs.ljN 0 fun j hj => by
    rw [Nat.zero_add]
    exact hslots j hj
  exact Eff.bind_of_ok (require_of (decide_eq_true hscan.comps))
    (Eff.bind_of_ok (require_of (decide_eq_true hscan.predictor))
      (Eff.bind_of_ok (ljSampling_loop hscan) (Eff.bind_of_ok htabs (h tabs))))

end

/-- Settles O47: the checks stand in the order of the statement, and each stops the command with its fields. -/
theorem ljDecodeRefusesUnsupportedScans : Obligations.LjDecodeRefusesUnsupportedScans := by
  intro s p hp
  obtain ⟨-, -, hnt, -⟩ := Params.decided_iff.mp hp
  refine ⟨fun hv => ljDecode_raises (Eff.bind_of_error (pchk_invalid hv)), fun hv =>
    ⟨fun hn => ?_, fun hn1 hn4 hpsv => ?_, fun i hn1 hn4 hpsv hi hbefore hbad => ?_, fun hscan =>
      ⟨fun i hi hbefore => ⟨fun hrange => ?_, fun t ht hready => ?_⟩, fun hslots =>
        ⟨fun code row col val himage => ?_, fun himage => ⟨fun hempty => ?_, fun hw hh hlarge => ?_,
          fun hw hh hfw hfh hplace => ?_⟩⟩⟩⟩⟩
  · exact ljCheck_raises hv (Eff.bind_of_error (require_of_not (decide_eq_false (by omega))))
  · exact ljCheck_raises hv (Eff.bind_of_ok (require_of (decide_eq_true ⟨hn1, hn4⟩))
      (Eff.bind_of_error (require_of_not (decide_eq_false hpsv))))
  · have hstop : forUp (ljSampling s) s.regs.ljN 0 () = .error (.raised ⟨.unsupported, 0, 0, i, s.regs.ljSamp.toNat⟩) :=
      forUp_of_error hi
        (forUp_checks fun j hj => by rw [Nat.zero_add]; exact ljSampling_pass (hbefore j hj))
        (by rw [Nat.zero_add]; exact require_of_not (decide_eq_false (by omega)))
    exact ljCheck_raises hv (Eff.bind_of_ok (require_of (decide_eq_true ⟨hn1, hn4⟩))
      (Eff.bind_of_ok (require_of (decide_eq_true hpsv)) (Eff.bind_of_error hstop)))
  · exact ljCheck_raises hv (ljCheck_of_table_error hscan hnt hi hbefore (ljTable_out_of_range hrange))
  · exact ljCheck_raises hv (ljCheck_of_table_error hscan hnt hi hbefore (ljTable_not_ready hnt ht hready))
  · exact ljCheck_raises hv (ljCheck_of_tile_error hscan hnt hslots fun _ => Eff.bind_of_error (imgChk_of_fails himage))
  · exact ljCheck_raises hv (ljCheck_of_tile_error hscan hnt hslots fun _ =>
      Eff.bind_of_ok (imgChk_of_imageOk himage) (Eff.bind_of_error (require_of_not (decide_eq_false (by omega)))))
  · exact ljCheck_raises hv (ljCheck_of_tile_error hscan hnt hslots fun _ =>
      Eff.bind_of_ok (imgChk_of_imageOk himage) (Eff.bind_of_ok (require_of (decide_eq_true ⟨hw, hh⟩))
        (Eff.bind_of_error (require_of_not (decide_eq_false (by omega))))))
  · exact ljCheck_raises hv (ljCheck_of_tile_error hscan hnt hslots fun _ =>
      Eff.bind_of_ok (imgChk_of_imageOk himage) (Eff.bind_of_ok (require_of (decide_eq_true ⟨hw, hh⟩))
        (Eff.bind_of_ok (require_of (decide_eq_true ⟨hfw, hfh⟩))
          (Eff.bind_of_error (require_of_not (decide_eq_false (by omega)))))))

end Sys2Proof.Machine

/-! SUPPORT. PX_DECODE's loop: what its state is at each pair of columns, and where it stops (spec 45_pentax.md
R200-R202). -/

namespace Sys2Proof.Machine

/-! ## Decoded differences -/

/-- The first n differences decode, `Q i` the pump before difference i. -/
def DiffsDecode (s : State) (p : PumpIx) (t : TableIx) (ds : List Int) (Q : Nat → Pump) (n : Nat) : Prop :=
  ∀ i < n, hdiff s t p (Q i) = .ok (ds.getD i 0, Q (i + 1))

theorem readDiffs_replicate {s : State} {p : PumpIx} {t : TableIx} (n : Nat) {x q : Pump} {ds : List Int}
    (h : readDiffs s p (List.replicate n t) x = .ok (ds, q)) :
    ∃ Q : Nat → Pump, Q 0 = x ∧ Q n = q ∧ DiffsDecode s p t ds Q n := by
  induction n generalizing x ds with
  | zero =>
    cases h
    exact ⟨fun _ => q, rfl, rfl, fun i hi => absurd hi (by omega)⟩
  | succ n ih =>
    obtain ⟨⟨d, y⟩, hd, hrest⟩ := Eff.bind_ok.mp h
    obtain ⟨⟨ds', q'⟩, hds, hret⟩ := Eff.bind_ok.mp hrest
    cases hret
    obtain ⟨Q, hQ0, hQn, hQ⟩ := ih hds
    refine ⟨fun i => if i = 0 then x else Q (i - 1), rfl, hQn, fun i hi => ?_⟩
    cases i with
    | zero =>
      show hdiff s t p x = .ok (d, Q 0)
      rw [hQ0]
      exact hd
    | succ i => exact hQ i (by omega)

/-! ## The predictor's sums -/

theorem sumTo_succ (n : Nat) (f : Nat → Int) : sumTo (n + 1) f = sumTo n f + f n := by
  simp [sumTo, List.range_succ]

/-- The accumulator of row parity b and column parity c before row r (45_pentax.md R201). -/
def pxAbove (w : Nat) (ds : List Int) (r b c : Nat) : Int :=
  sumTo ((r + 1 - b) / 2) fun i => ds.getD ((2 * i + b) * w + c) 0

theorem pxAbove_succ_same (w : Nat) (ds : List Int) (r c : Nat) :
    pxAbove w ds (r + 1) (r % 2) c = pxAbove w ds r (r % 2) c + ds.getD (r * w + c) 0 := by
  rw [pxAbove, pxAbove, show (r + 1 + 1 - r % 2) / 2 = r / 2 + 1 by omega, show (r + 1 - r % 2) / 2 = r / 2 by omega,
    sumTo_succ, show 2 * (r / 2) + r % 2 = r by omega]

theorem pxAbove_succ_other (w : Nat) (ds : List Int) {r b : Nat} (c : Nat) (h : b + r % 2 = 1) :
    pxAbove w ds (r + 1) b c = pxAbove w ds r b c := by
  rw [pxAbove, pxAbove, show (r + 1 + 1 - b) / 2 = (r + 1 - b) / 2 by omega]

/-- The first two columns of a row are the accumulators of its parity. -/
theorem pxValue_of_first (w : Nat) (ds : List Int) (r : Nat) {c : Nat} (hc : c < 2) :
    pxValue w ds r c = pxAbove w ds (r + 1) (r % 2) c := by
  rw [pxValue, pxAbove, show c / 2 = 0 by omega, show c % 2 = c by omega,
    show (r + 1 + 1 - r % 2) / 2 = r / 2 + 1 by omega]
  exact Int.add_zero _

/-- Every later column is its left neighbour of the same parity plus its difference. -/
theorem pxValue_add_two (w : Nat) (ds : List Int) (r c : Nat) :
    pxValue w ds r (c + 2) = pxValue w ds r c + ds.getD (r * w + (c + 2)) 0 := by
  rw [pxValue, pxValue, show (c + 2) / 2 = c / 2 + 1 by omega, show (c + 2) % 2 = c % 2 by omega,
    sumTo_succ (c / 2),
    show r * w + 2 * (c / 2 + 1) + c % 2 = r * w + (c + 2) by omega, Int.add_assoc]

/-! ## The samples stored so far -/

/-- (r', c') is a place of a w wide image before (r, c) in row order. -/
def PxBefore (w r c r' c' : Nat) : Prop := (r' < r ∧ c' < w) ∨ (r' = r ∧ c' < c)

/-- OUT holds the predicted samples of the places before (r, c), and is else as it was. -/
structure PxStored (s : State) (ds : List Int) (r c : Nat) (m : OutMemory) : Prop where
  done : ∀ r' c', PxBefore s.regs.imgW.toNat r c r' c' →
    outSample m (outIdx s.regs r' c') = u16 (pxValue s.regs.imgW.toNat ds r' c')
  rest : ∀ x, (∀ r' c', PxBefore s.regs.imgW.toNat r c r' c' → x ≠ outIdx s.regs r' c') →
    outSample m x = outSample s.outMem x

theorem PxStored.start (s : State) (ds : List Int) : PxStored s ds 0 0 s.outMem :=
  ⟨fun _ _ h => by unfold PxBefore at h; omega, fun _ _ => rfl⟩

theorem PxStored.put {s : State} {ds : List Int} {r c : Nat} {m : OutMemory} (hi : imageOk s)
    (hc : c < s.regs.imgW.toNat) (h : PxStored s ds r c m) :
    PxStored s ds r (c + 1) (Memory.put m (outIdx s.regs r c) (u16 (pxValue s.regs.imgW.toNat ds r c))) where
  done r' c' hb := by
    by_cases hsame : r' = r ∧ c' = c
    · obtain ⟨rfl, rfl⟩ := hsame
      exact outSample_put_same _ _ _
    · have hb' : PxBefore s.regs.imgW.toNat r c r' c' := by unfold PxBefore at hb ⊢; omega
      have hc' : c' < s.regs.imgW.toNat := by unfold PxBefore at hb'; omega
      rw [outSample_put_other _ _ fun he => hsame (outIdx_inj hi hc' hc he)]
      exact h.done r' c' hb'
  rest x hx := by
    rw [outSample_put_other _ _ (hx r c (Or.inr ⟨rfl, by omega⟩))]
    exact h.rest x fun r' c' hb => hx r' c' (by unfold PxBefore at hb ⊢; omega)

/-- After the last column of a row the next row begins. -/
theorem PxStored.next_row {s : State} {ds : List Int} {r : Nat} {m : OutMemory}
    (h : PxStored s ds r s.regs.imgW.toNat m) :
    PxStored s ds (r + 1) 0 m where
  done r' c' hb := h.done r' c' (by unfold PxBefore at hb ⊢; omega)
  rest x hx := h.rest x fun r' c' hb => hx r' c' (by unfold PxBefore at hb ⊢; omega)

/-! ## One pair of columns -/

/-- PUT accepts the value at this place (45_pentax.md R200). -/
def PxFits (s : State) (ds : List Int) (r c : Nat) : Prop :=
  0 ≤ pxValue s.regs.imgW.toNat ds r c ∧ pxValue s.regs.imgW.toNat ds r c ≤ 65535

theorem pxPut_of_fits {s : State} {m : OutMemory} {r c : Nat} {v : Int} (hi : imageOk s) (hr : r < s.regs.imgH.toNat)
    (hc : c < s.regs.imgW.toNat) (hv : 0 ≤ v ∧ v ≤ 65535) :
    pxPut s m r c v = .ok (Memory.put m (outIdx s.regs r c) (u16 v)) :=
  Eff.bind_of_ok (require_of (decide_eq_true hv)) (writeOut_ok.mpr ⟨outIdx_lt hi hr hc, rfl⟩)

theorem pxPut_of_not_fits {s : State} {m : OutMemory} {r c : Nat} {v : Int} (hv : ¬ (0 ≤ v ∧ v ≤ 65535)) :
    pxPut s m r c v = .error (.raised ⟨.corrupt, r, c, 0, v⟩) := Eff.bind_of_error (require_of_not (decide_eq_false hv))

/-- The columns c and c + 1 of row r from their predictors, then the rest of the row: what PX_DECODE does for the first
pair of a row and for every later one (45_pentax.md R200). -/
def pxColumns (s : State) (t : TableIx) (p : PumpIx) (q : Pump) (m : OutMemory) (r c : Nat) (a b : Int)
    (rest : Pump → OutMemory → Int → Int → Eff PxRun) : Eff PxRun := do
  let (d1, q1) ← hdiff s t p q
  let (d2, q2) ← hdiff s t p q1
  let m1 ← pxPut s m r c (a + d1)
  let m2 ← pxPut s m1 r (c + 1) (b + d2)
  rest q2 m2 (a + d1) (b + d2)

theorem pxPair_eq_pxColumns (s : State) (t : TableIx) (p : PumpIx) (r j : Nat) (x : PxRun) :
    pxPair s t p r j x = pxColumns s t p x.pump x.out r (2 * j + 2) x.left1 x.left2 fun q m a b =>
      .ok { x with pump := q, out := m, left1 := a, left2 := b } := rfl

theorem pxRow_eq_pxColumns (s : State) (t : TableIx) (p : PumpIx) (r : Nat) (x : PxRun) :
    pxRow s t p r x = pxColumns s t p x.pump x.out r 0 (x.up1.getD (r % 2) 0) (x.up2.getD (r % 2) 0) fun q m a b =>
      forUp (pxPair s t p r) (s.regs.imgW.toNat / 2 - 1) 0 ⟨q, m, x.up1.set (r % 2) a, x.up2.set (r % 2) b, a, b⟩ := rfl

/-- The pair of columns c and c + 1 of row r is next: the pump stands before its differences, every earlier sample is
stored, and the predictors with the differences give its values. -/
structure PxNext (s : State) (ds : List Int) (Q : Nat → Pump) (r c : Nat) (q : Pump) (m : OutMemory) (a b : Int) :
    Prop where
  pump : q = Q (r * s.regs.imgW.toNat + c)
  stored : PxStored s ds r c m
  even : a + ds.getD (r * s.regs.imgW.toNat + c) 0 = pxValue s.regs.imgW.toNat ds r c
  odd : b + ds.getD (r * s.regs.imgW.toNat + c + 1) 0 = pxValue s.regs.imgW.toNat ds r (c + 1)

section
variable {s : State} {p : PumpIx} {t : TableIx} {ds : List Int} {Q : Nat → Pump} {r c : Nat} {q : Pump} {m : OutMemory}
  {a b : Int}

/-- Both differences of the pair decode, and its values are formed before either is checked. -/
theorem pxColumns_of_decoded (h : PxNext s ds Q r c q m a b)
    (hd : DiffsDecode s p t ds Q (r * s.regs.imgW.toNat + c + 2)) (rest : Pump → OutMemory → Int → Int → Eff PxRun) :
    pxColumns s t p q m r c a b rest = (do
      let m1 ← pxPut s m r c (pxValue s.regs.imgW.toNat ds r c)
      let m2 ← pxPut s m1 r (c + 1) (pxValue s.regs.imgW.toNat ds r (c + 1))
      rest (Q (r * s.regs.imgW.toNat + c + 2)) m2 (pxValue s.regs.imgW.toNat ds r c)
        (pxValue s.regs.imgW.toNat ds r (c + 1))) := by
  obtain ⟨rfl, -, heven, hodd⟩ := h
  rw [← heven, ← hodd]
  exact Eff.bind_of_ok (hd _ (by omega)) (Eff.bind_of_ok (hd _ (by omega)) rfl)

theorem pxColumns_of_fits (hi : imageOk s) (hr : r < s.regs.imgH.toNat) (hc : c + 1 < s.regs.imgW.toNat)
    (h : PxNext s ds Q r c q m a b) (hd : DiffsDecode s p t ds Q (r * s.regs.imgW.toNat + c + 2))
    (heven : PxFits s ds r c) (hodd : PxFits s ds r (c + 1)) :
    ∃ m', PxStored s ds r (c + 2) m' ∧ ∀ rest, pxColumns s t p q m r c a b rest =
      rest (Q (r * s.regs.imgW.toNat + c + 2)) m' (pxValue s.regs.imgW.toNat ds r c)
        (pxValue s.regs.imgW.toNat ds r (c + 1)) :=
  ⟨_, (h.stored.put hi (by omega)).put hi hc, fun rest => (pxColumns_of_decoded h hd rest).trans
    (Eff.bind_of_ok (pxPut_of_fits hi hr (by omega) heven) (Eff.bind_of_ok (pxPut_of_fits hi hr hc hodd) rfl))⟩

/-- PX_DECODE stops with this error at the pair of columns c and c + 1 of row r. -/
def PxStopsAt (s : State) (p : PumpIx) (t : TableIx) (ds : List Int) (Q : Nat → Pump) (r c : Nat) (e : ErrInfo) :
    Prop :=
  ∀ q m a b rest, PxNext s ds Q r c q m a b → pxColumns s t p q m r c a b rest = .error (.raised e)

theorem pxStopsAt_even_value (hd : DiffsDecode s p t ds Q (r * s.regs.imgW.toNat + c + 2)) (hbad : ¬ PxFits s ds r c) :
    PxStopsAt s p t ds Q r c ⟨.corrupt, r, c, 0, pxValue s.regs.imgW.toNat ds r c⟩ := fun _ _ _ _ rest h =>
  (pxColumns_of_decoded h hd rest).trans (Eff.bind_of_error (pxPut_of_not_fits hbad))

theorem pxStopsAt_odd_value (hi : imageOk s) (hr : r < s.regs.imgH.toNat) (hc : c < s.regs.imgW.toNat)
    (hd : DiffsDecode s p t ds Q (r * s.regs.imgW.toNat + c + 2)) (heven : PxFits s ds r c)
    (hbad : ¬ PxFits s ds r (c + 1)) :
    PxStopsAt s p t ds Q r c ⟨.corrupt, r, (c + 1 : Nat), 0, pxValue s.regs.imgW.toNat ds r (c + 1)⟩ :=
  fun _ _ _ _ rest h => (pxColumns_of_decoded h hd rest).trans
    (Eff.bind_of_ok (pxPut_of_fits hi hr hc heven) (Eff.bind_of_error (pxPut_of_not_fits hbad)))

theorem pxStopsAt_first_difference {e : ErrInfo}
    (he : hdiff s t p (Q (r * s.regs.imgW.toNat + c)) = .error (.raised e)) :
    PxStopsAt s p t ds Q r c e := fun _ _ _ _ _ h => Eff.bind_of_error (by rw [h.pump, he])

theorem pxStopsAt_second_difference {e : ErrInfo} (hd : DiffsDecode s p t ds Q (r * s.regs.imgW.toNat + c + 1))
    (he : hdiff s t p (Q (r * s.regs.imgW.toNat + c + 1)) = .error (.raised e)) : PxStopsAt s p t ds Q r c e :=
  fun _ _ _ _ _ ⟨hpump, _, _, _⟩ => Eff.bind_of_ok (hpump ▸ hd _ (by omega)) (Eff.bind_of_error he)

end

/-! ## Rows -/

/-- Everything before (r, c) decodes to values PUT accepts. -/
structure PxPrefix (s : State) (p : PumpIx) (t : TableIx) (ds : List Int) (Q : Nat → Pump) (r c : Nat) : Prop where
  decode : DiffsDecode s p t ds Q (r * s.regs.imgW.toNat + c)
  fits : ∀ r' c', PxBefore s.regs.imgW.toNat r c r' c' → PxFits s ds r' c'

/-- The accumulators before row r. -/
structure PxSums (s : State) (ds : List Int) (r : Nat) (x : PxRun) : Prop where
  even : x.up1 = [pxAbove s.regs.imgW.toNat ds r 0 0, pxAbove s.regs.imgW.toNat ds r 1 0]
  odd : x.up2 = [pxAbove s.regs.imgW.toNat ds r 0 1, pxAbove s.regs.imgW.toNat ds r 1 1]

/-- PX_DECODE stands before row r. -/
structure PxAtRow (s : State) (ds : List Int) (Q : Nat → Pump) (r : Nat) (x : PxRun) : Prop
    extends PxSums s ds r x where
  pump : x.pump = Q (r * s.regs.imgW.toNat)
  stored : PxStored s ds r 0 x.out

/-- PX_DECODE stands in row r behind its pair of columns j. -/
structure PxInRow (s : State) (ds : List Int) (Q : Nat → Pump) (r j : Nat) (x : PxRun) : Prop
    extends PxSums s ds (r + 1) x where
  pump : x.pump = Q (r * s.regs.imgW.toNat + (2 * j + 2))
  stored : PxStored s ds r (2 * j + 2) x.out
  left1 : x.left1 = pxValue s.regs.imgW.toNat ds r (2 * j)
  left2 : x.left2 = pxValue s.regs.imgW.toNat ds r (2 * j + 1)

theorem pxAbove_getD (w : Nat) (ds : List Int) (r c : Nat) :
    [pxAbove w ds r 0 c, pxAbove w ds r 1 c].getD (r % 2) 0 = pxAbove w ds r (r % 2) c := by
  rcases Nat.mod_two_eq_zero_or_one r with hr | hr <;> rw [hr] <;> rfl

theorem pxAbove_set (w : Nat) (ds : List Int) (r c : Nat) :
    [pxAbove w ds r 0 c, pxAbove w ds r 1 c].set (r % 2) (pxAbove w ds (r + 1) (r % 2) c) =
      [pxAbove w ds (r + 1) 0 c, pxAbove w ds (r + 1) 1 c] := by
  rcases Nat.mod_two_eq_zero_or_one r with hr | hr
  · rw [hr, pxAbove_succ_other w ds (b := 1) c (by omega)]
    rfl
  · rw [hr, pxAbove_succ_other w ds (b := 0) c (by omega)]
    rfl

section
variable {s : State} {p : PumpIx} {t : TableIx} {ds : List Int} {Q : Nat → Pump} {r j : Nat} {x : PxRun}

theorem PxPrefix.mono {c r' c' : Nat} (h : PxPrefix s p t ds Q r c)
    (hle : (r' < r ∧ c' ≤ s.regs.imgW.toNat) ∨ (r' = r ∧ c' ≤ c)) : PxPrefix s p t ds Q r' c' where
  decode i hi := h.decode i (by
    rcases hle with ⟨hr, hc⟩ | ⟨rfl, hc⟩
    · have hrow : (r' + 1) * s.regs.imgW.toNat ≤ r * s.regs.imgW.toNat := Nat.mul_le_mul_right _ hr
      rw [Nat.add_mul] at hrow
      omega
    · omega)
  fits r'' c'' hb := h.fits r'' c'' (by unfold PxBefore at hb ⊢; omega)

theorem PxAtRow.next (h : PxAtRow s ds Q r x) :
    PxNext s ds Q r 0 x.pump x.out (x.up1.getD (r % 2) 0) (x.up2.getD (r % 2) 0) where
  pump := h.pump
  stored := h.stored
  even := by rw [h.even, pxAbove_getD, pxValue_of_first _ _ _ (by omega), pxAbove_succ_same]
  odd := by rw [h.odd, pxAbove_getD, pxValue_of_first _ _ _ (by omega), pxAbove_succ_same]

theorem PxInRow.next (h : PxInRow s ds Q r j x) : PxNext s ds Q r (2 * j + 2) x.pump x.out x.left1 x.left2 where
  pump := h.pump
  stored := h.stored
  even := by rw [h.left1, pxValue_add_two]
  odd := by rw [h.left2, show 2 * j + 2 + 1 = 2 * j + 1 + 2 by omega, pxValue_add_two]; rfl

/-- A pair that decodes to values PUT accepts takes the loop one pair on. -/
theorem pxPair_of_prefix (hi : imageOk s) (hr : r < s.regs.imgH.toNat) (hj : 2 * j + 3 < s.regs.imgW.toNat)
    (hp : PxPrefix s p t ds Q r (2 * j + 4)) (h : PxInRow s ds Q r j x) :
    ∃ y, pxPair s t p r j x = .ok y ∧ PxInRow s ds Q r (j + 1) y := by
  obtain ⟨m, hm, hrun⟩ := pxColumns_of_fits (p := p) (t := t) hi hr hj h.next hp.decode
    (hp.fits _ _ (Or.inr ⟨rfl, by omega⟩)) (hp.fits _ _ (Or.inr ⟨rfl, by omega⟩))
  exact ⟨_, (pxPair_eq_pxColumns s t p r j x).trans (hrun _), ⟨h.even, h.odd⟩, rfl, hm, rfl, rfl⟩

/-- The first pair of a row. -/
theorem pxRow_of_prefix (hi : imageOk s) (hr : r < s.regs.imgH.toNat) (hw : 1 < s.regs.imgW.toNat)
    (hp : PxPrefix s p t ds Q r 2) (h : PxAtRow s ds Q r x) :
    ∃ y, pxRow s t p r x = forUp (pxPair s t p r) (s.regs.imgW.toNat / 2 - 1) 0 y ∧ PxInRow s ds Q r 0 y := by
  obtain ⟨m, hm, hrun⟩ := pxColumns_of_fits (p := p) (t := t) hi hr (by omega) h.next hp.decode
    (hp.fits _ _ (Or.inr ⟨rfl, by omega⟩)) (hp.fits _ _ (Or.inr ⟨rfl, by omega⟩))
  refine ⟨_, (pxRow_eq_pxColumns s t p r x).trans (hrun _), ⟨?_, ?_⟩, rfl, hm, rfl, rfl⟩
  · show x.up1.set (r % 2) _ = _
    rw [h.even, pxValue_of_first _ _ _ (by omega), pxAbove_set]
  · show x.up2.set (r % 2) _ = _
    rw [h.odd, pxValue_of_first _ _ _ (by omega), pxAbove_set]

/-- A step that can raise nothing answers. -/
theorem Eff.can_nil {α : Type} {post : α → Prop} {x : Eff α} : Eff.Can [] post x ↔ ∃ a, x = .ok a ∧ post a := by
  match x with
  | .ok a => simp [Eff.Can]
  | .error (.raised e) => simp [Eff.Can]
  | .error (.fault f) => simp [Eff.Can]

theorem forUp_pxPair_of_prefix (hi : imageOk s) (hr : r < s.regs.imgH.toNat) (n : Nat)
    (hn : 2 * n + 2 ≤ s.regs.imgW.toNat) (hp : PxPrefix s p t ds Q r (2 * n + 2)) (h : PxInRow s ds Q r 0 x) :
    ∃ y, forUp (pxPair s t p r) n 0 x = .ok y ∧ PxInRow s ds Q r n y := by
  rw [← Eff.can_nil]
  simpa using can_forUp (codes := []) (PxInRow s ds Q r) n 0 x h fun j y _ hj hy =>
    Eff.can_nil.mpr (pxPair_of_prefix hi hr (by omega) (hp.mono (Or.inr ⟨rfl, by omega⟩)) hy)

/-- A row that decodes to values PUT accepts takes the loop to the next row. -/
theorem pxRow_of_row (hi : imageOk s) (hw : s.regs.imgW.toNat % 2 = 0) (hr : r < s.regs.imgH.toNat)
    (hp : PxPrefix s p t ds Q r s.regs.imgW.toNat) (h : PxAtRow s ds Q r x) :
    ∃ y, pxRow s t p r x = .ok y ∧ PxAtRow s ds Q (r + 1) y := by
  have hw0 := hi.1
  have hlast : 2 * (s.regs.imgW.toNat / 2 - 1) + 2 = s.regs.imgW.toNat := by omega
  obtain ⟨y, hrow, hy⟩ := pxRow_of_prefix hi hr (by omega) (hp.mono (Or.inr ⟨rfl, by omega⟩)) h
  obtain ⟨z, hpairs, hz⟩ := forUp_pxPair_of_prefix hi hr (s.regs.imgW.toNat / 2 - 1) (by omega) (by rwa [hlast]) hy
  refine ⟨z, hrow.trans hpairs, ⟨hz.even, hz.odd⟩, ?_, ?_⟩
  · rw [hz.pump, hlast, Nat.add_mul, Nat.one_mul]
  · exact (hlast ▸ hz.stored : PxStored s ds r s.regs.imgW.toNat z.out).next_row

theorem forUp_pxRow_of_prefix (hi : imageOk s) (hw : s.regs.imgW.toNat % 2 = 0) (n : Nat) (hn : n ≤ s.regs.imgH.toNat)
    (hp : PxPrefix s p t ds Q n 0) (h : PxAtRow s ds Q 0 x) :
    ∃ y, forUp (pxRow s t p) n 0 x = .ok y ∧ PxAtRow s ds Q n y := by
  rw [← Eff.can_nil]
  simpa using can_forUp (codes := []) (PxAtRow s ds Q) n 0 x h fun r y _ hr hy =>
    Eff.can_nil.mpr (pxRow_of_row hi hw (by omega) (hp.mono (Or.inl ⟨by omega, le_rfl⟩)) hy)

/-- The row stops where one of its pairs does. -/
theorem pxRow_of_stop {e : ErrInfo} {k : Nat} (hi : imageOk s) (hr : r < s.regs.imgH.toNat)
    (hk : 2 * k + 1 < s.regs.imgW.toNat) (hp : PxPrefix s p t ds Q r (2 * k)) (hstop : PxStopsAt s p t ds Q r (2 * k) e)
    (h : PxAtRow s ds Q r x) : pxRow s t p r x = .error (.raised e) := by
  cases k with
  | zero => exact (pxRow_eq_pxColumns s t p r x).trans (hstop _ _ _ _ _ h.next)
  | succ k =>
    obtain ⟨y, hrow, hy⟩ := pxRow_of_prefix hi hr (by omega) (hp.mono (Or.inr ⟨rfl, by omega⟩)) h
    obtain ⟨z, hpairs, hz⟩ := forUp_pxPair_of_prefix hi hr k (by omega) hp hy
    refine hrow.trans (forUp_of_error (k := k) (by omega) hpairs ?_)
    rw [Nat.zero_add]
    exact (pxPair_eq_pxColumns s t p r k z).trans (hstop _ _ _ _ _ hz.next)

/-- The loop stops where one of its pairs does. -/
theorem forUp_pxRow_of_stop {e : ErrInfo} {k : Nat} (hi : imageOk s) (hw : s.regs.imgW.toNat % 2 = 0)
    (hr : r < s.regs.imgH.toNat) (hk : 2 * k + 1 < s.regs.imgW.toNat) (hp : PxPrefix s p t ds Q r (2 * k))
    (hstop : PxStopsAt s p t ds Q r (2 * k) e) (h : PxAtRow s ds Q 0 x) :
    forUp (pxRow s t p) s.regs.imgH.toNat 0 x = .error (.raised e) := by
  obtain ⟨y, hrows, hy⟩ := forUp_pxRow_of_prefix hi hw r (by omega) (hp.mono (Or.inr ⟨rfl, by omega⟩)) h
  refine forUp_of_error hr hrows ?_
  rw [Nat.zero_add]
  exact pxRow_of_stop hi hr hk hp hstop hy

end

/-! ## The command -/

/-- The working values PX_DECODE starts with. -/
def pxStart (s : State) (p : PumpIx) : PxRun := ⟨s.pumps[p], s.outMem, [0, 0], [0, 0], 0, 0⟩

section
variable {s : State} {p : PumpIx} {t : TableIx}

theorem pxStart_atRow {ds : List Int} {Q : Nat → Pump} (hQ : Q 0 = s.pumps[p]) : PxAtRow s ds Q 0 (pxStart s p) where
  even := rfl
  odd := rfl
  pump := by rw [Nat.zero_mul, hQ]; rfl
  stored := .start s ds

/-- An error of PX_DECODE's pseudocode is the command's. -/
theorem pxDecode_raises {e : ErrInfo} (h : pxDecode p t s = .error (.raised e)) : RaisesInfo (.pxDecode p t) s e :=
  ⟨_, congrArg (finishMacro s p) h, rfl, rfl, rfl, rfl⟩

theorem pxDecode_of_check_error {e : ErrInfo} (hv : s.pumps[p].valid = true) (ht : s.tables[t].state = .ready)
    (h : pxCheck s = .error (.raised e)) : RaisesInfo (.pxDecode p t) s e :=
  pxDecode_raises (Eff.bind_of_ok (pchk_valid hv) (Eff.bind_of_ok (tchk_ready ht) (Eff.bind_of_error h)))

theorem pxCheck_of_accepts (ha : PxAccepts s p t) : pxCheck s = .ok () :=
  Eff.bind_of_ok (imgChk_of_imageOk ha.image) (require_of (decide_eq_true ha.size))

theorem pxDecode_of_rows_error (ha : PxAccepts s p t) {e : ErrInfo}
    (h : forUp (pxRow s t p) s.regs.imgH.toNat 0 (pxStart s p) = .error (.raised e)) : RaisesInfo (.pxDecode p t) s e :=
  pxDecode_raises (Eff.bind_of_ok (pchk_valid ha.pump) (Eff.bind_of_ok (tchk_ready ha.table)
    (Eff.bind_of_ok (pxCheck_of_accepts ha) (Eff.bind_of_error h))))

/-- An accepted PX_DECODE whose rows decode completes with their pump and samples. -/
theorem exec_pxDecode_of_rows (ha : PxAccepts s p t) {x : PxRun}
    (h : forUp (pxRow s t p) s.regs.imgH.toNat 0 (pxStart s p) = .ok x) :
    exec (.pxDecode p t) s = .next (({ s with
      outMem := settleRaced s.draws s.outRaced x.out, outRaced := [],
      unseen := s.unseen.insert s.regs.image }).setPump p x.pump).complete :=
  have hrun : pxDecode p t s = .ok { s.setPump p x.pump with outMem := x.out } :=
    Eff.bind_of_ok (pchk_valid ha.pump) (Eff.bind_of_ok (tchk_ready ha.table)
      (Eff.bind_of_ok (pxCheck_of_accepts ha) (Eff.bind_of_ok h rfl)))
  congrArg (finishMacro s p) hrun

/-- An accepted PX_DECODE whose differences decode to values PUT accepts stores the predicted image. -/
theorem exec_pxDecode_of_fits (ha : PxAccepts s p t) {ds : List Int} {q : Pump}
    (hds : readDiffs s p (List.replicate (s.regs.imgH.toNat * s.regs.imgW.toNat) t) s.pumps[p] = .ok (ds, q))
    (hfits : ∀ r c, r < s.regs.imgH.toNat → c < s.regs.imgW.toNat → PxFits s ds r c) :
    ∃ m : OutMemory,
      exec (.pxDecode p t) s = .next (({ s with
        outMem := m, outRaced := [], unseen := s.unseen.insert s.regs.image }).setPump p q).complete ∧
      (∀ r c, r < s.regs.imgH.toNat → c < s.regs.imgW.toNat → outIdx s.regs r c ∉ s.outRaced →
        outSample m (outIdx s.regs r c) = u16 (pxValue s.regs.imgW.toNat ds r c)) ∧
      ∀ x, outsideImage s x → outSample m x = outSample s.outMem x := by
  obtain ⟨Q, hQ0, rfl, hQ⟩ := readDiffs_replicate _ hds
  have hprefix : PxPrefix s p t ds Q s.regs.imgH.toNat 0 :=
    ⟨hQ, fun r c hb => by unfold PxBefore at hb; exact hfits r c (by omega) (by omega)⟩
  obtain ⟨x, hrows, hx⟩ := forUp_pxRow_of_prefix ha.image ha.size.1 _ le_rfl hprefix (pxStart_atRow hQ0)
  refine ⟨_, hx.pump ▸ exec_pxDecode_of_rows ha hrows, fun r c hr hc hraced => ?_, fun y ⟨hraced, hout⟩ => ?_⟩
  · rw [settleRaced_outside _ _ hraced]
    exact hx.stored.done r c (Or.inl ⟨hr, hc⟩)
  · rw [settleRaced_outside _ _ hraced]
    exact hx.stored.rest y fun r c hb => by unfold PxBefore at hb; exact hout r c (by omega) (by omega)

/-- An accepted PX_DECODE stops at the first pair of columns that stops. -/
theorem pxDecode_of_stop (ha : PxAccepts s p t) {ds : List Int} {Q : Nat → Pump} {r k : Nat} {e : ErrInfo}
    (hQ : Q 0 = s.pumps[p]) (hr : r < s.regs.imgH.toNat) (hk : 2 * k + 1 < s.regs.imgW.toNat)
    (hp : PxPrefix s p t ds Q r (2 * k)) (hstop : PxStopsAt s p t ds Q r (2 * k) e) : RaisesInfo (.pxDecode p t) s e :=
  pxDecode_of_rows_error ha (forUp_pxRow_of_stop ha.image ha.size.1 hr hk hp hstop (pxStart_atRow hQ))

/-- The first value PUT refuses stops PX_DECODE, once both differences of its pair are decoded. -/
theorem pxDecode_of_bad_value (ha : PxAccepts s p t) {ds : List Int} {q : Pump} {r c : Nat} (hr : r < s.regs.imgH.toNat)
    (hc : c < s.regs.imgW.toNat)
    (hds : readDiffs s p (List.replicate (r * s.regs.imgW.toNat + 2 * (c / 2) + 2) t) s.pumps[p] = .ok (ds, q))
    (hfits : ∀ r' c', PxBefore s.regs.imgW.toNat r c r' c' → PxFits s ds r' c') (hbad : ¬ PxFits s ds r c) :
    RaisesInfo (.pxDecode p t) s ⟨.corrupt, r, c, 0, pxValue s.regs.imgW.toNat ds r c⟩ := by
  have heven := ha.size.1
  obtain ⟨Q, hQ0, -, hQ⟩ := readDiffs_replicate _ hds
  refine pxDecode_of_stop ha (k := c / 2) hQ0 hr (by omega) ⟨fun i hi => hQ i (by omega), fun r' c' hb =>
    hfits r' c' (by unfold PxBefore at hb ⊢; omega)⟩ ?_
  rcases Nat.mod_two_eq_zero_or_one c with hpar | hpar
  · rw [show 2 * (c / 2) = c by omega] at hQ ⊢
    exact pxStopsAt_even_value hQ hbad
  · obtain ⟨k, rfl⟩ : ∃ k, c = 2 * k + 1 := ⟨c / 2, by omega⟩
    rw [show 2 * ((2 * k + 1) / 2) = 2 * k by omega] at hQ ⊢
    exact pxStopsAt_odd_value ha.image hr (by omega) hQ (hfits _ _ (Or.inr ⟨rfl, by omega⟩)) hbad

/-- The first difference that does not decode stops PX_DECODE, before either value of its pair is checked. -/
theorem pxDecode_of_bad_difference (ha : PxAccepts s p t) {ds : List Int} {q : Pump} {r c : Nat} {e : ErrInfo}
    (hr : r < s.regs.imgH.toNat) (hc : c < s.regs.imgW.toNat)
    (hds : readDiffs s p (List.replicate (r * s.regs.imgW.toNat + c) t) s.pumps[p] = .ok (ds, q))
    (hfits : ∀ r' c', PxBefore s.regs.imgW.toNat r (2 * (c / 2)) r' c' → PxFits s ds r' c')
    (he : hdiff s t p q = .error (.raised e)) : RaisesInfo (.pxDecode p t) s e := by
  have heven := ha.size.1
  obtain ⟨Q, hQ0, rfl, hQ⟩ := readDiffs_replicate _ hds
  refine pxDecode_of_stop ha (k := c / 2) hQ0 hr (by omega) ⟨fun i hi => hQ i (by omega), hfits⟩ ?_
  rcases Nat.mod_two_eq_zero_or_one c with hpar | hpar
  · rw [show 2 * (c / 2) = c by omega]
    exact pxStopsAt_first_difference he
  · obtain ⟨k, rfl⟩ : ∃ k, c = 2 * k + 1 := ⟨c / 2, by omega⟩
    rw [show 2 * ((2 * k + 1) / 2) = 2 * k by omega]
    exact pxStopsAt_second_difference hQ he

end

/-- Settles O48: the checks in order, then the loop, which stores the samples before the place it stands at. -/
theorem pxDecodeStoresThePredictedImage : Obligations.PxDecodeStoresThePredictedImage := by
  intro s p t
  refine ⟨fun hv => pxDecode_raises (Eff.bind_of_error (pchk_invalid hv)), fun hv ht =>
    pxDecode_raises (Eff.bind_of_ok (pchk_valid hv) (Eff.bind_of_error (tchk_not_ready ht))), fun hv ht =>
    ⟨fun code row col val himage => pxDecode_of_check_error hv ht (Eff.bind_of_error (imgChk_of_fails himage)),
      fun himage hsize => ?_⟩, fun ha => ⟨fun ds q hds hfits => exec_pxDecode_of_fits ha hds hfits,
    fun ds q r c hr hc hds hfits hbad => pxDecode_of_bad_value ha hr hc hds hfits hbad,
    fun ds q r c e hr hc hds hfits he => pxDecode_of_bad_difference ha hr hc hds hfits he⟩⟩
  exact pxDecode_of_check_error hv ht (Eff.bind_of_ok (imgChk_of_imageOk himage)
    (require_of_not (decide_eq_false (by omega))))

end Sys2Proof.Machine

/-! SUPPORT. SV0_DECODE: its rows write the image only, and its fix-up swaps each cell's anti-diagonal once (spec
46_samsung.md R211, R212, R214). -/

namespace Sys2Proof.Machine

/-! ## The rows write the image only -/

/-- Whatever value this answers has the property. -/
def Eff.Gives {α : Type} (post : α → Prop) (x : Eff α) : Prop := ∀ a, x = .ok a → post a

theorem Eff.gives_ok {α : Type} {post : α → Prop} {a : α} (h : post a) : Eff.Gives post (.ok a) := by
  rintro _ ⟨⟩
  exact h

theorem Eff.gives_bind {α β : Type} {post : β → Prop} {x : Eff α} {f : α → Eff β}
    (hf : ∀ a, x = .ok a → Eff.Gives post (f a)) : Eff.Gives post (x >>= f) := fun b hb =>
  have ⟨a, hx, hfa⟩ := Eff.bind_ok.mp hb
  hf a hx b hfa

theorem gives_forUp {σ : Type} {body : Nat → σ → Eff σ} {inv : σ → Prop} {n i : Nat} {x : σ} (hx : inv x)
    (hb : ∀ j y, i ≤ j → j < i + n → inv y → Eff.Gives inv (body j y)) : Eff.Gives inv (forUp body n i x) := fun _ h =>
  forUp_invariant (fun _ => inv) hx (fun j y y' hij hj hy hbody => hb j y hij hj hy y' hbody) h

/-- OUT changed inside the image only. -/
def ImageOnly (s : State) (m m' : OutMemory) : Prop :=
  ∀ x, (∀ r c, r < s.regs.imgH.toNat → c < s.regs.imgW.toNat → x ≠ outIdx s.regs r c) → outSample m' x = outSample m x

section
variable {s : State} {p : PumpIx} {m m' m'' : OutMemory} {r col : Nat} {x : SvRun}

theorem ImageOnly.refl (s : State) (m : OutMemory) : ImageOnly s m m := fun _ _ => rfl

theorem ImageOnly.trans (h : ImageOnly s m m') (h' : ImageOnly s m' m'') : ImageOnly s m m'' := fun x hx =>
  (h' x hx).trans (h x hx)

theorem imageOnly_writeOut {c : Nat} {v : Sample} (hr : r < s.regs.imgH.toNat) (hc : c < s.regs.imgW.toNat)
    (h : writeOut s.par m (outIdx s.regs r c) v = .ok m') : ImageOnly s m m' := by
  obtain ⟨-, rfl⟩ := writeOut_ok.mp h
  exact fun x hx => outSample_put_other _ _ (hx r c hr hc)

theorem svUpColumn_imageOnly {up c : Nat} (hr : r < s.regs.imgH.toNat) (hc : col + c < s.regs.imgW.toNat)
    (hx : ImageOnly s m x.out) : Eff.Gives (fun y => ImageOnly s m y.out) (svUpColumn s p r col up c x) :=
  Eff.gives_bind fun ⟨_, _⟩ _ => Eff.gives_bind fun _ _ => Eff.gives_bind fun _ hm =>
    Eff.gives_ok (hx.trans (imageOnly_writeOut hr hc hm))

theorem svLeftColumn_imageOnly {left c : Nat} (hr : r < s.regs.imgH.toNat) (hx : ImageOnly s m x.out) :
    Eff.Gives (fun y => ImageOnly s m y.out) (svLeftColumn s p r col left c x) := by
  refine Eff.gives_bind fun ⟨a, q⟩ _ => ?_
  dsimp only
  split
  · exact Eff.gives_bind fun _ hm => Eff.gives_ok (hx.trans (imageOnly_writeOut hr ‹_› hm))
  · exact Eff.gives_ok hx

theorem svSamples_imageOnly {dir : Nat} (hr : r < s.regs.imgH.toNat) (hx : ImageOnly s m x.out) :
    Eff.Gives (fun y => ImageOnly s m y.out) (svSamples s p r col dir x) := by
  unfold svSamples
  split
  · refine Eff.gives_bind fun _ _ => Eff.gives_bind fun _ hfit => ?_
    have hwide : col + 16 < s.regs.imgW.toNat := of_decide_eq_true (require_ok.mp hfit)
    have heven := gives_forUp (inv := fun z : SvRun => ImageOnly s m z.out) (n := 8) (i := 0) hx fun j y _ hj hy =>
      svUpColumn_imageOnly (p := p) (col := col) (up := 1) (c := 2 * j) hr (by omega) hy
    exact Eff.gives_bind fun y hy => gives_forUp (heven y hy) fun j z _ hj hz => svUpColumn_imageOnly hr (by omega) hz
  · refine Eff.gives_bind fun left _ => ?_
    have heven := gives_forUp (inv := fun z : SvRun => ImageOnly s m z.out) (n := 8) (i := 0) hx fun j y _ _ hy =>
      svLeftColumn_imageOnly (p := p) (col := col) (left := left) (c := 2 * j) hr hy
    exact Eff.gives_bind fun y hy => Eff.gives_bind fun _ _ =>
      gives_forUp (heven y hy) fun j z _ _ hz => svLeftColumn_imageOnly hr hz

theorem svAdapt_out {ops : List Nat} {i : Nat} : Eff.Gives (fun y => y.out = x.out) (svAdapt s p r col ops i x) :=
  Eff.gives_bind fun ⟨_, _⟩ _ => Eff.gives_bind fun _ _ => Eff.gives_ok rfl

theorem svGroup_imageOnly {g : Nat} (hr : r < s.regs.imgH.toNat) (hx : ImageOnly s m x.out) :
    Eff.Gives (fun y => ImageOnly s m y.out) (svGroup s p r g x) :=
  Eff.gives_bind fun ⟨_, _⟩ _ => Eff.gives_bind fun ⟨_, _⟩ _ => Eff.gives_bind fun y hy =>
    have hout : y.out = x.out := gives_forUp (inv := fun z => z.out = x.out) rfl
      (fun _ _ _ _ hz z' hz' => (svAdapt_out z' hz').trans hz) y hy
    svSamples_imageOnly hr (hout ▸ hx)

theorem svRow_imageOnly {mode : PumpMode} {y : Pump × OutMemory} (hr : r < s.regs.imgH.toNat)
    (hy : ImageOnly s m y.2) : Eff.Gives (fun z => ImageOnly s m z.2) (svRow s p mode r y) :=
  Eff.gives_bind fun z hz => Eff.gives_ok
    (gives_forUp (inv := fun z => ImageOnly s m z.out) hy (fun _ _ _ _ hx => svGroup_imageOnly hr hx) z hz)

theorem svRows_imageOnly {mode : PumpMode} {y z : Pump × OutMemory}
    (h : forUp (svRow s p mode) s.regs.imgH.toNat 0 y = .ok z) : ImageOnly s y.2 z.2 :=
  gives_forUp (inv := fun z => ImageOnly s y.2 z.2) (.refl s y.2) (fun _ _ _ _ hx => svRow_imageOnly (by omega) hx) z h

end

/-! ## The fix-up (46_samsung.md R214) -/

section
variable {s : State} {i j : Nat} {m m' : OutMemory}

theorem fixupSource_top {g : HostRegs} (h : 2 * i + 1 < g.imgH.toNat) :
    fixupSource g (2 * i) (2 * j + 1) = outIdx g (2 * i + 1) (2 * j) := if_pos ⟨by omega, by omega, h⟩

theorem fixupSource_bottom {g : HostRegs} (h : 2 * j + 1 < g.imgW.toNat) :
    fixupSource g (2 * i + 1) (2 * j) = outIdx g (2 * i) (2 * j + 1) :=
  (if_neg (by omega)).trans (if_pos ⟨by omega, by omega, h⟩)

/-- The samples of a cell's diagonal, and those of a last row or column that has no cell, stay. -/
theorem fixupSource_self {g : HostRegs} {r c : Nat}
    (h : r % 2 = c % 2 ∨ (r < g.imgH.toNat ∧ g.imgH.toNat / 2 ≤ r / 2) ∨
      (c < g.imgW.toNat ∧ g.imgW.toNat / 2 ≤ c / 2)) :
    fixupSource g r c = outIdx g r c := (if_neg (by omega)).trans (if_neg (by omega))

/-- What the swap of a cell leaves. -/
structure Swapped (s : State) (i j : Nat) (m m' : OutMemory) : Prop where
  top : outSample m' (outIdx s.regs (2 * i) (2 * j + 1)) = outSample m (outIdx s.regs (2 * i + 1) (2 * j))
  bottom : outSample m' (outIdx s.regs (2 * i + 1) (2 * j)) = outSample m (outIdx s.regs (2 * i) (2 * j + 1))
  other : ∀ y, y ≠ outIdx s.regs (2 * i) (2 * j + 1) → y ≠ outIdx s.regs (2 * i + 1) (2 * j) →
    outSample m' y = outSample m y

theorem can_svSwap (hi : imageOk s) (hr : 2 * i + 1 < s.regs.imgH.toNat) (hc : 2 * j + 1 < s.regs.imgW.toNat) :
    Eff.Can [] (Swapped s i j m) (svSwap s i j m) := by
  have htop := outIdx_lt hi (r := 2 * i) (c := 2 * j + 1) (by omega) hc
  have hbottom := outIdx_lt hi (r := 2 * i + 1) (c := 2 * j) hr (by omega)
  have hne : outIdx s.regs (2 * i) (2 * j + 1) ≠ outIdx s.regs (2 * i + 1) (2 * j) := fun he =>
    absurd (outIdx_inj hi hc (by omega) he).1 (by omega)
  refine Eff.can_bind (can_readOut htop) fun a ha => Eff.can_bind (can_readOut hbottom) fun b hb =>
    Eff.can_bind (can_writeOut htop) fun m1 hm1 => Eff.can_mono (can_writeOut hbottom) (fun _ h => h) fun m2 hm2 => ?_
  subst ha hb hm1 hm2
  exact ⟨by rw [outSample_put_other _ _ hne, outSample_put_same], outSample_put_same _ _ _, fun y hy hy' => by
    rw [outSample_put_other _ _ hy', outSample_put_other _ _ hy]⟩

/-- Cell (r / 2, c / 2) comes before cell (i, j). -/
def CellBefore (i j r c : Nat) : Prop := r / 2 < i ∨ (r / 2 = i ∧ c / 2 < j)

/-- The cells before (i, j) are swapped, and every other sample is as in m. -/
structure FixedUp (s : State) (m : OutMemory) (i j : Nat) (m' : OutMemory) : Prop where
  done : ∀ r c, r < s.regs.imgH.toNat → c < s.regs.imgW.toNat → CellBefore i j r c →
    outSample m' (outIdx s.regs r c) = outSample m (fixupSource s.regs r c)
  todo : ∀ r c, r < s.regs.imgH.toNat → c < s.regs.imgW.toNat → ¬ CellBefore i j r c →
    outSample m' (outIdx s.regs r c) = outSample m (outIdx s.regs r c)
  outside : ImageOnly s m m'

theorem FixedUp.start (s : State) (m : OutMemory) : FixedUp s m 0 0 m :=
  ⟨fun _ _ _ _ h => by unfold CellBefore at h; omega, fun _ _ _ _ _ => rfl, .refl s m⟩

/-- The samples of the cell a swap is at. -/
theorem FixedUp.swapped_cell {m'' : OutMemory} {r c : Nat} (hi : imageOk s) (hr : 2 * i + 1 < s.regs.imgH.toNat)
    (hc : 2 * j + 1 < s.regs.imgW.toNat) (h : FixedUp s m i j m') (hs : Swapped s i j m' m'') (hri : r / 2 = i)
    (hcj : c / 2 = j) : outSample m'' (outIdx s.regs r c) = outSample m (fixupSource s.regs r c) := by
  have hcell : ∀ a b, a / 2 = i → b / 2 = j → outSample m' (outIdx s.regs a b) = outSample m (outIdx s.regs a b) :=
    fun a b ha hb => h.todo a b (by omega) (by omega) (by unfold CellBefore; omega)
  by_cases hdiag : r % 2 = c % 2
  · rw [fixupSource_self (Or.inl hdiag), hs.other, hcell r c hri hcj]
    · exact fun he => absurd (outIdx_inj hi (by omega) (by omega) he) (by omega)
    · exact fun he => absurd (outIdx_inj hi (by omega) (by omega) he) (by omega)
  · rcases Nat.mod_two_eq_zero_or_one r with hpar | hpar
    · obtain ⟨rfl, rfl⟩ : r = 2 * i ∧ c = 2 * j + 1 := by omega
      rw [fixupSource_top hr, hs.top, hcell _ _ (by omega) (by omega)]
    · obtain ⟨rfl, rfl⟩ : r = 2 * i + 1 ∧ c = 2 * j := by omega
      rw [fixupSource_bottom hc, hs.bottom, hcell _ _ (by omega) (by omega)]

theorem FixedUp.swap {m'' : OutMemory} (hi : imageOk s) (hr : 2 * i + 1 < s.regs.imgH.toNat)
    (hc : 2 * j + 1 < s.regs.imgW.toNat) (h : FixedUp s m i j m') (hs : Swapped s i j m' m'') :
    FixedUp s m i (j + 1) m'' := by
  have hkeep : ∀ r c, c < s.regs.imgW.toNat → ¬ (r / 2 = i ∧ c / 2 = j) →
      outSample m'' (outIdx s.regs r c) = outSample m' (outIdx s.regs r c) := fun r c hw hcell =>
    hs.other _ (fun he => absurd (outIdx_inj hi hw hc he) (by omega))
      (fun he => absurd (outIdx_inj hi hw (by omega) he) (by omega))
  refine ⟨fun r c hh hw hb => ?_, fun r c hh hw hb => ?_, fun x hx => ?_⟩
  · by_cases hcell : r / 2 = i ∧ c / 2 = j
    · exact h.swapped_cell hi hr hc hs hcell.1 hcell.2
    · rw [hkeep r c hw hcell]
      exact h.done r c hh hw (by unfold CellBefore at hb ⊢; omega)
  · unfold CellBefore at hb
    rw [hkeep r c hw (by omega)]
    exact h.todo r c hh hw (by unfold CellBefore; omega)
  · rw [hs.other x (hx _ _ (by omega) hc) (hx _ _ hr (by omega))]
    exact h.outside x hx

/-- Behind the last cell of a row pair the next pair begins. -/
theorem FixedUp.next_row (h : FixedUp s m i (s.regs.imgW.toNat / 2) m') : FixedUp s m (i + 1) 0 m' where
  done r c hh hw hb := by
    by_cases hlast : CellBefore i (s.regs.imgW.toNat / 2) r c
    · exact h.done r c hh hw hlast
    · rw [h.todo r c hh hw hlast, fixupSource_self (Or.inr (Or.inr ⟨hw, by unfold CellBefore at hb hlast; omega⟩))]
  todo r c hh hw hb := h.todo r c hh hw (by unfold CellBefore at hb ⊢; omega)
  outside := h.outside

/-- Behind the last row pair every sample of the image stands where the fix-up puts it. -/
theorem FixedUp.all (h : FixedUp s m (s.regs.imgH.toNat / 2) 0 m') {r c : Nat} (hr : r < s.regs.imgH.toNat)
    (hc : c < s.regs.imgW.toNat) : outSample m' (outIdx s.regs r c) = outSample m (fixupSource s.regs r c) := by
  by_cases hlast : CellBefore (s.regs.imgH.toNat / 2) 0 r c
  · exact h.done r c hr hc hlast
  · rw [h.todo r c hr hc hlast, fixupSource_self (Or.inr (Or.inl ⟨hr, by unfold CellBefore at hlast; omega⟩))]

theorem svFixup_of_image (hi : imageOk s) (m : OutMemory) :
    ∃ m', svFixup s m = .ok m' ∧ FixedUp s m (s.regs.imgH.toNat / 2) 0 m' := by
  rw [← Eff.can_nil]
  have hrows := can_forUp (codes := []) (fun i => FixedUp s m i 0) (s.regs.imgH.toNat / 2) 0 m (.start s m)
    (body := fun i => forUp (svSwap s i) (s.regs.imgW.toNat / 2) 0) fun i m' _ hrow hm' => by
      have hcells := can_forUp (codes := []) (FixedUp s m i) (s.regs.imgW.toNat / 2) 0 m' hm' fun j m'' _ hcell hm'' =>
        Eff.can_mono (can_svSwap hi (by omega) (by omega)) (fun _ h => h) fun _ hs =>
          hm''.swap hi (by omega) (by omega) hs
      rw [Nat.zero_add] at hcells
      exact Eff.can_mono hcells (fun _ h => h) fun _ h => h.next_row
  rwa [Nat.zero_add] at hrows

end

/-! ## The command -/

section
variable {s : State} {p : PumpIx} {mode : PumpMode}

/-- An error of SV0_DECODE's pseudocode is the command's. -/
theorem sv0Decode_raises {e : ErrInfo} (h : sv0Decode p mode s = .error (.raised e)) :
    RaisesInfo (.sv0Decode p mode) s e := ⟨_, congrArg (finishMacro s.clearReady p) h, rfl, rfl, rfl, rfl⟩

/-- With a ready table for this height, an error of what follows is the command's. -/
theorem sv0Decode_raises_of_stripes {e : ErrInfo} (hready : s.sv0.ready = true)
    (hrows : s.sv0.stripes.length = s.regs.imgH.toNat)
    (h : imgChk s = .error (.raised e) ∨
      (imageOk s ∧ forUp (svRow s p mode) s.regs.imgH.toNat 0 (s.pumps[p], s.outMem) = .error (.raised e))) :
    RaisesInfo (.sv0Decode p mode) s e := by
  refine sv0Decode_raises (Eff.bind_of_ok (require_of hready) (Eff.bind_of_ok (require_of (decide_eq_true hrows)) ?_))
  rcases h with himage | ⟨himage, hloop⟩
  · exact Eff.bind_of_error himage
  · exact Eff.bind_of_ok (imgChk_of_imageOk himage) (Eff.bind_of_error hloop)

/-- An accepted SV0_DECODE whose rows and fix-up answer completes with their pump and samples. -/
theorem exec_sv0Decode_of_rows {q : Pump} {m m' : OutMemory} (hready : s.sv0.ready = true) (himage : imageOk s)
    (hrows : s.sv0.stripes.length = s.regs.imgH.toNat)
    (hloop : forUp (svRow s p mode) s.regs.imgH.toNat 0 (s.pumps[p], s.outMem) = .ok (q, m))
    (hfix : svFixup s m = .ok m') :
    exec (.sv0Decode p mode) s = .next (({ s with
      outMem := settleRaced s.draws s.outRaced m', outRaced := [], unseen := s.unseen.insert s.regs.image
      sv0 := { s.sv0 with ready := false } }).setPump p q).complete :=
  have hrun : sv0Decode p mode s =
      .ok { s.setPump p q with outMem := m', sv0 := { s.sv0 with ready := false } } :=
    Eff.bind_of_ok (require_of hready) (Eff.bind_of_ok (require_of (decide_eq_true hrows))
      (Eff.bind_of_ok (imgChk_of_imageOk himage) (Eff.bind_of_ok hloop (Eff.bind_of_ok hfix rfl))))
  congrArg (finishMacro s.clearReady p) hrun

end

/-- Settles O51: the errors in their order, and the samples of the rows where the fix-up puts them. -/
theorem sv0DecodeSwapsOnceAfterTheRows : Obligations.Sv0DecodeSwapsOnceAfterTheRows := by
  intro s p mode
  refine ⟨fun hready => sv0Decode_raises (Eff.bind_of_error (require_of_not hready)), fun hready =>
    ⟨fun hrows => sv0Decode_raises (Eff.bind_of_ok (require_of hready)
      (Eff.bind_of_error (require_of_not (decide_eq_false hrows)))),
    fun code row col val hrows himage => sv0Decode_raises_of_stripes hready hrows (Or.inl (imgChk_of_fails himage)),
    fun e himage hrows hloop => sv0Decode_raises_of_stripes hready hrows (Or.inr ⟨himage, hloop⟩),
    fun q m himage hrows hloop => ?_⟩⟩
  obtain ⟨m', hfix, hfixed⟩ := svFixup_of_image himage m
  refine ⟨_, exec_sv0Decode_of_rows hready himage hrows hloop hfix, fun r c hr hc hraced => ?_,
    fun x ⟨hraced, hout⟩ => ?_⟩
  · rw [settleRaced_outside _ _ hraced]
    exact hfixed.all hr hc
  · rw [settleRaced_outside _ _ hraced]
    exact (svRows_imageOnly hloop).trans hfixed.outside x hout

end Sys2Proof.Machine

/-! SUPPORT. What the decoding commands leave of OUT: LJ_DECODE, PX_DECODE and SV0_DECODE write inside the image region
only, and every sample an outside agent raced for is a free value after them (spec 20_memory.md R61, R78,
40_control.md R103). -/

namespace Sys2Proof.Machine

/-! ## The loops write the image only -/

section
variable {s : State} {p : PumpIx} {m : OutMemory} {r : Nat}

theorem ljStep_imageOnly {tabs : List TableIx} {i : Nat} {x : LjRun}
    (hplace : s.regs.ljTx + s.regs.ljTw ≤ s.regs.imgW.toNat ∧ s.regs.ljTy + s.regs.ljTh ≤ s.regs.imgH.toNat)
    (hr : r < s.regs.ljTh) (hx : ImageOnly s m x.out) :
    Eff.Gives (fun y => ImageOnly s m y.out) (ljStep s p tabs r i x) := by
  refine Eff.gives_bind fun ⟨d, q⟩ _ => ?_
  dsimp only
  split
  · exact Eff.gives_bind fun _ hm => Eff.gives_ok (hx.trans (imageOnly_writeOut (by omega) (by omega) hm))
  · exact Eff.gives_ok hx

theorem ljRow_imageOnly {tabs : List TableIx} {x : LjRun}
    (hplace : s.regs.ljTx + s.regs.ljTw ≤ s.regs.imgW.toNat ∧ s.regs.ljTy + s.regs.ljTh ≤ s.regs.imgH.toNat)
    (hr : r < s.regs.ljTh) (hx : ImageOnly s m x.out) :
    Eff.Gives (fun y => ImageOnly s m y.out) (ljRow s p tabs r x) := by
  have hblock : ∀ b (y : LjRun), ImageOnly s m y.out →
      Eff.Gives (fun z => ImageOnly s m z.out) (ljBlock s p tabs r b y) := fun b y hy => by
    refine Eff.gives_bind fun z hz => ?_
    have hout : ImageOnly s m z.out := gives_forUp (inv := fun z : LjRun => ImageOnly s m z.out) hy
      (fun _ _ _ _ hz => ljStep_imageOnly hplace hr hz) z hz
    split
    · exact Eff.gives_ok hout
    · exact Eff.gives_ok hout
  exact Eff.gives_bind fun y hy => Eff.gives_ok
    (gives_forUp (inv := fun z : LjRun => ImageOnly s m z.out) (x := { x with col := 0 }) hx
      (fun b z _ _ hz => hblock b z hz) y hy)

theorem pxPut_imageOnly {c : Nat} {v : Int} {m' : OutMemory} (hr : r < s.regs.imgH.toNat)
    (hc : c < s.regs.imgW.toNat) (hm : ImageOnly s m m') :
    Eff.Gives (fun m'' => ImageOnly s m m'') (pxPut s m' r c v) :=
  Eff.gives_bind fun _ _ _ hput => hm.trans (imageOnly_writeOut hr hc hput)

theorem pxPair_imageOnly {t : TableIx} {j : Nat} {x : PxRun} (hr : r < s.regs.imgH.toNat)
    (hj : 2 * j + 3 < s.regs.imgW.toNat) (hx : ImageOnly s m x.out) :
    Eff.Gives (fun y => ImageOnly s m y.out) (pxPair s t p r j x) :=
  Eff.gives_bind fun ⟨_, _⟩ _ => Eff.gives_bind fun ⟨_, _⟩ _ =>
    Eff.gives_bind fun m1 h1 => Eff.gives_bind fun m2 h2 =>
    have heven : ImageOnly s m m1 := pxPut_imageOnly hr (by omega) hx m1 h1
    Eff.gives_ok (pxPut_imageOnly hr hj heven m2 h2)

theorem pxRow_imageOnly {t : TableIx} {x : PxRun} (hr : r < s.regs.imgH.toNat) (hw : 1 < s.regs.imgW.toNat)
    (hx : ImageOnly s m x.out) : Eff.Gives (fun y => ImageOnly s m y.out) (pxRow s t p r x) :=
  Eff.gives_bind fun ⟨_, _⟩ _ => Eff.gives_bind fun ⟨_, _⟩ _ =>
    Eff.gives_bind fun m1 h1 => Eff.gives_bind fun m2 h2 =>
    have heven : ImageOnly s m m1 := pxPut_imageOnly hr (by omega) hx m1 h1
    gives_forUp (inv := fun y : PxRun => ImageOnly s m y.out) (pxPut_imageOnly hr hw heven m2 h2)
      fun _ _ _ _ hy => pxPair_imageOnly hr (by omega) hy

end

/-! ## The decoding commands -/

/-- What a decoding command's pseudocode does to OUT: it changes the image only, and touches neither the marks of the
outside writes nor the draw counter. -/
structure DecodesImage (s u : State) : Prop where
  image : ImageOnly s s.outMem u.outMem
  outRaced : u.outRaced = s.outRaced
  draws : u.draws = s.draws

section
variable {s : State} {p : PumpIx}

theorem ljCheck_place {tabs : List TableIx} (h : ljCheck s = .ok tabs) :
    s.regs.ljTx + s.regs.ljTw ≤ s.regs.imgW.toNat ∧ s.regs.ljTy + s.regs.ljTh ≤ s.regs.imgH.toNat := by
  simp only [ljCheck, Eff.bind_ok, require_ok, decide_eq_true_eq] at h
  obtain ⟨_, -, _, -, _, -, _, -, _, -, _, -, _, -, _, hplace, -⟩ := h
  exact hplace

theorem ljDecode_decodesImage : Eff.Gives (DecodesImage s) (ljDecode p s) :=
  Eff.gives_bind fun _ _ => Eff.gives_bind fun _ hcheck => Eff.gives_bind fun x hrows => Eff.gives_ok
    { image := gives_forUp (inv := fun x : LjRun => ImageOnly s s.outMem x.out) (.refl s s.outMem)
        (fun _ _ _ hr hx => ljRow_imageOnly (ljCheck_place hcheck) (by omega) hx) x hrows
      outRaced := rfl
      draws := rfl }

theorem pxCheck_even (h : pxCheck s = .ok ()) : imageOk s ∧ s.regs.imgW.toNat % 2 = 0 := by
  obtain ⟨_, himage, hsize⟩ := Eff.bind_ok.mp h
  exact ⟨imgChk_ok.mp himage, (of_decide_eq_true (require_ok.mp hsize)).1⟩

theorem pxDecode_decodesImage {t : TableIx} : Eff.Gives (DecodesImage s) (pxDecode p t s) :=
  Eff.gives_bind fun _ _ => Eff.gives_bind fun _ _ => Eff.gives_bind fun _ hcheck =>
    Eff.gives_bind fun x hrows => Eff.gives_ok
    { image := by
        obtain ⟨⟨hwidth, _⟩, heven⟩ := pxCheck_even hcheck
        exact gives_forUp (inv := fun x : PxRun => ImageOnly s s.outMem x.out) (.refl s s.outMem)
          (fun _ _ _ hr hx => pxRow_imageOnly (by omega) (by omega) hx) x hrows
      outRaced := rfl
      draws := rfl }

theorem svFixup_imageOnly {m m' : OutMemory} (himage : imageOk s) (h : svFixup s m = .ok m') : ImageOnly s m m' := by
  obtain ⟨m'', hfix, hfixed⟩ := svFixup_of_image himage m
  obtain rfl : m'' = m' := Except.ok.inj (hfix.symm.trans h)
  exact hfixed.outside

theorem sv0Decode_decodesImage {mode : PumpMode} : Eff.Gives (DecodesImage s) (sv0Decode p mode s) :=
  Eff.gives_bind fun _ _ => Eff.gives_bind fun _ _ => Eff.gives_bind fun _ himage =>
    Eff.gives_bind fun ⟨_, _⟩ hrows => Eff.gives_bind fun _ hfix => Eff.gives_ok
    { image := (svRows_imageOnly hrows).trans (svFixup_imageOnly (imgChk_ok.mp himage) hfix)
      outRaced := rfl
      draws := rfl }

theorem spoilRegion_imageOnly (s : State) (draw : Nat) (m : OutMemory) :
    ImageOnly s m (spoilRegion s.regs s.par.outSize draw m) := fun _ hx => spoilRegion_outside m hx

/-- A decoding command, completed or failed, settles the samples raced for from outside over an OUT changed in the image
only. -/
theorem finishMacro_outMem {s' t : State} {e : Eff State} (hs : s' = s ∨ s' = s.clearReady)
    (he : Eff.Gives (DecodesImage s) e) (ht : finishMacro s' p e = .next t) :
    ∃ m, t.outMem = settleRaced s.draws s.outRaced m ∧ ImageOnly s s.outMem m := by
  obtain ⟨u, hu, rfl⟩ | ⟨_, _, rfl⟩ := finishMacro_next.mp ht
  · obtain ⟨himage, hraced, hdraws⟩ := he u hu
    refine ⟨u.outMem, ?_, himage⟩
    rw [State.complete_outMem, State.settleMacro_outMem, hraced, hdraws]
  · refine ⟨_, ?_, spoilRegion_imageOnly s s.draws s.outMem⟩
    rcases hs with rfl | rfl <;> rfl

/-- What a decoding command leaves of OUT. -/
theorem exec_decodingMacro_outMem {i : Instr} {t : State} (hi : isDecodingMacro i = true) (ht : exec i s = .next t) :
    ∃ m, t.outMem = settleRaced s.draws s.outRaced m ∧ ImageOnly s s.outMem m := by
  cases i with
  | ljDecode p => exact finishMacro_outMem (.inl rfl) ljDecode_decodesImage ht
  | pxDecode p t => exact finishMacro_outMem (.inl rfl) pxDecode_decodesImage ht
  | sv0Decode p mode => exact finishMacro_outMem (.inr rfl) sv0Decode_decodesImage ht
  | _ => cases hi

end

/-! ## Frames -/

theorem writesOf_out (i : Instr) : (writesOf i).out = isDecodingMacro i := by cases i <;> rfl

/-- What a failed decoding command leaves before its error entry keeps the frame. -/
theorem Frame.spoilMacro {w : Writes} {s u : State} {p : PumpIx} (h : Frame w s u) (hp : p ∈ w.pumps)
    (hw : w.out = true) : Frame w s (u.spoilMacro p) :=
  have hspoil : Frame w s u.spoilImage := { h with out := fun hn => by rw [hw] at hn; cases hn }
  hspoil.setPump hp _

/-- A failed command has written only what its Writes line names. -/
theorem State.failed_frame (s : State) (i : Instr) : Frame (writesOf i) s (s.failed i) := by
  have one : ∀ p : PumpIx, p ∈ [p] := List.mem_singleton_self
  cases i with
  | ljDecode p => exact (Frame.refl _ s).spoilMacro (one p) rfl
  | pxDecode p t => exact (Frame.refl _ s).spoilMacro (one p) rfl
  | sv0Stripes a b => exact (Frame.refl _ s).withSv0 rfl _
  | sv0Decode p mode => exact ((Frame.refl _ s).withSv0 rfl _).spoilMacro (one p) rfl
  | _ => exact .refl _ s

/-- A command's end moves only the completion and error state, and neither lost flag. -/
theorem Frame.unwritten {w : Writes} {s u : State} (h : Frame w s u) {f : Status}
    (hf : f.cmdLost = u.status.cmdLost ∧ f.wrLost = u.status.wrLost) (e : ErrRegs) (n : Word) (d : Nat)
    (himage : ∀ x, outsideImage s x → outSample u.outMem x = outSample s.outMem x) :
    Unwritten w s { u with status := f, err := e, cmdcnt := n, draws := d } :=
  { h with
    out := fun hw =>
      have ⟨hmem, hraced, hunseen⟩ := h.out hw
      ⟨fun x => congrArg (outSample · x) hmem, hraced, hunseen⟩
    image := himage
    input := fun a => congrArg (Memory.get · a) h.inMem
    flags := h.status ▸ hf
    special := ⟨h.irqEn, h.cmd, h.regs, h.par⟩ }

/-- No command changes a sample outside the image that nobody raced for. -/
theorem exec_outsideImage {i : Instr} {s t u : State} (ht : exec i s = .next t) (hu : Frame (writesOf i) s u)
    (hout : t.outMem = u.outMem) {x : Nat} (hx : outsideImage s x) :
    outSample u.outMem x = outSample s.outMem x := by
  cases hi : isDecodingMacro i
  · rw [(hu.out ((writesOf_out i).trans hi)).1]
  · obtain ⟨m, hm, himage⟩ := exec_decodingMacro_outMem hi ht
    rw [← hout, hm, settleRaced_outside _ _ hx.1]
    exact himage x hx.2

/-- Every command that answers leaves all its Writes line does not name, done or in an error. -/
theorem exec_unwritten {i : Instr} {s t : State} (ht : exec i s = .next t) : Unwritten (writesOf i) s t := by
  obtain ⟨u, hu, rfl⟩ | ⟨e, -, rfl⟩ := exec_ends ht
  · exact hu.unwritten (f := u.complete.status) ⟨rfl, rfl⟩ _ _ _ fun x hx => exec_outsideImage ht hu rfl hx
  · have hu := s.failed_frame i
    exact hu.unwritten (f := ((s.failed i).enterError e).status) ⟨rfl, rfl⟩ _ _ _ fun x hx =>
      exec_outsideImage ht hu rfl hx

/-- Settles O21, as every command keeps what its Writes line does not name. -/
theorem decoderCommandsLeaveTheRest : Obligations.DecoderCommandsLeaveTheRest := fun _ _ _ _ ht => exec_unwritten ht

end Sys2Proof.Machine

/-! SUPPORT. A host write of a byte of IN: when it is a race, what it changes, and what reads the byte afterwards (spec
20_memory.md R60, R77). -/

namespace Sys2Proof.Machine

/-! ## IN: the races (20_memory.md R77) -/

theorem Pump.unconsumed_iff {p : Pump} {a : Nat} :
    p.unconsumed a = true ↔ p.valid = true ∧ p.off.toNat + p.unconsumedFrom ≤ a ∧
      a < p.off.toNat + (if p.ended then p.inpos else p.size).toNat := by
  unfold Pump.unconsumed Pump.fetchEnd
  rw [Bool.and_eq_true, decide_eq_true_eq, apply_ite BitVec.toNat]

theorem Sv0.willRead_iff {v : Sv0} {a : Nat} :
    v.willRead a = true ↔ v.ready = true ∧ ∃ x ∈ v.stripes, x.off.toNat ≤ a ∧ a < x.off.toNat + x.size.toNat := by
  simp only [Sv0.willRead, Bool.and_eq_true, List.any_eq_true, inWindow_iff]

theorem Pump.unconsumedFrom_le (p : Pump) : p.unconsumedFrom ≤ p.inpos.toNat := by
  unfold Pump.unconsumedFrom
  cases p.mode <;> dsimp only <;> omega

/-- A byte a pump has still to fetch is not consumed. -/
theorem Pump.unconsumed_of_ahead {p : Pump} {a : Nat} (hv : p.valid = true) (he : p.ended = false)
    (hlow : p.off.toNat + p.inpos.toNat ≤ a) (hhigh : a < p.off.toNat + p.size.toNat) : p.unconsumed a = true := by
  have hfrom := p.unconsumedFrom_le
  rw [Pump.unconsumed_iff, he]
  exact ⟨hv, by omega, hhigh⟩

theorem Pump.noteRace_eq (p : Pump) (a : Nat) : p.noteRace a = { p with raced := (p.noteRace a).raced } := by
  unfold Pump.noteRace
  split <;> rfl

@[simp] theorem Pump.noteRace_off (p : Pump) (a : Nat) : (p.noteRace a).off = p.off := by
  rw [p.noteRace_eq a]

theorem Pump.mem_noteRace {p : Pump} {a b : Nat} (h : b ≠ a) : b ∈ (p.noteRace a).raced ↔ b ∈ p.raced := by
  unfold Pump.noteRace
  split
  · simp only [List.mem_insert_iff, h, false_or]
  · rfl

theorem Sv0.mem_noteRace {v : Sv0} {a b : Nat} (h : b ≠ a) : b ∈ (v.noteRace a).raced ↔ b ∈ v.raced := by
  unfold Sv0.noteRace
  dsimp only
  split
  · simp only [List.mem_insert_iff, h, false_or]
  · rfl

/-! ## IN: a host write -/

/-- The state after a host write of an existing byte of IN. -/
def State.afterInWrite (s : State) (a : Nat) (v : Byte) : State :=
  { s with
    inMem := Memory.put s.inMem a v
    inRaced := if s.racesIn a then s.inRaced.insert a else s.inRaced.filter (fun b => decide (b ≠ a))
    pumps := s.pumps.map (fun p => p.noteRace a)
    sv0 := s.sv0.noteRace a }

section
variable {s : State} {a : Nat} {v : Byte}

theorem step_inWrite {rest : List Event} (hev : s.events = .inWrite a v :: rest) (ha : a < s.par.inSize) :
    step s = .next (({ s with events := rest } : State).afterInWrite a v) :=
  (step_of_outside hev nofun).trans (if_pos ha)

theorem State.afterInWrite_pump (p : PumpIx) : (s.afterInWrite a v).pumps[p] = s.pumps[p].noteRace a := by
  simp [State.afterInWrite]

theorem State.mem_afterInWrite_inRaced {b : Nat} (h : b ≠ a) :
    b ∈ (s.afterInWrite a v).inRaced ↔ b ∈ s.inRaced := by
  unfold State.afterInWrite
  dsimp only
  split
  · simp only [List.mem_insert_iff, h, false_or]
  · simp [h]

/-- After a race whatever reads the byte reads the free value of its address. -/
theorem readIn_after_race (ha : a < s.par.inSize) (hrace : s.racesIn a = true) (l : List Nat) :
    readIn (s.afterInWrite a v) l a = .ok (Config.racedByte s.draws a) := by
  have hmem : a ∈ (s.afterInWrite a v).inRaced := by
    simp only [State.afterInWrite, hrace, if_true, List.mem_insert_iff, true_or]
  exact readIn_ok.mpr ⟨ha, (if_pos (.inl hmem)).symm⟩

/-- After a write that is no race the block reads the new byte. -/
theorem readIn_after_write (ha : a < s.par.inSize) (hrace : s.racesIn a = false) :
    readIn (s.afterInWrite a v) [] a = .ok v := by
  have hmem : ¬ (a ∈ (s.afterInWrite a v).inRaced ∨ a ∈ ([] : List Nat)) := by
    simp [State.afterInWrite, hrace]
  refine readIn_ok.mpr ⟨ha, ?_⟩
  rw [if_neg hmem]
  exact (congrArg (Option.getD · _) (Memory.get_put_same s.inMem a v)).symm

/-- After a race a pump reads the free value at the byte's place in its window. -/
theorem byteAt_after_race {p : Pump} (ha : a < s.par.inSize) (hrace : s.racesIn a = true) (h : p.off.toNat ≤ a) :
    p.byteAt (s.afterInWrite a v) (a - p.off.toNat) = .ok (Config.racedByte s.draws a) := by
  unfold Pump.byteAt
  rw [Nat.add_sub_cancel' h]
  exact readIn_after_race ha hrace _

end

/-- Settles O29: the state after the write, with the races as `racesIn` has them. -/
theorem hostWriteOfInChangesOneByte : Obligations.HostWriteOfInChangesOneByte := by
  intro s a v rest hev ha inStream inPump cached unconsumed inStripe race
  have hraces : ({ s with events := rest } : State).racesIn a = true ↔ race := by
    simp only [State.racesIn_iff, inWindow_iff, Pump.unconsumed_iff, Sv0.willRead_iff]
    rfl
  refine ⟨_, step_inWrite hev ha, rfl, Memory.get_put_same _ _ _, fun b hb => Memory.get_put_other _ _ hb,
    fun b hb => ⟨State.mem_afterInWrite_inRaced hb, Sv0.mem_noteRace hb, fun p => ?_⟩, fun p => ?_,
    fun hrace => readIn_after_write ha (by simpa using mt hraces.mp hrace),
    fun hrace => readIn_after_race ha (hraces.mpr hrace),
    fun p hvalid hended hlow hhigh => ?_, fun x mode hready hx hlow hhigh => ?_⟩
  · rw [State.afterInWrite_pump]
    exact Pump.mem_noteRace hb
  · rw [State.afterInWrite_pump]
    exact Pump.noteRace_eq _ a
  · have hahead := Pump.unconsumed_of_ahead hvalid hended (by omega) hhigh
    have hstart : (s.pumps[p].noteRace a).off.toNat ≤ a := by
      rw [Pump.noteRace_off]
      omega
    rw [State.afterInWrite_pump, ← Pump.noteRace_off s.pumps[p] a]
    exact byteAt_after_race ha (State.racesIn_iff.mpr (.inr (.inl ⟨p, hahead⟩))) hstart
  · have hstripe := Sv0.willRead_iff.mpr ⟨hready, x, hx, hlow, hhigh⟩
    exact byteAt_after_race (p := stripePump _ mode x) ha (State.racesIn_iff.mpr (.inr (.inr hstripe))) hlow

end Sys2Proof.Machine

/-! SUPPORT. The surroundings' accesses to OUT, one move at a time: outside reads and writes of a sample, whole or by
byte, and what a decoding command leaves of a sample written meanwhile (spec 20_memory.md R61, R67, R78). -/

namespace Sys2Proof.Machine

/-! ## Reads -/

theorem outsideSample_of_visible {s : State} {x : Nat} (h : ¬ HiddenSample s x) :
    s.outsideSample x = outSample s.outMem x := if_neg (mt hidden_iff.mp h)

theorem outsideSample_of_hidden {s : State} {x : Nat} (h : HiddenSample s x) :
    s.outsideSample x = Config.freeSample s.draws x := if_pos (hidden_iff.mpr h)

theorem unseenSample_iff {s : State} {x : Nat} : s.unseenSample x = true ↔ ∃ g ∈ s.unseen, g.Has x := by
  simp only [State.unseenSample, List.any_eq_true, ImageRegion.holds_iff]

theorem unseenSample_eq_false {s : State} {x : Nat} : s.unseenSample x = false ↔ ∀ g ∈ s.unseen, ¬ g.Has x := by
  rw [← Bool.not_eq_true, unseenSample_iff]
  simp only [not_exists, not_and]

theorem busyRegion_iff {s : State} {x : Nat} :
    s.busyRegion x = true ↔ s.macroBusy = true ∧ s.regs.image.Has x := by
  simp only [State.busyRegion, Bool.and_eq_true, ImageRegion.holds_iff]

section
variable {s : State} {x : Nat} {rest : List Event}

theorem step_outRead (hev : s.events = .outRead x :: rest) (hx : x < s.par.outSize) :
    step s = .next { s with
      events := rest, hostData := (s.outsideSample x).setWidth 32, draws := s.draws + 1 } :=
  (step_of_outside hev nofun).trans (if_pos hx)

theorem step_outByteRead {j : Nat} (hev : s.events = .outByteRead (2 * x + j) :: rest) (hj : j < 2)
    (hx : x < s.par.outSize) :
    step s = .next { s with
      events := rest
      hostData := (sampleByte (highByte s.par.outOrder (2 * x + j)) (s.outsideSample x)).setWidth 32
      draws := s.draws + 1 } := by
  have hsample : (2 * x + j) / 2 = x := by omega
  rw [step_of_outside hev nofun]
  show outsideReadByte _ _ = _
  unfold outsideReadByte
  rw [hsample, if_pos hx]
  rfl

/-- Where the byte at an even (0) or odd (1) address stands in its sample (20_memory.md R67). -/
def byteStart (order : ByteOrder) (j : Nat) : Nat :=
  match order with
  | .little => 8 * j
  | .big => 8 * (1 - j)

theorem highByte_eq {order : ByteOrder} {j : Nat} (hj : j < 2) :
    highByte order (2 * x + j) = decide (byteStart order j = 8) := by
  cases order
  · exact decide_eq_decide.mpr (show (2 * x + j) % 2 = 1 ↔ 8 * j = 8 by omega)
  · exact decide_eq_decide.mpr (show (2 * x + j) % 2 = 0 ↔ 8 * (1 - j) = 8 by omega)

theorem sampleByte_at {order : ByteOrder} {j : Nat} (hj : j < 2) (v : Sample) :
    sampleByte (highByte order (2 * x + j)) v = v.extractLsb' (byteStart order j) 8 := by
  have hstart : byteStart order j = 0 ∨ byteStart order j = 8 := by
    unfold byteStart
    cases order <;> dsimp only <;> omega
  rw [highByte_eq hj]
  rcases hstart with h | h
  · rw [h]
    rfl
  · rw [h]
    rfl

/-! ## Writes -/

/-- An outside write of a sample, whichever agent makes it. -/
theorem step_outsideWrite {v : Sample} (hx : x < s.par.outSize)
    (hev : s.events = .outWrite x v :: rest ∨ (1 < s.par.nInst ∧ s.events = .peerWrite x v :: rest)) :
    step s = .next (({ s with events := rest } : State).writeSample x v) := by
  obtain hev | ⟨hpeer, hev⟩ := hev
  · exact (step_of_outside hev nofun).trans (if_pos hx)
  · exact (step_of_outside hev nofun).trans ((if_pos hpeer).trans (if_pos hx))

theorem writeSample_other {v : Sample} {y : Nat} (h : y ≠ x) :
    outSample (s.writeSample x v).outMem y = outSample s.outMem y := outSample_put_other _ _ h

theorem writeSample_visible {v : Sample} (h : s.unseenSample x = false) :
    outSample (s.writeSample x v).outMem x = v := by
  rw [State.writeSample_outMem, outSample_put_same, h]
  rfl

theorem writeSample_unseen {v : Sample} (h : s.unseenSample x = true) :
    outSample (s.writeSample x v).outMem x = Config.freeSample s.draws x := by
  rw [State.writeSample_outMem, outSample_put_same, h]
  rfl

theorem mem_writeSample_outRaced {v : Sample} {y : Nat} (h : y ≠ x) :
    y ∈ (s.writeSample x v).outRaced ↔ y ∈ s.outRaced := by
  rw [State.writeSample_outRaced]
  split
  · simp only [List.mem_insert_iff, h, false_or]
  · rfl

theorem mem_writeSample_of_busy {v : Sample} (h : s.busyRegion x = true) : x ∈ (s.writeSample x v).outRaced := by
  rw [State.writeSample_outRaced, if_pos h]
  exact List.mem_insert_self

/-- A write of one byte of a visible sample: the sample's other byte and every other sample stay. -/
theorem step_outByteWrite {j : Nat} {b : Byte} (hj : j < 2) (hx : x < s.par.outSize)
    (hvisible : s.unseenSample x = false) (hev : s.events = .outByteWrite (2 * x + j) b :: rest) :
    ∃ t : State, step s = .next t ∧ t.events = rest ∧ t.par = s.par ∧ t.unseen = s.unseen ∧
      outSample t.outMem x = withSampleByte (highByte s.par.outOrder (2 * x + j)) (outSample s.outMem x) b ∧
      ∀ y, y ≠ x → outSample t.outMem y = outSample s.outMem y := by
  have hsample : (2 * x + j) / 2 = x := by omega
  have hstep : step s = .next (({ s with events := rest } : State).writeSample x
      (withSampleByte (highByte s.par.outOrder (2 * x + j)) (outSample s.outMem x) b)) := by
    rw [step_of_outside hev nofun]
    show outsideWriteByte _ _ _ = _
    unfold outsideWriteByte
    rw [hsample, if_pos hx]
  exact ⟨_, hstep, rfl, rfl, rfl, writeSample_visible hvisible, fun _ hy => writeSample_other hy⟩

/-- Two host writes of a visible sample's bytes, at its two addresses in turn. -/
theorem step_two_outByteWrites {b b' : Byte} (hx : x < s.par.outSize) (hvisible : s.unseenSample x = false)
    (hev : s.events = .outByteWrite (2 * x) b :: .outByteWrite (2 * x + 1) b' :: rest) :
    ∃ t u : State, step s = .next t ∧ step t = .next u ∧ u.events = rest ∧
      outSample u.outMem x = withSampleByte (highByte s.par.outOrder (2 * x + 1))
        (withSampleByte (highByte s.par.outOrder (2 * x + 0)) (outSample s.outMem x) b) b' ∧
      ∀ y, y ≠ x → outSample u.outMem y = outSample s.outMem y := by
  obtain ⟨t, ht, hev', hpar, hunseen, hbyte, hother⟩ := step_outByteWrite (j := 0) (by omega) hx hvisible hev
  have hvisible' : t.unseenSample x = false := by rwa [State.unseenSample, hunseen]
  obtain ⟨u, hu, hrest, -, -, hbyte', hother'⟩ := step_outByteWrite (by omega) (hpar ▸ hx) hvisible' hev'
  rw [hpar, hbyte] at hbyte'
  exact ⟨t, u, ht, hu, hrest, hbyte', fun y hy => (hother' y hy).trans (hother y hy)⟩

/-- The two bytes of a sample, written in either order, make the sample (20_memory.md R67). -/
theorem withSampleByte_both (v : Sample) (lo hi : Byte) :
    withSampleByte true (withSampleByte false v lo) hi = hi ++ lo ∧
      withSampleByte false (withSampleByte true v hi) lo = hi ++ lo :=
  ⟨congrArg (hi ++ ·) BitVec.extractLsb'_append_eq_right, congrArg (· ++ lo) BitVec.extractLsb'_append_eq_left⟩

end

/-- Settles O30: what each access does to the one sample, and what a decoding command leaves of it. -/
theorem byteViewOfOutFollowsTheOrder : Obligations.ByteViewOfOutFollowsTheOrder := by
  intro s x rest hx
  refine ⟨fun lo hi hvisible hev => ?_, fun j hj hvisible hev => ?_, fun hev => ?_, fun v hev => ?_,
    fun i t hi hraced ht => ?_⟩
  · have hseen : s.unseenSample x = false :=
      unseenSample_eq_false.mpr fun g hg hhas => hvisible (.inr ⟨g, hg, hhas⟩)
    cases horder : s.par.outOrder with
    | little =>
      rw [horder] at hev
      obtain ⟨t, u, ht, hu, hrest, hboth, hother⟩ := step_two_outByteWrites hx hseen hev
      rw [horder, highByte_eq (by omega), highByte_eq (by omega)] at hboth
      exact ⟨t, u, ht, hu, hrest, hboth.trans (withSampleByte_both _ lo hi).1, hother⟩
    | big =>
      rw [horder] at hev
      obtain ⟨t, u, ht, hu, hrest, hboth, hother⟩ := step_two_outByteWrites hx hseen hev
      rw [horder, highByte_eq (by omega), highByte_eq (by omega)] at hboth
      exact ⟨t, u, ht, hu, hrest, hboth.trans (withSampleByte_both _ lo hi).2, hother⟩
  · rw [step_outByteRead hev hj hx, outsideSample_of_visible hvisible, sampleByte_at hj]
    rfl
  · exact ⟨_, step_outRead hev hx, outsideSample_of_visible, outsideSample_of_hidden⟩
  · refine ⟨_, step_outsideWrite hx hev, rfl, fun y hy => ⟨writeSample_other hy, mem_writeSample_outRaced hy⟩,
      fun hseen => writeSample_visible (unseenSample_eq_false.mpr hseen),
      fun hunseen => writeSample_unseen (unseenSample_iff.mpr hunseen),
      fun hbusy himage => ?_, fun hfree => ?_⟩
    · exact mem_writeSample_of_busy (busyRegion_iff.mpr ⟨hbusy, himage⟩)
    · exact if_neg (mt busyRegion_iff.mp hfree)
  · obtain ⟨m, hm, -⟩ := exec_decodingMacro_outMem hi ht
    rw [hm]
    exact settleRaced_inside _ m hraced

end Sys2Proof.Machine

/-! SUPPORT. A pump in step with its window: what each fetch brings, and that fills and reads keep the step (spec
42_bitpump.md R141, R146-R148, 20_memory.md R66). -/

namespace Sys2Proof.Machine

/-! ## The window of a pump, whatever the pump has read of it -/

section
variable {s : State} {p q : Pump}

theorem Pump.SameWindow.windowByte (h : p.SameWindow q) : windowByte s q = windowByte s p := by
  funext j
  unfold Machine.windowByte
  rw [h.off]

theorem Pump.SameWindow.jpegEnd (h : p.SameWindow q) : jpegEnd s q = jpegEnd s p := by
  funext j
  unfold Machine.jpegEnd markerAt
  rw [h.size, h.windowByte]

theorem Pump.SameWindow.jpegPlace (h : p.SameWindow q) : jpegPlace s q = jpegPlace s p := by
  funext n
  induction n with
  | zero => rfl
  | succ n ih =>
    simp only [Machine.jpegPlace]
    rw [ih, h.jpegEnd, h.windowByte]

theorem Pump.SameWindow.windowBit (h : p.SameWindow q) : windowBit s q = windowBit s p := by
  funext i
  unfold Machine.windowBit jpegByte
  rw [h.mode, h.size, h.windowByte, h.jpegEnd, h.jpegPlace]

theorem Pump.SameWindow.placeAfter (h : p.SameWindow q) : placeAfter s q = placeAfter s p := by
  funext n
  unfold Machine.placeAfter
  rw [h.mode, h.size, h.jpegPlace]

theorem Pump.SameWindow.dataEnd (h : p.SameWindow q) : dataEnd s q = dataEnd s p := by
  funext j
  unfold Machine.dataEnd
  rw [h.mode, h.size, h.jpegEnd]

theorem Pump.SameWindow.quietWindow (h : p.SameWindow q) (hquiet : quietWindow s p) : quietWindow s q := by
  unfold Machine.quietWindow at hquiet ⊢
  rw [h.off, h.size, h.raced]
  exact hquiet

/-! ## The window one fetch at a time -/

/-- The byte a fetch at a place of the window brings (42_bitpump.md R141). -/
def dataByte (s : State) (p : Pump) (j : Nat) : Byte := if dataEnd s p j then 0#8 else windowByte s p j

/-- The place after that fetch. -/
def placeNext (s : State) (p : Pump) (j : Nat) : Nat :=
  if dataEnd s p j then j else if p.mode = .jpeg ∧ windowByte s p j = 0xFF#8 then j + 2 else j + 1

theorem dataEnd_of_size_le {j : Nat} (h : p.size.toNat ≤ j) : dataEnd s p j = true := by
  cases hm : p.mode <;> simp [dataEnd, jpegEnd, hm, h]

theorem dataEnd_of_lt {j : Nat} (h : j < p.size.toNat) :
    dataEnd s p j = true ↔ p.mode = .jpeg ∧ windowByte s p j = 0xFF#8 ∧
      ¬ (j + 1 < p.size.toNat ∧ windowByte s p (j + 1) = 0#8) := by
  cases hm : p.mode
  · simp [dataEnd, hm, h]
  · simp only [dataEnd, jpegEnd, markerAt, hm, Nat.not_le.mpr h, h, decide_false, Bool.false_or, decide_eq_true_eq,
      true_and]
  · simp [dataEnd, hm, h]

theorem placeAfter_succ (hm : p.mode ≠ .msb32) (n : Nat) :
    placeAfter s p (n + 1) = placeNext s p (placeAfter s p n) := by
  cases hmode : p.mode with
  | msb =>
    simp only [placeAfter, placeNext, dataEnd, hmode, decide_eq_true_eq, reduceCtorEq, false_and, if_false]
    split <;> omega
  | jpeg => simp [placeAfter, placeNext, dataEnd, hmode, jpegPlace]
  | msb32 => exact absurd hmode hm

theorem windowBit_eq_dataByte (hm : p.mode ≠ .msb32) (i : Nat) :
    windowBit s p i = (dataByte s p (placeAfter s p (i / 8))).getLsbD (7 - i % 8) := by
  cases hmode : p.mode with
  | msb =>
    simp only [windowBit, dataByte, placeAfter, dataEnd, hmode, decide_eq_true_eq]
    by_cases h : i / 8 < p.size.toNat
    · rw [if_pos h, if_neg (by omega), Nat.min_eq_right h.le]
    · rw [if_neg h, if_pos (by omega)]
      simp
  | jpeg => simp only [windowBit, dataByte, placeAfter, dataEnd, hmode, jpegByte]
  | msb32 => exact absurd hmode hm

/-- The eight bits of a fetched byte are the window's. -/
theorem bits8_dataByte (hm : p.mode ≠ .msb32) (k : Nat) :
    bits8 (dataByte s p (placeAfter s p k)) = (List.range 8).map (fun i => windowBit s p (8 * k + i)) := by
  refine List.map_congr_left fun i hi => ?_
  have hi : i < 8 := List.mem_range.mp hi
  rw [windowBit_eq_dataByte hm, show (8 * k + i) / 8 = k by omega, show (8 * k + i) % 8 = i by omega]
  rfl

theorem leValue_testBit (l : List Byte) (i : Nat) :
    (leValue l).testBit i = ((l[i / 8]?).getD 0#8).getLsbD (i % 8) := by
  induction l generalizing i with
  | nil => simp [leValue]
  | cons b r ih =>
    rw [leValue, Nat.add_comm, show 256 = 2 ^ 8 from rfl, Nat.testBit_two_pow_mul_add _ b.isLt]
    split
    · rw [show i / 8 = 0 by omega, Nat.mod_eq_of_lt ‹_›]
      rfl
    · rw [ih, show i / 8 = (i - 8) / 8 + 1 by omega, show i % 8 = (i - 8) % 8 by omega]
      rfl

/-- The word a fetch at word k of the window brings: its bytes, low byte first, those past the end 0. -/
def dataWord (s : State) (p : Pump) (k : Nat) : Word :=
  BitVec.ofNat 32 (leValue ((List.range (min 4 (p.size.toNat - 4 * k))).map (fun i => windowByte s p (4 * k + i))))

theorem bits32_dataWord (hm : p.mode = .msb32) (k : Nat) :
    bits32 (dataWord s p k) = (List.range 32).map (fun i => windowBit s p (32 * k + i)) := by
  refine List.map_congr_left fun i hi => ?_
  have hi : i < 32 := List.mem_range.mp hi
  have hplace : 4 * ((32 * k + i) / 32) + (3 - (32 * k + i) % 32 / 8) = 4 * k + (32 - 1 - i) / 8 := by omega
  have hbit : 7 - (32 * k + i) % 8 = (32 - 1 - i) % 8 := by omega
  simp only [windowBit, hm]
  rw [hplace, hbit]
  show (dataWord s p k).getLsbD _ = _
  unfold dataWord
  rw [BitVec.getLsbD_ofNat, leValue_testBit, List.getElem?_map, decide_eq_true (by omega), Bool.true_and]
  by_cases h : (32 - 1 - i) / 8 < min 4 (p.size.toNat - 4 * k)
  · rw [List.getElem?_range h, if_pos (by omega)]
    rfl
  · rw [List.getElem?_eq_none (by rw [List.length_range]; omega), if_neg (by omega)]
    simp

/-! ## One fetch -/

theorem byteAt_quiet {j : Nat} {b : Byte} (hquiet : quietWindow s p) (hj : j < p.size.toNat)
    (h : p.byteAt s j = .ok b) : b = windowByte s p j := by
  obtain ⟨-, hb⟩ := readIn_ok.mp h
  have ⟨hblock, hpump⟩ := hquiet (p.off.toNat + j) (by omega) (by omega)
  rwa [if_neg (not_or.mpr ⟨hblock, hpump⟩)] at hb

theorem stuffedAt_quiet {b : Bool} (hquiet : quietWindow s p) (h : stuffedAt s p = .ok b) :
    b = true ↔ p.inpos.toNat + 1 < p.size.toNat ∧ windowByte s p (p.inpos.toNat + 1) = 0#8 := by
  unfold stuffedAt at h
  split at h
  · obtain ⟨c, hc, hb⟩ := Eff.bind_ok.mp h
    obtain rfl := Except.ok.inj hb
    rw [decide_eq_true_eq, byteAt_quiet hquiet ‹_› hc]
    exact (and_iff_right ‹_›).symm
  · obtain rfl := Except.ok.inj h
    exact ⟨nofun, fun hpair => absurd hpair.1 ‹_›⟩

/-- What fetching a byte does: the window's next byte, the place after it, and END only where the data ends. -/
structure ByteFetched (s : State) (p : Pump) (b : Byte) (q : Pump) : Prop where
  window : p.SameWindow q
  cache : q.cache = p.cache
  consumed : q.consumed = p.consumed
  byte : b = dataByte s p p.inpos.toNat
  place : q.inpos.toNat = placeNext s p p.inpos.toNat
  ended : q.ended = true → dataEnd s p q.inpos.toNat = true

/-- A fetch where the data ends leaves the place. -/
theorem byteFetched_of_end (hend : dataEnd s p p.inpos.toNat = true) (hw : p.SameWindow q) (hcache : q.cache = p.cache)
    (hconsumed : q.consumed = p.consumed) (hinpos : q.inpos = p.inpos) : ByteFetched s p 0 q where
  window := hw
  cache := hcache
  consumed := hconsumed
  byte := (if_pos hend).symm
  place := by rw [hinpos, placeNext, if_pos hend]
  ended _ := hinpos ▸ hend

theorem inpos_add {n : Nat} (h : p.inpos.toNat + n ≤ p.size.toNat) :
    (p.inpos + BitVec.ofNat 32 n).toNat = p.inpos.toNat + n := by
  have := p.size.isLt
  rw [BitVec.toNat_add, BitVec.toNat_ofNat, Nat.mod_eq_of_lt (a := n) (by omega), Nat.mod_eq_of_lt (by omega)]

theorem nextByte_quiet {b : Byte} (hquiet : quietWindow s p)
    (hended : p.ended = true → dataEnd s p p.inpos.toNat = true) (h : nextByte s p = .ok (b, q)) :
    ByteFetched s p b q := by
  unfold nextByte at h
  split at h
  · obtain ⟨rfl, rfl⟩ := Prod.mk.inj (Except.ok.inj h)
    exact byteFetched_of_end (hended ‹_›) ⟨rfl, rfl, rfl, rfl, rfl⟩ rfl rfl rfl
  split at h
  · obtain ⟨rfl, rfl⟩ := Prod.mk.inj (Except.ok.inj h)
    exact byteFetched_of_end (dataEnd_of_size_le ‹_›) ⟨rfl, rfl, rfl, rfl, rfl⟩ rfl rfl rfl
  have hrunning : ¬ p.ended = true := ‹_›
  have hlt : p.inpos.toNat < p.size.toNat := Nat.lt_of_not_le ‹_›
  obtain ⟨c, hc, h⟩ := Eff.bind_ok.mp h
  obtain rfl := byteAt_quiet hquiet hlt hc
  split at h
  · obtain ⟨st, hst, h⟩ := Eff.bind_ok.mp h
    have hstuffed := stuffedAt_quiet hquiet hst
    have hjpeg : p.mode = .jpeg ∧ windowByte s p p.inpos.toNat = 0xFF#8 := ‹_›
    split at h
    · obtain ⟨rfl, rfl⟩ := Prod.mk.inj (Except.ok.inj h)
      have hpair := hstuffed.mp ‹_›
      have hdata : ¬ dataEnd s p p.inpos.toNat = true := fun hend => ((dataEnd_of_lt hlt).mp hend).2.2 hpair
      refine ⟨⟨rfl, rfl, rfl, rfl, rfl⟩, rfl, rfl, ?_, ?_, fun he => absurd he hrunning⟩
      · rw [dataByte, if_neg hdata, hjpeg.2]
      · rw [placeNext, if_neg hdata, if_pos hjpeg]
        exact inpos_add (n := 2) (by omega)
    · obtain ⟨rfl, rfl⟩ := Prod.mk.inj (Except.ok.inj h)
      have hend := (dataEnd_of_lt hlt).mpr ⟨hjpeg.1, hjpeg.2, mt hstuffed.mpr ‹_›⟩
      exact byteFetched_of_end hend ⟨rfl, rfl, rfl, rfl, rfl⟩ rfl rfl rfl
  · obtain ⟨rfl, rfl⟩ := Prod.mk.inj (Except.ok.inj h)
    have hplain : ¬ (p.mode = .jpeg ∧ windowByte s p p.inpos.toNat = 0xFF#8) := ‹_›
    have hdata : ¬ dataEnd s p p.inpos.toNat = true := fun hend =>
      have ⟨hm, hff, _⟩ := (dataEnd_of_lt hlt).mp hend
      hplain ⟨hm, hff⟩
    refine ⟨⟨rfl, rfl, rfl, rfl, rfl⟩, rfl, rfl, ?_, ?_, fun he => absurd he hrunning⟩
    · rw [dataByte, if_neg hdata]
    · rw [placeNext, if_neg hdata, if_neg hplain]
      exact inpos_add (n := 1) (by omega)

theorem readInBytes_quiet {l : List Byte} (hquiet : quietWindow s p) {n j : Nat} (hn : j + n ≤ p.size.toNat)
    (h : readInBytes s p.raced (p.off.toNat + j) n = .ok l) :
    l = (List.range n).map (fun i => windowByte s p (j + i)) := by
  induction n generalizing j l with
  | zero =>
    obtain rfl := Except.ok.inj h
    rfl
  | succ n ih =>
    obtain ⟨b, hb, h⟩ := Eff.bind_ok.mp h
    obtain ⟨r, hr, h⟩ := Eff.bind_ok.mp h
    obtain rfl := Except.ok.inj h
    rw [byteAt_quiet hquiet (by omega) hb, ih (j := j + 1) (by omega) hr, List.range_succ_eq_map]
    simp [Function.comp_def, Nat.add_assoc, Nat.add_comm 1]

/-- What fetching word k of an MSB32 window does. -/
structure WordFetched (s : State) (p : Pump) (k : Nat) (w : Word) (q : Pump) : Prop where
  window : p.SameWindow q
  cache : q.cache = p.cache
  consumed : q.consumed = p.consumed
  word : w = dataWord s p k
  place : q.inpos.toNat = min p.size.toNat (4 * (k + 1))
  ended : q.ended = true → dataEnd s p q.inpos.toNat = true

theorem nextWord_quiet {k : Nat} {w : Word} (hquiet : quietWindow s p)
    (hinpos : p.inpos.toNat = min p.size.toNat (4 * k))
    (hended : p.ended = true → dataEnd s p p.inpos.toNat = true) (hm : p.mode = .msb32)
    (h : nextWord s p = .ok (w, q)) : WordFetched s p k w q := by
  unfold nextWord at h
  split at h
  · obtain ⟨rfl, rfl⟩ := Prod.mk.inj (Except.ok.inj h)
    have hend := dataEnd_of_size_le (s := s) ‹_›
    refine ⟨⟨rfl, rfl, rfl, rfl, rfl⟩, rfl, rfl, ?_, ?_, fun _ => hend⟩
    · rw [dataWord, show min 4 (p.size.toNat - 4 * k) = 0 by omega]
      rfl
    · show p.inpos.toNat = _
      omega
  · have hat : p.inpos.toNat = 4 * k := by omega
    obtain ⟨l, hl, h⟩ := Eff.bind_ok.mp h
    obtain ⟨rfl, rfl⟩ := Prod.mk.inj (Except.ok.inj h)
    have hbytes := readInBytes_quiet hquiet (by omega) hl
    have hlength : l.length = min 4 (p.size.toNat - 4 * k) := by rw [hbytes, List.length_map, List.length_range, hat]
    refine ⟨⟨rfl, rfl, rfl, rfl, rfl⟩, rfl, rfl, ?_, ?_, fun he => ?_⟩
    · rw [hbytes, hat, dataWord]
    · show (p.inpos + BitVec.ofNat 32 l.length).toNat = _
      rw [inpos_add (by omega)]
      omega
    · have hend := hended he
      rw [dataEnd_of_lt (by omega), hm] at hend
      cases hend.1

end

/-! ## Pumps in step -/

section
variable {s : State} {p q r : Pump}

/-- A pump on the same window, n cached bits further on and in step. -/
structure Advanced (s : State) (n : Nat) (p q : Pump) : Prop where
  inStep : InStep s q
  window : p.SameWindow q
  consumed : q.consumed = p.consumed
  grown : q.cache.length = p.cache.length + n

theorem Advanced.refl (h : InStep s p) : Advanced s 0 p p := ⟨h, .refl p, rfl, rfl⟩

theorem Advanced.trans {m n : Nat} (h : Advanced s m p q) (h' : Advanced s n q r) : Advanced s (m + n) p r :=
  ⟨h'.inStep, h.window.trans h'.window, h'.consumed.trans h.consumed, by rw [h'.grown, h.grown, Nat.add_assoc]⟩

/-- A fetch of the window's next bits keeps a pump in step. -/
theorem advanced_of_fetched {c : Bits} (h : InStep s p) (hw : p.SameWindow q) (hcache : q.cache = p.cache)
    (hconsumed : q.consumed = p.consumed) (hroom : p.cache.length + fetchBits p.mode ≤ 64)
    (hc : c = (List.range (fetchBits p.mode)).map
      (fun i => windowBit s p (p.consumed.toNat + p.cache.length + i)))
    (hplace : q.inpos.toNat = placeAfter s p ((p.consumed.toNat + p.cache.length + fetchBits p.mode) / 8))
    (hended : q.ended = true → dataEnd s p q.inpos.toNat = true) :
    Advanced s (fetchBits p.mode) p { q with cache := q.cache ++ c } := by
  obtain ⟨hbits, -, hwhole, -, -⟩ := h
  have hw' : p.SameWindow { q with cache := q.cache ++ c } := ⟨hw.valid, hw.mode, hw.off, hw.size, hw.raced⟩
  have hlength : (q.cache ++ c).length = p.cache.length + fetchBits p.mode := by
    rw [hcache, hc, List.length_append, List.length_map, List.length_range]
  refine ⟨?_, hw', hconsumed, hlength⟩
  unfold InStep
  dsimp only
  rw [hw'.windowBit, hw'.placeAfter, hw'.dataEnd, hlength, hconsumed, hw.mode, ← Nat.add_assoc]
  refine ⟨?_, hroom, by rw [Nat.add_mod_right, hwhole], hplace, hended⟩
  rw [hcache, List.range_add, List.map_append, ← hbits, hc, List.map_map]
  simp only [Function.comp_def, Nat.add_assoc]

theorem fetchBits_of_ne {m : PumpMode} (hm : m ≠ .msb32) : fetchBits m = 8 := by
  cases m
  · rfl
  · rfl
  · exact absurd rfl hm

theorem fetchByte_inStep (h : InStep s p) (hquiet : quietWindow s p) (hm : p.mode ≠ .msb32)
    (hroom : p.cache.length + 8 ≤ 64) (hf : fetchByte s p = .ok q) : Advanced s 8 p q := by
  have h8 := fetchBits_of_ne hm
  obtain ⟨⟨b, q'⟩, hnext, hq⟩ := Eff.bind_ok.mp hf
  obtain rfl := Except.ok.inj hq
  have ⟨_, _, hwhole, hplace, hended⟩ := h
  rw [h8] at hwhole
  obtain ⟨k, hk⟩ := Nat.dvd_of_mod_eq_zero hwhole
  rw [hk, Nat.mul_div_cancel_left k (by omega)] at hplace
  have hfetched := nextByte_quiet hquiet hended hnext
  have hadvanced := advanced_of_fetched (c := bits8 b) h hfetched.window hfetched.cache hfetched.consumed
    (by omega) ?_ ?_ hfetched.ended
  · rwa [h8] at hadvanced
  · rw [hfetched.byte, hplace, bits8_dataByte hm, h8, hk]
  · rw [hfetched.place, hplace, hk, h8, show (8 * k + 8) / 8 = k + 1 by omega, placeAfter_succ hm]

theorem fetchWord_inStep (h : InStep s p) (hquiet : quietWindow s p) (hm : p.mode = .msb32)
    (hroom : p.cache.length + 32 ≤ 64) (hf : fetchWord s p = .ok q) : Advanced s 32 p q := by
  have h32 : fetchBits p.mode = 32 := by rw [hm]; rfl
  have hplaceAfter : ∀ n, placeAfter s p n = min p.size.toNat n := fun n => by rw [placeAfter, hm]
  obtain ⟨⟨w, q'⟩, hnext, hq⟩ := Eff.bind_ok.mp hf
  obtain rfl := Except.ok.inj hq
  have ⟨_, _, hwhole, hplace, hended⟩ := h
  rw [h32] at hwhole
  obtain ⟨k, hk⟩ := Nat.dvd_of_mod_eq_zero hwhole
  rw [hk, show 32 * k / 8 = 4 * k by omega, hplaceAfter] at hplace
  have hfetched := nextWord_quiet hquiet hplace hended hm hnext
  have hadvanced := advanced_of_fetched (c := bits32 w) h hfetched.window hfetched.cache hfetched.consumed
    (by omega) ?_ ?_ hfetched.ended
  · rwa [h32] at hadvanced
  · rw [hfetched.word, bits32_dataWord hm, h32, hk]
  · rw [hfetched.place, hplaceAfter, hk, h32, show (32 * k + 32) / 8 = 4 * (k + 1) by omega]

theorem fetchFourBytes_inStep (h : InStep s p) (hquiet : quietWindow s p) (hm : p.mode ≠ .msb32)
    (hroom : p.cache.length < 32) (hf : fetchFourBytes s p = .ok q) : Advanced s 32 p q :=
  forUp_invariant (fun j r => Advanced s (8 * j) p r) (.refl h)
    (fun _ _ _ _ hj hr hfetch => hr.trans (fetchByte_inStep hr.inStep (hr.window.quietWindow hquiet)
      (hr.window.mode ▸ hm) (by rw [hr.grown]; omega) hfetch)) hf

/-- A fill keeps a pump in step, and leaves it at least 32 cached bits (42_bitpump.md R141). -/
theorem fill_inStep (hp : s.par.decided = true) (h : InStep s p) (hquiet : quietWindow s p) (hf : fill s p = .ok q) :
    32 ≤ q.cache.length ∧ ∃ n, Advanced s n p q := by
  unfold fill at hf
  rw [Params.fillThreshold_eq hp] at hf
  split at hf
  · obtain rfl := Except.ok.inj hf
    exact ⟨‹_›, 0, .refl h⟩
  · have hroom : p.cache.length < 32 := Nat.lt_of_not_le ‹_›
    have hadvanced : Advanced s 32 p q := by
      cases hm : p.mode <;> rw [hm] at hf
      · exact fetchFourBytes_inStep h hquiet (by rw [hm]; nofun) hroom hf
      · exact fetchFourBytes_inStep h hquiet (by rw [hm]; nofun) hroom hf
      · exact fetchWord_inStep h hquiet hm (by omega) hf
    exact ⟨by rw [hadvanced.grown]; omega, 32, hadvanced⟩

theorem drop_map_range {α : Type} (f : Nat → α) {n m : Nat} (h : n ≤ m) :
    ((List.range m).map f).drop n = (List.range (m - n)).map (fun i => f (n + i)) := by
  obtain ⟨k, rfl⟩ := Nat.exists_eq_add_of_le h
  rw [List.range_add, List.map_append, List.drop_left' (by simp), List.map_map, Nat.add_sub_cancel_left]
  rfl

/-- The leading bits of a pump in step are the window's next ones. -/
theorem InStep.take_cache (h : InStep s p) {n : Nat} (hn : n ≤ p.cache.length) :
    p.cache.take n = (List.range n).map (fun i => windowBit s p (p.consumed.toNat + i)) := by
  obtain ⟨hbits, -⟩ := h
  rw [hbits, ← List.map_take, List.take_range, Nat.min_eq_left hn]

/-- Delivering cached bits keeps a pump in step. -/
theorem InStep.deliver (h : InStep s p) {n : Nat} (hn : n ≤ p.cache.length)
    (hfar : p.consumed.toNat + n < 2 ^ 36) :
    InStep s (p.deliver n) ∧ (p.deliver n).consumed.toNat = p.consumed.toNat + n := by
  have hconsumed : (p.deliver n).consumed.toNat = p.consumed.toNat + n := by
    show (p.consumed + BitVec.ofNat 36 n).toNat = _
    rw [BitVec.toNat_add, BitVec.toNat_ofNat, Nat.mod_eq_of_lt (a := n) (by omega), Nat.mod_eq_of_lt hfar]
  have hlength : (p.deliver n).cache.length = p.cache.length - n := List.length_drop
  have hahead : p.consumed.toNat + n + (p.cache.length - n) = p.consumed.toNat + p.cache.length := by omega
  have hw : p.SameWindow (p.deliver n) := ⟨rfl, rfl, rfl, rfl, rfl⟩
  obtain ⟨hbits, hfull, hwhole, hplace, hended⟩ := h
  refine ⟨?_, hconsumed⟩
  unfold InStep
  dsimp only
  rw [hw.windowBit, hw.placeAfter, hw.dataEnd, hlength, hconsumed, hahead]
  refine ⟨?_, by omega, hwhole, hplace, hended⟩
  show p.cache.drop n = _
  rw [hbits, drop_map_range _ hn]
  simp only [List.length_map, List.length_range, Nat.add_assoc]

theorem freshPump_inStep (s : State) (m : PumpMode) (off size : Word) : InStep s (freshPump m off size) := by
  refine ⟨rfl, Nat.zero_le _, Nat.zero_mod _, ?_, nofun⟩
  cases m <;> simp [freshPump, placeAfter, jpegPlace]

end

/-- Settles O36: the fill of a read keeps the pump in step, and the read takes the leading bits. -/
theorem pumpDeliversTheWindowsBitsInOrder : Obligations.PumpDeliversTheWindowsBitsInOrder := by
  refine ⟨freshPump_inStep, fun s ix p q n v hp h hquiet hn hfar hget => ?_⟩
  obtain ⟨r, hfill, hget⟩ := Eff.bind_ok.mp hget
  obtain ⟨_, -, hget⟩ := Eff.bind_ok.mp hget
  obtain ⟨rfl, rfl⟩ := Prod.mk.inj (Except.ok.inj hget)
  obtain ⟨hcached, _, hr⟩ := fill_inStep hp h hquiet hfill
  rw [← hr.consumed] at hfar ⊢
  obtain ⟨hstep, hconsumed⟩ := hr.inStep.deliver (by omega) hfar
  refine ⟨hstep, hr.window.mode, hr.window.off, hr.window.size, hconsumed, ?_⟩
  rw [hr.inStep.take_cache (by omega), hr.window.windowBit]

end Sys2Proof.Machine

/-! SUPPORT. The command word and its decode check: what each step and each row shape of the decoder accepts, so that a
word decodes to a command exactly when it is that command's word; and the entry into E_ILLEGAL (spec 30_encoding.md
R80-R87). -/

namespace Sys2Proof.Machine

/-! ## Words and fields (30_encoding.md R80, R87) -/

theorem wordOf_toNat (f : Fields) :
    (wordOf f).toNat = f.opc.toNat * 2 ^ 24 + f.a.toNat * 2 ^ 20 + f.b.toNat * 2 ^ 16 + f.imm.toNat := by
  simp only [wordOf, BitVec.toNat_append]
  rw [← Nat.shiftLeft_add_eq_or_of_lt f.imm.isLt, ← Nat.shiftLeft_add_eq_or_of_lt f.b.isLt,
    ← Nat.shiftLeft_add_eq_or_of_lt f.a.isLt]
  omega

/-- A word is its four fields and nothing else, and the fields do not overlap. -/
theorem wordOf_eq_iff {f : Fields} {w : Word} : wordOf f = w ↔ f = fieldsOf w := by
  obtain ⟨opc, a, b, imm⟩ := f
  simp only [fieldsOf, Fields.mk.injEq, ← BitVec.toNat_inj, wordOf_toNat, BitVec.extractLsb'_toNat,
    Nat.shiftRight_eq_div_pow]
  omega

/-- A field holds a value in its low bits alone exactly when its other bits are 0 and its low bits are the value. -/
theorem setWidth_eq_iff {m k w : Nat} (h : m + k = w) {n : BitVec k} {x : BitVec w} :
    n.setWidth w = x ↔ x.extractLsb' k m = 0#m ∧ x.extractLsb' 0 k = n := by
  subst h
  have happend : n.setWidth (m + k) = 0#m ++ n :=
    BitVec.eq_of_toNat_eq ((BitVec.toNat_setWidth_of_le (by omega)).trans (by simp))
  rw [happend]
  constructor
  · rintro rfl
    exact ⟨BitVec.extractLsb'_append_eq_left, BitVec.extractLsb'_append_eq_right⟩
  · rintro ⟨hhigh, hlow⟩
    rw [← hhigh, ← hlow, BitVec.extractLsb'_append_extractLsb']

theorem flagField_eq_iff {e : Bool} {x : BitVec 16} :
    flagField e = x ↔ x.extractLsb' 1 15 = 0#15 ∧ x.getLsbD 0 = e := by
  have hflag : flagField e = (BitVec.ofBool e).setWidth 16 := by cases e <;> rfl
  have hbit : x.extractLsb' 0 1 = BitVec.ofBool e ↔ x.getLsbD 0 = e := by
    simp [BitVec.eq_of_getElem_eq_iff]
  rw [hflag, setWidth_eq_iff (m := 15) rfl, hbit]

/-! ## The steps of a decoder (30_encoding.md R84) -/

theorem Decoded.bind_ok {α β : Type} {x : Decoded α} {f : α → Decoded β} {b : β} :
    (x >>= f) = .ok b ↔ ∃ a, x = .ok a ∧ f a = .ok b := by
  cases x <;> simp [bind, Except.bind]

theorem Decoded.pure_ok {α : Type} {a b : α} : (pure a : Decoded α) = .ok b ↔ a = b := ⟨Except.ok.inj, congrArg _⟩

theorem needZero_ok {n : Nat} {x : BitVec n} {u : Unit} : needZero x = .ok u ↔ x = 0#n := by
  unfold needZero
  split <;> simp [*]

theorem needLegal_ok {ok : Bool} {u : Unit} : needLegal ok = .ok u ↔ ok = true := by
  cases ok <;> simp [needLegal]

/-- Below a bound of at most 16, a field is accepted as the slot number it encodes. -/
theorem needBelow_ok {n : Nat} (hn : n ≤ 16) {x : BitVec 4} {k : Fin n} : needBelow n x = .ok k ↔ slotField k = x := by
  have hk : k.val < 2 ^ 4 := by omega
  have hfield : slotField k = x ↔ x.toNat = k.val := by
    rw [slotField, ← BitVec.toNat_inj, BitVec.toNat_ofNat, Nat.mod_eq_of_lt hk, eq_comm]
  rw [hfield, needBelow]
  split
  · simp [Fin.ext_iff]
  · simp
    omega

theorem modeOf_ok {x : BitVec 2} {m : PumpMode} : modeOf x = .ok m ↔ modeBits m = x := by
  revert x
  cases m <;> decide

/-! ## The operand shapes (30_encoding.md R86) -/

section
variable {opc : BitVec 8} {a b : BitVec 4} {imm : BitVec 16} {i : Instr}

theorem bareForm_ok {j : Instr} :
    bareForm ⟨opc, a, b, imm⟩ j = .ok i ↔ a = 0#4 ∧ b = 0#4 ∧ imm = 0#16 ∧ j = i := by
  simp only [bareForm, Decoded.bind_ok, Decoded.pure_ok, needZero_ok, exists_const]

theorem slotForm_ok {n : Nat} (hn : n ≤ 16) {mk : Fin n → Instr} :
    slotForm n ⟨opc, a, b, imm⟩ mk = .ok i ↔ ∃ x, slotField x = a ∧ b = 0#4 ∧ imm = 0#16 ∧ mk x = i := by
  simp only [slotForm, Decoded.bind_ok, Decoded.pure_ok, needBelow_ok hn, needZero_ok, exists_const]

theorem slotPairForm_ok {n m : Nat} (hn : n ≤ 16) (hm : m ≤ 16) {mk : Fin n → Fin m → Instr} :
    slotPairForm n m ⟨opc, a, b, imm⟩ mk = .ok i ↔
      ∃ x, slotField x = a ∧ ∃ y, slotField y = b ∧ imm = 0#16 ∧ mk x y = i := by
  simp only [slotPairForm, Decoded.bind_ok, Decoded.pure_ok, needBelow_ok hn, needBelow_ok hm, needZero_ok, exists_const]

theorem slotFlagForm_ok {n : Nat} (hn : n ≤ 16) {mk : Fin n → Bool → Instr} :
    slotFlagForm n ⟨opc, a, b, imm⟩ mk = .ok i ↔
      ∃ x, slotField x = a ∧ b = 0#4 ∧ ∃ e, flagField e = imm ∧ mk x e = i := by
  simp only [slotFlagForm, Decoded.bind_ok, Decoded.pure_ok, needBelow_ok hn, needZero_ok, exists_const,
    flagField_eq_iff, and_assoc, exists_and_left, exists_eq_left']

theorem prefixForm_ok {mk : StreamIx → BitVec 4 → Instr} :
    prefixForm ⟨opc, a, b, imm⟩ mk = .ok i ↔
      ∃ k, slotField k = a ∧ b = 0#4 ∧ ∃ n, n.setWidth 16 = imm ∧ prefixLengthOk n = true ∧ mk k n = i := by
  simp only [prefixForm, Decoded.bind_ok, Decoded.pure_ok, needBelow_ok (by decide : Config.ns ≤ 16), needZero_ok,
    needLegal_ok, exists_const, setWidth_eq_iff (rfl : 12 + 4 = 16), and_assoc, exists_and_left, exists_eq_left']

theorem bitsForm_ok {mk : PumpIx → BitVec 6 → Instr} :
    bitsForm ⟨opc, a, b, imm⟩ mk = .ok i ↔
      ∃ p, slotField p = a ∧ b = 0#4 ∧ ∃ n, n.setWidth 16 = imm ∧ bitCountOk n = true ∧ mk p n = i := by
  simp only [bitsForm, Decoded.bind_ok, Decoded.pure_ok, needBelow_ok (by decide : Config.np ≤ 16), needZero_ok,
    needLegal_ok, exists_const, setWidth_eq_iff (rfl : 10 + 6 = 16), and_assoc, exists_and_left, exists_eq_left']

theorem stripForm_ok {mk : BitVec 16 → Instr} :
    stripForm ⟨opc, a, b, imm⟩ mk = .ok i ↔ a = 0#4 ∧ b = 0#4 ∧ mk imm = i := by
  simp only [stripForm, Decoded.bind_ok, Decoded.pure_ok, needZero_ok, exists_const]

theorem bpInitForm_ok :
    bpInitForm ⟨opc, a, b, imm⟩ = .ok i ↔
      ∃ p, slotField p = a ∧ ∃ k, slotField k = b ∧ ∃ m, (modeBits m).setWidth 16 = imm ∧ .bpInit p k m = i := by
  simp only [bpInitForm, Decoded.bind_ok, Decoded.pure_ok, needBelow_ok (by decide : Config.np ≤ 16),
    needBelow_ok (by decide : Config.ns ≤ 16), needZero_ok, modeOf_ok, exists_const,
    setWidth_eq_iff (rfl : 14 + 2 = 16), and_assoc, exists_and_left, eq_comm (a := modeBits _)]

theorem setValuesForm_ok :
    setValuesForm ⟨opc, a, b, imm⟩ = .ok i ↔
      ∃ t, slotField t = a ∧ ∃ k, slotField k = b ∧
        ∃ n, n.setWidth 16 = imm ∧ valueCountOk n = true ∧ .htSetValues t k n = i := by
  simp only [setValuesForm, Decoded.bind_ok, Decoded.pure_ok, needBelow_ok (by decide : Config.nt ≤ 16), needZero_ok,
    needLegal_ok, exists_const, setWidth_eq_iff (rfl : 7 + 9 = 16), and_assoc, exists_and_left, exists_eq_left']

theorem sv0DecodeForm_ok :
    sv0DecodeForm ⟨opc, a, b, imm⟩ = .ok i ↔
      ∃ p, slotField p = a ∧ b = 0#4 ∧ ∃ m, (modeBits m).setWidth 16 = imm ∧ .sv0Decode p m = i := by
  simp only [sv0DecodeForm, Decoded.bind_ok, Decoded.pure_ok, needBelow_ok (by decide : Config.np ≤ 16), needZero_ok,
    modeOf_ok, exists_const, setWidth_eq_iff (rfl : 14 + 2 = 16), and_assoc, exists_and_left, eq_comm (a := modeBits _)]

theorem fjInitForm_ok :
    fjInitForm ⟨opc, a, b, imm⟩ = .ok i ↔ a = 0#4 ∧ b = 0#4 ∧ ∃ rb, rb.setWidth 16 = imm ∧ .fjInit rb = i := by
  simp only [fjInitForm, Decoded.bind_ok, Decoded.pure_ok, needZero_ok, exists_const,
    setWidth_eq_iff (rfl : 11 + 5 = 16), and_assoc, exists_and_left, exists_eq_left']

end

/-! ## The opcode map (30_encoding.md R86) -/

/-- A command's fields are accepted as that command. -/
theorem decodeFields_encodeFields {i : Instr} (hwf : i.wf = true) : decodeFields (encodeFields i) = .ok i := by
  cases i with
  | nop | fjGradReset | fjEndStrip => exact bareForm_ok.mpr ⟨rfl, rfl, rfl, rfl⟩
  | bsGetU8 x | bsGetU16 x | bsGetU32 x | bsGetI32 x | bsGetF32 x | bsPeekU8 x | bsPeekU16 x | bsPeekU32 x | bsSkip x
  | bsRebase x | bsCheck x | bpFill x | htReset x | htSetCounts x | htLoadPentaxLegacy x | ljDecode x =>
    exact (slotForm_ok (by decide)).mpr ⟨x, rfl, rfl, rfl, rfl⟩
  | bsGetStream x y | bsGetSubstream x y | htDecodeSym x y | htDecodeDiff x y | htLoadPentax x y | pxDecode x y
  | sv0Stripes x y | fjSampleEven x y | fjSampleOdd x y =>
    exact (slotPairForm_ok (by decide) (by decide)).mpr ⟨x, rfl, y, rfl, rfl, rfl⟩
  | bsInit x e | htSetup x e => exact (slotFlagForm_ok (by decide)).mpr ⟨x, rfl, rfl, e, rfl, rfl⟩
  | bsHasPrefix k n | bsSkipPrefix k n => exact prefixForm_ok.mpr ⟨k, rfl, rfl, n, rfl, hwf, rfl⟩
  | bpGetBits p n | bpPeekBits p n | bpSkipBits p n => exact bitsForm_ok.mpr ⟨p, rfl, rfl, n, rfl, hwf, rfl⟩
  | fjStripWidth i | fjStripOffset i => exact stripForm_ok.mpr ⟨rfl, rfl, rfl⟩
  | bpInit p k m => exact bpInitForm_ok.mpr ⟨p, rfl, k, rfl, m, rfl, rfl⟩
  | htSetValues t k n => exact setValuesForm_ok.mpr ⟨t, rfl, k, rfl, n, rfl, hwf, rfl⟩
  | sv0Decode p m => exact sv0DecodeForm_ok.mpr ⟨p, rfl, rfl, m, rfl, rfl⟩
  | fjInit rb => exact fjInitForm_ok.mpr ⟨rfl, rfl, rb, rfl, rfl⟩

/-- Fields accepted as a command are that command's fields. The cases are the rows of the opcode map in its order, put
together by operand shape. -/
theorem encodeFields_of_decodeFields {f : Fields} {i : Instr} (h : decodeFields f = .ok i) :
    i.wf = true ∧ encodeFields i = f := by
  obtain ⟨opc, a, b, imm⟩ := f
  unfold decodeFields at h
  dsimp only at h
  split at h
  case h_1 | h_36 | h_39 =>
    obtain ⟨rfl, rfl, rfl, rfl⟩ := bareForm_ok.mp h
    exact ⟨rfl, rfl⟩
  case h_3 | h_4 | h_5 | h_6 | h_7 | h_8 | h_9 | h_10 | h_11 | h_16 | h_17 | h_19 | h_23 | h_24 | h_29 | h_31 =>
    obtain ⟨x, rfl, rfl, rfl, rfl⟩ := (slotForm_ok (by decide)).mp h
    exact ⟨rfl, rfl⟩
  case h_12 | h_13 | h_27 | h_28 | h_30 | h_32 | h_33 | h_37 | h_38 =>
    obtain ⟨x, rfl, y, rfl, rfl, rfl⟩ := (slotPairForm_ok (by decide) (by decide)).mp h
    exact ⟨rfl, rfl⟩
  case h_2 | h_26 =>
    obtain ⟨x, rfl, rfl, e, rfl, rfl⟩ := (slotFlagForm_ok (by decide)).mp h
    exact ⟨rfl, rfl⟩
  case h_14 | h_15 =>
    obtain ⟨k, rfl, rfl, n, rfl, hn, rfl⟩ := prefixForm_ok.mp h
    exact ⟨hn, rfl⟩
  case h_20 | h_21 | h_22 =>
    obtain ⟨p, rfl, rfl, n, rfl, hn, rfl⟩ := bitsForm_ok.mp h
    exact ⟨hn, rfl⟩
  case h_40 | h_41 =>
    obtain ⟨rfl, rfl, rfl⟩ := stripForm_ok.mp h
    exact ⟨rfl, rfl⟩
  case h_18 =>
    obtain ⟨p, rfl, k, rfl, m, rfl, rfl⟩ := bpInitForm_ok.mp h
    exact ⟨rfl, rfl⟩
  case h_25 =>
    obtain ⟨t, rfl, k, rfl, n, rfl, hn, rfl⟩ := setValuesForm_ok.mp h
    exact ⟨hn, rfl⟩
  case h_34 =>
    obtain ⟨p, rfl, rfl, m, rfl, rfl⟩ := sv0DecodeForm_ok.mp h
    exact ⟨rfl, rfl⟩
  case h_35 =>
    obtain ⟨rfl, rfl, rb, rfl, rfl⟩ := fjInitForm_ok.mp h
    exact ⟨rfl, rfl⟩
  case h_42 => exact nomatch h

/-- A word decodes to a command exactly when the command is well formed and the word is its own. -/
theorem decode_ok {w : Word} {i : Instr} : decode w = .ok i ↔ i.wf = true ∧ encode i = w := by
  rw [encode, wordOf_eq_iff, decode]
  exact ⟨encodeFields_of_decodeFields, fun ⟨hwf, hf⟩ => hf ▸ decodeFields_encodeFields hwf⟩

/-- Settles O1: a well-formed command's word decodes to it, and a block with the spec's counts has every such command. -/
theorem decodeOfEncodeIsTheCommand : Obligations.DecodeOfEncodeIsTheCommand := by
  intro i hwf
  have hdecode : decode (encode i) = .ok i := decode_ok.mpr ⟨hwf, rfl⟩
  exact ⟨hdecode, fun par hpar => decodeIn_ok.mpr ⟨hdecode, fits_of_decided hpar hwf⟩⟩

/-- Settles O2: what each row accepts fixes every field of the word. -/
theorem decodedWordIsTheWordOfItsCommand : Obligations.DecodedWordIsTheWordOfItsCommand :=
  fun _ _ => decode_ok.mp

/-- Settles O3: the eleven words are their commands' own, and each of the four others fails its item of the check. -/
theorem wordsWrittenOutDecode : Obligations.WordsWrittenOutDecode := by
  unfold Obligations.WordsWrittenOutDecode
  simp only [decode_ok]
  decide

/-! ## Illegal words (30_encoding.md R84, 60_exceptions.md R263) -/

theorem u32_toNat (w : Word) : u32 w.toNat = w := by
  rw [u32_natCast, BitVec.ofNat_toNat, BitVec.setWidth_eq]

theorem clearsReady_iff {w : Word} :
    clearsReady w = true ↔ w.extractLsb' 24 8 = 0x52#8 ∨ w.extractLsb' 24 8 = 0x53#8 :=
  decide_eq_true_iff

theorem runCommand_of_error {s : State} {e : DecodeError} (hbusy : s.status.busy = true)
    (hd : decodeIn s.par s.cmd = .error e) : runCommand s = .next s.raiseIllegal := by
  rw [runCommand, if_pos hbusy, hd]

/-- The state an illegal word leaves, field by field. -/
theorem State.raiseIllegal_fields (s : State) :
    s.raiseIllegal =
      { s with
        status := { s.status with busy := false, err := true }
        err := ⟨.illegal, s.cmd, 0, 0, 0, s.cmd⟩
        draws := s.draws + 1
        sv0 := { s.sv0 with
          ready := if s.cmd.extractLsb' 24 8 = 0x52#8 ∨ s.cmd.extractLsb' 24 8 = 0x53#8 then false
            else s.sv0.ready } } := by
  simp only [State.raiseIllegal_eq, State.enterError, u32_toNat, clearsReady_iff]
  rfl

/-- Settles O5: the sequencer's turn, scheduled or not, finds no command in the word and enters E_ILLEGAL. -/
theorem illegalWordEntersTheErrorState : Obligations.IllegalWordEntersTheErrorState := by
  refine fun s e hbusy hd => ⟨fun hev => ?_, fun rest hev => ?_⟩
  · rw [step_of_no_events hev, runCommand_of_error hbusy hd, State.raiseIllegal_fields]
  · rw [step_of_sequencer hev, runCommand_of_error (s := { s with events := rest }) hbusy hd,
      State.raiseIllegal_fields]

end Sys2Proof.Machine

/-! SUPPORT. Control: a CMD write that is dropped, the interrupt output, and what a command that fails or only moves
streams and pumps leaves as it was (spec 40_control.md R100-R103, 60_exceptions.md R264, R270). -/

namespace Sys2Proof.Machine

/-! ## Launch (40_control.md R102) -/

/-- A CMD write finds the block busy or in an error: it only sets CMD_LOST. -/
theorem State.writeCmd_dropped {s : State} {v : Word} (h : s.status.busy = true ∨ s.status.err = true) :
    s.writeCmd v = { s with status := { s.status with cmdLost := true } } := if_pos (Bool.or_eq_true_iff.mpr h)

/-- Settles O6: the word reaches CMD's write rule, which drops it. -/
theorem commandWriteIsDroppedWhenBusyOrInError : Obligations.CommandWriteIsDroppedWhenBusyOrInError := by
  intro s w rest hev hblocked
  rw [step_regWrite hev rfl, State.writeOffset_of_regAt (r := .cmd) rfl]
  exact congrArg Host.Outcome.next (State.writeCmd_dropped (s := { s with events := rest }) hblocked)

/-! ## The interrupt output (60_exceptions.md R270) -/

theorem State.irq_iff {s : State} :
    s.irq = true ↔ (s.status.done = true ∧ s.irqEn.doneIe = true) ∨ (s.status.err = true ∧ s.irqEn.errIe = true) := by
  simp only [State.irq, Bool.or_eq_true, Bool.and_eq_true]

/-- A completed command shows the enabled DONE, or an enabled ERR that stands from before. -/
theorem State.irq_complete {s : State} :
    s.complete.irq = true ↔ s.irqEn.doneIe = true ∨ (s.status.err = true ∧ s.irqEn.errIe = true) := by
  rw [State.irq_iff, State.complete_status, State.complete_irqEn, eq_self, true_and]

/-- Settles O14: NOP is a completion with no pseudocode before it. -/
theorem nopOnlyCompletes : Obligations.NopOnlyCompletes :=
  ⟨fun _ => State.irq_iff, fun s => ⟨s.complete, rfl, rfl, State.irq_complete⟩⟩

/-! ## Failed commands (40_control.md R103) -/

/-- A command that raises ERR has failed, and has not completed under an older error. -/
theorem exec_failed {i : Instr} {s t : State} (hs : s.status.err = false) (ht : exec i s = .next t)
    (herr : t.status.err = true) : ∃ e : ErrInfo, t = (s.failed i).enterError e := by
  obtain ⟨u, hframe, rfl⟩ | ⟨e, -, rfl⟩ := exec_ends ht
  · rw [State.complete_status, hframe.status, hs] at herr
    cases herr
  · exact ⟨e, rfl⟩

/-- What a failed command keeps up to its error entry besides its results: the streams, the Fuji context, the host's
registers and IN. -/
structure KeepsInputs (s u : State) : Prop where
  streams : u.streams = s.streams
  fuji : u.fuji = s.fuji
  regs : u.regs = s.regs
  irqEn : u.irqEn = s.irqEn
  inMem : u.inMem = s.inMem

theorem State.failed_keepsInputs (s : State) (i : Instr) : KeepsInputs s (s.failed i) := by
  cases i <;> exact ⟨rfl, rfl, rfl, rfl, rfl⟩

/-- Settles O16: a failed primitive command enters its error in the state it found, but for SV0_STRIPES' cleared
SV0.ready; a failed decoding command keeps its inputs, its results and what its Writes line does not name. -/
theorem failedCommandsLeaveTheRest : Obligations.FailedCommandsLeaveTheRest := by
  intro i s t hs ht herr
  have hkeeps : Unwritten (writesOf i) s t := exec_unwritten ht
  obtain ⟨e, rfl⟩ := exec_failed hs ht herr
  refine ⟨fun hprimitive => ?_, fun p hi => ?_⟩
  · cases i with
    | ljDecode p => cases hprimitive
    | pxDecode p h => cases hprimitive
    | sv0Decode p m => cases hprimitive
    | _ => rfl
  · have hinputs := s.failed_keepsInputs i
    have hresults := s.failed_keeps i
    have hpumps : (writesOf i).pumps = [p] := by obtain rfl | ⟨h, rfl⟩ | ⟨m, rfl⟩ := hi <;> rfl
    refine ⟨hinputs.streams, hresults.tables, hinputs.fuji, hinputs.regs, hresults.res, hresults.cmdcnt,
      hinputs.irqEn, hresults.cmd, hinputs.inMem, ?_, fun p' hp' => hkeeps.pumps p' ?_, hkeeps.image, ?_⟩
    · rw [State.enterError_status, hresults.status]
    · rwa [hpumps, List.mem_singleton]
    · obtain rfl | ⟨h, rfl⟩ | ⟨m, rfl⟩ := hi <;> rfl

/-! ## Streams and pumps -/

/-- Settles O19, as every command keeps what its Writes line does not name. -/
theorem streamAndPumpCommandsLeaveTheRest : Obligations.StreamAndPumpCommandsLeaveTheRest :=
  fun _ _ _ _ ht => exec_unwritten ht

end Sys2Proof.Machine

/-! SUPPORT. The byte-stream commands in closed form: what each stores and which error each raises (spec
41_bytestream.md R110-R127). -/

namespace Sys2Proof.Machine

/-! ## Checks and cursors -/

theorem schk_valid {s : State} {k : StreamIx} (h : s.streams[k].valid = true) : schk s k = .ok s.streams[k] :=
  schk_ok.mpr ⟨h, rfl⟩

theorem schk_invalid {s : State} {k : StreamIx} (h : s.streams[k].valid = false) :
    schk s k = .error (.raised ⟨.state, 0, 0, k.val, 0⟩) := if_neg (Bool.eq_false_iff.mp h)

theorem needRemaining_of_le {k : StreamIx} {v : StreamSlot} {n : Nat} (h : v.pos.toNat + n ≤ v.size.toNat) :
    needRemaining k v n = .ok () := needRemaining_ok.mpr h

theorem needRemaining_of_lt {k : StreamIx} {v : StreamSlot} {n : Nat} (h : v.size.toNat < v.pos.toNat + n) :
    needRemaining k v n = .error (.raised (streamBounds k v n)) := require_of_not (decide_eq_false h.not_ge)

theorem ofNat_toNat_add (x y : Word) : BitVec.ofNat 32 (x.toNat + y.toNat) = x + y := (BitVec.add_def x y).symm

theorem ofNat_toNat_add_nat (x : Word) (n : Nat) : BitVec.ofNat 32 (x.toNat + n) = x + BitVec.ofNat 32 n := by
  rw [BitVec.ofNat_add, BitVec.ofNat_toNat, BitVec.setWidth_eq]

theorem freshStream_words (off size : Word) (be : Bool) :
    freshStream off.toNat size.toNat be = ⟨true, off, size, 0, be⟩ := by
  simp [freshStream]

theorem freshStream_sum (off d size : Word) (be : Bool) :
    freshStream (off.toNat + d.toNat) size.toNat be = ⟨true, off + d, size, 0, be⟩ := by
  simp [freshStream, ofNat_toNat_add]

theorem State.setRes_natCast (s : State) (x : Nat) : s.setRes x = { s with res := BitVec.ofNat 32 x } := by
  rw [State.setRes, u32_natCast]

theorem State.setStream_self (s : State) (k : StreamIx) : s.setStream k s.streams[k] = s := by
  simp [State.setStream]

/-- A primitive command whose pseudocode answers completes (40_control.md R101). -/
theorem finishPrimitive_of_ok {s t : State} {x : Eff State} (h : x = .ok t) :
    finishPrimitive s x = .next t.complete := congrArg (finishPrimitive s) h

/-- A primitive command whose pseudocode raises enters the error in the state it found (40_control.md R103). -/
theorem finishPrimitive_of_raised {s : State} {x : Eff State} {e : ErrInfo} (h : x = .error (.raised e)) :
    finishPrimitive s x = .next (s.enterError e) := congrArg (finishPrimitive s) h

/-! ## The source check (41_bytestream.md R110) -/

/-- A byte-stream command runs SCHK on its source slot first. -/
theorem exec_of_sourceStream {s : State} {i : Instr} {k : StreamIx} (hwf : i.wf = true) (hi : sourceStream i = some k) :
    ∃ f : StreamSlot → Eff State, exec i s = finishPrimitive s (schk s k >>= f) := by
  cases i with
  | bsHasPrefix k' n | bsSkipPrefix k' n =>
    cases hi
    exact ⟨_, congrArg (finishPrimitive s) (Eff.bind_of_ok (require_of hwf) rfl)⟩
  | _ => cases hi <;> exact ⟨_, rfl⟩

/-- Settles O28: each of the fifteen commands starts with SCHK, whose error ends it. -/
theorem invalidStreamRaisesState : Obligations.InvalidStreamRaisesState := by
  intro s i k hwf hi hinvalid
  obtain ⟨f, hf⟩ := exec_of_sourceStream (s := s) hwf hi
  rw [hf]
  exact finishPrimitive_of_raised (Eff.bind_of_error (schk_invalid hinvalid))

/-! ## BS_INIT (41_bytestream.md R112) -/

/-- Settles O22: the window test decides, and a fresh stream keeps the two words. -/
theorem bsInitBindsAWindow : Obligations.BsInitBindsAWindow := by
  intro s k be
  refine ⟨fun hfits => ?_, fun hpast => ?_⟩
  · rw [← freshStream_words]
    exact finishPrimitive_of_ok (Eff.bind_of_ok (require_of (decide_eq_true hfits)) rfl)
  · exact finishPrimitive_of_raised (Eff.bind_of_error (require_of_not (decide_eq_false hpast.not_ge)))

/-! ## Typed reads (41_bytestream.md R111, R113-R120) -/

/-- A typed read has the shape of a get or of a peek. -/
theorem exec_of_typedRead {s : State} {i : Instr} {k : StreamIx} {n : Nat} {advance : Bool}
    (hi : typedRead i = some (k, n, advance)) :
    exec i s = finishPrimitive s (if advance then streamGet s k n else streamPeek s k n) := by
  cases i <;> cases hi <;> rfl

section
variable {s : State} {k : StreamIx} {n : Nat} (hvalid : s.streams[k].valid = true)
include hvalid

theorem streamPeek_ok {x : Nat} (hx : streamRead s k s.streams[k] n = .ok x) :
    streamPeek s k n = .ok { s with res := BitVec.ofNat 32 x } := by
  rw [← State.setRes_natCast]
  exact Eff.bind_of_ok (schk_valid hvalid) (Eff.bind_of_ok hx rfl)

theorem streamGet_ok {x : Nat} (hx : streamRead s k s.streams[k] n = .ok x) :
    streamGet s k n = .ok (({ s with res := BitVec.ofNat 32 x }).setStream k
      { s.streams[k] with pos := s.streams[k].pos + BitVec.ofNat 32 n }) := by
  rw [← State.setRes_natCast, ← ofNat_toNat_add_nat]
  exact Eff.bind_of_ok (schk_valid hvalid) (Eff.bind_of_ok hx rfl)

/-- A typed read past the window raises before it reads. -/
theorem typedRead_bounds (advance : Bool) (hn : s.streams[k].size.toNat < s.streams[k].pos.toNat + n) :
    (if advance then streamGet s k n else streamPeek s k n) =
      .error (.raised (streamBounds k s.streams[k] n)) := by
  have hread : streamRead s k s.streams[k] n = .error (.raised (streamBounds k s.streams[k] n)) :=
    Eff.bind_of_error (needRemaining_of_lt hn)
  cases advance <;> exact Eff.bind_of_ok (schk_valid hvalid) (Eff.bind_of_error hread)

end

/-- Settles O23: RD gives the value; a get then stores the advanced cursor, and a peek leaves the slot. -/
theorem typedReadsGiveTheValueAtTheCursor : Obligations.TypedReadsGiveTheValueAtTheCursor := by
  intro s i k n advance hi hvalid hlegal
  rw [exec_of_typedRead hi]
  refine ⟨fun hn => finishPrimitive_of_ok ?_,
    fun hn => finishPrimitive_of_raised (typedRead_bounds hvalid advance hn)⟩
  have hx := streamRead_ok (k := k) hvalid hlegal hn
  cases advance with
  | true => exact streamGet_ok hvalid hx
  | false => exact (streamPeek_ok hvalid hx).trans (congrArg Except.ok (State.setStream_self _ k).symm)

/-! ## BS_SKIP and BS_CHECK (41_bytestream.md R121, R127) -/

/-- Settles O24: each outcome is one path through the commands' checks. -/
theorem skipAndCheckTestTheWindow : Obligations.SkipAndCheckTestTheWindow := by
  intro s k hvalid
  have hslot := schk_valid hvalid
  refine ⟨fun hn => finishPrimitive_of_ok ?_, fun hn => finishPrimitive_of_raised ?_,
    fun hfits hn => finishPrimitive_of_ok ?_, fun hfits hn => finishPrimitive_of_raised ?_,
    fun hover => finishPrimitive_of_raised ?_⟩
  · rw [← ofNat_toNat_add]
    exact Eff.bind_of_ok hslot (Eff.bind_of_ok (needRemaining_of_le hn) rfl)
  · exact Eff.bind_of_ok hslot (Eff.bind_of_error (needRemaining_of_lt hn))
  · exact Eff.bind_of_ok hslot (Eff.bind_of_ok (require_of (decide_eq_true hfits))
      (Eff.bind_of_ok (needRemaining_of_le hn) rfl))
  · exact Eff.bind_of_ok hslot (Eff.bind_of_ok (require_of (decide_eq_true hfits))
      (Eff.bind_of_error (needRemaining_of_lt hn)))
  · exact Eff.bind_of_ok hslot (Eff.bind_of_error (require_of_not (decide_eq_false hover.not_ge)))

/-! ## Streams over part of a window (41_bytestream.md R122, R123) -/

/-- Settles O25: a fresh stream keeps the sum of the two offsets mod 2^32, and stands where source and destination are
one slot, as it is stored last. -/
theorem subStreamsShareTheWindow : Obligations.SubStreamsShareTheWindow := by
  intro s a b hvalid
  have hslot := schk_valid hvalid
  refine ⟨fun hn => finishPrimitive_of_ok ?_, fun hn => finishPrimitive_of_raised ?_,
    fun hn => finishPrimitive_of_ok ?_, fun hn => finishPrimitive_of_raised ?_⟩
  · rw [← freshStream_sum, ← ofNat_toNat_add]
    exact Eff.bind_of_ok hslot (Eff.bind_of_ok (needRemaining_of_le hn) rfl)
  · exact Eff.bind_of_ok hslot (Eff.bind_of_error (needRemaining_of_lt hn))
  · rw [← freshStream_sum]
    exact Eff.bind_of_ok hslot (Eff.bind_of_ok (require_of (decide_eq_true hn)) rfl)
  · exact Eff.bind_of_ok hslot (Eff.bind_of_error (require_of_not (decide_eq_false hn.not_ge)))

/-! ## Prefixes (41_bytestream.md R124, R125) -/

/-- The first eight argument bytes are those of ARG0 and ARG1, the low byte first. -/
theorem argByte_of_lt_eight (g : HostRegs) {i : Nat} (hi : i < 8) :
    g.argByte i = if i < 4 then g.arg0.extractLsb' (8 * i) 8 else g.arg1.extractLsb' (8 * (i - 4)) 8 := by
  interval_cases i <;> rfl

/-- The comparison on a legal slot: enough bytes remain and each is the argument byte of its place. -/
theorem prefixMatches_ok {s : State} {v : StreamSlot} {n : Nat} (hvalid : v.valid = true)
    (hlegal : v.legal s.par = true) : prefixMatches s v n = .ok (decide
      (v.pos.toNat + n ≤ v.size.toNat ∧ ∀ i < n, cursorByte s v i = s.regs.argByte i)) := by
  obtain ⟨hwindow, -⟩ := (StreamSlot.legal_iff hvalid).mp hlegal
  by_cases hn : v.pos.toNat + n ≤ v.size.toNat
  · rw [prefixMatches, if_pos hn, windowBytes_ok (by omega), Eff.ok_bind]
    refine congrArg Except.ok (decide_eq_decide.mpr ?_)
    rw [and_iff_right hn, HostRegs.prefixBytes, List.map_inj_left]
    simp only [List.mem_range]
    rfl
  · rw [prefixMatches, if_neg hn, decide_eq_false fun h => hn h.1]
    rfl

section
variable {s : State} {k : StreamIx} {n : BitVec 4} (hlength : prefixLengthOk n = true)
  (hvalid : s.streams[k].valid = true)
include hlength hvalid

theorem exec_bsHasPrefix {hit : Bool} (hhit : prefixMatches s s.streams[k] n.toNat = .ok hit) :
    exec (.bsHasPrefix k n) s = .next (s.setRes (bitNat hit)).complete :=
  finishPrimitive_of_ok (Eff.bind_of_ok (require_of hlength) (Eff.bind_of_ok (schk_valid hvalid)
    (Eff.bind_of_ok hhit rfl)))

theorem exec_bsSkipPrefix_of_hit (hhit : prefixMatches s s.streams[k] n.toNat = .ok true) :
    exec (.bsSkipPrefix k n) s = .next (({ s with res := 1 }).setStream k
      { s.streams[k] with pos := s.streams[k].pos + n.setWidth 32 }).complete := by
  rw [← BitVec.ofNat_toNat, ← ofNat_toNat_add_nat]
  exact finishPrimitive_of_ok (Eff.bind_of_ok (require_of hlength) (Eff.bind_of_ok (schk_valid hvalid)
    (Eff.bind_of_ok hhit rfl)))

theorem exec_bsSkipPrefix_of_miss (hhit : prefixMatches s s.streams[k] n.toNat = .ok false) :
    exec (.bsSkipPrefix k n) s = .next ({ s with res := 0 } : State).complete :=
  finishPrimitive_of_ok (Eff.bind_of_ok (require_of hlength) (Eff.bind_of_ok (schk_valid hvalid)
    (Eff.bind_of_ok hhit rfl)))

end

/-- Settles O26: the comparison decides what both commands store. -/
theorem prefixCommandsCompareBytes : Obligations.PrefixCommandsCompareBytes := by
  intro s k n hpos hle hvalid hlegal hit
  have hlength : prefixLengthOk n = true := decide_eq_true ⟨hpos, hle⟩
  have hmatches := prefixMatches_ok (n := n.toNat) hvalid hlegal
  have hiff : (s.streams[k].pos.toNat + n.toNat ≤ s.streams[k].size.toNat ∧
      ∀ i < n.toNat, cursorByte s s.streams[k] i = s.regs.argByte i) ↔ hit :=
    and_congr_right fun _ => forall₂_congr fun i hi => by rw [argByte_of_lt_eight _ (by omega)]
  refine ⟨fun h => ?_, fun h => ?_⟩
  · rw [decide_eq_true (hiff.mpr h)] at hmatches
    exact ⟨exec_bsHasPrefix hlength hvalid hmatches, exec_bsSkipPrefix_of_hit hlength hvalid hmatches⟩
  · rw [decide_eq_false (mt hiff.mp h)] at hmatches
    exact ⟨exec_bsHasPrefix hlength hvalid hmatches, exec_bsSkipPrefix_of_miss hlength hvalid hmatches⟩

/-! ## BS_REBASE (41_bytestream.md R126) -/

/-- The base in words, also where off + pos is 2^32. -/
theorem ofNat_rebased {off pos np : Word} (h : np.toNat ≤ off.toNat + pos.toNat) :
    BitVec.ofNat 32 (off.toNat + pos.toNat - np.toNat) = off + pos - np := by
  bv_omega

/-- The rebased slot in words. -/
theorem freshStream_rebased {off pos np ns : Word} (be : Bool) (h : np.toNat ≤ off.toNat + pos.toNat) :
    { freshStream (off.toNat + pos.toNat - np.toNat) (np.toNat + ns.toNat) be with pos := BitVec.ofNat 32 np.toNat } =
      (⟨true, off + pos - np, np + ns, np, be⟩ : StreamSlot) := by
  simp [freshStream, ofNat_rebased h, ofNat_toNat_add]

/-- Settles O27: each error is one path through the checks; positions from ARG0 on name a byte only where the rest of
the window is not empty, and then off + pos is below 2^32. -/
theorem rebaseKeepsTheContent : Obligations.RebaseKeepsTheContent := by
  intro s k hpar hvalid hlegal
  have hslot := schk_valid hvalid
  obtain ⟨hwindow, -⟩ := (StreamSlot.legal_iff hvalid).mp hlegal
  have hsize : s.par.inSize ≤ 2 ^ 32 := (Params.legal_iff.mp hpar).1.2.1
  refine ⟨fun hn => finishPrimitive_of_raised ?_, fun hn hbase => finishPrimitive_of_raised ?_,
    fun hn hbase hover => finishPrimitive_of_raised ?_,
    fun hn hbase hfits => ⟨_, finishPrimitive_of_ok ?_, rfl, fun i hi hlt => ?_⟩⟩
  · exact Eff.bind_of_ok hslot (Eff.bind_of_error (needRemaining_of_lt hn))
  · exact Eff.bind_of_ok hslot (Eff.bind_of_ok (needRemaining_of_le hn)
      (Eff.bind_of_error (require_of_not (decide_eq_false hbase.not_ge))))
  · exact Eff.bind_of_ok hslot (Eff.bind_of_ok (needRemaining_of_le hn)
      (Eff.bind_of_ok (require_of (decide_eq_true hbase))
        (Eff.bind_of_error (require_of_not (decide_eq_false hover.not_ge)))))
  · rw [← freshStream_rebased _ hbase]
    exact Eff.bind_of_ok hslot (Eff.bind_of_ok (needRemaining_of_le hn)
      (Eff.bind_of_ok (require_of (decide_eq_true hbase)) (Eff.bind_of_ok (require_of (decide_eq_true hfits)) rfl)))
  · have hbelow : s.streams[k].off.toNat + s.streams[k].pos.toNat < 2 ^ 32 := by omega
    show (s.streams[k].off + s.streams[k].pos - s.regs.arg0).toNat + i = _
    rw [← ofNat_rebased hbase, BitVec.toNat_ofNat, Nat.mod_eq_of_lt (by omega)]
    omega

end Sys2Proof.Machine

/-! SUPPORT. The pump commands on any pump: its start, what a fill leaves of it, and the reads that are refused (spec
42_bitpump.md R140-R146). -/

namespace Sys2Proof.Machine

/-! ## BP_INIT (42_bitpump.md R140) -/

/-- Settles O31: SCHK decides, and a fresh pump is the one stored. -/
theorem bpInitStartsAPump : Obligations.BpInitStartsAPump := fun _ _ _ _ =>
  ⟨fun hvalid => finishPrimitive_of_ok (Eff.bind_of_ok (schk_valid hvalid) rfl),
    fun hinvalid => finishPrimitive_of_raised (Eff.bind_of_error (schk_invalid hinvalid))⟩

/-! ## What a fill leaves of any pump (42_bitpump.md R141) -/

/-- A pump n cached bits further on, on the same window and with the same bits delivered. -/
structure Refilled (n : Nat) (p q : Pump) : Prop where
  window : p.SameWindow q
  consumed : q.consumed = p.consumed
  cached : q.cache.length = p.cache.length + n

section
variable {s : State} {p q r : Pump}

theorem Refilled.refl (p : Pump) : Refilled 0 p p := ⟨.refl p, rfl, rfl⟩

theorem Refilled.trans {m n : Nat} (h : Refilled m p q) (h' : Refilled n q r) : Refilled (m + n) p r :=
  ⟨h.window.trans h'.window, h'.consumed.trans h.consumed, by rw [h'.cached, h.cached, Nat.add_assoc]⟩

/-- The bits a fetch brings are cached. -/
theorem Refilled.append {c : Bits} (h : Refilled 0 p q) : Refilled c.length p { q with cache := q.cache ++ c } :=
  have ⟨⟨hvalid, hmode, hoff, hsize, hraced⟩, hconsumed, hcached⟩ := h
  ⟨⟨hvalid, hmode, hoff, hsize, hraced⟩, hconsumed, by rw [List.length_append, hcached, Nat.add_zero]⟩

theorem nextByte_refilled : Eff.Gives (fun x => Refilled 0 p x.2) (nextByte s p) := by
  unfold nextByte
  split
  · exact Eff.gives_ok ⟨⟨rfl, rfl, rfl, rfl, rfl⟩, rfl, rfl⟩
  split
  · exact Eff.gives_ok ⟨⟨rfl, rfl, rfl, rfl, rfl⟩, rfl, rfl⟩
  refine Eff.gives_bind fun b _ => ?_
  split
  · refine Eff.gives_bind fun stuffed _ => ?_
    split <;> exact Eff.gives_ok ⟨⟨rfl, rfl, rfl, rfl, rfl⟩, rfl, rfl⟩
  · exact Eff.gives_ok ⟨⟨rfl, rfl, rfl, rfl, rfl⟩, rfl, rfl⟩

theorem nextWord_refilled : Eff.Gives (fun x => Refilled 0 p x.2) (nextWord s p) := by
  unfold nextWord
  split
  · exact Eff.gives_ok ⟨⟨rfl, rfl, rfl, rfl, rfl⟩, rfl, rfl⟩
  · exact Eff.gives_bind fun _ _ => Eff.gives_ok ⟨⟨rfl, rfl, rfl, rfl, rfl⟩, rfl, rfl⟩

theorem fetchByte_refilled : Eff.Gives (Refilled 8 p) (fetchByte s p) :=
  Eff.gives_bind fun x hx => Eff.gives_ok (bits8_length x.1 ▸ (nextByte_refilled x hx).append)

theorem fetchWord_refilled : Eff.Gives (Refilled 32 p) (fetchWord s p) :=
  Eff.gives_bind fun x hx => Eff.gives_ok (bits32_length x.1 ▸ (nextWord_refilled x hx).append)

theorem fetchFourBytes_refilled : Eff.Gives (Refilled 32 p) (fetchFourBytes s p) := fun _ h =>
  forUp_invariant (fun j => Refilled (8 * j) p) (.refl p)
    (fun _ _ r _ _ hq hr => hq.trans (fetchByte_refilled r hr)) h

/-- What a fill leaves of any pump: below the threshold 32 more bits are cached, from it on nothing happens. -/
theorem fill_refilled (h : fill s p = .ok q) :
    if s.par.fillThreshold ≤ p.cache.length then q = p else Refilled 32 p q := by
  unfold fill at h
  split at h
  · rw [if_pos ‹_›]
    exact (Except.ok.inj h).symm
  · rw [if_neg ‹_›]
    split at h
    · exact fetchWord_refilled q h
    · exact fetchFourBytes_refilled q h
    · exact fetchFourBytes_refilled q h

theorem fill_sameWindow (h : fill s p = .ok q) : p.SameWindow q ∧ q.consumed = p.consumed := by
  have hrefilled := fill_refilled h
  split at hrefilled
  · subst hrefilled
    exact ⟨.refl _, rfl⟩
  · exact ⟨hrefilled.window, hrefilled.consumed⟩

/-- In a block with the spec's threshold a fill leaves at least 32 cached bits. -/
theorem fill_cached (hp : s.par.decided = true) (h : fill s p = .ok q) : 32 ≤ q.cache.length := by
  have hrefilled := fill_refilled h
  rw [Params.fillThreshold_eq hp] at hrefilled
  split at hrefilled
  · subst hrefilled
    assumption
  · rw [hrefilled.cached]
    omega

/-! ## A fill in the modes with a bound answers, whatever the parameters -/

/-- The window lies in IN and the cursor in the window (10_state.md R39). -/
structure Pump.Inside (par : Params) (p : Pump) : Prop where
  window : p.off.toNat + p.size.toNat ≤ par.inSize
  cursor : p.inpos.toNat ≤ p.size.toNat

theorem Pump.inside_of_legal {par : Params} (h : p.legal par = true) (hvalid : p.valid = true) : p.Inside par := by
  simp only [Pump.legal, hvalid, Bool.not_true, Bool.false_or, Bool.and_eq_true, decide_eq_true_eq] at h
  obtain ⟨-, ⟨⟨⟨hwindow, hcursor⟩, -⟩, -⟩, -⟩ := h
  exact ⟨hwindow, hcursor⟩

theorem can_nextByte_inside (h : p.Inside s.par) (hm : p.mode ≠ .jpeg) :
    Eff.Can [] (fun x => x.2.Inside s.par ∧ x.2.mode ≠ .jpeg) (nextByte s p) := by
  obtain ⟨hwindow, hcursor⟩ := h
  unfold nextByte
  split
  · exact ⟨⟨hwindow, hcursor⟩, hm⟩
  split
  · exact ⟨⟨hwindow, hcursor⟩, hm⟩
  · refine Eff.can_bind (can_readIn (by omega)) fun b _ => ?_
    have hlt : p.inpos.toNat + 1 ≤ p.size.toNat := by omega
    rw [if_neg fun hff => hm hff.1]
    exact ⟨⟨hwindow, (inpos_add hlt).trans_le hlt⟩, hm⟩

theorem can_fetchByte_inside (h : p.Inside s.par) (hm : p.mode ≠ .jpeg) :
    Eff.Can [] (fun q => q.Inside s.par ∧ q.mode ≠ .jpeg) (fetchByte s p) :=
  Eff.can_bind (can_nextByte_inside h hm) fun _ hx =>
    have ⟨⟨hwindow, hcursor⟩, hm'⟩ := hx
    ⟨⟨hwindow, hcursor⟩, hm'⟩

theorem can_fetchWord_inside (h : p.Inside s.par) : Eff.Can [] (fun _ => True) (fetchWord s p) := by
  obtain ⟨hwindow, hcursor⟩ := h
  refine Eff.can_bind (mid := fun _ => True) ?_ fun _ _ => trivial
  unfold nextWord
  split
  · trivial
  · exact Eff.can_bind (can_readInBytes _ (by omega)) fun _ _ => trivial

theorem can_fetchFourBytes_inside (h : p.Inside s.par) (hm : p.mode ≠ .jpeg) :
    Eff.Can [] (fun _ => True) (fetchFourBytes s p) :=
  Eff.can_mono (can_forUp (fun _ q => q.Inside s.par ∧ q.mode ≠ .jpeg) 4 0 p ⟨h, hm⟩ fun _ _ _ _ hq =>
    can_fetchByte_inside hq.1 hq.2) (fun _ hc => hc) fun _ _ => trivial

theorem fill_answers (h : p.Inside s.par) (hm : p.mode ≠ .jpeg) : ∃ q, fill s p = .ok q := by
  have hcan : Eff.Can [] (fun _ => True) (fill s p) := by
    unfold fill
    split
    · trivial
    split
    · exact can_fetchWord_inside h
    · exact can_fetchFourBytes_inside h hm
    · exact can_fetchFourBytes_inside h hm
  have ⟨q, hq, _⟩ := Eff.can_nil.mp hcan
  exact ⟨q, hq⟩

/-! ## Reads past the data (42_bitpump.md R146) -/

/-- A read past the data is refused with the cursor its fill reached. -/
theorem pget_overread {ix : PumpIx} {n : Nat} (hfill : fill s p = .ok q) (hmay : ¬ p.mayDeliver s.par n) :
    pget s ix p n =
      .error (.raised ⟨.ioBounds, q.inpos.toNat, n, ix.val, (p.consumed.toNat % 2 ^ 32 : Nat)⟩) := by
  obtain ⟨hwindow, hconsumed⟩ := fill_sameWindow hfill
  have hover : overreads s.par q n = true := by
    rw [← Bool.not_eq_false, overreads_eq_false_iff, hwindow.mayDeliver hconsumed]
    exact hmay
  rw [← hconsumed]
  exact Eff.bind_of_ok hfill (Eff.bind_of_error (require_of_not (by rw [hover]; rfl)))

/-- In the modes with a bound a fill answers, so a read past the data is an error. -/
theorem exists_pget_overread {ix : PumpIx} {n : Nat} (hlegal : p.legal s.par = true) (hvalid : p.valid = true)
    (hmay : ¬ p.mayDeliver s.par n) :
    ∃ q, fill s p = .ok q ∧ pget s ix p n =
      .error (.raised ⟨.ioBounds, q.inpos.toNat, n, ix.val, (p.consumed.toNat % 2 ^ 32 : Nat)⟩) :=
  have ⟨q, hfill⟩ := fill_answers (Pump.inside_of_legal hlegal hvalid) fun hm => hmay (.inl hm)
  ⟨q, hfill, pget_overread hfill hmay⟩

end

/-- Settles O33: the commands and every other PGET meet the one bound, and PCHK comes before the fill. -/
theorem overReadRaisesBounds : Obligations.OverReadRaisesBounds := by
  intro s p n hn
  have hcount := requireLegal_bitCount (s := s) hn
  refine ⟨fun hvalid hlegal hmay => ?_, fun v m hlegal hvalid hmay => exists_pget_overread hlegal hvalid hmay,
    fun hinvalid => ?_⟩
  · obtain ⟨q, hfill, hget⟩ := exists_pget_overread (ix := p) hlegal hvalid hmay
    exact ⟨q, hfill,
      finishPrimitive_of_raised (Eff.bind_of_ok hcount (Eff.bind_of_ok (pchk_valid hvalid) (Eff.bind_of_error hget))),
      finishPrimitive_of_raised (Eff.bind_of_ok hcount (Eff.bind_of_ok (pchk_valid hvalid)
        (Eff.bind_of_error (Eff.bind_of_error hget))))⟩
  · have hpump := pchk_invalid hinvalid
    exact ⟨finishPrimitive_of_raised (Eff.bind_of_error hpump),
      finishPrimitive_of_raised (Eff.bind_of_ok hcount (Eff.bind_of_error hpump)),
      finishPrimitive_of_raised (Eff.bind_of_ok hcount (Eff.bind_of_error hpump)),
      finishPrimitive_of_raised (Eff.bind_of_ok hcount (Eff.bind_of_error hpump))⟩

/-! ## Peek, skip and get (42_bitpump.md R143-R145) -/

/-- A BP_GET_BITS that completed found a valid pump, filled it and was within the data. -/
theorem bpGetBits_completed {s w : State} {p : PumpIx} {n : BitVec 6} (h : exec (.bpGetBits p n) s = .next w)
    (hw : w.status.err = false) :
    s.pumps[p].valid = true ∧ ∃ q, fill s s.pumps[p] = .ok q ∧ q.mayDeliver s.par n.toNat := by
  obtain ⟨v, hok, -⟩ | ⟨e, -, rfl⟩ := finishPrimitive_next.mp h
  · obtain ⟨-, -, hok⟩ := Eff.bind_ok.mp hok
    obtain ⟨v, hpump, hok⟩ := Eff.bind_ok.mp hok
    obtain ⟨_, hget, -⟩ := Eff.bind_ok.mp hok
    obtain ⟨hvalid, rfl⟩ := pchk_ok.mp hpump
    obtain ⟨q, hfill, hget⟩ := Eff.bind_ok.mp hget
    obtain ⟨_, hmay, -⟩ := Eff.bind_ok.mp hget
    exact ⟨hvalid, q, hfill, overreads_eq_false_iff.mp (by simpa using hmay)⟩
  · cases hw

/-- Settles O34: the peek stores the filled pump, which has 32 bits, so that the skip fills nothing. -/
theorem peekThenSkipIsGet : Obligations.PeekThenSkipIsGet := by
  intro s t u w p n hp hn _ hpeek hskip hget hw
  obtain ⟨hvalid, q, hfill, hmay⟩ := bpGetBits_completed hget hw
  have ht := Host.Outcome.next.inj ((execBpPeekBits_eq hvalid hfill hn).symm.trans hpeek)
  have hpump : t.pumps[p] = q := by rw [← ht]; exact State.setPump_same _ p q
  have hpar : t.par = s.par := by rw [← ht]; rfl
  have hfull : fill t t.pumps[p] = .ok q := by
    rw [hpump, fill, hpar, Params.fillThreshold_eq hp, if_pos (fill_cached hp hfill)]
  have hvalid' : t.pumps[p].valid = true := by rw [hpump, (fill_sameWindow hfill).1.valid, hvalid]
  have hu := Host.Outcome.next.inj ((execBpSkipBits_eq hvalid' hfull hn (hpar ▸ hmay)).symm.trans hskip)
  have hw := Host.Outcome.next.inj ((execBpGetBits_eq hvalid hfill hn hmay).symm.trans hget)
  have hres : t.res = w.res := by rw [← ht, ← hw]; rfl
  refine ⟨?_, hres, ?_⟩
  · rw [← hu, ← hw]
    exact (State.setPump_same t p _).trans (State.setPump_same _ p _).symm
  · rw [← hres, ← hu]
    rfl

end Sys2Proof.Machine

/-! SUPPORT. Where a fill ends a pump's data: END, MARKER, ENDPOS and PAD fetch by fetch, and the first marker of a JPEG
window (spec 42_bitpump.md R141, R148). -/

namespace Sys2Proof.Machine

/-! ## One fetch in closed form -/

/-- A pump that finds its data ended where it stands: the first time, END is set and the place reported. -/
def Pump.endHere (s : State) (p : Pump) : Pump :=
  if p.ended then p else { p with ended := true, marker := p.marker || markerAt s p p.inpos.toNat, endpos := p.inpos }

section
variable {s : State} {p q r : Pump}

theorem markerAt_of_size_le {j : Nat} (h : p.size.toNat ≤ j) : markerAt s p j = false :=
  decide_eq_false fun hm => absurd hm.1 h.not_gt

/-- Where the data ends inside the window there is a marker, and the pump is a JPEG one. -/
theorem markerAt_of_dataEnd {j : Nat} (hj : j < p.size.toNat) (h : dataEnd s p j = true) : markerAt s p j = true :=
  have ⟨_, hff, hplain⟩ := (dataEnd_of_lt hj).mp h
  decide_eq_true ⟨hj, hff, hplain⟩

theorem dataEnd_of_markerAt {j : Nat} (hm : p.mode = .jpeg) (h : markerAt s p j = true) : dataEnd s p j = true := by
  rw [dataEnd, hm]
  exact Bool.or_eq_true_iff.mpr (.inr h)

/-- At the physical end of the window the place reported is the size. -/
theorem endHere_of_size_le (hcursor : p.inpos.toNat ≤ p.size.toNat) (h : p.size.toNat ≤ p.inpos.toNat) :
    p.endHere s = { p with ended := true, endpos := if p.ended then p.endpos else p.size } := by
  have hinpos : p.inpos = p.size := BitVec.eq_of_toNat_eq (by omega)
  rw [Pump.endHere]
  by_cases he : p.ended = true
  · rw [if_pos he, if_pos he]
    obtain ⟨valid, mode, off, size, inpos, cache, pad, ended, marker, endpos, consumed, raced⟩ := p
    obtain rfl : ended = true := he
    rfl
  · rw [if_neg he, if_neg he, markerAt_of_size_le h, Bool.or_false, hinpos]

/-- What a fetch of n bits does before it caches them: where the data ends it pads, elsewhere it moves the cursor. -/
def FetchMoves (s : State) (n : Nat) (p q : Pump) : Prop :=
  if dataEnd s p p.inpos.toNat then q = (p.endHere s).padded n else ∃ i, q = { p with inpos := i }

theorem fetchMoves_of_end {n : Nat} (h : dataEnd s p p.inpos.toNat = true) (hq : q = (p.endHere s).padded n) :
    FetchMoves s n p q := (if_pos h).mpr hq

theorem fetchMoves_of_data {n : Nat} (h : ¬ dataEnd s p p.inpos.toNat = true) (i : Word)
    (hq : q = { p with inpos := i }) : FetchMoves s n p q := (if_neg h).mpr ⟨i, hq⟩

theorem FetchMoves.sameWindow {n : Nat} (h : FetchMoves s n p q) : p.SameWindow q := by
  unfold FetchMoves at h
  split at h
  · rw [h, Pump.endHere]
    split <;> exact ⟨rfl, rfl, rfl, rfl, rfl⟩
  · obtain ⟨i, rfl⟩ := h
    exact ⟨rfl, rfl, rfl, rfl, rfl⟩

theorem nextByte_moves {b : Byte} (hquiet : quietWindow s p) (hcursor : p.inpos.toNat ≤ p.size.toNat)
    (hended : p.ended = true → dataEnd s p p.inpos.toNat = true) (h : nextByte s p = .ok (b, q)) :
    FetchMoves s 8 p q := by
  unfold nextByte at h
  split at h
  · obtain ⟨-, rfl⟩ := Prod.mk.inj (Except.ok.inj h)
    exact fetchMoves_of_end (hended ‹_›) (by rw [Pump.endHere, if_pos ‹_›])
  have hrunning : ¬ p.ended = true := ‹_›
  split at h
  · obtain ⟨-, rfl⟩ := Prod.mk.inj (Except.ok.inj h)
    exact fetchMoves_of_end (dataEnd_of_size_le ‹_›) (by rw [endHere_of_size_le hcursor ‹_›, if_neg hrunning])
  have hlt : p.inpos.toNat < p.size.toNat := Nat.lt_of_not_le ‹_›
  obtain ⟨c, hc, h⟩ := Eff.bind_ok.mp h
  obtain rfl := byteAt_quiet hquiet hlt hc
  split at h
  · have ⟨hjpeg, hff⟩ : p.mode = .jpeg ∧ windowByte s p p.inpos.toNat = 0xFF#8 := ‹_›
    obtain ⟨st, hst, h⟩ := Eff.bind_ok.mp h
    have hstuffed := stuffedAt_quiet hquiet hst
    split at h
    · obtain ⟨-, rfl⟩ := Prod.mk.inj (Except.ok.inj h)
      exact fetchMoves_of_data (fun hend => ((dataEnd_of_lt hlt).mp hend).2.2 (hstuffed.mp ‹_›)) _ rfl
    · obtain ⟨-, rfl⟩ := Prod.mk.inj (Except.ok.inj h)
      have hend := (dataEnd_of_lt hlt).mpr ⟨hjpeg, hff, mt hstuffed.mpr ‹_›⟩
      refine fetchMoves_of_end hend ?_
      rw [Pump.endHere, if_neg hrunning, markerAt_of_dataEnd hlt hend, Bool.or_true]
  · obtain ⟨-, rfl⟩ := Prod.mk.inj (Except.ok.inj h)
    have hplain : ¬ (p.mode = .jpeg ∧ windowByte s p p.inpos.toNat = 0xFF#8) := ‹_›
    exact fetchMoves_of_data (fun hend =>
      have ⟨hm, hff, _⟩ := (dataEnd_of_lt hlt).mp hend
      hplain ⟨hm, hff⟩) _ rfl

theorem nextWord_moves {w : Word} (hm : p.mode = .msb32) (hcursor : p.inpos.toNat ≤ p.size.toNat)
    (h : nextWord s p = .ok (w, q)) : FetchMoves s 32 p q := by
  unfold nextWord at h
  split at h
  · obtain ⟨-, rfl⟩ := Prod.mk.inj (Except.ok.inj h)
    exact fetchMoves_of_end (dataEnd_of_size_le ‹_›) (by rw [endHere_of_size_le hcursor ‹_›])
  · obtain ⟨l, -, h⟩ := Eff.bind_ok.mp h
    obtain ⟨-, rfl⟩ := Prod.mk.inj (Except.ok.inj h)
    exact fetchMoves_of_data (fun hend => by
      have hjpeg := ((dataEnd_of_lt (by omega)).mp hend).1
      rw [hm] at hjpeg
      cases hjpeg) _ rfl

/-! ## Several fetches from a pump in step -/

theorem Pump.SameWindow.markerAt (h : p.SameWindow q) : markerAt s q = markerAt s p := by
  funext j
  unfold Machine.markerAt
  rw [h.size, h.windowByte]

theorem placeAfter_le (n : Nat) : placeAfter s p n ≤ p.size.toNat := by
  cases hm : p.mode with
  | msb => simp only [placeAfter, hm]; omega
  | msb32 => simp only [placeAfter, hm]; omega
  | jpeg =>
    induction n with
    | zero => simp [placeAfter, hm, jpegPlace]
    | succ n ih =>
      rw [placeAfter_succ (by rw [hm]; nofun), placeNext]
      split
      · exact ih
      · have hdata : ¬ dataEnd s p (placeAfter s p n) = true := ‹_›
        have hlt : placeAfter s p n < p.size.toNat := Nat.lt_of_not_le fun h => hdata (dataEnd_of_size_le h)
        split
        · have ⟨hjpeg, hff⟩ : p.mode = .jpeg ∧ windowByte s p (placeAfter s p n) = 0xFF#8 := ‹_›
          by_contra hpast
          exact hdata ((dataEnd_of_lt hlt).mpr ⟨hjpeg, hff, fun hpair => absurd hpair.1 (by omega)⟩)
        · exact hlt

/-- The place stays where the data has ended. -/
theorem placeAfter_of_end {n : Nat} (hm : p.mode ≠ .msb32) (h : dataEnd s p (placeAfter s p n) = true) (k : Nat) :
    placeAfter s p (n + k) = placeAfter s p n := by
  induction k with
  | zero => rfl
  | succ k ih => rw [← Nat.add_assoc, placeAfter_succ hm, ih, placeNext, if_pos h]

/-- A pump in step stands within its window, and its next fetch ends the data where the place of that fetch does. -/
theorem Advanced.next_fetch {k : Nat} (h : Advanced s (fetchBits p.mode * k) p r) (hm : p.mode = .msb32 → k = 0) :
    r.inpos.toNat ≤ r.size.toNat ∧ r.inpos.toNat = placeAfter s p ((p.consumed.toNat + p.cache.length) / 8 + k) ∧
      dataEnd s r r.inpos.toNat = fetchEnds s p k := by
  obtain ⟨⟨-, -, -, hplace, -⟩, hw, hconsumed, hgrown⟩ := h
  have hbits : fetchBits p.mode * k = 8 * k := by
    by_cases hmode : p.mode = .msb32
    · rw [hm hmode, Nat.mul_zero, Nat.mul_zero]
    · rw [fetchBits_of_ne hmode]
  rw [hw.placeAfter, hconsumed, hgrown, hbits,
    show (p.consumed.toNat + (p.cache.length + 8 * k)) / 8 = (p.consumed.toNat + p.cache.length) / 8 + k by omega]
    at hplace
  refine ⟨?_, hplace, ?_⟩
  · rw [hplace, hw.size]
    exact placeAfter_le _
  · rw [hw.dataEnd, hplace, fetchEnds]

/-- What k fetches of a fill from p have done to PAD, END, MARKER and ENDPOS. -/
structure Filling (s : State) (p : Pump) (k : Nat) (r : Pump) : Prop where
  pad : r.pad = p.pad + fetchBits p.mode * ((List.range k).filter (fetchEnds s p)).length
  ended : r.ended = true ↔ p.ended = true ∨ ∃ i < k, fetchEnds s p i = true
  stands : p.ended = true ∨ r.ended = false → r.marker = p.marker ∧ r.endpos = p.endpos
  stops : p.ended = false → r.ended = true →
    r.endpos = r.inpos ∧ r.marker = (p.marker || markerAt s p r.inpos.toNat)

theorem Filling.start (s : State) (p : Pump) : Filling s p 0 p where
  pad := rfl
  ended := by simp
  stands _ := ⟨rfl, rfl⟩
  stops hn he := by rw [hn] at he; cases he

/-- The padding and END after one more fetch. -/
theorem Filling.of_fetch {k : Nat} {r' : Pump} (h : Filling s p k r)
    (hpad : r'.pad = r.pad + if fetchEnds s p k then fetchBits p.mode else 0)
    (hended : r'.ended = (r.ended || fetchEnds s p k))
    (hstands : p.ended = true ∨ r'.ended = false → r'.marker = p.marker ∧ r'.endpos = p.endpos)
    (hstops : p.ended = false → r'.ended = true →
      r'.endpos = r'.inpos ∧ r'.marker = (p.marker || markerAt s p r'.inpos.toNat)) : Filling s p (k + 1) r' where
  pad := by
    rw [hpad, h.pad, List.range_succ, List.filter_append, List.length_append, Nat.mul_add, Nat.add_assoc,
      List.filter_singleton]
    cases fetchEnds s p k <;> simp
  ended := by
    rw [hended, Bool.or_eq_true, h.ended, or_assoc, Nat.exists_lt_succ_right]
  stands := hstands
  stops := hstops

/-- One more fetch. -/
theorem Filling.next {k : Nat} {r' : Pump} (h : Filling s p k r) (hw : p.SameWindow r)
    (hend : dataEnd s r r.inpos.toNat = fetchEnds s p k) (hended : r.ended = true → fetchEnds s p k = true)
    (hmoves : FetchMoves s (fetchBits p.mode) r r') : Filling s p (k + 1) r' := by
  unfold FetchMoves at hmoves
  rw [hend] at hmoves
  by_cases hk : fetchEnds s p k = true
  · rw [if_pos hk] at hmoves
    by_cases he : r.ended = true
    · obtain rfl : r' = r.padded (fetchBits p.mode) := by rw [hmoves, Pump.endHere, if_pos he]
      exact h.of_fetch (by rw [if_pos hk]; rfl) (by rw [hk, Bool.or_true]; exact he) h.stands h.stops
    · have hrunning : p.ended = false := by
        by_contra hp
        exact he (h.ended.mpr (.inl (by simpa using hp)))
      have ⟨hmarker, _⟩ := h.stands (.inr (by simpa using he))
      rw [Pump.endHere, if_neg he, hmarker, hw.markerAt] at hmoves
      subst hmoves
      refine h.of_fetch (by rw [if_pos hk]; rfl) (by rw [hk, Bool.or_true]; rfl) (fun hstand => ?_)
        fun _ _ => ⟨rfl, rfl⟩
      rcases hstand with hp | hr
      · rw [hrunning] at hp
        cases hp
      · cases hr
  · have hk : fetchEnds s p k = false := by simpa using hk
    have he : r.ended = false := by
      by_contra he
      rw [hended (by simpa using he)] at hk
      cases hk
    rw [hk, if_neg (by nofun)] at hmoves
    obtain ⟨i, rfl⟩ := hmoves
    exact h.of_fetch (by rw [hk]; rfl) (by rw [hk, Bool.or_false]) h.stands fun _ hr => by
      rw [show r.ended = true from hr] at he
      cases he

theorem fetchByte_filling {k : Nat} (hm : p.mode ≠ .msb32) (hquiet : quietWindow s p) (hr : Advanced s (8 * k) p r)
    (h : Filling s p k r) (hf : fetchByte s r = .ok q) : Filling s p (k + 1) q := by
  rw [← fetchBits_of_ne hm] at hr
  obtain ⟨hcursor, -, hend⟩ := hr.next_fetch fun hmode => absurd hmode hm
  obtain ⟨-, -, -, -, hended⟩ := hr.inStep
  obtain ⟨⟨b, r'⟩, hnext, hq⟩ := Eff.bind_ok.mp hf
  obtain rfl := Except.ok.inj hq
  have hmoves := nextByte_moves (hr.window.quietWindow hquiet) hcursor hended hnext
  rw [← fetchBits_of_ne hm] at hmoves
  obtain ⟨hpad, hended', hstands, hstops⟩ := h.next hr.window hend (fun he => hend ▸ hended he) hmoves
  exact ⟨hpad, hended', hstands, hstops⟩

theorem fetchWord_filling (hm : p.mode = .msb32) (h : InStep s p) (hf : fetchWord s p = .ok q) : Filling s p 1 q := by
  have hr : Advanced s (fetchBits p.mode * 0) p p := .refl h
  obtain ⟨hcursor, -, hend⟩ := hr.next_fetch fun _ => rfl
  obtain ⟨-, -, -, -, hended⟩ := h
  obtain ⟨⟨w, r⟩, hnext, hq⟩ := Eff.bind_ok.mp hf
  obtain rfl := Except.ok.inj hq
  have hmoves := nextWord_moves hm hcursor hnext
  rw [show 32 = fetchBits p.mode by rw [hm]; rfl] at hmoves
  obtain ⟨hpad, hended', hstands, hstops⟩ := (Filling.start s p).next (.refl p) hend (fun he => hend ▸ hended he) hmoves
  exact ⟨hpad, hended', hstands, hstops⟩

theorem fetchFourBytes_filling (hm : p.mode ≠ .msb32) (h : InStep s p) (hquiet : quietWindow s p)
    (hroom : p.cache.length < 32) (hf : fetchFourBytes s p = .ok q) : Filling s p 4 q :=
  have hboth := forUp_invariant (fun j r => Advanced s (8 * j) p r ∧ Filling s p j r) ⟨.refl h, .start s p⟩
    (fun _ _ _ _ hj hr hfetch => ⟨hr.1.trans (fetchByte_inStep hr.1.inStep (hr.1.window.quietWindow hquiet)
      (hr.1.window.mode ▸ hm) (by rw [hr.1.grown]; omega) hfetch), fetchByte_filling hm hquiet hr.1 hr.2 hfetch⟩) hf
  hboth.2

theorem fill_advanced (hp : s.par.decided = true) (h : InStep s p) (hquiet : quietWindow s p)
    (hroom : p.cache.length < 32) (hf : fill s p = .ok q) : Advanced s 32 p q := by
  obtain ⟨-, n, hq⟩ := fill_inStep hp h hquiet hf
  have hrefilled := fill_refilled hf
  rw [Params.fillThreshold_eq hp, if_neg (by omega)] at hrefilled
  obtain rfl : n = 32 := by
    have hgrown := hq.grown
    rw [hrefilled.cached] at hgrown
    omega
  exact hq

/-- A fill of a pump in step makes four byte fetches, or one word fetch in MSB32 mode. -/
theorem fill_filling (hp : s.par.decided = true) (h : InStep s p) (hquiet : quietWindow s p)
    (hroom : p.cache.length < 32) (hf : fill s p = .ok q) : Filling s p (32 / fetchBits p.mode) q := by
  unfold fill at hf
  rw [Params.fillThreshold_eq hp, if_neg (by omega)] at hf
  cases hm : p.mode <;> rw [hm] at hf
  · exact fetchFourBytes_filling (by rw [hm]; nofun) h hquiet hroom hf
  · exact fetchFourBytes_filling (by rw [hm]; nofun) h hquiet hroom hf
  · exact fetchWord_filling hm h hf

/-- A pump in step whose data ended at a marker is a JPEG one. -/
theorem Advanced.mode_of_marker {n : Nat} (h : Advanced s n p q) (hended : q.ended = true)
    (hmark : markerAt s p q.inpos.toNat = true) : p.mode = .jpeg := by
  obtain ⟨-, -, -, -, hend⟩ := h.inStep
  have hend := hend hended
  rw [h.window.dataEnd] at hend
  exact ((dataEnd_of_lt (of_decide_eq_true hmark).1).mp hend).1

/-- The place a fill that reaches a JPEG marker reports (42_bitpump.md R148). -/
theorem fill_at_marker {n m : Nat} (hq : Advanced s 32 p q) (hfill : Filling s p 4 q) (hm : p.mode = .jpeg)
    (hrunning : p.ended = false) (hmark : markerAt s p m = true) (hn : n < 4)
    (hplace : placeAfter s p ((p.consumed.toNat + p.cache.length) / 8 + n) = m) :
    q.ended = true ∧ q.marker = true ∧ q.endpos.toNat = m := by
  have hend : dataEnd s p (placeAfter s p ((p.consumed.toNat + p.cache.length) / 8 + n)) = true := by
    rw [hplace]
    exact dataEnd_of_markerAt hm hmark
  have hended : q.ended = true := hfill.ended.mpr (.inr ⟨n, hn, hend⟩)
  obtain ⟨hendpos, hmarker⟩ := hfill.stops hrunning hended
  have hinpos : q.inpos.toNat = m := by
    have hq : Advanced s (fetchBits p.mode * 4) p q := by rwa [hm]
    rw [(hq.next_fetch fun h32 => by rw [hm] at h32; cases h32).2.1, ← hplace,
      show 4 = n + (4 - n) by omega, ← Nat.add_assoc, placeAfter_of_end (by rw [hm]; nofun) hend]
  refine ⟨hended, ?_, by rw [hendpos, hinpos]⟩
  rw [hmarker, hinpos, hmark, Bool.or_true]

/-! ## A JPEG fill before the end of the data -/

/-- The data from a pump's place on ends at `e` first. -/
structure EndsAt (s : State) (p : Pump) (e : Nat) : Prop where
  inside : e ≤ p.size.toNat
  cursor : p.inpos.toNat ≤ e
  ends : dataEnd s p e = true
  first : ∀ i, p.inpos.toNat ≤ i → i < e → dataEnd s p i = false

/-- A pump that has fetched from p on and has not passed the end of the data. -/
structure Fetching (s : State) (p : Pump) (e : Nat) (r : Pump) : Prop where
  window : p.SameWindow r
  started : p.inpos.toNat ≤ r.inpos.toNat
  cursor : r.inpos.toNat ≤ e
  running : r.ended = false → r.marker = false
  stopped : r.ended = true → r.inpos.toNat = e ∧ r.endpos = r.inpos ∧ r.marker = markerAt s p e

/-- No fetch of data passes the end: the 0x00 of a stuffed pair ends nothing. -/
theorem placeNext_le {i e : Nat} (hdata : ¬ dataEnd s p i = true) (hlt : i < e) (hend : dataEnd s p e = true) :
    placeNext s p i ≤ e := by
  have hsize : i < p.size.toNat := Nat.lt_of_not_le fun h => hdata (dataEnd_of_size_le h)
  rw [placeNext, if_neg hdata]
  split
  · have ⟨hjpeg, hff⟩ : p.mode = .jpeg ∧ windowByte s p i = 0xFF#8 := ‹_›
    have hpair : i + 1 < p.size.toNat ∧ windowByte s p (i + 1) = 0#8 := by
      by_contra hpair
      exact hdata ((dataEnd_of_lt hsize).mpr ⟨hjpeg, hff, hpair⟩)
    have hne : e ≠ i + 1 := by
      rintro rfl
      have hff' := ((dataEnd_of_lt hpair.1).mp hend).2.1
      rw [hpair.2] at hff'
      exact absurd hff' (by decide)
    omega
  · exact hlt

/-- One more fetch, before its byte is cached. -/
theorem Fetching.moves {e n : Nat} (he : EndsAt s p e) (h : Fetching s p e r)
    (hended : r.ended = true → dataEnd s r r.inpos.toNat = true) (hmoves : FetchMoves s n r q)
    (hplace : q.inpos.toNat = placeNext s r r.inpos.toNat) : Fetching s p e q := by
  have hw := h.window.trans hmoves.sameWindow
  have hends : dataEnd s r e = true := by rw [h.window.dataEnd, he.ends]
  unfold FetchMoves at hmoves
  by_cases hend : dataEnd s r r.inpos.toNat = true
  · have hat : r.inpos.toNat = e := by
      by_contra hne
      rw [h.window.dataEnd, he.first _ h.started (lt_of_le_of_ne h.cursor hne)] at hend
      cases hend
    rw [if_pos hend] at hmoves
    by_cases hr : r.ended = true
    · obtain rfl : q = r.padded n := by rw [hmoves, Pump.endHere, if_pos hr]
      exact ⟨hw, h.started, h.cursor, h.running, h.stopped⟩
    · rw [Pump.endHere, if_neg hr, h.running (by simpa using hr), h.window.markerAt, hat] at hmoves
      subst hmoves
      exact ⟨hw, h.started, h.cursor, nofun, fun _ => ⟨hat, rfl, rfl⟩⟩
  · rw [if_neg hend] at hmoves
    have hrunning : ¬ r.ended = true := mt hended hend
    have hlt : r.inpos.toNat < e := lt_of_le_of_ne h.cursor fun hat => hend (by rw [hat, hends])
    have hle : q.inpos.toNat ≤ e := hplace ▸ placeNext_le hend hlt hends
    have hge : r.inpos.toNat ≤ q.inpos.toNat := by
      rw [hplace, placeNext, if_neg hend]
      split <;> omega
    obtain ⟨i, rfl⟩ := hmoves
    exact ⟨hw, h.started.trans hge, hle, h.running, fun hr => absurd hr hrunning⟩

theorem Fetching.next {e : Nat} (he : EndsAt s p e) (hquiet : quietWindow s p) (h : Fetching s p e r)
    (hf : fetchByte s r = .ok q) : Fetching s p e q := by
  obtain ⟨⟨b, r'⟩, hnext, hq⟩ := Eff.bind_ok.mp hf
  obtain rfl := Except.ok.inj hq
  have hquiet := h.window.quietWindow hquiet
  have hended : r.ended = true → dataEnd s r r.inpos.toNat = true := fun hr => by
    rw [h.window.dataEnd, (h.stopped hr).1, he.ends]
  have hmoves := nextByte_moves hquiet (by rw [h.window.size]; exact h.cursor.trans he.inside) hended hnext
  obtain ⟨⟨hvalid, hmode, hoff, hsize, hraced⟩, hstarted, hcursor, hrunning, hstopped⟩ :=
    h.moves he hended hmoves (nextByte_quiet hquiet hended hnext).place
  exact ⟨⟨hvalid, hmode, hoff, hsize, hraced⟩, hstarted, hcursor, hrunning, hstopped⟩

/-- A JPEG fill takes no byte at or beyond the end of the data. -/
theorem fill_fetching {e : Nat} (hm : p.mode = .jpeg) (he : EndsAt s p e) (hquiet : quietWindow s p)
    (hrunning : p.ended = false) (hmarker : p.marker = false) (hf : fill s p = .ok q) : Fetching s p e q := by
  have hstart : Fetching s p e p := ⟨.refl p, le_rfl, he.cursor, fun _ => hmarker, fun h => by
    rw [hrunning] at h
    cases h⟩
  unfold fill at hf
  rw [hm] at hf
  split at hf
  · obtain rfl := Except.ok.inj hf
    exact hstart
  · exact forUp_invariant (fun _ => Fetching s p e) hstart (fun _ _ _ _ _ hr hfetch => hr.next he hquiet hfetch) hf

/-- Inside the window a JPEG pump's data ends at markers only. -/
theorem dataEnd_eq_false {i : Nat} (hi : i < p.size.toNat) (h : markerAt s p i = false) : dataEnd s p i = false := by
  by_contra hend
  rw [markerAt_of_dataEnd hi (by simpa using hend)] at h
  cases h

theorem endsAt_of_marker {m : Nat} (hm : p.mode = .jpeg) (hle : p.inpos.toNat ≤ m) (hmark : markerAt s p m = true)
    (hfirst : ∀ i, p.inpos.toNat ≤ i → i < m → markerAt s p i = false) : EndsAt s p m := by
  have hin : m < p.size.toNat := (of_decide_eq_true hmark).1
  exact ⟨hin.le, hle, dataEnd_of_markerAt hm hmark, fun i hi hlt => dataEnd_eq_false (by omega) (hfirst i hi hlt)⟩

theorem endsAt_of_no_marker (hcursor : p.inpos.toNat ≤ p.size.toNat)
    (hnone : ∀ i, p.inpos.toNat ≤ i → markerAt s p i = false) : EndsAt s p p.size.toNat :=
  ⟨le_rfl, hcursor, dataEnd_of_size_le le_rfl, fun i hi hlt => dataEnd_eq_false hlt (hnone i hi)⟩

end

/-- Settles O35: a fill counts what its fetches do one by one, and a JPEG fill stops at the first place where the data
ends, which is the first marker or the window's end. -/
theorem markerStopsTheJpegPump : Obligations.MarkerStopsTheJpegPump := by
  refine ⟨fun s p q hp hstep hquiet hroom hfill => ?_, fun s p q hm hquiet hcursor hrunning hmarker hfill =>
    ⟨fun m hle hmark hfirst => ?_, fun hnone => ?_⟩⟩
  · have hfilling := fill_filling hp hstep hquiet hroom hfill
    have hq := fill_advanced hp hstep hquiet hroom hfill
    refine ⟨hfilling.pad, hfilling.ended, hfilling.stands, fun hrunning hended => ?_,
      fun m hm hrunning hmark ⟨n, hn, hplace⟩ => ?_⟩
    · obtain ⟨hendpos, hmarker⟩ := hfilling.stops hrunning hended
      refine ⟨hendpos, fun hnone => ?_⟩
      rw [hmarker, hnone, Bool.false_or]
      exact ⟨fun hmark => ⟨hq.mode_of_marker hended hmark, hmark⟩, And.right⟩
    · rw [hm] at hfilling hn
      exact fill_at_marker hq hfilling hm hrunning hmark hn hplace
  · obtain ⟨-, -, hbefore, -, hstopped⟩ :=
      fill_fetching hm (endsAt_of_marker hm hle hmark hfirst) hquiet hrunning hmarker hfill
    refine ⟨hbefore, fun hended => ?_⟩
    obtain ⟨hat, hendpos, hmark'⟩ := hstopped hended
    exact ⟨hmark'.trans hmark, by rw [hendpos, hat], hat⟩
  · obtain ⟨-, -, hbefore, hnot, hstopped⟩ :=
      fill_fetching hm (endsAt_of_no_marker hcursor hnone) hquiet hrunning hmarker hfill
    refine ⟨?_, hbefore, fun hended => ?_⟩
    · cases hended : q.ended
      · exact hnot hended
      · exact (hstopped hended).2.2.trans (hnone _ hcursor)
    · obtain ⟨hat, hendpos, -⟩ := hstopped hended
      have hinpos : q.inpos = p.size := BitVec.eq_of_toNat_eq hat
      exact ⟨hendpos.trans hinpos, hinpos⟩

end Sys2Proof.Machine

/-! SUPPORT. HSYM and HDIFF by the bits at the pump: the code they begin with, or the read or the sixteen bits that stop
the search (spec 43_huffman.md R165-R167, R171). -/

namespace Sys2Proof.Machine

/-! ## Runs of bits -/

section
variable {s : State} {ix : PumpIx} {p q : Pump} {n c : Nat}

/-- The last bit of a run comes after the rest of it. -/
theorem readCode_succ_ok :
    readCode s ix (n + 1) p = .ok (c, q) ↔
      ∃ c' b q', readCode s ix n p = .ok (c', q') ∧ pget s ix q' 1 = .ok (b, q) ∧ c = 2 * c' + b := by
  constructor
  · intro h
    obtain ⟨⟨c', q'⟩, hrun, h⟩ := Eff.bind_ok.mp h
    obtain ⟨⟨b, q''⟩, hbit, h⟩ := Eff.bind_ok.mp h
    obtain ⟨rfl, rfl⟩ := Prod.mk.inj (Except.ok.inj h)
    exact ⟨c', b, q', hrun, hbit, rfl⟩
  · rintro ⟨c', b, q', hrun, hbit, rfl⟩
    exact Eff.bind_of_ok hrun (Eff.bind_of_ok hbit rfl)

/-- A run that stops was read up to the bit whose read stops. -/
theorem readCode_error {e : Stop} (h : readCode s ix n p = .error e) :
    ∃ k < n, ∃ c q, readCode s ix k p = .ok (c, q) ∧ pget s ix q 1 = .error e := by
  induction n with
  | zero => cases h
  | succ n ih =>
    rcases Eff.bind_error.mp h with hrun | ⟨⟨c, q⟩, hrun, h⟩
    · obtain ⟨k, hk, hread⟩ := ih hrun
      exact ⟨k, by omega, hread⟩
    · rcases Eff.bind_error.mp h with hbit | ⟨_, _, hret⟩
      · exact ⟨n, by omega, c, q, hrun, hbit⟩
      · cases hret

/-! ## HSYM (43_huffman.md R165) -/

variable {t : TableIx}

/-- HSYM's search goes on after n bits without a code. -/
theorem hsymFrom_of_noCode (hrun : readCode s ix n p = .ok (c, q)) (hno : NoCodeWithin s ix p s.tables[t] n) (m : Nat) :
    hsymFrom s t ix (n + m) 1 0 p = hsymFrom s t ix m (n + 1) c q := by
  induction n generalizing m c q with
  | zero =>
    obtain ⟨rfl, rfl⟩ := Prod.mk.inj (Except.ok.inj hrun)
    rw [Nat.zero_add]
  | succ n ih =>
    obtain ⟨c', b, q', hrun', hbit, rfl⟩ := readCode_succ_ok.mp hrun
    have hmiss : ¬ s.tables[t].hasCode (n + 1) (2 * c' + b) := hno _ _ _ (by omega) le_rfl hrun
    rw [Nat.add_assoc, Nat.add_comm 1 m, ih hrun' (fun k c q h1 hk => hno k c q h1 (by omega)) (m + 1)]
    exact Eff.bind_of_ok hbit (if_neg hmiss)

variable (hp : s.par.decided = true)
include hp

/-- After n ≤ 16 bits without a code 16 - n lengths are left. -/
theorem hsym_of_noCode (hn : n ≤ 16) (hrun : readCode s ix n p = .ok (c, q))
    (hno : NoCodeWithin s ix p s.tables[t] n) : hsym s t ix p = hsymFrom s t ix (16 - n) (n + 1) c q := by
  rw [hsym, Params.htMaxLen_eq hp, ← hsymFrom_of_noCode hrun hno, show n + (16 - n) = 16 by omega]

theorem hsym_of_code {l : Nat} (h : StartsWithCode s ix p s.tables[t] l c q) :
    hsym s t ix p = .ok ((s.tables[t].valueAt (s.tables[t].indexOf l + c - s.tables[t].firstOf l)).toNat, q) := by
  obtain ⟨h1, h16, hrun, hcode, hshorter⟩ := h
  obtain ⟨n, rfl⟩ : ∃ n, l = n + 1 := ⟨l - 1, by omega⟩
  obtain ⟨c', b, q', hrun', hbit, rfl⟩ := readCode_succ_ok.mp hrun
  rw [hsym_of_noCode hp (by omega) hrun' fun k c q hk1 hk => hshorter k c q hk1 (by omega),
    show 16 - n = 16 - (n + 1) + 1 by omega]
  exact Eff.bind_of_ok hbit (if_pos hcode)

theorem hsym_of_sixteen (hrun : readCode s ix 16 p = .ok (c, q)) (hno : NoCodeWithin s ix p s.tables[t] 16) :
    hsym s t ix p = .error (.raised ⟨.corrupt, q.inpos.toNat, 0, t.val, c⟩) :=
  hsym_of_noCode hp le_rfl hrun hno

theorem hsym_of_read_error {e : Stop} (hn : n < 16) (hno : NoCodeWithin s ix p s.tables[t] n)
    (h : readCode s ix (n + 1) p = .error e) : hsym s t ix p = .error e := by
  obtain ⟨k, hk, c, q, hrun, hbit⟩ := readCode_error h
  rw [hsym_of_noCode hp (by omega) hrun fun j c q h1 hj => hno j c q h1 (by omega),
    show 16 - k = 16 - (k + 1) + 1 by omega]
  exact Eff.bind_of_error hbit

end

/-! ## HDIFF (43_huffman.md R166) -/

section
variable {s : State} {t : TableIx} {ix : PumpIx} {p q : Pump} {len : Nat}

theorem hdiff_of_hsym_error {e : Stop} (h : hsym s t ix p = .error e) : hdiff s t ix p = .error e := Eff.bind_of_error h

variable (h : hsym s t ix p = .ok (len, q))
include h

theorem hdiff_of_zero (hlen : len = 0) : hdiff s t ix p = .ok (0, q) := Eff.bind_of_ok h (if_pos hlen)

theorem hdiff_of_above (hlen : 17 ≤ len) :
    hdiff s t ix p = .error (.raised ⟨.corrupt, q.inpos.toNat, 0, t.val, len⟩) :=
  Eff.bind_of_ok h ((if_neg (by omega)).trans (if_pos (by omega)))

/-- The additional bits of lengths 1..15. -/
theorem hdiff_of_short (h1 : 1 ≤ len) (h15 : len ≤ 15) :
    hdiff s t ix p = pget s ix q len >>= fun x => .ok (extendDiff len x.1, x.2) :=
  Eff.bind_of_ok h ((if_neg (by omega)).trans ((if_neg (by omega)).trans (if_neg (by omega))))

theorem hdiff_of_sixteen (hlen : len = 16) (hd : s.tables[t].dng16 = false) :
    hdiff s t ix p = .ok (Diff16.value s.par.diff16, q) :=
  Eff.bind_of_ok h ((if_neg (by omega)).trans ((if_neg (by omega)).trans ((if_pos hlen).trans
    (if_neg (Bool.eq_false_iff.mp hd)))))

theorem hdiff_of_sixteen_dng (hlen : len = 16) (hd : s.tables[t].dng16 = true) :
    hdiff s t ix p = pget s ix q 16 >>= fun x => .ok (Diff16.value s.par.diff16, x.2) := by
  rw [hdiff, h]
  refine (if_neg (by omega)).trans ((if_neg (by omega)).trans ((if_pos hlen).trans ((if_pos hd).trans ?_)))
  rw [pskip]
  cases pget s ix q 16 <;> rfl

end

/-! ## The commands -/

/-- Settles O41: TCHK, PCHK, and what HSYM gives. -/
theorem symbolDecodeFollowsTheCode : Obligations.SymbolDecodeFollowsTheCode := by
  intro s t p hp
  refine ⟨fun ht => finishPrimitive_of_raised (Eff.bind_of_error (tchk_not_ready ht)), fun ht hv =>
    finishPrimitive_of_raised (Eff.bind_of_ok (tchk_ready ht) (Eff.bind_of_error (pchk_invalid hv))), fun ht hv => ?_⟩
  have hfails : ∀ e, hsym s t p s.pumps[p] = .error (.raised e) → exec (.htDecodeSym t p) s = .next (s.enterError e) :=
    fun e he => finishPrimitive_of_raised (Eff.bind_of_ok (tchk_ready ht)
      (Eff.bind_of_ok (pchk_valid hv) (Eff.bind_of_error he)))
  refine ⟨fun l c q hcode => ?_, fun c q hrun hno => hfails _ (hsym_of_sixteen hp hrun hno), fun n e hn hno he =>
    hfails _ (hsym_of_read_error hp hn hno he)⟩
  have hsymbol := hsym_of_code hp hcode
  rw [← BitVec.ofNat_toNat]
  exact finishPrimitive_of_ok (Eff.bind_of_ok (tchk_ready ht) (Eff.bind_of_ok (pchk_valid hv)
      (Eff.bind_of_ok hsymbol (congrArg Except.ok (State.setRes_natCast _ _)))))

/-- Settles O42: TCHK, PCHK, and what HDIFF makes of the length HSYM gives. -/
theorem differenceDecodeExtends : Obligations.DifferenceDecodeExtends := by
  intro s t p hp
  refine ⟨fun ht => finishPrimitive_of_raised (Eff.bind_of_error (tchk_not_ready ht)), fun ht hv =>
    finishPrimitive_of_raised (Eff.bind_of_ok (tchk_ready ht) (Eff.bind_of_error (pchk_invalid hv))), fun ht hv => ?_⟩
  have hfails : ∀ e, hdiff s t p s.pumps[p] = .error (.raised e) →
      exec (.htDecodeDiff t p) s = .next (s.enterError e) := fun e he =>
    finishPrimitive_of_raised (Eff.bind_of_ok (tchk_ready ht) (Eff.bind_of_ok (pchk_valid hv) (Eff.bind_of_error he)))
  have hgives : ∀ d q, hdiff s t p s.pumps[p] = .ok (d, q) →
      exec (.htDecodeDiff t p) s = .next (({ s with res := u32 d }).setPump p q).complete := fun d q hd =>
    finishPrimitive_of_ok (Eff.bind_of_ok (tchk_ready ht) (Eff.bind_of_ok (pchk_valid hv) (Eff.bind_of_ok hd rfl)))
  refine ⟨fun c q hrun hno => hfails _ (hdiff_of_hsym_error (hsym_of_sixteen hp hrun hno)), fun n e hn hno he =>
    hfails _ (hdiff_of_hsym_error (hsym_of_read_error hp hn hno he)), fun l c q hcode => ?_⟩
  have hlength := hsym_of_code hp hcode
  refine ⟨fun h0 => hgives _ _ (hdiff_of_zero hlength h0), fun h1 h15 => ⟨fun x q' hx => hgives _ _ ?_, fun e he =>
    hfails _ ?_⟩, fun h16 hd => hgives _ _ (hdiff_of_sixteen hlength h16 hd), fun h16 hd => ⟨fun x q' hx =>
    hgives _ _ ?_, fun e he => hfails _ ?_⟩, fun h17 => hfails _ (hdiff_of_above hlength h17)⟩
  · exact (hdiff_of_short hlength h1 h15).trans (Eff.bind_of_ok hx rfl)
  · exact (hdiff_of_short hlength h1 h15).trans (Eff.bind_of_error he)
  · exact (hdiff_of_sixteen_dng hlength h16 hd).trans (Eff.bind_of_ok hx rfl)
  · exact (hdiff_of_sixteen_dng hlength h16 hd).trans (Eff.bind_of_error he)

end Sys2Proof.Machine

/-! SUPPORT. FJCODE by the bits at the pump, and FJ_SAMPLE_EVEN and FJ_SAMPLE_ODD by what FJCODE gives (spec 47_fuji.md
R233-R235, R239). -/

namespace Sys2Proof.Machine

/-! ## The zero run (47_fuji.md R235) -/

section
variable {s : State} {ix : PumpIx} {p q : Pump} {n k : Nat}

/-- One bit is 0 or 1. -/
theorem pget_one_le {b : Nat} (h : pget s ix p 1 = .ok (b, q)) : b ≤ 1 := by
  obtain ⟨r, -, h⟩ := Eff.bind_ok.mp h
  obtain ⟨_, -, h⟩ := Eff.bind_ok.mp h
  obtain ⟨rfl, -⟩ := Prod.mk.inj (Except.ok.inj h)
  have hlt := bitsVal_lt (r.cache.take 1)
  have hle : 2 ^ (r.cache.take 1).length ≤ 2 ^ 1 := Nat.pow_le_pow_right (by omega) (List.length_take_le 1 _)
  omega

theorem zeroRun_of_zero {z : Nat} (h : pget s ix p 1 = .ok (0, q)) :
    zeroRun s ix (n + 1) z p = zeroRun s ix n (z + 1) q := Eff.bind_of_ok h (if_pos rfl)

theorem zeroRun_of_one {z : Nat} (h : pget s ix p 1 = .ok (1, q)) : zeroRun s ix (n + 1) z p = .ok (z, q) :=
  Eff.bind_of_ok h (if_neg (by decide))

/-- The run goes on after k zeros. -/
theorem zeroRun_of_zeros (h : readCode s ix k p = .ok (0, q)) (n : Nat) :
    zeroRun s ix (k + n) 0 p = zeroRun s ix n k q := by
  induction k generalizing n q with
  | zero =>
    obtain ⟨-, rfl⟩ := Prod.mk.inj (Except.ok.inj h)
    rw [Nat.zero_add]
  | succ k ih =>
    obtain ⟨c, b, r, hrun, hbit, hzero⟩ := readCode_succ_ok.mp h
    obtain ⟨rfl, rfl⟩ : c = 0 ∧ b = 0 := by omega
    rw [Nat.add_assoc, Nat.add_comm 1 n, ih hrun (n + 1)]
    exact zeroRun_of_zero hbit

/-- k zeros and a one. -/
theorem zeroRun_ends (hk : k < n) (h : readCode s ix (k + 1) p = .ok (1, q)) : zeroRun s ix n 0 p = .ok (k, q) := by
  obtain ⟨c, b, r, hrun, hbit, hone⟩ := readCode_succ_ok.mp h
  have hb := pget_one_le hbit
  obtain ⟨rfl, rfl⟩ : c = 0 ∧ b = 1 := by omega
  rw [show n = k + (n - k - 1 + 1) by omega, zeroRun_of_zeros hrun]
  exact zeroRun_of_one hbit

theorem zeroRun_of_read_error {e : Stop} (hk : k < n) (hrun : readCode s ix k p = .ok (0, q))
    (he : pget s ix q 1 = .error e) : zeroRun s ix n 0 p = .error e := by
  rw [show n = k + (n - k - 1 + 1) by omega, zeroRun_of_zeros hrun]
  exact Eff.bind_of_error he

theorem zeroRun_of_all_zeros (h : readCode s ix n p = .ok (0, q)) :
    zeroRun s ix n 0 p = .error (.raised ⟨.corrupt, 0, 0, 0, n⟩) := zeroRun_of_zeros h 0

/-! ## BITDIFF (47_fuji.md R235) -/

/-- The search meets the least d that is enough, or its last try. -/
theorem bitDiffFrom_eq {v1 v2 d : Nat} (n k : Nat) (hk : k ≤ d) (hn : d ≤ k + n) (hd : d < k + n → v1 ≤ v2 * 2 ^ d)
    (hleast : ∀ e, k ≤ e → e < d → v2 * 2 ^ e < v1) : bitDiffFrom v1 v2 n k = d := by
  induction n generalizing k with
  | zero => exact (by omega : k = d)
  | succ n ih =>
    rw [bitDiffFrom]
    by_cases heq : k = d
    · rw [heq, if_pos (hd (by omega))]
    · rw [if_neg (hleast k le_rfl (by omega)).not_ge]
      exact ih (k + 1) (by omega) (by omega) (fun h => hd (by omega)) fun e he => hleast e (by omega)

theorem IsBitDiff.bitDiff_eq {v1 v2 d : Nat} (h : IsBitDiff v1 v2 d) : bitDiff v1 v2 = d := by
  rcases h with ⟨hle, rfl⟩ | ⟨hlt, h1, h13, henough, hleast⟩
  · exact if_pos hle
  · exact (if_neg hlt.not_ge).trans (bitDiffFrom_eq 12 1 h1 (by omega) henough hleast)

/-! ## FJCODE (47_fuji.md R235) -/

variable {pair : GradPair} {z d b raw : Nat} {e : Stop}

/-- The error counter, saturating, in closed form. -/
theorem countCode_eq (f : Fuji) (c : Nat) :
    f.countCode c =
      if f.totalValues ≤ c then BitVec.ofNat 32 (min (f.errcnt.toNat + 1) (2 ^ 32 - 1)) else f.errcnt := by
  unfold Fuji.countCode
  by_cases hc : f.totalValues ≤ c
  · rw [if_pos hc]
    by_cases hfull : f.errcnt.toNat < 2 ^ 32 - 1
    · rw [if_pos ⟨hc, hfull⟩, Nat.min_eq_left (by omega), ofNat_toNat_add_nat]
      rfl
    · have hlast := f.errcnt.isLt
      rw [if_neg fun h => hfull h.2, Nat.min_eq_right (by omega), show 2 ^ 32 - 1 = f.errcnt.toNat by omega,
        BitVec.ofNat_toNat, BitVec.setWidth_eq]
  · rw [if_neg hc, if_neg fun h => hc h.1]

/-- What FJCODE makes of a raw code. -/
theorem fjCode_of_raw (h : fjRawCode s ix p pair = .ok (raw, q)) :
    fjCode s ix p pair = .ok ⟨mapCode raw, pair.update s.fuji.minValue (mapCode raw),
      if s.fuji.totalValues ≤ raw then BitVec.ofNat 32 (min (s.fuji.errcnt.toNat + 1) (2 ^ 32 - 1))
        else s.fuji.errcnt, q⟩ := by
  rw [← countCode_eq]
  exact Eff.bind_of_ok h rfl

theorem fjCode_of_run_error (h : zeroRun s ix s.fuji.maxBits 0 p = .error e) : fjCode s ix p pair = .error e :=
  Eff.bind_of_error (Eff.bind_of_error h)

section
variable (hrun : zeroRun s ix s.fuji.maxBits 0 p = .ok (z, q))
include hrun

/-- The short form is z alone where the pair's bit difference is 0. -/
theorem fjRawCode_of_short_zero (hshort : z + s.fuji.rawBits + 1 < s.fuji.maxBits)
    (hd : bitDiff pair.v1 pair.v2 = 0) : fjRawCode s ix p pair = .ok (z, q) :=
  Eff.bind_of_ok hrun ((if_pos hshort).trans (if_pos hd))

theorem fjRawCode_of_short (hshort : z + s.fuji.rawBits + 1 < s.fuji.maxBits)
    (hd : bitDiff pair.v1 pair.v2 ≠ 0) :
    fjRawCode s ix p pair = pget s ix q (bitDiff pair.v1 pair.v2) >>= fun x =>
      .ok (x.1 + z * 2 ^ bitDiff pair.v1 pair.v2, x.2) :=
  Eff.bind_of_ok hrun ((if_pos hshort).trans (if_neg hd))

theorem fjRawCode_of_escape (hescape : s.fuji.maxBits ≤ z + s.fuji.rawBits + 1) :
    fjRawCode s ix p pair = pget s ix q s.fuji.rawBits >>= fun x => .ok (x.1 + 1, x.2) :=
  Eff.bind_of_ok hrun (if_neg (by omega))

end

end

/-- Settles O56: the run of zeros, then the bits its form takes, and one closed form of what the raw code gives. -/
theorem fujiCodeReadsTheAdaptiveCode : Obligations.FujiCodeReadsTheAdaptiveCode := by
  intro s ix p q q' pair z d b raw
  refine ⟨fun hz hone hd => ?_, fun e hz hzeros he => fjCode_of_run_error (zeroRun_of_read_error hz hzeros he),
    fun hzeros => fjCode_of_run_error (zeroRun_of_all_zeros hzeros)⟩
  have hrun := zeroRun_ends hz hone
  obtain rfl := hd.bitDiff_eq
  refine ⟨fun hshort hbits hd0 hraw => fjCode_of_raw ?_, fun hshort hd0 hraw => fjCode_of_raw ?_,
    fun hescape hbits hraw => fjCode_of_raw ?_, fun e => ⟨fun hshort hd0 he => Eff.bind_of_error ?_, fun hescape he =>
      Eff.bind_of_error ?_⟩⟩
  · rw [fjRawCode_of_short hrun hshort hd0, hraw]
    exact Eff.bind_of_ok hbits rfl
  · rw [hraw]
    exact fjRawCode_of_short_zero hrun hshort hd0
  · rw [fjRawCode_of_escape hrun hescape, hraw]
    exact Eff.bind_of_ok hbits rfl
  · rw [fjRawCode_of_short hrun hshort hd0]
    exact Eff.bind_of_error he
  · rw [fjRawCode_of_escape hrun hescape]
    exact Eff.bind_of_error he

/-! ## The sample commands (47_fuji.md R233, R234, R239) -/

section
variable {s : State} {p : PumpIx} {j : GradSet} {e : ErrInfo}

/-- NCHK passes where no neighbour is above the largest sample value. -/
theorem neighbourCheck_of_le {f : Fuji} {l : List Nat} (h : ∀ y ∈ l, y ≤ f.qp[(4 : Fin 5)]) :
    neighbourCheck f l = .ok () := by
  induction l with
  | nil => rfl
  | cons y l ih =>
    rw [List.forall_mem_cons] at h
    exact Eff.bind_of_ok (require_of (decide_eq_true (Int.ofNat_le.mpr h.1))) (ih h.2)

/-- NCHK stops at the first neighbour above the largest sample value. -/
theorem neighbourCheck_of_lt {f : Fuji} {pre post : List Nat} {x : Nat} (hpre : ∀ y ∈ pre, y ≤ f.qp[(4 : Fin 5)])
    (hx : f.qp[(4 : Fin 5)] < x) :
    neighbourCheck f (pre ++ x :: post) = .error (.raised ⟨.corrupt, 0, 0, 0, x⟩) := by
  induction pre with
  | nil => exact Eff.bind_of_error (require_of_not (decide_eq_false (Int.ofNat_lt.mpr hx).not_ge))
  | cons y pre ih =>
    rw [List.forall_mem_cons] at hpre
    exact Eff.bind_of_ok (require_of (decide_eq_true (Int.ofNat_le.mpr hpre.1))) (ih hpre.2)

/-- The two sample commands alike: checks, FJCODE on the pair of the gradient, and what is stored of it. -/
def fjSample (p : PumpIx) (neighbours : List Nat) (pair : GradPair) (store : FjCode → State) (s : State) :
    Eff State := do
  fujiValid s
  let v ← pchk s p
  neighbourCheck s.fuji neighbours
  let x ← fjCode s p v pair
  return store x

/-- What FJ_SAMPLE_EVEN stores. -/
def evenStore (p : PumpIx) (j : GradSet) (s : State) (x : FjCode) : State :=
  let grad := evenGradient s.fuji s.regs
  ({ s with
    res := u32 (s.fuji.reconstruct grad (evenInterp4 s.regs / 4 : Nat) x.code)
    fuji := { s.fuji with ge := s.fuji.ge.setPair j (gradIndex grad) x.pair, errcnt := x.errcnt } }).setPump p x.pump

/-- What FJ_SAMPLE_ODD stores. -/
def oddStore (p : PumpIx) (j : GradSet) (s : State) (x : FjCode) : State :=
  let grad := oddGradient s.fuji s.regs
  ({ s with
    res := u32 (s.fuji.reconstruct grad (oddInterp s.regs : Nat) x.code)
    fuji := { s.fuji with go := s.fuji.go.setPair j (gradIndex grad) x.pair, errcnt := x.errcnt } }).setPump p x.pump

theorem exec_fjSampleEven (s : State) (p : PumpIx) (j : GradSet) :
    exec (.fjSampleEven p j) s = finishPrimitive s (fjSample p [s.regs.rb, s.regs.rc, s.regs.rd, s.regs.rf]
      (s.fuji.ge.pair j (gradIndex (evenGradient s.fuji s.regs))) (evenStore p j s) s) := rfl

theorem exec_fjSampleOdd (s : State) (p : PumpIx) (j : GradSet) :
    exec (.fjSampleOdd p j) s = finishPrimitive s (fjSample p
      [s.regs.ra, s.regs.rb, s.regs.rc, s.regs.rd, s.regs.rg]
      (s.fuji.go.pair j (gradIndex (oddGradient s.fuji s.regs))) (oddStore p j s) s) := rfl

variable {l : List Nat} {pair : GradPair} {store : FjCode → State}

theorem fjSample_of_invalid_context (h : s.fuji.valid = false) :
    fjSample p l pair store s = .error (.raised ⟨.state, 0, 0, 0, 0⟩) := Eff.bind_of_error (require_of_not h)

variable (hf : s.fuji.valid = true)
include hf

theorem fjSample_of_invalid_pump (h : s.pumps[p].valid = false) :
    fjSample p l pair store s = .error (.raised ⟨.state, 0, 0, p.val, 0⟩) :=
  Eff.bind_of_ok (require_of hf) (Eff.bind_of_error (pchk_invalid h))

variable (hv : s.pumps[p].valid = true)
include hv

theorem fjSample_of_neighbour_error (h : neighbourCheck s.fuji l = .error (.raised e)) :
    fjSample p l pair store s = .error (.raised e) :=
  Eff.bind_of_ok (require_of hf) (Eff.bind_of_ok (pchk_valid hv) (Eff.bind_of_error h))

variable (hl : ∀ y ∈ l, y ≤ s.fuji.qp[(4 : Fin 5)])
include hl

/-- With its checks passed a sample command does what FJCODE's answer says. -/
theorem fjSample_of_checks : fjSample p l pair store s = fjCode s p s.pumps[p] pair >>= fun x => .ok (store x) :=
  Eff.bind_of_ok (require_of hf) (Eff.bind_of_ok (pchk_valid hv) (Eff.bind_of_ok (neighbourCheck_of_le hl) rfl))

end

/-- The even interpolation, by absolute values (47_fuji.md R233). -/
theorem evenInterp4_eq (g : HostRegs) :
    evenInterp4 g =
      if |(g.rf : Int) - g.rb| < |(g.rc : Int) - g.rb| ∧ |(g.rd : Int) - g.rb| < |(g.rc : Int) - g.rb| then
        g.rf + g.rd + 2 * g.rb
      else if |(g.rc : Int) - g.rb| < |(g.rd : Int) - g.rb| ∧ |(g.rf : Int) - g.rb| < |(g.rd : Int) - g.rb| then
        g.rf + g.rc + 2 * g.rb
      else g.rd + g.rc + 2 * g.rb := by
  simp only [evenInterp4, Int.abs_eq_natAbs, Int.ofNat_lt]

/-- Settles O55: both commands check, run FJCODE on the pair of their gradient and store its answer. -/
theorem fujiSamplesInterpolateAndCorrect : Obligations.FujiSamplesInterpolateAndCorrect := by
  intro s p j
  dsimp only
  rw [exec_fjSampleEven, exec_fjSampleOdd]
  refine ⟨fun hf => ⟨?_, ?_⟩, fun hf hv => ⟨?_, ?_⟩, fun hf hv =>
    ⟨fun pre post x hpre hx => ⟨fun hl => ?_, fun hl => ?_⟩, fun x hb hc hd hf' hx => ?_, fun e hb hc hd hf' he => ?_,
    fun e ha hb hc hd hg he => ?_, fun x ha hb hc hd hg hx => ?_⟩⟩
  · exact finishPrimitive_of_raised (fjSample_of_invalid_context hf)
  · exact finishPrimitive_of_raised (fjSample_of_invalid_context hf)
  · exact finishPrimitive_of_raised (fjSample_of_invalid_pump hf hv)
  · exact finishPrimitive_of_raised (fjSample_of_invalid_pump hf hv)
  · exact finishPrimitive_of_raised (fjSample_of_neighbour_error hf hv (hl ▸ neighbourCheck_of_lt hpre hx))
  · exact finishPrimitive_of_raised (fjSample_of_neighbour_error hf hv (hl ▸ neighbourCheck_of_lt hpre hx))
  · rw [← evenInterp4_eq]
    exact finishPrimitive_of_ok ((fjSample_of_checks hf hv (by simpa using ⟨hb, hc, hd, hf'⟩)).trans
      (Eff.bind_of_ok hx rfl))
  · exact finishPrimitive_of_raised ((fjSample_of_checks hf hv (by simpa using ⟨hb, hc, hd, hf'⟩)).trans
      (Eff.bind_of_error he))
  · exact finishPrimitive_of_raised ((fjSample_of_checks hf hv (by simpa using ⟨ha, hb, hc, hd, hg⟩)).trans
      (Eff.bind_of_error he))
  · exact finishPrimitive_of_ok ((fjSample_of_checks hf hv (by simpa using ⟨ha, hb, hc, hd, hg⟩)).trans
      (Eff.bind_of_ok hx rfl))

end Sys2Proof.Machine

/-! SUPPORT. Loops that read one thing after another from a pump: how each of them ends follows from how the reads
do. -/

namespace Sys2Proof.Machine

/-! ## How a piece of pseudocode ends -/

/-- It answers a value with the property, or stops in one of these ways. -/
def Eff.Ends {α : Type} (post : α → Prop) (stop : Stop → Prop) (x : Eff α) : Prop :=
  match x with
  | .ok a => post a
  | .error e => stop e

section
variable {α β σ : Type} {stop : Stop → Prop}

theorem Eff.ends_bind {mid : α → Prop} {post : β → Prop} {x : Eff α} {f : α → Eff β} (hx : Eff.Ends mid stop x)
    (hf : ∀ a, mid a → Eff.Ends post stop (f a)) : Eff.Ends post stop (x >>= f) :=
  match x, hx with
  | .ok a, ha => hf a ha
  | .error _, he => he

theorem Eff.ends_mono {post post' : α → Prop} {x : Eff α} (h : Eff.Ends post stop x) (hp : ∀ a, post a → post' a) :
    Eff.Ends post' stop x :=
  match x, h with
  | .ok a, ha => hp a ha
  | .error _, he => he

/-- It answers where no stop is possible. -/
theorem Eff.Ends.answers {post : α → Prop} {x : Eff α} (h : Eff.Ends post stop x) (hstop : ∀ e, ¬ stop e) :
    ∃ a, x = .ok a ∧ post a :=
  match x, h with
  | .ok a, ha => ⟨a, rfl, ha⟩
  | .error e, he => absurd he (hstop e)

/-- It stops where no answer is possible. -/
theorem Eff.Ends.stops {post : α → Prop} {x : Eff α} (h : Eff.Ends post stop x) (hpost : ∀ a, ¬ post a) :
    ∃ e, x = .error e ∧ stop e :=
  match x, h with
  | .ok a, ha => absurd ha (hpost a)
  | .error e, he => ⟨e, rfl, he⟩

/-- A step that answers a known value. -/
theorem Eff.ends_bind_ok {post : β → Prop} {x : Eff α} {a : α} {f : α → Eff β} (hx : x = .ok a)
    (hf : Eff.Ends post stop (f a)) : Eff.Ends post stop (x >>= f) := hx ▸ hf

/-- A loop ends as its turns do. -/
theorem Eff.ends_forUp {body : Nat → σ → Eff σ} (inv : Nat → σ → Prop) {n i : Nat} {x : σ} (hx : inv i x)
    (hb : ∀ j y, i ≤ j → j < i + n → inv j y → Eff.Ends (inv (j + 1)) stop (body j y)) :
    Eff.Ends (inv (i + n)) stop (forUp body n i x) := by
  induction n generalizing i x with
  | zero => exact hx
  | succ n ih =>
    rw [forUp_succ, show i + (n + 1) = i + 1 + n by omega]
    exact Eff.ends_bind (hb i x le_rfl (by omega) hx) fun y hy =>
      ih hy fun j z hij hj => hb j z (by omega) (by omega)

end

/-! ## Reads one after another -/

section
variable {ι : Type} {read : ι → Pump → Eff (Int × Pump)} {i : ι} {l : List ι} {p q : Pump} {a : Int} {v : List Int}
  {Q : Nat → Pump} {n : Nat} {e : Stop} {stop : Stop → Prop}

/-- Everything a list asks for, read in its order. -/
def readAll (read : ι → Pump → Eff (Int × Pump)) : List ι → Pump → Eff (List Int × Pump)
  | [], p => .ok ([], p)
  | i :: l, p => do
    let (a, q) ← read i p
    let (v, q') ← readAll read l q
    return (a :: v, q')

theorem readDiffs_eq_readAll (s : State) (ix : PumpIx) (l : List TableIx) (p : Pump) :
    readDiffs s ix l p = readAll (fun t => hdiff s t ix) l p := by
  induction l generalizing p with
  | nil => rfl
  | cons t l ih => simp only [readDiffs, readAll, ih]

/-- The first n reads answer the values `v`, `Q k` the pump before read k, and read n, if there is one,
stops. -/
structure Reading (read : ι → Pump → Eff (Int × Pump)) (l : List ι) (v : List Int) (Q : Nat → Pump) (n : Nat)
    (stop : Stop → Prop) : Prop where
  reads : ∀ k i, k < n → l[k]? = some i → read i (Q k) = .ok (v.getD k 0, Q (k + 1))
  stops : ∀ i, l[n]? = some i → ∃ e, read i (Q n) = .error e ∧ stop e

/-- The pumps of a run, with one more before them. -/
def pumpsFrom (p : Pump) (Q : Nat → Pump) : Nat → Pump
  | 0 => p
  | k + 1 => Q k

theorem Reading.cons (hi : read i p = .ok (a, Q 0)) (h : Reading read l v Q n stop) :
    Reading read (i :: l) (a :: v) (pumpsFrom p Q) (n + 1) stop where
  reads k j hk hj := by
    cases k with
    | zero =>
      obtain rfl : i = j := by simpa using hj
      exact hi
    | succ k => exact h.reads k j (by omega) (by simpa using hj)
  stops j hj := h.stops j (by simpa using hj)

theorem reading_of_ok (h : readAll read l p = .ok (v, q)) :
    ∃ Q : Nat → Pump, Q 0 = p ∧ Q l.length = q ∧ Reading read l v Q l.length fun _ => False := by
  induction l generalizing p v with
  | nil =>
    obtain ⟨rfl, rfl⟩ := Prod.mk.inj (Except.ok.inj h)
    exact ⟨fun _ => p, rfl, rfl, ⟨fun _ _ hk => absurd hk (Nat.not_lt_zero _), fun _ hi => by cases hi⟩⟩
  | cons i l ih =>
    obtain ⟨⟨a, r⟩, hi, h⟩ := Eff.bind_ok.mp h
    obtain ⟨⟨v', q'⟩, hl, h⟩ := Eff.bind_ok.mp h
    obtain ⟨rfl, rfl⟩ := Prod.mk.inj (Except.ok.inj h)
    obtain ⟨Q, rfl, hlast, hread⟩ := ih hl
    exact ⟨pumpsFrom p Q, rfl, hlast, hread.cons hi⟩

theorem reading_of_error (h : readAll read l p = .error e) :
    ∃ (v : List Int) (Q : Nat → Pump) (n : Nat), Q 0 = p ∧ n < l.length ∧ Reading read l v Q n (· = e) := by
  induction l generalizing p with
  | nil => cases h
  | cons i l ih =>
    rcases Eff.bind_error.mp h with hi | ⟨⟨a, r⟩, hi, h⟩
    · refine ⟨[], fun _ => p, 0, rfl, Nat.succ_pos _, fun _ _ hk => absurd hk (Nat.not_lt_zero _), fun j hj => ?_⟩
      obtain rfl : i = j := by simpa using hj
      exact ⟨e, hi, rfl⟩
    · rcases Eff.bind_error.mp h with hl | ⟨_, _, hret⟩
      · obtain ⟨v, Q, n, rfl, hn, hread⟩ := ih hl
        exact ⟨a :: v, pumpsFrom p Q, n + 1, rfl, Nat.succ_lt_succ hn, hread.cons hi⟩
      · cases hret

/-- How the next read of a run ends. -/
theorem Reading.next (h : Reading read l v Q n stop) {k : Nat} (hk : k ≤ n) (hi : l[k]? = some i) :
    Eff.Ends (fun x => k + 1 ≤ n ∧ x = (v.getD k 0, Q (k + 1))) stop (read i (Q k)) := by
  rcases Nat.lt_or_eq_of_le hk with hlt | rfl
  · rw [h.reads k i hlt hi]
    exact ⟨hlt, rfl⟩
  · obtain ⟨e, he, hstop⟩ := h.stops i hi
    rw [he]
    exact hstop

end

end Sys2Proof.Machine

/-! SUPPORT. LJ_DECODE's loop: what its state is before each component of each block (spec 44_ljpeg.md R190, R191). -/

namespace Sys2Proof.Machine

/-! ## The predictor's sums (44_ljpeg.md R191) -/

theorem u16_toNat (x : Sample) : u16 x.toNat = x := by
  rw [u16, BitVec.ofInt_natCast, BitVec.ofNat_toNat, BitVec.setWidth_eq]

/-- Accumulating mod 2^16 is accumulating and then reducing. -/
theorem u16_add (a b : Int) : u16 ((u16 a).toNat + b) = u16 (a + b) := by
  rw [u16, BitVec.ofInt_add, u16, BitVec.ofInt_natCast, BitVec.ofNat_toNat, BitVec.setWidth_eq, u16, BitVec.ofInt_add]

/-- The predictor of component i in row r once m blocks of the row are decoded: the initial predictor, the first
differences of the rows above and the row's own. -/
def ljPredictor (g : HostRegs) (ds : List Int) (r i m : Nat) : Sample :=
  u16 ((g.ljPreds.getD i 0).toNat + sumTo r (fun row => ds.getD ((row * g.ljFw + 0) * g.ljN + i) 0) +
    sumTo m (fun b => ds.getD ((r * g.ljFw + b) * g.ljN + i) 0))

section
variable {g : HostRegs} {ds : List Int} {r i b m : Nat}

theorem ljPredictor_start (g : HostRegs) (ds : List Int) (i : Nat) : ljPredictor g ds 0 i 0 = g.ljPreds.getD i 0 := by
  rw [ljPredictor, show sumTo 0 _ = 0 from rfl, show sumTo 0 _ = 0 from rfl, Int.add_zero, Int.add_zero, u16_toNat]

theorem ljPredictor_succ (g : HostRegs) (ds : List Int) (r i m : Nat) :
    u16 ((ljPredictor g ds r i m).toNat + ds.getD ((r * g.ljFw + m) * g.ljN + i) 0) = ljPredictor g ds r i (m + 1) := by
  rw [ljPredictor, u16_add, ljPredictor, sumTo_succ m, ← Int.add_assoc]

/-- The first block of a row seeds the next row. -/
theorem ljPredictor_next_row (g : HostRegs) (ds : List Int) (r i : Nat) :
    ljPredictor g ds r i 1 = ljPredictor g ds (r + 1) i 0 := by
  rw [ljPredictor, ljPredictor, sumTo_succ r, sumTo_succ 0, show sumTo 0 _ = 0 from rfl, show sumTo 0 _ = 0 from rfl,
    Int.zero_add, Int.add_zero, Int.add_assoc]

theorem ljSample_eq_ljPredictor (hi : i < g.ljN) : ljSample g ds r (b * g.ljN + i) = ljPredictor g ds r i (b + 1) := by
  have hmod : (b * g.ljN + i) % g.ljN = i := by
    rw [Nat.mul_add_mod', Nat.mod_eq_of_lt hi]
  have hdiv : (b * g.ljN + i) / g.ljN = b := by
    rw [Nat.add_comm, Nat.add_mul_div_right _ _ (by omega), Nat.div_eq_of_lt hi, Nat.zero_add]
  unfold ljSample ljPredictor
  dsimp only
  rw [hmod, hdiv]

/-- The four predictors of row r, component i's with the differences of `blocks i` blocks. -/
def LjPredicts (g : HostRegs) (ds : List Int) (r : Nat) (blocks : Nat → Nat) (l : List Sample) : Prop :=
  l.length = 4 ∧ ∀ i < g.ljN, l.getD i 0 = ljPredictor g ds r i (blocks i)

theorem LjPredicts.congr {blocks blocks' : Nat → Nat} {l : List Sample} (h : LjPredicts g ds r blocks l)
    (hb : ∀ i < g.ljN, blocks i = blocks' i) : LjPredicts g ds r blocks' l :=
  ⟨h.1, fun i hi => by rw [h.2 i hi, hb i hi]⟩

/-- One component's predictor takes its next difference. -/
theorem LjPredicts.set {l : List Sample} (hn : g.ljN ≤ 4) (hi : i < g.ljN)
    (h : LjPredicts g ds r (fun j => if j < i then b + 1 else b) l) :
    LjPredicts g ds r (fun j => if j < i + 1 then b + 1 else b) (l.set i (ljPredictor g ds r i (b + 1))) := by
  obtain ⟨hlength, hpred⟩ := h
  refine ⟨by rw [List.length_set, hlength], fun j hj => ?_⟩
  by_cases hji : j = i
  · subst hji
    rw [List.getD_eq_getElem?_getD, List.getElem?_set_self (by omega), Option.getD_some]
    exact congrArg _ (if_pos (by omega)).symm
  · rw [List.getD_eq_getElem?_getD, List.getElem?_set_ne (by omega), ← List.getD_eq_getElem?_getD, hpred j hj]
    exact congrArg _ (if_congr (by omega) rfl rfl)

end

/-! ## The samples stored so far -/

/-- Where LJ_DECODE stores row r and column c of its tile (44_ljpeg.md R190). -/
def ljCell (g : HostRegs) (r c : Nat) : Nat := outIdx g (g.ljTy + r) (g.ljTx + c)

/-- Where the tile stands in the image and in the frame (44_ljpeg.md R190). -/
structure LjTile (s : State) : Prop where
  comps : s.regs.ljN ≤ 4
  image : imageOk s
  nonempty : s.regs.ljTw ≠ 0
  frame : s.regs.ljTw ≤ s.regs.ljFw * s.regs.ljN
  place : s.regs.ljTx + s.regs.ljTw ≤ s.regs.imgW.toNat ∧ s.regs.ljTy + s.regs.ljTh ≤ s.regs.imgH.toNat

/-- OUT holds the tile's samples of the first k differences, and is else as it was. -/
structure LjStored (s : State) (ds : List Int) (k : Nat) (m : OutMemory) : Prop where
  done : ∀ r c, r < s.regs.ljTh → c < s.regs.ljTw → r * (s.regs.ljFw * s.regs.ljN) + c < k →
    outSample m (ljCell s.regs r c) = ljSample s.regs ds r c
  rest : ∀ x, (∀ r c, r < s.regs.ljTh → c < s.regs.ljTw → x ≠ ljCell s.regs r c) →
    outSample m x = outSample s.outMem x

theorem place_inj {w r c r' c' : Nat} (hc : c < w) (hc' : c' < w) (h : r * w + c = r' * w + c') : r = r' ∧ c = c' := by
  have hw : 0 < w := by omega
  have hc0 : c = c' := by
    have hmod := congrArg (· % w) h
    simpa only [Nat.mul_add_mod', Nat.mod_eq_of_lt hc, Nat.mod_eq_of_lt hc'] using hmod
  subst hc0
  exact ⟨Nat.eq_of_mul_eq_mul_right hw (Nat.add_right_cancel h), rfl⟩

section
variable {s : State} {ds : List Int} {r c : Nat} {m : OutMemory}

theorem LjStored.put (ht : LjTile s) (hr : r < s.regs.ljTh) (hc : c < s.regs.ljTw)
    (h : LjStored s ds (r * (s.regs.ljFw * s.regs.ljN) + c) m) :
    LjStored s ds (r * (s.regs.ljFw * s.regs.ljN) + c + 1)
      (Memory.put m (ljCell s.regs r c) (ljSample s.regs ds r c)) := by
  obtain ⟨-, himage, -, hframe, hx, hy⟩ := ht
  refine ⟨fun r' c' hr' hc' hlt => ?_, fun x hx => ?_⟩
  · by_cases hsame : r' = r ∧ c' = c
    · obtain ⟨rfl, rfl⟩ := hsame
      exact outSample_put_same _ _ _
    · rw [outSample_put_other _ _ fun he => ?_]
      · refine h.done r' c' hr' hc' (lt_of_le_of_ne (Nat.lt_succ_iff.mp hlt) fun he => hsame ?_)
        exact place_inj (by omega) (by omega) he
      · have hcell := outIdx_inj himage (by omega) (by omega) he
        exact hsame ⟨by omega, by omega⟩
  · rw [outSample_put_other _ _ (hx r c hr hc)]
    exact h.rest x hx

/-- A difference right of the tile stores nothing. -/
theorem LjStored.skip (ht : LjTile s) (hlast : c < s.regs.ljFw * s.regs.ljN) (hc : s.regs.ljTw ≤ c)
    (h : LjStored s ds (r * (s.regs.ljFw * s.regs.ljN) + c) m) :
    LjStored s ds (r * (s.regs.ljFw * s.regs.ljN) + c + 1) m := by
  have hframe := ht.frame
  refine ⟨fun r' c' hr' hc' hlt => h.done r' c' hr' hc' (lt_of_le_of_ne (Nat.lt_succ_iff.mp hlt) fun he => ?_), h.rest⟩
  have hsame := place_inj (by omega) hlast he
  omega

end

/-! ## The order of the differences -/

theorem getElem?_flatten_replicate {α : Type} (l : List α) {m k i : Nat} (hk : k < m) (hi : i < l.length) :
    (List.replicate m l).flatten[k * l.length + i]? = l[i]? := by
  induction m generalizing k with
  | zero => omega
  | succ m ih =>
    rw [List.replicate_succ, List.flatten_cons]
    cases k with
    | zero => rw [Nat.zero_mul, Nat.zero_add, List.getElem?_append_left hi]
    | succ k =>
      rw [Nat.succ_mul, Nat.add_right_comm, List.getElem?_append_right (by omega), Nat.add_sub_cancel]
      exact ih (by omega)

theorem ljOrder_length (g : HostRegs) (tabs : List TableIx) :
    (ljOrder g tabs).length = g.ljTh * g.ljFw * tabs.length := by
  simp [ljOrder]

section
variable {s : State} {p : PumpIx} {tabs : List TableIx} {ds : List Int} {Q : Nat → Pump} {K : Nat} {stop : Stop → Prop}

/-- The table of component i of block b of row r. -/
theorem ljOrder_getElem? {g : HostRegs} {r b i : Nat} (hn : tabs.length = g.ljN) (hr : r < g.ljTh) (hb : b < g.ljFw)
    (hi : i < g.ljN) : (ljOrder g tabs)[(r * g.ljFw + b) * g.ljN + i]? = some (tabs.getD i 0) := by
  have hrow : (r + 1) * g.ljFw ≤ g.ljTh * g.ljFw := Nat.mul_le_mul_right _ hr
  rw [Nat.add_mul, Nat.one_mul] at hrow
  rw [ljOrder, ← hn, getElem?_flatten_replicate tabs (by omega) (by omega), List.getD_eq_getElem?_getD,
    List.getElem?_eq_getElem (by omega), Option.getD_some]

/-! ## The loop -/

/-- LJ_DECODE stands in row r before component i of block b. -/
structure LjAt (s : State) (ds : List Int) (Q : Nat → Pump) (K r b i : Nat) (x : LjRun) : Prop where
  within : (r * s.regs.ljFw + b) * s.regs.ljN + i ≤ K
  pump : x.pump = Q ((r * s.regs.ljFw + b) * s.regs.ljN + i)
  stored : LjStored s ds ((r * s.regs.ljFw + b) * s.regs.ljN + i) x.out
  col : x.col = b * s.regs.ljN + i
  pred : LjPredicts s.regs ds r (fun j => if j < i then b + 1 else b) x.pred
  seed : LjPredicts s.regs ds r (fun _ => if 0 < b then 1 else 0) x.seed

variable (ht : LjTile s) (hn : tabs.length = s.regs.ljN)
  (hread : Reading (fun t => hdiff s t p) (ljOrder s.regs tabs) ds Q K stop)

include ht hn hread

/-- One difference: the predictor takes it, and the sample is stored inside the tile. -/
theorem ljStep_ends {r b i : Nat} {x : LjRun} (hr : r < s.regs.ljTh) (hb : b < s.regs.ljFw) (hi : i < s.regs.ljN)
    (h : LjAt s ds Q K r b i x) :
    Eff.Ends (LjAt s ds Q K r b (i + 1)) stop (ljStep s p tabs r i x) := by
  obtain ⟨hwithin, hpump, hstored, hcol, hpred, hseed⟩ := h
  have hnext := hread.next hwithin (ljOrder_getElem? hn hr hb hi)
  rw [← hpump] at hnext
  refine Eff.ends_bind hnext fun ⟨d, q⟩ ⟨hwithin', hx⟩ => ?_
  obtain ⟨rfl, rfl⟩ := Prod.mk.inj hx
  have hplace : (r * s.regs.ljFw + b) * s.regs.ljN + i = r * (s.regs.ljFw * s.regs.ljN) + (b * s.regs.ljN + i) := by
    ring
  have hblock : (b + 1) * s.regs.ljN ≤ s.regs.ljFw * s.regs.ljN := Nat.mul_le_mul_right _ hb
  rw [Nat.add_mul, Nat.one_mul] at hblock
  have hvalue : u16 ((x.pred.getD i 0).toNat + ds.getD ((r * s.regs.ljFw + b) * s.regs.ljN + i) 0) =
      ljPredictor s.regs ds r i (b + 1) := by
    rw [hpred.2 i hi]
    dsimp only
    rw [if_neg (Nat.lt_irrefl i), ljPredictor_succ]
  have hset := hpred.set ht.comps hi
  dsimp only
  rw [hvalue, hcol]
  rw [hplace] at hstored
  by_cases hc : b * s.regs.ljN + i < s.regs.ljTw
  · rw [if_pos hc]
    have hplace' := ht.place
    refine Eff.ends_bind_ok (writeOut_ok.mpr ⟨outIdx_lt ht.image (by omega) (by omega), rfl⟩)
      ⟨hwithin', rfl, ?_, rfl, hset, hseed⟩
    have hput := hstored.put ht hr hc
    rw [ljSample_eq_ljPredictor hi, ← hplace] at hput
    exact hput
  · rw [if_neg hc]
    refine ⟨hwithin', rfl, ?_, rfl, hset, hseed⟩
    have hskip := hstored.skip ht (by omega) (by omega)
    rw [← hplace] at hskip
    exact hskip

/-- One block: the first of a row seeds the next row. -/
theorem ljBlock_ends {r b : Nat} {x : LjRun} (hr : r < s.regs.ljTh) (hb : b < s.regs.ljFw)
    (h : LjAt s ds Q K r b 0 x) :
    Eff.Ends (LjAt s ds Q K r (b + 1) 0) stop (ljBlock s p tabs r b x) := by
  refine Eff.ends_bind (Eff.ends_forUp (LjAt s ds Q K r b) h fun i y _ hi hy => ljStep_ends ht hn hread hr hb
    (by omega) hy) fun y ⟨hwithin, hpump, hstored, hcol, hpred, hseed⟩ => ?_
  rw [Nat.zero_add] at hwithin hpump hstored hcol hpred
  have hplace : (r * s.regs.ljFw + b) * s.regs.ljN + s.regs.ljN = (r * s.regs.ljFw + (b + 1)) * s.regs.ljN + 0 := by
    ring
  rw [hplace] at hwithin hpump hstored
  have hcol : y.col = (b + 1) * s.regs.ljN + 0 := by rw [hcol]; ring
  have hpred : LjPredicts s.regs ds r (fun j => if j < 0 then b + 1 + 1 else b + 1) y.pred :=
    hpred.congr fun i hi => (if_pos hi).trans (if_neg (Nat.not_lt_zero i)).symm
  split
  · subst ‹b = 0›
    exact ⟨hwithin, hpump, hstored, hcol, hpred, hpred⟩
  · exact ⟨hwithin, hpump, hstored, hcol, hpred, hseed.congr fun i hi => by
      rw [if_pos (Nat.succ_pos b), if_pos (by omega)]⟩

/-- One row, up to its seeds. -/
theorem ljRow_ends {r : Nat} {x : LjRun} (hr : r < s.regs.ljTh) (h : LjAt s ds Q K r 0 0 { x with col := 0 }) :
    Eff.Ends (fun y => LjAt s ds Q K (r + 1) 0 0 { y with col := 0 }) stop
      (ljRow s p tabs r x) := by
  refine Eff.ends_bind (Eff.ends_forUp (fun b => LjAt s ds Q K r b 0) h fun b y _ hb hy =>
    ljBlock_ends ht hn hread hr (by omega) hy) fun y ⟨hwithin, hpump, hstored, _, _, hseed⟩ => ?_
  rw [Nat.zero_add] at hwithin hpump hstored hseed
  have hplace : (r * s.regs.ljFw + s.regs.ljFw) * s.regs.ljN + 0 = ((r + 1) * s.regs.ljFw + 0) * s.regs.ljN + 0 := by
    ring
  rw [hplace] at hwithin hpump hstored
  have hwidth : 0 < s.regs.ljFw := by
    have hnonempty := ht.nonempty
    have hframe := ht.frame
    by_contra hzero
    rw [Nat.eq_zero_of_not_pos hzero, Nat.zero_mul] at hframe
    omega
  have hseed' : LjPredicts s.regs ds (r + 1) (fun _ => 0) y.seed := ⟨hseed.1, fun i hi => by
    rw [hseed.2 i hi, if_pos hwidth, ljPredictor_next_row]⟩
  exact ⟨hwithin, hpump, hstored, by rw [Nat.zero_mul], hseed'.congr fun i _ => (if_neg (Nat.not_lt_zero i)).symm,
    hseed'⟩

/-- The whole loop: it completes with every sample of the tile stored, or stops where the differences do. -/
theorem ljRows_ends (hK : K ≤ (ljOrder s.regs tabs).length) (hQ : Q 0 = s.pumps[p]) :
    Eff.Ends (fun x => K = (ljOrder s.regs tabs).length ∧ x.pump = Q K ∧ LjStored s ds K x.out)
      stop
      (forUp (ljRow s p tabs) s.regs.ljTh 0 ⟨s.pumps[p], s.outMem, s.regs.ljPreds, s.regs.ljPreds, 0⟩) := by
  have hfirst : LjPredicts s.regs ds 0 (fun _ => 0) s.regs.ljPreds := ⟨rfl, fun i _ => (ljPredictor_start _ _ i).symm⟩
  have hstart : LjAt s ds Q K 0 0 0 ⟨s.pumps[p], s.outMem, s.regs.ljPreds, s.regs.ljPreds, 0⟩ := by
    have hzero : (0 * s.regs.ljFw + 0) * s.regs.ljN + 0 = 0 := by ring
    refine ⟨?_, ?_, ?_, (Nat.zero_mul _).symm, hfirst.congr fun i _ => (if_neg (Nat.not_lt_zero i)).symm, hfirst⟩
    · rw [hzero]
      exact Nat.zero_le K
    · rw [hzero, hQ]
    · rw [hzero]
      exact ⟨fun _ _ _ _ hlt => absurd hlt (Nat.not_lt_zero _), fun _ _ => rfl⟩
  refine Eff.ends_mono (Eff.ends_forUp (fun r x => LjAt s ds Q K r 0 0 { x with col := 0 }) hstart fun r y _ hr hy =>
    ljRow_ends ht hn hread (by omega) hy) fun x hx => ?_
  obtain ⟨hwithin, hpump, hstored, -, -, -⟩ := hx
  rw [show (0 + s.regs.ljTh) * s.regs.ljFw + 0 = s.regs.ljTh * s.regs.ljFw by ring, Nat.add_zero, ← hn,
    ← ljOrder_length] at hwithin hpump hstored
  obtain rfl : K = (ljOrder s.regs tabs).length := Nat.le_antisymm hK hwithin
  exact ⟨rfl, hpump, hstored⟩

end

/-! ## The checks and the command -/

section
variable {s : State} {p : PumpIx} {tabs : List TableIx}

theorem ljTable_of_slot {t : TableIx} {i : Nat} (hnt : s.par.nt = 4)
    (h : t.val = s.regs.ljTblOf i ∧ s.tables[t].state = .ready) : ljTable s i = .ok t := by
  obtain ⟨hslot, hready⟩ := h
  rw [ljTable, slotOf_some.mpr ⟨hslot, by rw [← hslot, hnt]; exact t.isLt⟩]
  exact Eff.bind_of_ok (tchk_ready hready) rfl

theorem ljTables_of_slots (hnt : s.par.nt = 4) {k : Nat}
    (h : ∀ i (hi : i < tabs.length), (tabs[i]).val = s.regs.ljTblOf (k + i) ∧ s.tables[tabs[i]].state = .ready) :
    ljTables s tabs.length k = .ok tabs := by
  induction tabs generalizing k with
  | nil => rfl
  | cons t tabs ih =>
    refine Eff.bind_of_ok (ljTable_of_slot hnt (h 0 (Nat.succ_pos _))) (Eff.bind_of_ok (ih fun i hi => ?_) rfl)
    rw [Nat.add_assoc, Nat.add_comm 1 i]
    exact h (i + 1) (Nat.succ_lt_succ hi)

variable (ha : LjAccepts s p tabs)
include ha

theorem LjAccepts.ljTile : LjTile s := ⟨ha.comps.2, ha.image, ha.tile.1, ha.frame.1, ha.place⟩

theorem ljCheck_of_accepts (hp : s.par.decided = true) : ljCheck s = .ok tabs := by
  obtain ⟨-, -, hnt, -⟩ := Params.decided_iff.mp hp
  have htables : ljTables s s.regs.ljN 0 = .ok tabs := by
    rw [← ha.count]
    exact ljTables_of_slots hnt fun i hi => by
      rw [Nat.zero_add]
      exact ha.slots i hi
  exact Eff.bind_of_ok (require_of (decide_eq_true ha.comps)) (Eff.bind_of_ok (require_of (decide_eq_true ha.predictor))
    (Eff.bind_of_ok (ljSampling_loop ha.toLjScanOk) (Eff.bind_of_ok htables
      (Eff.bind_of_ok (imgChk_of_imageOk ha.image) (Eff.bind_of_ok (require_of (decide_eq_true ha.tile))
        (Eff.bind_of_ok (require_of (decide_eq_true ha.frame))
          (Eff.bind_of_ok (require_of (decide_eq_true ha.place)) rfl)))))))

/-- Every sample of the tile has its difference. -/
theorem LjAccepts.last_place {r c : Nat} (hr : r < s.regs.ljTh) (hc : c < s.regs.ljTw) :
    r * (s.regs.ljFw * s.regs.ljN) + c < (ljOrder s.regs tabs).length := by
  have hframe := ha.frame.1
  have hrow : (r + 1) * (s.regs.ljFw * s.regs.ljN) ≤ s.regs.ljTh * (s.regs.ljFw * s.regs.ljN) :=
    Nat.mul_le_mul_right _ hr
  rw [ljOrder_length, ha.count, Nat.mul_assoc]
  rw [Nat.add_mul, Nat.one_mul] at hrow
  omega

/-- An accepted LJ_DECODE whose rows decode completes with their pump and samples. -/
theorem exec_ljDecode_of_rows (hp : s.par.decided = true) {x : LjRun}
    (h : forUp (ljRow s p tabs) s.regs.ljTh 0 ⟨s.pumps[p], s.outMem, s.regs.ljPreds, s.regs.ljPreds, 0⟩ = .ok x) :
    exec (.ljDecode p) s = .next (({ s with
      outMem := settleRaced s.draws s.outRaced x.out, outRaced := [],
      unseen := s.unseen.insert s.regs.image }).setPump p x.pump).complete :=
  have hrun : ljDecode p s = .ok { s.setPump p x.pump with outMem := x.out } :=
    Eff.bind_of_ok (pchk_valid ha.pump) (Eff.bind_of_ok (ljCheck_of_accepts ha hp) (Eff.bind_of_ok h rfl))
  congrArg (finishMacro s p) hrun

/-- An accepted LJ_DECODE whose differences decode stores the tile. -/
theorem exec_ljDecode_of_diffs (hp : s.par.decided = true) {ds : List Int} {q : Pump}
    (hds : readDiffs s p (ljOrder s.regs tabs) s.pumps[p] = .ok (ds, q)) :
    ∃ m : OutMemory,
      exec (.ljDecode p) s = .next (({ s with
        outMem := m, outRaced := [], unseen := s.unseen.insert s.regs.image }).setPump p q).complete ∧
      (∀ r c, r < s.regs.ljTh → c < s.regs.ljTw → ljCell s.regs r c ∉ s.outRaced →
        outSample m (ljCell s.regs r c) = ljSample s.regs ds r c) ∧
      ∀ x, x ∉ s.outRaced → (∀ r c, r < s.regs.ljTh → c < s.regs.ljTw → x ≠ ljCell s.regs r c) →
        outSample m x = outSample s.outMem x := by
  rw [readDiffs_eq_readAll] at hds
  obtain ⟨Q, hQ, rfl, hread⟩ := reading_of_ok hds
  obtain ⟨x, hloop, -, hpump, hstored⟩ := (ljRows_ends ha.ljTile ha.count hread le_rfl hQ).answers fun _ => id
  refine ⟨_, hpump ▸ exec_ljDecode_of_rows ha hp hloop, fun r c hr hc hraced => ?_, fun x hraced hx => ?_⟩
  · rw [settleRaced_outside _ _ hraced]
    exact hstored.done r c hr hc (ha.last_place hr hc)
  · rw [settleRaced_outside _ _ hraced]
    exact hstored.rest x hx

/-- An accepted LJ_DECODE stops with the error of the first difference that does not decode. -/
theorem ljDecode_of_diffs_error (hp : s.par.decided = true) {e : ErrInfo}
    (he : readDiffs s p (ljOrder s.regs tabs) s.pumps[p] = .error (.raised e)) : RaisesInfo (.ljDecode p) s e := by
  rw [readDiffs_eq_readAll] at he
  obtain ⟨ds, Q, K, hQ, hK, hread⟩ := reading_of_error he
  obtain ⟨_, hloop, rfl⟩ := (ljRows_ends ha.ljTile ha.count hread hK.le hQ).stops fun _ hx => hK.ne hx.1
  exact ljDecode_raises (Eff.bind_of_ok (pchk_valid ha.pump) (Eff.bind_of_ok (ljCheck_of_accepts ha hp)
    (Eff.bind_of_error hloop)))

end

/-- Settles O45: the differences in stream order drive the loop, which stores each sample of the tile as it comes to it,
and stops where they stop. -/
theorem ljDecodeStoresThePredictedSamples : Obligations.LjDecodeStoresThePredictedSamples := fun _ _ _ hp ha =>
  ⟨fun _ _ hds => exec_ljDecode_of_diffs ha hp hds, fun _ he => ljDecode_of_diffs_error ha hp he⟩

end Sys2Proof.Machine

/-! SUPPORT. The rows and groups of SV0_DECODE: what a group reads, how its lengths adapt, and what it stores (spec
46_samsung.md R211-R213). -/

namespace Sys2Proof.Machine

/-! ## Numbers read one after another -/

section
variable {s : State} {ix : PumpIx} {p q : Pump} {n : Nat} {a b v : List Nat}

theorem readNumbers_cons_ok :
    readNumbers s ix (n :: a) p = .ok (v, q) ↔
      ∃ x r v', pget s ix p n = .ok (x, r) ∧ readNumbers s ix a r = .ok (v', q) ∧ v = x :: v' := by
  constructor
  · intro h
    obtain ⟨⟨x, r⟩, hx, h⟩ := Eff.bind_ok.mp h
    obtain ⟨⟨v', q'⟩, hv, h⟩ := Eff.bind_ok.mp h
    obtain ⟨rfl, rfl⟩ := Prod.mk.inj (Except.ok.inj h)
    exact ⟨x, r, v', hx, hv, rfl⟩
  · rintro ⟨x, r, v', hx, hv, rfl⟩
    exact Eff.bind_of_ok hx (Eff.bind_of_ok hv rfl)

theorem readNumbers_cons_error {e : Stop} :
    readNumbers s ix (n :: a) p = .error e ↔
      pget s ix p n = .error e ∨ ∃ x r, pget s ix p n = .ok (x, r) ∧ readNumbers s ix a r = .error e := by
  constructor
  · intro h
    rcases Eff.bind_error.mp h with hx | ⟨⟨x, r⟩, hx, h⟩
    · exact .inl hx
    · rcases Eff.bind_error.mp h with hv | ⟨_, _, hret⟩
      · exact .inr ⟨x, r, hx, hv⟩
      · cases hret
  · rintro (hx | ⟨x, r, hx, hv⟩)
    · exact Eff.bind_of_error hx
    · exact Eff.bind_of_ok hx (Eff.bind_of_error hv)

theorem readNumbers_length (h : readNumbers s ix a p = .ok (v, q)) : v.length = a.length := by
  induction a generalizing p v with
  | nil =>
    obtain ⟨rfl, -⟩ := Prod.mk.inj (Except.ok.inj h)
    rfl
  | cons n a ih =>
    obtain ⟨x, r, v', -, hv, rfl⟩ := readNumbers_cons_ok.mp h
    exact congrArg (· + 1) (ih hv)

/-- Numbers asked for in two parts. -/
theorem readNumbers_append_ok (h : readNumbers s ix (a ++ b) p = .ok (v, q)) :
    ∃ v1 v2 r, readNumbers s ix a p = .ok (v1, r) ∧ readNumbers s ix b r = .ok (v2, q) ∧ v = v1 ++ v2 := by
  induction a generalizing p v with
  | nil => exact ⟨[], v, p, rfl, h, rfl⟩
  | cons n a ih =>
    obtain ⟨x, r, v', hx, hv, rfl⟩ := readNumbers_cons_ok.mp h
    obtain ⟨v1, v2, r', h1, h2, rfl⟩ := ih hv
    exact ⟨x :: v1, v2, r', readNumbers_cons_ok.mpr ⟨x, r, v1, hx, h1, rfl⟩, h2, rfl⟩

/-- The opcodes of a group are 2-bit numbers. -/
theorem svOps_eq_readNumbers (s : State) (ix : PumpIx) (n : Nat) (p : Pump) :
    svOps s ix n p = readNumbers s ix (List.replicate n 2) p := by
  induction n generalizing p with
  | zero => rfl
  | succ n ih => simp only [svOps, List.replicate_succ, readNumbers, ih]

end

/-! ## The adapted lengths (46_samsung.md R212) -/

/-- The length one opcode gives, with the numbers read for it. -/
def newLength (op : Nat) (old : Int) (v : List Nat) : Int :=
  if op = 3 then (v.headD 0 : Int) else old + (if op = 1 then 1 else if op = 2 then -1 else 0)

theorem adaptedLengths_length (ops : List Nat) (ls : List Int) (v : List Nat) :
    (adaptedLengths ops ls v).length = ops.length := by
  induction ops generalizing ls v with
  | nil => rfl
  | cons op ops ih =>
    rw [adaptedLengths]
    split <;> exact congrArg (· + 1) (ih _ _)

/-- The lengths of one more opcode. -/
theorem adaptedLengths_append_one {ops : List Nat} (op : Nat) (ls : List Int) {v : List Nat} (w : List Nat)
    (hv : v.length = (newLengthBits ops).length) :
    adaptedLengths (ops ++ [op]) ls (v ++ w) = adaptedLengths ops ls v ++ [newLength op (ls.getD ops.length 0) w] := by
  induction ops generalizing ls v with
  | nil =>
    obtain rfl := List.eq_nil_of_length_eq_zero hv
    have hhead : ls.getD 0 0 = ls.headD 0 := by cases ls <;> rfl
    show adaptedLengths [op] ls w = [newLength op (ls.getD 0 0) w]
    rw [hhead, adaptedLengths, newLength]
    split <;> rfl
  | cons o ops ih =>
    have hdrop : ls.tail.getD ops.length 0 = ls.getD (o :: ops).length 0 := by cases ls <;> simp
    rw [List.cons_append, adaptedLengths, adaptedLengths]
    by_cases ho : o = 3
    · obtain ⟨x, v, rfl⟩ : ∃ x v', v = x :: v' := List.exists_cons_of_length_pos (by
        rw [hv]
        simp [newLengthBits, ho])
      rw [if_pos ho, if_pos ho, ← hdrop]
      exact congrArg (_ :: ·) (ih ls.tail (by simpa [newLengthBits, ho] using hv))
    · rw [if_neg ho, if_neg ho, ← hdrop]
      exact congrArg (_ :: ·) (ih ls.tail (by simpa [newLengthBits, ho] using hv))

section
variable {s : State} {p : PumpIx} {r col : Nat} {x : SvRun} {ops news : List Nat} {q q' : Pump}

theorem svNewLength_of_reads {op : Nat} {old : Int} {v : List Nat}
    (h : readNumbers s p (newLengthBits [op]) q = .ok (v, q')) :
    svNewLength s p q op old = .ok (newLength op old v, q') := by
  unfold svNewLength newLength
  by_cases h3 : op = 3
  · subst h3
    obtain ⟨y, r, v', hy, hv, rfl⟩ := readNumbers_cons_ok.mp h
    obtain ⟨rfl, rfl⟩ := Prod.mk.inj (Except.ok.inj hv)
    rw [if_pos rfl, if_pos rfl]
    exact Eff.bind_of_ok hy rfl
  · rw [newLengthBits, List.filter_singleton, decide_eq_false h3] at h
    obtain ⟨-, rfl⟩ := Prod.mk.inj (Except.ok.inj h)
    rw [if_neg h3, if_neg h3]
    by_cases h2 : op = 2
    · subst h2
      rfl
    · rw [if_neg h2, if_neg h2]
      by_cases h1 : op = 1
      · rw [if_pos h1, if_pos h1]
        rfl
      · rw [if_neg h1, if_neg h1, Int.add_zero]
        rfl

/-- The reads of one more opcode, and the length it gives. -/
theorem readNumbers_take_succ {i : Nat} (hops : i < ops.length) (ls : List Int)
    (h : readNumbers s p (newLengthBits (ops.take (i + 1))) q = .ok (news, q')) :
    ∃ v w r, readNumbers s p (newLengthBits (ops.take i)) q = .ok (v, r) ∧
      readNumbers s p (newLengthBits [ops.getD i 0]) r = .ok (w, q') ∧
      adaptedLengths (ops.take (i + 1)) ls news =
        adaptedLengths (ops.take i) ls v ++ [newLength (ops.getD i 0) (ls.getD i 0) w] := by
  have htake : ops.take (i + 1) = ops.take i ++ [ops.getD i 0] := by
    rw [List.take_succ_eq_append_getElem hops, List.getD_eq_getElem?_getD, List.getElem?_eq_getElem hops,
      Option.getD_some]
  rw [htake, newLengthBits, List.filter_append, List.map_append] at h
  obtain ⟨v, w, r, hv, hw, rfl⟩ := readNumbers_append_ok h
  refine ⟨v, w, r, hv, hw, ?_⟩
  rw [htake, adaptedLengths_append_one _ _ _ (readNumbers_length hv), List.length_take, Nat.min_eq_left hops.le]

/-- The working values of a group once i opcodes have adapted their lengths. -/
def SvRun.adapted (x : SvRun) (ops news : List Nat) (i : Nat) (q : Pump) : SvRun :=
  { x with pump := q, len := adaptedLengths (ops.take i) x.len news ++ x.len.drop i }

variable (hx : x.len.length = 4) (hops : ops.length = 4)

include hops in
theorem adaptedLengths_take_length {i : Nat} (hi : i ≤ 4) (ls : List Int) (v : List Nat) :
    (adaptedLengths (ops.take i) ls v).length = i := by
  rw [adaptedLengths_length, List.length_take, hops, Nat.min_eq_left hi]

include hx hops

/-- One opcode: its length must stay within 0..16. -/
theorem svAdapt_of_reads {i : Nat} {v w : List Nat} {y : Pump} (hi : i < 4)
    (hw : readNumbers s p (newLengthBits [ops.getD i 0]) y = .ok (w, q'))
    (hlens : adaptedLengths (ops.take (i + 1)) x.len news =
      adaptedLengths (ops.take i) x.len v ++ [newLength (ops.getD i 0) (x.len.getD i 0) w]) :
    svAdapt s p r col ops i (x.adapted ops v i y) =
      (require (decide (0 ≤ newLength (ops.getD i 0) (x.len.getD i 0) w ∧
        newLength (ops.getD i 0) (x.len.getD i 0) w ≤ 16))
          ⟨.corrupt, r, col, i, newLength (ops.getD i 0) (x.len.getD i 0) w⟩ >>= fun _ =>
        .ok (x.adapted ops news (i + 1) q')) := by
  have hlength := adaptedLengths_take_length hops hi.le x.len v
  have hold : (x.adapted ops v i y).len.getD i 0 = x.len.getD i 0 := by
    rw [SvRun.adapted, List.getD_eq_getElem?_getD, List.getD_eq_getElem?_getD, List.getElem?_append_right hlength.le,
      hlength, Nat.sub_self, List.getElem?_drop, Nat.add_zero]
  have hset : ∀ new, (x.adapted ops v i y).len.set i new =
      adaptedLengths (ops.take i) x.len v ++ [new] ++ x.len.drop (i + 1) := fun new => by
    rw [SvRun.adapted, List.set_append_right _ _ hlength.le, hlength, Nat.sub_self,
      List.drop_eq_getElem_cons (by omega), List.set_cons_zero, List.append_assoc]
    rfl
  refine Eff.bind_of_ok (svNewLength_of_reads hw) ?_
  dsimp only
  rw [hold, hset, ← hlens]
  rfl

/-- The opcodes before i adapt their lengths. -/
theorem forUp_svAdapt {i : Nat} (hi : i ≤ 4) (h : readNumbers s p (newLengthBits (ops.take i)) q = .ok (news, q'))
    (hrange : ∀ j < i, 0 ≤ (adaptedLengths (ops.take i) x.len news).getD j 0 ∧
      (adaptedLengths (ops.take i) x.len news).getD j 0 ≤ 16) :
    forUp (svAdapt s p r col ops) i 0 { x with pump := q } = .ok (x.adapted ops news i q') := by
  induction i generalizing news q' with
  | zero =>
    obtain ⟨rfl, rfl⟩ := Prod.mk.inj (Except.ok.inj h)
    rfl
  | succ i ih =>
    obtain ⟨v, w, y, hv, hw, hlens⟩ := readNumbers_take_succ (by omega) x.len h
    have hlength := adaptedLengths_take_length hops (by omega : i ≤ 4) x.len v
    have hbefore := ih (by omega) hv fun j hj => by
      have hj' := hrange j (by omega)
      rwa [hlens, List.getD_append _ _ _ _ (by omega)] at hj'
    have hnew := hrange i (by omega)
    rw [hlens, List.getD_append_right _ _ _ _ hlength.le, hlength, Nat.sub_self] at hnew
    rw [forUp_add, hbefore, Eff.ok_bind, forUp_succ, Nat.zero_add]
    refine Eff.bind_of_ok ((svAdapt_of_reads hx hops (by omega) hw hlens).trans
      (Eff.bind_of_ok (require_of (decide_eq_true hnew)) rfl)) rfl

/-- The four opcodes adapt the four lengths. -/
theorem forUp_svAdapt_all (h : readNumbers s p (newLengthBits ops) q = .ok (news, q'))
    (hrange : ∀ l ∈ adaptedLengths ops x.len news, 0 ≤ l ∧ l ≤ 16) :
    forUp (svAdapt s p r col ops) 4 0 { x with pump := q } =
      .ok { x with pump := q', len := adaptedLengths ops x.len news } := by
  have htake : ops.take 4 = ops := List.take_of_length_le hops.le
  have hlength := adaptedLengths_length ops x.len news
  have hadapted : x.adapted ops news 4 q' = { x with pump := q', len := adaptedLengths ops x.len news } := by
    rw [SvRun.adapted, htake, List.drop_of_length_le hx.le, List.append_nil]
  rw [← hadapted]
  refine forUp_svAdapt hx hops le_rfl (by rwa [htake]) fun j hj => hrange _ ?_
  rw [htake, List.getD_eq_getElem?_getD, List.getElem?_eq_getElem (by omega), Option.getD_some]
  exact List.getElem_mem _

theorem forUp_svAdapt_of_read_error {i : Nat} {e : Stop} (hi : i < 4)
    (h : readNumbers s p (newLengthBits (ops.take i)) q = .ok (news, q'))
    (hrange : ∀ j < i, 0 ≤ (adaptedLengths (ops.take i) x.len news).getD j 0 ∧
      (adaptedLengths (ops.take i) x.len news).getD j 0 ≤ 16)
    (hop : ops.getD i 0 = 3) (he : pget s p q' 4 = .error e) :
    forUp (svAdapt s p r col ops) 4 0 { x with pump := q } = .error e := by
  refine forUp_of_error hi (forUp_svAdapt hx hops hi.le h hrange) ?_
  rw [Nat.zero_add]
  refine Eff.bind_of_error ?_
  rw [hop]
  exact Eff.bind_of_error he

theorem forUp_svAdapt_of_bad_length {i : Nat} (hi : i < 4)
    (h : readNumbers s p (newLengthBits (ops.take (i + 1))) q = .ok (news, q'))
    (hrange : ∀ j < i, 0 ≤ (adaptedLengths (ops.take (i + 1)) x.len news).getD j 0 ∧
      (adaptedLengths (ops.take (i + 1)) x.len news).getD j 0 ≤ 16)
    (hbad : (adaptedLengths (ops.take (i + 1)) x.len news).getD i 0 < 0 ∨
      16 < (adaptedLengths (ops.take (i + 1)) x.len news).getD i 0) :
    forUp (svAdapt s p r col ops) 4 0 { x with pump := q } = .error (.raised
      ⟨.corrupt, r, col, i, (adaptedLengths (ops.take (i + 1)) x.len news).getD i 0⟩) := by
  obtain ⟨v, w, y, hv, hw, hlens⟩ := readNumbers_take_succ (by omega) x.len h
  have hlength := adaptedLengths_take_length hops hi.le x.len v
  have hbefore : forUp (svAdapt s p r col ops) i 0 { x with pump := q } = .ok (x.adapted ops v i y) :=
    forUp_svAdapt hx hops hi.le hv fun j hj => by
      have hj' := hrange j hj
      rwa [hlens, List.getD_append _ _ _ _ (by omega)] at hj'
  have hstep := svAdapt_of_reads (r := r) (col := col) hx hops hi hw hlens
  rw [hlens, List.getD_append_right _ _ _ _ hlength.le, hlength, Nat.sub_self] at hbad ⊢
  refine forUp_of_error hi hbefore ?_
  rw [Nat.zero_add, hstep]
  exact Eff.bind_of_error (require_of_not (decide_eq_false fun hok => by
    rcases hbad with hlow | hhigh
    · exact absurd hok.1 hlow.not_ge
    · exact absurd hok.2 hhigh.not_ge))

end

end Sys2Proof.Machine

/-! SUPPORT. The samples of a Samsung group: its adjustments in stream order, each added to its column's predictor; and
the groups and rows around them (spec 46_samsung.md R211-R213). -/

namespace Sys2Proof.Machine

/-! ## Adjustments (46_samsung.md R213) -/

/-- A number as two's complement, by its top bit. -/
theorem sext_succ (b v : Nat) : sext (b + 1) v = if v < 2 ^ b then (v : Int) else (v : Int) - 2 ^ (b + 1) := by
  rw [sext, pow_succ]
  by_cases h : v < 2 ^ b
  · rw [if_pos h, if_neg (by omega)]
  · rw [if_neg h, if_pos (by omega)]

section
variable {s : State} {p : PumpIx} {q q' : Pump} {lens nums : List Nat}

/-- Adjustments decode as the numbers read for those of a length above 0. -/
theorem readAll_svAdjust_ok
    (h : readNumbers s p (lens.filter (fun n => decide (n ≠ 0))) q = .ok (nums, q')) :
    readAll (fun b x => svAdjust s p x b) lens q = .ok (adjustments lens nums, q') := by
  induction lens generalizing q nums with
  | nil =>
    obtain ⟨-, rfl⟩ := Prod.mk.inj (Except.ok.inj h)
    rfl
  | cons b lens ih =>
    cases b with
    | zero => exact Eff.bind_of_ok rfl (Eff.bind_of_ok (ih h) rfl)
    | succ b =>
      obtain ⟨v, r, nums, hv, hrest, rfl⟩ := readNumbers_cons_ok.mp h
      have hadjust : svAdjust s p q (b + 1) = .ok (sext (b + 1) v, r) := Eff.bind_of_ok hv rfl
      rw [sext_succ] at hadjust
      exact Eff.bind_of_ok hadjust (Eff.bind_of_ok (ih hrest) rfl)

theorem readAll_svAdjust_error {e : Stop}
    (h : readNumbers s p (lens.filter (fun n => decide (n ≠ 0))) q = .error e) :
    readAll (fun b x => svAdjust s p x b) lens q = .error e := by
  induction lens generalizing q with
  | nil => cases h
  | cons b lens ih =>
    cases b with
    | zero => exact Eff.bind_of_ok rfl (Eff.bind_of_error (ih h))
    | succ b =>
      rcases readNumbers_cons_error.mp h with hv | ⟨v, r, hv, hrest⟩
      · exact Eff.bind_of_error (Eff.bind_of_error hv)
      · exact Eff.bind_of_ok (Eff.bind_of_ok hv rfl) (Eff.bind_of_error (ih hrest))

end

/-! ## The columns of a group (46_samsung.md R212) -/

theorem groupLengths_length (len : List Int) : (groupLengths len).length = 16 := by simp [groupLengths]

/-- Four columns share a length. -/
theorem groupLengths_getElem? (len : List Int) {k : Nat} (hk : k < 16) :
    (groupLengths len)[k]? = some (len.getD (k / 4) 0).toNat := by
  interval_cases k <;> rfl

/-- The length that serves a column stands at the column's place. -/
theorem svLength_place (x : SvRun) {c : Nat} (hc : c < 16) :
    (groupLengths x.len)[groupPlace c]? = some (svLength x c) := by
  unfold groupPlace svLength
  split
  · rw [groupLengths_getElem? _ (by omega), Nat.div_div_eq_div_mul]
  · rw [groupLengths_getElem? _ (by omega), show (8 + c / 2) / 4 = 2 + c / 8 by omega]

theorem groupPlace_even (i : Nat) : groupPlace (2 * i) = i := by
  rw [groupPlace, if_pos (by omega), Nat.mul_div_cancel_left i (by omega)]

theorem groupPlace_odd (i : Nat) : groupPlace (2 * i + 1) = 8 + i := by
  rw [groupPlace, if_neg (by omega), show (2 * i + 1) / 2 = i by omega]

theorem groupPlace_inj {c c' : Nat} (hc : c < 16) (hc' : c' < 16) (h : groupPlace c = groupPlace c') : c = c' := by
  unfold groupPlace at h
  split at h <;> split at h <;> omega

/-- The columns of a half-group share their left predictor. -/
theorem groupPredictor_of_parity {g : HostRegs} {m : OutMemory} {dir r col c c' : Nat} (hdir : dir ≠ 1)
    (hc : c % 2 = c' % 2) : groupPredictor g m dir r col c = groupPredictor g m dir r col c' := by
  rw [groupPredictor, groupPredictor, if_neg hdir, if_neg hdir, hc]

/-- The value of column c of a group (46_samsung.md R212). -/
def svValue (s : State) (x : SvRun) (r col dir : Nat) (adj : List Int) (c : Nat) : Sample :=
  u16 (adj.getD (groupPlace c) 0 + groupPredictor s.regs x.out dir r col c)

/-- A group that started with the values `x` stands before the adjustment at place k. -/
structure SvAt (s : State) (x : SvRun) (r col dir : Nat) (adj : List Int) (Q : Nat → Pump) (n k : Nat) (y : SvRun) :
    Prop where
  within : k ≤ n
  pump : y.pump = Q k
  len : y.len = x.len
  done : ∀ c < 16, col + c < s.regs.imgW.toNat → groupPlace c < k →
    outSample y.out (outIdx s.regs r (col + c)) = svValue s x r col dir adj c
  rest : ∀ i, (∀ c < 16, col + c < s.regs.imgW.toNat → i ≠ outIdx s.regs r (col + c)) →
    outSample y.out i = outSample x.out i

section
variable {s : State} {p : PumpIx} {x y : SvRun} {r col dir n k c : Nat} {adj : List Int} {Q : Nat → Pump}
  {stop : Stop → Prop}

/-- A column inside the width is stored. -/
theorem SvAt.put (hi : imageOk s) (hc : c < 16) (hplace : groupPlace c = k) (hin : col + c < s.regs.imgW.toNat)
    (hk : k + 1 ≤ n) (h : SvAt s x r col dir adj Q n k y) :
    SvAt s x r col dir adj Q n (k + 1)
      { y with pump := Q (k + 1), out := Memory.put y.out (outIdx s.regs r (col + c)) (svValue s x r col dir adj c) }
    where
  within := hk
  pump := rfl
  len := h.len
  done c' hc' hin' hlt := by
    by_cases hsame : c' = c
    · subst hsame
      exact outSample_put_same _ _ _
    · rw [outSample_put_other _ _ fun he => hsame (Nat.add_left_cancel (outIdx_inj hi hin' hin he).2)]
      have hne : groupPlace c' ≠ k := fun he => hsame (groupPlace_inj hc' hc (he.trans hplace.symm))
      exact h.done c' hc' hin' (by omega)
  rest i hout := by
    rw [outSample_put_other _ _ (hout c hc hin)]
    exact h.rest i hout

/-- A column past the width is decoded and not stored. -/
theorem SvAt.skip (hc : c < 16) (hplace : groupPlace c = k) (hout : ¬ col + c < s.regs.imgW.toNat) (hk : k + 1 ≤ n)
    (h : SvAt s x r col dir adj Q n k y) :
    SvAt s x r col dir adj Q n (k + 1) { y with pump := Q (k + 1) } where
  within := hk
  pump := rfl
  len := h.len
  done c' hc' hin' hlt := by
    have hne : groupPlace c' ≠ k := fun he => hout (groupPlace_inj hc' hc (he.trans hplace.symm) ▸ hin')
    exact h.done c' hc' hin' (by omega)
  rest := h.rest

/-- A predictor outside the group is read as it was before the group. -/
theorem SvAt.readOut_outside {r' c' : Nat} (hi : imageOk s) (hr : r' < s.regs.imgH.toNat)
    (hc : c' < s.regs.imgW.toNat) (hother : r' ≠ r ∨ c' < col) (h : SvAt s x r col dir adj Q n k y) :
    readOut s.par y.out (outIdx s.regs r' c') = .ok (outSample x.out (outIdx s.regs r' c')) := by
  rw [← h.rest _ fun c _ hin he => ?_]
  · exact readOut_ok.mpr ⟨outIdx_lt hi hr hc, rfl⟩
  · have hcell := outIdx_inj hi hc hin he
    omega

variable (hi : imageOk s) (hr : r < s.regs.imgH.toNat)
  (hread : Reading (fun b q => svAdjust s p q b) (groupLengths x.len) adj Q n stop)
include hi hr hread

omit hi hr in
/-- The next adjustment. -/
theorem svAdjust_ends (hc : c < 16) (hplace : groupPlace c = k) (h : SvAt s x r col dir adj Q n k y) :
    Eff.Ends (fun a => k + 1 ≤ n ∧ a = (adj.getD (groupPlace c) 0, Q (k + 1))) stop
      (svAdjust s p y.pump (svLength y c)) := by
  have hlen : (groupLengths x.len)[k]? = some (svLength y c) := by rw [← h.len, ← hplace, svLength_place y hc]
  rw [h.pump, hplace]
  exact hread.next h.within hlen

theorem svUpColumn_ends (hc : c < 16) (hplace : groupPlace c = k) (hin : col + c < s.regs.imgW.toNat) (h2 : 2 ≤ r)
    (h : SvAt s x r col 1 adj Q n k y) :
    Eff.Ends (SvAt s x r col 1 adj Q n (k + 1)) stop (svUpColumn s p r col (1 + c % 2) c y) := by
  refine Eff.ends_bind (svAdjust_ends hread hc hplace h) fun ⟨a, q⟩ ⟨hk, hx⟩ => ?_
  obtain ⟨rfl, rfl⟩ := Prod.mk.inj hx
  exact Eff.ends_bind_ok (h.readOut_outside hi (by omega) hin (.inl (by omega)))
    (Eff.ends_bind_ok (writeOut_ok.mpr ⟨outIdx_lt hi hr hin, rfl⟩) (h.put hi hc hplace hin hk))

theorem svLeftColumn_ends {left : Nat} (hc : c < 16) (hplace : groupPlace c = k)
    (hleft : left = groupPredictor s.regs x.out dir r col c) (h : SvAt s x r col dir adj Q n k y) :
    Eff.Ends (SvAt s x r col dir adj Q n (k + 1)) stop (svLeftColumn s p r col left c y) := by
  refine Eff.ends_bind (svAdjust_ends hread hc hplace h) fun ⟨a, q⟩ ⟨hk, hx⟩ => ?_
  obtain ⟨rfl, rfl⟩ := Prod.mk.inj hx
  dsimp only
  subst hleft
  by_cases hin : col + c < s.regs.imgW.toNat
  · rw [if_pos hin]
    exact Eff.ends_bind_ok (writeOut_ok.mpr ⟨outIdx_lt hi hr hin, rfl⟩) (h.put hi hc hplace hin hk)
  · rw [if_neg hin]
    exact h.skip hc hplace hin hk

omit hread in
/-- The left predictor of a half-group is its columns' predictor. -/
theorem svLeft_eq (hcol : col < s.regs.imgW.toNat) (hdir : dir ≠ 1) (h : SvAt s x r col dir adj Q n k y) (c : Nat) :
    svLeft s y.out r col (2 - c % 2) = .ok (groupPredictor s.regs x.out dir r col c) := by
  rw [svLeft, groupPredictor, if_neg hdir]
  by_cases h0 : col = 0
  · rw [if_pos h0, if_pos h0]
  · rw [if_neg h0, if_neg h0]
    exact Eff.bind_of_ok (h.readOut_outside hi hr (by omega) (.inr (by omega))) rfl

/-- The group's samples: the even columns and then the odd ones. -/
theorem svSamples_ends (hcol : col < s.regs.imgW.toNat)
    (hdir : dir = 1 → 2 ≤ r ∧ col + 16 < s.regs.imgW.toNat) (hQ : Q 0 = x.pump) :
    Eff.Ends (SvAt s x r col dir adj Q n 16) stop (svSamples s p r col dir x) := by
  have hstart : SvAt s x r col dir adj Q n 0 x :=
    ⟨Nat.zero_le n, hQ.symm, rfl, fun _ _ _ hlt => absurd hlt (Nat.not_lt_zero _), fun _ _ => rfl⟩
  unfold svSamples
  by_cases h1 : dir = 1
  · subst h1
    obtain ⟨h2, hwide⟩ := hdir rfl
    refine Eff.ends_bind_ok (require_of (decide_eq_true h2)) (Eff.ends_bind_ok (require_of (decide_eq_true hwide))
      (Eff.ends_bind (Eff.ends_forUp (SvAt s x r col 1 adj Q n) hstart fun i y _ hi8 hy => ?_) fun y hy =>
        Eff.ends_forUp (fun i => SvAt s x r col 1 adj Q n (8 + i)) hy fun i z _ hi8 hz => ?_))
    · have hup := svUpColumn_ends (c := 2 * i) hi hr hread (by omega) (groupPlace_even i) (by omega) h2 hy
      rwa [Nat.mul_mod_right] at hup
    · have hup := svUpColumn_ends (c := 2 * i + 1) hi hr hread (by omega) (groupPlace_odd i) (by omega) h2 hz
      rwa [Nat.mul_add_mod] at hup
  · rw [if_neg h1]
    refine Eff.ends_bind_ok (svLeft_eq hi hr hcol h1 hstart 0) (Eff.ends_bind
      (Eff.ends_forUp (SvAt s x r col dir adj Q n) hstart fun i y _ hi8 hy => ?_) fun y hy =>
        Eff.ends_bind_ok (svLeft_eq hi hr hcol h1 hy 1)
          (Eff.ends_forUp (fun i => SvAt s x r col dir adj Q n (8 + i)) hy fun i z _ hi8 hz => ?_))
    · exact svLeftColumn_ends hi hr hread (by omega) (groupPlace_even i)
        (groupPredictor_of_parity h1 (by omega)) hy
    · exact svLeftColumn_ends hi hr hread (by omega) (groupPlace_odd i)
        (groupPredictor_of_parity h1 (by omega)) hz

end

section
variable {s : State} {p : PumpIx} {x : SvRun} {r col dir : Nat} {nums : List Nat} {q : Pump}

/-- A group whose adjustments decode stores its columns. -/
theorem svSamples_of_reads (hi : imageOk s) (hr : r < s.regs.imgH.toNat) (hcol : col < s.regs.imgW.toNat)
    (hdir : dir = 1 → 2 ≤ r ∧ col + 16 < s.regs.imgW.toNat)
    (h : readNumbers s p ((groupLengths x.len).filter (fun n => decide (n ≠ 0))) x.pump = .ok (nums, q)) :
    ∃ m : OutMemory, svSamples s p r col dir x = .ok { x with pump := q, out := m } ∧
      (∀ c < 16, col + c < s.regs.imgW.toNat → outSample m (outIdx s.regs r (col + c)) =
        svValue s x r col dir (adjustments (groupLengths x.len) nums) c) ∧
      ∀ i, (∀ c < 16, col + c < s.regs.imgW.toNat → i ≠ outIdx s.regs r (col + c)) →
        outSample m i = outSample x.out i := by
  obtain ⟨Q, hQ, hlast, hread⟩ := reading_of_ok (readAll_svAdjust_ok h)
  obtain ⟨⟨pump, m, len⟩, hrun, hy⟩ := (svSamples_ends hi hr hread hcol hdir hQ).answers fun _ => id
  obtain rfl : pump = q := by
    rw [← hlast, groupLengths_length]
    exact hy.pump
  obtain rfl : len = x.len := hy.len
  refine ⟨m, hrun, fun c hc hin => hy.done c hc hin ?_, hy.rest⟩
  unfold groupPlace
  split <;> omega

/-- A group stops with the error of the first adjustment that does not decode. -/
theorem svSamples_of_read_error {e : Stop} (hi : imageOk s) (hr : r < s.regs.imgH.toNat)
    (hcol : col < s.regs.imgW.toNat) (hdir : dir = 1 → 2 ≤ r ∧ col + 16 < s.regs.imgW.toNat)
    (h : readNumbers s p ((groupLengths x.len).filter (fun n => decide (n ≠ 0))) x.pump = .error e) :
    svSamples s p r col dir x = .error e := by
  obtain ⟨adj, Q, n, hQ, hn, hread⟩ := reading_of_error (readAll_svAdjust_error h)
  rw [groupLengths_length] at hn
  obtain ⟨_, hrun, rfl⟩ := (svSamples_ends hi hr hread hcol hdir hQ).stops fun y hy => absurd hy.within (by omega)
  exact hrun

theorem svSamples_up_of_first_rows (hr : r < 2) :
    svSamples s p r col 1 x = .error (.raised ⟨.corrupt, r, col, 0, 1⟩) :=
  Eff.bind_of_error (require_of_not (decide_eq_false hr.not_ge))

theorem svSamples_up_of_last_group (hr : 2 ≤ r) (hlast : s.regs.imgW.toNat ≤ col + 16) :
    svSamples s p r col 1 x = .error (.raised ⟨.corrupt, r, col, 0, 2⟩) :=
  Eff.bind_of_ok (require_of (decide_eq_true hr)) (Eff.bind_of_error (require_of_not (decide_eq_false hlast.not_gt)))

end

/-! ## Groups and rows (46_samsung.md R211, R212) -/

section
variable {s : State} {p : PumpIx} {x : SvRun} {r g dir : Nat} {ops : List Nat} {q q' : Pump} {e : Stop}

/-- A group after its direction and its opcodes. -/
theorem svGroup_of_reads (hdir : pget s p x.pump 1 = .ok (dir, q))
    (hops : readNumbers s p [2, 2, 2, 2] q = .ok (ops, q')) :
    svGroup s p r g x = forUp (svAdapt s p r (16 * g) ops) 4 0 { x with pump := q' } >>= svSamples s p r (16 * g) dir :=
  Eff.bind_of_ok hdir (Eff.bind_of_ok ((svOps_eq_readNumbers s p 4 q).trans hops) rfl)

theorem svGroup_of_opcode_error (hdir : pget s p x.pump 1 = .ok (dir, q))
    (he : readNumbers s p [2, 2, 2, 2] q = .error e) : svGroup s p r g x = .error e :=
  Eff.bind_of_ok hdir (Eff.bind_of_error ((svOps_eq_readNumbers s p 4 q).trans he))

theorem svInitialLengths_eq (r : Nat) : svInitialLengths r = List.replicate 4 (if r < 2 then 7 else 4) := by
  unfold svInitialLengths
  split <;> rfl

/-- A row is the loop over its groups on a fresh pump. -/
theorem svRow_of_stripe {mode : PumpMode} {st : Stripe} (hst : s.sv0.stripes[r]? = some st) (prev : Pump)
    (out : OutMemory) :
    svRow s p mode r (prev, out) = forUp (svGroup s p r) ((s.regs.imgW.toNat + 15) / 16) 0
      ⟨{ freshPump mode st.off st.size with raced := s.sv0.raced }, out, List.replicate 4 (if r < 2 then 7 else 4)⟩ >>=
        fun y => .ok (y.pump, y.out) := by
  rw [svRow, List.getD_eq_getElem?_getD, hst, svInitialLengths_eq]
  rfl

end

/-- Settles O50: the row's loop, the group's reads and lengths in their order, and its samples column by column. -/
theorem samsungGroupAddsAdjustments : Obligations.SamsungGroupAddsAdjustments := by
  intro s p r
  refine ⟨fun mode st out prev hst => ?_, fun g dir x q e => ⟨fun he => Eff.bind_of_error he,
    fun hdir he => svGroup_of_opcode_error hdir he⟩, fun g dir x ops news q q' q'' hx hdir hops => ?_,
    fun col dir x nums q hi hr hcol _ _ _ => ?_⟩
  · rw [svRow_of_stripe hst]
    exact ⟨fun y hy => Eff.bind_of_ok hy rfl, fun e he => Eff.bind_of_error he⟩
  · have hlength : ops.length = 4 := readNumbers_length hops
    rw [svGroup_of_reads hdir hops]
    exact ⟨fun hnews hrange => Eff.bind_of_ok (forUp_svAdapt_all hx hlength hnews hrange) rfl,
      fun i hi e hop hnews hrange he =>
        Eff.bind_of_error (forUp_svAdapt_of_read_error hx hlength hi hnews hrange hop he),
      fun i hi hnews hrange hbad => Eff.bind_of_error (forUp_svAdapt_of_bad_length hx hlength hi hnews hrange hbad)⟩
  · refine ⟨fun h1 h2 => ?_, fun h1 h2 hlast => ?_, fun e hwide he => svSamples_of_read_error hi hr hcol hwide he,
      fun hwide hnums => svSamples_of_reads hi hr hcol hwide hnums⟩
    · rw [h1]
      exact svSamples_up_of_first_rows h2
    · rw [h1]
      exact svSamples_up_of_last_group h2 hlast

end Sys2Proof.Machine

/-! SUPPORT. The construction of a Huffman table: the counts from the argument registers, the values from a stream, and
the frame of the table and Fuji commands (spec 43_huffman.md R160-R162). -/

namespace Sys2Proof.Machine

/-! ## Frames -/

/-- Settles O20, as every command keeps what its Writes line does not name. -/
theorem tableAndFujiCommandsLeaveTheRest : Obligations.TableAndFujiCommandsLeaveTheRest :=
  fun _ _ _ _ ht => exec_unwritten ht

/-! ## HT_RESET and HT_SET_COUNTS (43_huffman.md R160, R161) -/

theorem Params.htMaxValues_eq {par : Params} (h : par.decided = true) : par.htMaxValues = 256 := by
  obtain ⟨-, -, -, -, -, -, -, hmax, -⟩ := Params.decided_iff.mp h
  exact hmax

/-- The sixteen argument bytes lie four to a register, the low byte first. -/
theorem argByte_eq (g : HostRegs) {i : Nat} (hi : i < 16) :
    g.argByte i = (if i < 4 then g.arg0 else if i < 8 then g.arg1 else if i < 12 then g.arg2 else g.arg3).extractLsb'
      (8 * (i % 4)) 8 := by
  interval_cases i <;> rfl

section
variable {s : State} {t : TableIx} (hp : s.par.decided = true) (ht : s.tables[t].state ≠ .ready)
include hp ht

theorem exec_htSetCounts_of_bad_sum (h : countSum s.regs.codeCounts = 0 ∨ 256 < countSum s.regs.codeCounts) :
    exec (.htSetCounts t) s = .next (s.enterError ⟨.corrupt, 0, 0, t.val, countSum s.regs.codeCounts⟩) := by
  refine finishPrimitive_of_raised (Eff.bind_of_ok (require_of (decide_eq_true ht))
    (Eff.bind_of_error (require_of_not (decide_eq_false ?_))))
  rw [Params.htMaxValues_eq hp]
  omega

theorem exec_htSetCounts_of_sum (h1 : 1 ≤ countSum s.regs.codeCounts) (h256 : countSum s.regs.codeCounts ≤ 256) :
    exec (.htSetCounts t) s =
      .next (s.setTable t { HuffTable.reset with state := .counts, count := s.regs.codeCounts }).complete := by
  refine finishPrimitive_of_ok (Eff.bind_of_ok (require_of (decide_eq_true ht))
    (Eff.bind_of_ok (require_of (decide_eq_true ?_)) rfl))
  rw [Params.htMaxValues_eq hp]
  omega

end

/-- Settles O37: the given counts are the argument bytes, and their sum decides. -/
theorem tableResetAndCounts : Obligations.TableResetAndCounts := by
  intro s t counts hp hcounts
  obtain rfl : s.regs.codeCounts = counts := by
    ext1 i hi
    rw [show counts[i] = _ from hcounts ⟨i, hi⟩, HostRegs.codeCounts, Vector.getElem_ofFn, argByte_eq _ hi]
  exact ⟨rfl, fun ht => finishPrimitive_of_raised (Eff.bind_of_error (require_of_not (decide_eq_false fun h => h ht))),
    exec_htSetCounts_of_bad_sum hp, exec_htSetCounts_of_sum hp⟩

/-! ## HT_SET_VALUES (43_huffman.md R162) -/

/-- A table's values are those loaded, and zeros behind them. -/
theorem HuffTable.valueAt_of_padded {h : HuffTable} {l : List Byte} (hv : h.values = padValues l) (hl : l.length ≤ 256)
    (i : Nat) : h.valueAt i = l.getD i 0 := by
  simp only [HuffTable.valueAt, hv, padValues, Vector.getElem?_mk, List.getElem?_toArray, List.getD_eq_getElem?_getD]
  rcases Nat.lt_or_ge i l.length with hi | hi
  · rw [List.getElem?_take_of_lt (hi.trans_le hl), List.getElem?_append_left hi]
  · rw [List.getElem?_eq_none hi, List.getElem?_take, List.getElem?_append_right hi, List.getElem?_replicate]
    split_ifs <;> rfl

/-- A table with the bytes b 0 .. b (n-1) as its values. -/
def HuffTable.filled (h : HuffTable) (n : Nat) (b : Nat → Byte) : HuffTable :=
  { h with values := padValues ((List.range n).map b), nvalues := n, state := .values }

theorem HuffTable.filled_valueAt (h : HuffTable) {n : Nat} (hn : n ≤ 256) (b : Nat → Byte) (i : Nat) :
    (h.filled n b).valueAt i = if i < n then b i else 0 := by
  rw [HuffTable.valueAt_of_padded (h := h.filled n b) rfl (by simpa using hn)]
  split_ifs with hi
  · simp [hi]
  · exact List.getD_eq_default _ _ (by simpa using hi)

/-- Settles O38: each error is one path through the checks; the loaded table is the old one with the bytes read. -/
theorem tableValuesComeFromTheStream : Obligations.TableValuesComeFromTheStream := by
  intro s t k n h1 h256
  have hn : requireLegal s (valueCountOk n) = .ok () := require_of (decide_eq_true ⟨h1, h256⟩)
  refine ⟨fun ht => finishPrimitive_of_raised ?_, fun ht hv => finishPrimitive_of_raised ?_,
    fun ht hv hsum => finishPrimitive_of_raised ?_, fun ht hv hsum hsize => finishPrimitive_of_raised ?_,
    fun ht hv hlegal hsum hsize => ?_⟩
  · exact Eff.bind_of_ok hn (Eff.bind_of_error (require_of_not (decide_eq_false ht)))
  · exact Eff.bind_of_ok hn (Eff.bind_of_ok (require_of (decide_eq_true ht)) (Eff.bind_of_error (schk_invalid hv)))
  · exact Eff.bind_of_ok hn (Eff.bind_of_ok (require_of (decide_eq_true ht)) (Eff.bind_of_ok (schk_valid hv)
      (Eff.bind_of_error (require_of_not (decide_eq_false hsum)))))
  · exact Eff.bind_of_ok hn (Eff.bind_of_ok (require_of (decide_eq_true ht)) (Eff.bind_of_ok (schk_valid hv)
      (Eff.bind_of_ok (require_of (decide_eq_true hsum)) (Eff.bind_of_error (needRemaining_of_lt hsize)))))
  · obtain ⟨hwindow, -⟩ := (StreamSlot.legal_iff hv).mp hlegal
    have hread : windowBytes s s.streams[k] s.streams[k].pos.toNat n.toNat =
        .ok ((List.range n.toNat).map (cursorByte s s.streams[k])) := windowBytes_ok (by omega)
    refine ⟨s.tables[t].filled n.toNat (cursorByte s s.streams[k]), finishPrimitive_of_ok ?_, rfl,
      fun i hi => (HuffTable.filled_valueAt _ h256 _ i).trans (if_pos hi),
      fun i hi => (HuffTable.filled_valueAt _ h256 _ i).trans (if_neg hi.not_gt)⟩
    rw [← BitVec.ofNat_toNat, ← ofNat_toNat_add_nat]
    exact Eff.bind_of_ok hn (Eff.bind_of_ok (require_of (decide_eq_true ht)) (Eff.bind_of_ok (schk_valid hv)
      (Eff.bind_of_ok (require_of (decide_eq_true hsum)) (Eff.bind_of_ok (needRemaining_of_le hsize)
        (Eff.bind_of_ok hread rfl)))))

end Sys2Proof.Machine

/-! SUPPORT. The canonical code: CANON in closed form, that no code begins another, and the loads that build a READY
table (spec 43_huffman.md R163, R164, R168). -/

namespace Sys2Proof.Machine

/-! ## CANON (43_huffman.md R164) -/

section
variable {par : Params} {t : TableIx} {c : HuffTable} {l : Nat}

theorem canonStep_of_fits {x : Canon} (hl : l < 16) (h : CanonAt c l x)
    (hfits : firstCode c l + c.countOf (l + 1) ≤ 2 ^ (l + 1)) :
    Eff.Can [] (CanonAt c (l + 1)) (canonStep t c l x) := by
  rw [← h.code] at hfits
  have hstep : canonStep t c l x = .ok ⟨2 * (x.code + c.countOf (l + 1)), x.placed + c.countOf (l + 1),
      x.first.setIfInBounds l x.code, x.index.setIfInBounds l x.placed⟩ :=
    Eff.bind_of_ok (require_of (decide_eq_true hfits)) rfl
  exact Eff.can_nil.mpr ⟨_, hstep, (can_canonStep (List.mem_singleton_self _) hl h).of_ok hstep⟩

/-- CANON's loop up to a length fills the arrays when every shorter length fits. -/
theorem forUp_canonStep_of_fits (hl : l ≤ 16) (hfits : ∀ k < l, firstCode c k + c.countOf (k + 1) ≤ 2 ^ (k + 1)) :
    ∃ x, forUp (canonStep t c) l 0 ⟨0, 0, c.first, c.index⟩ = .ok x ∧ CanonAt c l x := by
  have hstart : CanonAt c 0 ⟨0, 0, c.first, c.index⟩ :=
    ⟨rfl, rfl, fun _ _ h => absurd h (Nat.not_lt_zero _), fun _ _ h => absurd h (Nat.not_lt_zero _),
      fun _ h => absurd h (Nat.not_lt_zero _)⟩
  have hloop := can_forUp (body := canonStep t c) (CanonAt c) l 0 _ hstart fun k x _ hk hx =>
    canonStep_of_fits (by omega) hx (hfits k (by omega))
  rw [Nat.zero_add] at hloop
  exact Eff.can_nil.mp hloop

variable (hp : par.decided = true)
include hp

/-- CANON answers the canonical code when every length fits the code space. -/
theorem canon_of_fits (hfits : ∀ l < 16, firstCode c l + c.countOf (l + 1) ≤ 2 ^ (l + 1)) :
    ∃ h, canon par t c = .ok h ∧ Canonical c h := by
  obtain ⟨x, hx, -⟩ := forUp_canonStep_of_fits (t := t) le_rfl hfits
  have hcanon : canon par t c = .ok { c with first := x.first, index := x.index } := by
    rw [canon, Params.htMaxLen_eq hp]
    exact Eff.bind_of_ok hx rfl
  exact ⟨_, hcanon, (can_canon hp (List.mem_singleton_self _)).of_ok hcanon⟩

/-- CANON raises at the first length that does not fit the code space. -/
theorem canon_of_oversubscribed (hl : l < 16) (hfits : ∀ k < l, firstCode c k + c.countOf (k + 1) ≤ 2 ^ (k + 1))
    (hover : 2 ^ (l + 1) < firstCode c l + c.countOf (l + 1)) :
    canon par t c = .error (.raised
      ⟨.corrupt, 0, (l + 1 : Nat), t.val, (firstCode c l + c.countOf (l + 1) : Nat)⟩) := by
  obtain ⟨x, hx, hat⟩ := forUp_canonStep_of_fits (t := t) hl.le hfits
  rw [← hat.code] at hover ⊢
  rw [canon, Params.htMaxLen_eq hp]
  refine Eff.bind_of_error (forUp_of_error hl hx ?_)
  rw [Nat.zero_add]
  exact Eff.bind_of_error (require_of_not (decide_eq_false hover.not_ge))

end

/-- Settles O39: CANON in closed form, on a table in VALUES. -/
theorem setupAssignsCanonicalCodes : Obligations.SetupAssignsCanonicalCodes := by
  intro s t d hp
  refine ⟨fun ht => finishPrimitive_of_raised (Eff.bind_of_error (require_of_not (decide_eq_false ht))),
    fun ht hfits => ?_, fun ht l hl hfits hover => finishPrimitive_of_raised (Eff.bind_of_ok
      (require_of (decide_eq_true ht)) (Eff.bind_of_error (canon_of_oversubscribed hp hl hfits hover)))⟩
  obtain ⟨h, hcanon, hcanonical⟩ := canon_of_fits (t := t) hp hfits
  refine ⟨{ h with dng16 := d, state := .ready }, finishPrimitive_of_ok (Eff.bind_of_ok
    (require_of (decide_eq_true ht)) (Eff.bind_of_ok hcanon rfl)), ?_,
    fun l hl => ⟨hcanonical.first l hl, hcanonical.index l hl⟩⟩
  rw [hcanonical.rest]

/-! ## Prefixes (43_huffman.md R170) -/

/-- The codes of a shorter length, continued in every way, come before the codes of a longer one. -/
theorem shorterCodes_le_firstCode (h : HuffTable) {k l : Nat} (hkl : k < l) :
    (firstCode h k + h.countOf (k + 1)) * 2 ^ (l - k) ≤ firstCode h l := by
  induction l, hkl using Nat.le_induction with
  | base => rw [firstCode_succ, Nat.succ_sub (le_refl k), Nat.sub_self, pow_one, Nat.mul_comm]
  | succ l hkl ih =>
    calc (firstCode h k + h.countOf (k + 1)) * 2 ^ (l + 1 - k)
        = 2 * ((firstCode h k + h.countOf (k + 1)) * 2 ^ (l - k)) := by
          rw [Nat.succ_sub (Nat.le_of_lt hkl), pow_succ]; ring
      _ ≤ 2 * (firstCode h l + h.countOf (l + 1)) := by omega
      _ = firstCode h (l + 1) := (firstCode_succ h l).symm

theorem HuffTable.firstOf_of_legal {h : HuffTable} (hlegal : h.legal = true) (hready : h.state = .ready) {l : Nat}
    (hl : l < 16) : h.firstOf (l + 1) = firstCode h l := by
  simp only [HuffTable.legal, hready, decide_true, Bool.not_true, Bool.false_or, Bool.and_eq_true, List.all_eq_true,
    List.mem_range, decide_eq_true_eq] at hlegal
  exact (hlegal.2 l hl).1

/-- Settles O40: a longer code's first bits are past every code of their length. -/
theorem canonicalCodesArePrefixFree : Obligations.CanonicalCodesArePrefixFree := by
  intro h k l c hlegal hready hk hkl hl hcode hprefix
  obtain ⟨k, rfl⟩ : ∃ k', k = k' + 1 := ⟨k - 1, by omega⟩
  obtain ⟨l, rfl⟩ : ∃ l', l = l' + 1 := ⟨l - 1, by omega⟩
  obtain ⟨hfirst, -⟩ := hcode
  obtain ⟨-, hlast⟩ := hprefix
  rw [HuffTable.firstOf_of_legal hlegal hready (by omega)] at hfirst hlast
  rw [Nat.add_sub_add_right, Nat.div_lt_iff_lt_mul (by positivity)] at hlast
  have := shorterCodes_le_firstCode h (k := k) (l := l) (by omega)
  omega

/-! ## Loads (43_huffman.md R168, R169) -/

/-- A READY table with these counts and values, without DNG16, and the canonical code of its counts. -/
structure Loaded (c : Vector Byte Config.htMaxLen) (values : List Byte) (h : HuffTable) : Prop where
  state : h.state = .ready
  nvalues : h.nvalues = values.length
  dng16 : h.dng16 = false
  count : ∀ l, h.countOf l = (loadedTable c values).countOf l
  first : ∀ l < 16, h.firstOf (l + 1) = firstCode (loadedTable c values) l
  index : ∀ l < 16, h.indexOf (l + 1) = codesBelow (loadedTable c values) l
  values : h.values = padValues values

theorem Loaded.valueAt {c : Vector Byte Config.htMaxLen} {values : List Byte} {h : HuffTable}
    (hloaded : Loaded c values h) (hlength : values.length ≤ 256) (i : Nat) : h.valueAt i = values.getD i 0 :=
  HuffTable.valueAt_of_padded hloaded.values hlength i

section
variable {s : State} {t : TableIx} {c : Vector Byte Config.htMaxLen} {values : List Byte} (hp : s.par.decided = true)
include hp

theorem loadTable_of_fits
    (hfits : ∀ l < 16, firstCode (loadedTable c values) l + (loadedTable c values).countOf (l + 1) ≤ 2 ^ (l + 1)) :
    ∃ h, loadTable t c values s = .ok (s.setTable t h) ∧ Loaded c values h := by
  obtain ⟨h, hcanon, hcanonical⟩ := canon_of_fits (t := t) hp hfits
  refine ⟨{ h with state := .ready }, Eff.bind_of_ok hcanon rfl, rfl, ?_, ?_, fun l => ?_, hcanonical.first,
    hcanonical.index, ?_⟩
  all_goals rw [hcanonical.rest]; rfl

theorem loadTable_of_oversubscribed {l : Nat} (hl : l < 16)
    (hfits : ∀ k < l, firstCode (loadedTable c values) k + (loadedTable c values).countOf (k + 1) ≤ 2 ^ (k + 1))
    (hover : 2 ^ (l + 1) < firstCode (loadedTable c values) l + (loadedTable c values).countOf (l + 1)) :
    loadTable t c values s = .error (.raised ⟨.corrupt, 0, (l + 1 : Nat), t.val,
      (firstCode (loadedTable c values) l + (loadedTable c values).countOf (l + 1) : Nat)⟩) :=
  Eff.bind_of_error (canon_of_oversubscribed hp hl hfits hover)

end

/-- Settles O43: a load of the legacy counts, which fit, and of the legacy values. -/
theorem legacyPentaxTableHasItsCodes : Obligations.LegacyPentaxTableHasItsCodes := by
  intro s t hp
  obtain ⟨h, hload, hloaded⟩ := loadTable_of_fits (t := t) hp fun l _ => firstCode_legacy_le l
  refine ⟨h, finishPrimitive_of_ok hload, hloaded.state, hloaded.nvalues, hloaded.dng16, fun x hx => ?_⟩
  have hcodes : ∀ x ∈ [(3, 2, 0), (4, 2, 1), (2, 3, 4), (5, 3, 5), (1, 3, 6), (6, 4, 14), (0, 5, 30), (7, 6, 62),
      (8, 7, 126), (9, 8, 254), (10, 9, 510), (11, 10, 1022), (12, 10, 1023)],
      let T := loadedTable pentaxLegacyCounts pentaxLegacyValues
      let l := x.2.1 - 1
      x.2.1 = l + 1 ∧ l < 16 ∧ firstCode T l ≤ x.2.2 ∧ x.2.2 < firstCode T l + T.countOf (l + 1) ∧
        (pentaxLegacyValues.getD (codesBelow T l + x.2.2 - firstCode T l) 0).toNat = x.1 := by decide
  obtain ⟨hlength, hl, hlow, hhigh, hvalue⟩ := hcodes x hx
  rw [HuffTable.hasCode, hlength, hloaded.first _ hl, hloaded.index _ hl, hloaded.count,
    hloaded.valueAt (by decide)]
  exact ⟨⟨hlow, hhigh⟩, hvalue⟩

end Sys2Proof.Machine

/-! SUPPORT. HT_LOAD_PENTAX: the metadata it reads, the tie it reports, the order it sorts by, and the table it builds
(spec 43_huffman.md R169). -/

namespace Sys2Proof.Machine

/-! ## The metadata -/

/-- The 16-bit number o bytes behind the cursor. -/
def cursorWord (s : State) (v : StreamSlot) (o : Nat) : Nat := assembled v.be 2 (fun i => cursorByte s v (o + i))

/-- Entry i of a per-file table, by its code and length. -/
def pentaxEntry (code len : Nat → Nat) (i : Nat) : PentaxEntry := ⟨i, len i, code i / 2 ^ (12 - len i)⟩

/-- The entries of a per-file table, in their order. -/
def pentaxList (code len : Nat → Nat) (depth : Nat) : List PentaxEntry := (List.range depth).map (pentaxEntry code len)

section
variable {s : State} {v : StreamSlot} {o i n : Nat} {code len : Nat → Nat}

theorem windowValue_word (h : v.off.toNat + (v.pos.toNat + o) + 2 ≤ s.par.inSize) :
    windowValue s v (v.pos.toNat + o) 2 = .ok (cursorWord s v o) := by
  rw [windowValue_ok h]
  simp only [cursorWord, cursorByte, Nat.add_assoc]

theorem windowValue_byte (h : v.off.toNat + (v.pos.toNat + o) + 1 ≤ s.par.inSize) :
    windowValue s v (v.pos.toNat + o) 1 = .ok (cursorByte s v o).toNat := by
  rw [windowValue_ok h]
  simp [assembled, cursorByte, Nat.add_assoc]

theorem pentaxCodes_ok (h : v.off.toNat + (v.pos.toNat + o) + 2 * (i + n) ≤ s.par.inSize)
    (hcode : ∀ j < i + n, code j = cursorWord s v (o + 2 * j)) :
    pentaxCodes s v (v.pos.toNat + (o + 2 * i)) n = .ok ((List.range' i n).map code) := by
  induction n generalizing i with
  | zero => rfl
  | succ n ih =>
    have hrest := ih (i := i + 1) (by omega) fun j hj => hcode j (by omega)
    rw [show v.pos.toNat + (o + 2 * (i + 1)) = v.pos.toNat + (o + 2 * i) + 2 by omega] at hrest
    rw [List.range'_succ, List.map_cons, hcode i (by omega)]
    exact Eff.bind_of_ok (windowValue_word (by omega)) (Eff.bind_of_ok hrest rfl)

section
variable (h : v.off.toNat + (v.pos.toNat + o) + (i + n) ≤ s.par.inSize)
  (hlen : ∀ j < i + n, len j = (cursorByte s v (o + j)).toNat)
include h hlen

theorem pentaxEntries_ok_of_lengths (hrange : ∀ j < i + n, 1 ≤ len j ∧ len j ≤ 12) :
    pentaxEntries s v (v.pos.toNat + (o + i)) i ((List.range' i n).map code) =
      .ok ((List.range' i n).map (pentaxEntry code len)) := by
  induction n generalizing i with
  | zero => rfl
  | succ n ih =>
    have hrest := ih (i := i + 1) (by omega) (fun j hj => hlen j (by omega)) fun j hj => hrange j (by omega)
    have hread := windowValue_byte (s := s) (v := v) (o := o + i) (by omega)
    rw [← hlen i (by omega)] at hread
    rw [List.range'_succ, List.map_cons, List.map_cons, pentaxEntry, ← Nat.shiftRight_eq_div_pow]
    exact Eff.bind_of_ok hread (Eff.bind_of_ok (require_of (decide_eq_true (hrange i (by omega))))
      (Eff.bind_of_ok hrest rfl))

/-- The lengths are read up to the first that is out of range. -/
theorem pentaxEntries_of_bad_length {b : Nat} (hi : i ≤ b) (hb : b < i + n)
    (hrange : ∀ j < b, 1 ≤ len j ∧ len j ≤ 12) (hbad : len b = 0 ∨ 12 < len b) :
    pentaxEntries s v (v.pos.toNat + (o + i)) i ((List.range' i n).map code) =
      .error (.raised ⟨.corrupt, 0, 0, b, len b⟩) := by
  induction n generalizing i with
  | zero => omega
  | succ n ih =>
    have hread := windowValue_byte (s := s) (v := v) (o := o + i) (by omega)
    rw [← hlen i (by omega)] at hread
    rw [List.range'_succ, List.map_cons]
    refine Eff.bind_of_ok hread ?_
    rcases hi.eq_or_lt with rfl | hlt
    · exact Eff.bind_of_error (require_of_not (decide_eq_false (by omega)))
    · have hrest := ih (i := i + 1) (by omega) (fun j hj => hlen j (by omega)) hlt (by omega)
      exact Eff.bind_of_ok (require_of (decide_eq_true (hrange i hlt))) (Eff.bind_of_error hrest)

end

end

/-! ## Ties -/

/-- The tied pairs are the pairs of entries, in their order, whose prefixes are equal. -/
theorem mem_tiedPairs {l : List PentaxEntry} {e f : PentaxEntry} :
    (e, f) ∈ tiedPairs l ↔ f.pre = e.pre ∧ [e, f].Sublist l := by
  induction l with
  | nil => simp [tiedPairs]
  | cons a r ih =>
    simp only [tiedPairs, List.mem_append, List.mem_map, List.mem_filter, decide_eq_true_eq, Prod.mk.injEq, ih,
      List.cons_sublist_cons', List.singleton_sublist]
    constructor
    · rintro (⟨g, ⟨hg, hpre⟩, rfl, rfl⟩ | ⟨hpre, hsub⟩)
      · exact ⟨hpre, .inr ⟨rfl, hg⟩⟩
      · exact ⟨hpre, .inl hsub⟩
    · rintro ⟨hpre, hsub | ⟨rfl, hf⟩⟩
      · exact .inr ⟨hpre, hsub⟩
      · exact .inl ⟨f, ⟨hf, hpre⟩, rfl, rfl⟩

/-- A property of the pairs of a range, in order. -/
theorem pairwise_map_range {α : Type} {R : α → α → Prop} {n : Nat} {f : Nat → α} :
    ((List.range n).map f).Pairwise R ↔ ∀ i j, i < j → j < n → R (f i) (f j) := by
  rw [List.pairwise_iff_getElem]
  simp only [List.length_map, List.length_range, List.getElem_map, List.getElem_range]
  exact ⟨fun h i j hij hj => h i j (by omega) hj hij, fun h i j _ hj hij => h i j hij hj⟩

/-- A pair in the order of a range is of two places in their order. -/
theorem places_of_sublist_map_range {α : Type} {n : Nat} {f : Nat → α} {x y : α}
    (h : [x, y].Sublist ((List.range n).map f)) : ∃ i j, i < j ∧ j < n ∧ f i = x ∧ f j = y := by
  have hplaces : ((List.range n).map f).Pairwise fun x y => ∃ i j, i < j ∧ j < n ∧ f i = x ∧ f j = y :=
    pairwise_map_range.mpr fun i j hij hj => ⟨i, j, hij, hj, rfl, rfl⟩
  exact List.pairwise_iff_forall_sublist.mp hplaces h

theorem tiedPairs_eq_nil {l : List PentaxEntry} : tiedPairs l = [] ↔ l.Pairwise (fun e f => e.pre ≠ f.pre) := by
  rw [List.eq_nil_iff_forall_not_mem, List.pairwise_iff_forall_sublist]
  exact ⟨fun h e f hsub hpre => h (e, f) (mem_tiedPairs.mpr ⟨hpre.symm, hsub⟩),
    fun h ⟨e, f⟩ hmem => h (mem_tiedPairs.mp hmem).2 (mem_tiedPairs.mp hmem).1.symm⟩

/-- A tie is reported where there is one, and it is one of them (log 16). -/
theorem reportedTie_mem {draw : Nat} {ties : List (PentaxEntry × PentaxEntry)} (h : ties ≠ []) :
    ∃ x ∈ ties, reportedTie draw ties = some x := by
  match ties, h with
  | [x], _ => exact ⟨x, List.mem_singleton_self x, rfl⟩
  | x :: y :: r, _ =>
    have hlt : Config.tieChoice draw % (x :: y :: r).length < (x :: y :: r).length :=
      Nat.mod_lt _ (Nat.succ_pos _)
    refine ⟨_, List.getElem_mem hlt, congrArg some ?_⟩
    rw [List.getElem?_eq_getElem hlt, Option.getD_some]

/-! ## The order of the values -/

theorem sortByPrefix_eq_insertionSort (l : List PentaxEntry) :
    sortByPrefix l = l.insertionSort (fun e f => e.pre ≤ f.pre) := by
  have hinsert : ∀ (e : PentaxEntry) (r : List PentaxEntry),
      insertByPrefix e r = r.orderedInsert (fun e f => e.pre ≤ f.pre) e := by
    intro e r
    induction r with
    | nil => rfl
    | cons f r ih => rw [insertByPrefix, List.orderedInsert_cons, ih]
  induction l with
  | nil => rfl
  | cons e l ih => rw [sortByPrefix, List.foldr_cons, ← sortByPrefix, ih, hinsert, List.insertionSort_cons]

theorem mem_sortByPrefix {l : List PentaxEntry} {e : PentaxEntry} : e ∈ sortByPrefix l ↔ e ∈ l := by
  rw [sortByPrefix_eq_insertionSort, List.mem_insertionSort]

/-- Without a tie the prefixes strictly increase in the sorted order. -/
theorem sortByPrefix_increasing {l : List PentaxEntry} (h : l.Pairwise (fun e f => e.pre ≠ f.pre)) :
    (sortByPrefix l).Pairwise (fun e f => e.pre < f.pre) := by
  rw [sortByPrefix_eq_insertionSort]
  have hperm := List.perm_insertionSort (fun e f : PentaxEntry => e.pre ≤ f.pre) l
  have hne := hperm.symm.pairwise h fun hne => hne.symm
  have hle := List.pairwise_insertionSort (fun e f : PentaxEntry => e.pre ≤ f.pre) l
  exact (hle.and hne).imp fun ⟨hle, hne⟩ => lt_of_le_of_ne hle hne

/-- The values a per-file table stores: the entry numbers in the sorted order. -/
def pentaxValues (entries : List PentaxEntry) : List Byte := (sortByPrefix entries).map (fun e => BitVec.ofNat 8 e.ix)

section
variable {code len : Nat → Nat} {depth : Nat}

theorem sortedEntries_length : (sortByPrefix (pentaxList code len depth)).length = depth := by
  rw [sortByPrefix_length, pentaxList, List.length_map, List.length_range]

theorem pentaxValues_length : (pentaxValues (pentaxList code len depth)).length = depth := by
  rw [pentaxValues, List.length_map, sortedEntries_length]

/-- A value is the number of the entry at its place in the sorted order. -/
theorem pentaxValues_getD (hdepth : depth ≤ 256) {i : Nat}
    (hi : i < (sortByPrefix (pentaxList code len depth)).length) :
    ∃ j < depth, (sortByPrefix (pentaxList code len depth))[i] = pentaxEntry code len j ∧
      ((pentaxValues (pentaxList code len depth)).getD i 0).toNat = j := by
  obtain ⟨j, hj, he⟩ := List.mem_map.mp (mem_sortByPrefix.mp (List.getElem_mem hi))
  have hj : j < depth := List.mem_range.mp hj
  refine ⟨j, hj, he.symm, ?_⟩
  rw [pentaxValues, List.getD_eq_getElem _ _ (by rwa [List.length_map]), List.getElem_map, ← he]
  exact Nat.mod_eq_of_lt (hj.trans_le hdepth)

theorem pentaxValues_getD_lt (hdepth : depth ≤ 256) {i : Nat} (hi : i < depth) :
    ((pentaxValues (pentaxList code len depth)).getD i 0).toNat < depth := by
  have hi' := hi.trans_eq (sortedEntries_length (code := code) (len := len)).symm
  obtain ⟨j, hj, -, hvalue⟩ := pentaxValues_getD hdepth hi'
  exact hvalue.trans_lt hj

/-- Without a tie the prefixes of the entries the values name strictly increase. -/
theorem pentaxValues_increasing (hdepth : depth ≤ 256)
    (hdistinct : (pentaxList code len depth).Pairwise (fun e f => e.pre ≠ f.pre)) {i j : Nat}
    (hij : i < j) (hj : j < depth) :
    (pentaxEntry code len ((pentaxValues (pentaxList code len depth)).getD i 0).toNat).pre <
      (pentaxEntry code len ((pentaxValues (pentaxList code len depth)).getD j 0).toNat).pre := by
  have hi' := (hij.trans hj).trans_eq (sortedEntries_length (code := code) (len := len)).symm
  have hj' := hj.trans_eq (sortedEntries_length (code := code) (len := len)).symm
  obtain ⟨a, -, ha, hvaluea⟩ := pentaxValues_getD hdepth hi'
  obtain ⟨b, -, hb, hvalueb⟩ := pentaxValues_getD hdepth hj'
  rw [hvaluea, hvalueb, ← ha, ← hb]
  exact List.pairwise_iff_getElem.mp (sortByPrefix_increasing hdistinct) i j hi' hj' hij

end

/-! ## The counts -/

theorem countOf_pentaxCounts {code len : Nat → Nat} {depth : Nat} (hdepth : depth < 256) (values : List Byte) {l : Nat}
    (hl : l < 16) :
    (loadedTable (pentaxCounts (pentaxList code len depth)) values).countOf (l + 1) =
      ((List.range depth).filter (fun i => decide (len i = l + 1))).length := by
  have hsmall : ((List.range depth).filter (fun i => decide (len i = l + 1))).length < 2 ^ 8 :=
    lt_of_le_of_lt (List.length_filter_le _ _) (by simpa using hdepth)
  rw [HuffTable.countOf, loadedTable, Nat.add_sub_cancel, Vector.getElem?_eq_getElem hl, Option.getD_some,
    pentaxCounts, pentaxList, Vector.getElem_ofFn, List.filter_map, List.length_map, BitVec.toNat_ofNat]
  exact Nat.mod_eq_of_lt hsmall

section
variable {c : HuffTable} {n : Nat → Nat} {l : Nat} (h : ∀ l < 16, c.countOf (l + 1) = n (l + 1))
include h

theorem firstCode_of_counts (hl : l ≤ 16) :
    firstCode c l = ((List.range l).map (fun i => n (i + 1) * 2 ^ (l - i))).sum := by
  refine congrArg List.sum (List.map_congr_left fun i hi => ?_)
  rw [h i (by have := List.mem_range.mp hi; omega)]

theorem codesBelow_of_counts (hl : l ≤ 16) : codesBelow c l = ((List.range l).map (fun i => n (i + 1))).sum :=
  congrArg List.sum (List.map_congr_left fun i hi => h i (by have := List.mem_range.mp hi; omega))

/-- The code space the lengths up to l + 1 take, in codes of length l + 1. -/
theorem codeSpace_of_counts (hl : l < 16) :
    firstCode c l + c.countOf (l + 1) = ((List.range (l + 1)).map (fun i => n (i + 1) * 2 ^ (l - i))).sum := by
  rw [firstCode_of_counts h hl.le, h l hl, List.range_succ, List.map_append, List.sum_append]
  simp

end

/-! ## The command -/

/-- HT_LOAD_PENTAX once its entries are read. -/
def pentaxBuild (t : TableIx) (k : StreamIx) (pos : Nat) (entries : List PentaxEntry) (s : State) : Eff State :=
  match reportedTie s.draws (tiedPairs entries) with
  | some (e, f) => raiseError .corrupt (col := e.ix) (comp := f.ix) (val := e.pre)
  | none => loadTable t (pentaxCounts entries) (pentaxValues entries) s >>= fun r => .ok (r.setPos k pos)

/-- HT_LOAD_PENTAX once its depth is read. -/
def pentaxLoad (t : TableIx) (k : StreamIx) (depth : Nat) (s : State) : Eff State := do
  let v := s.streams[k]
  let q := v.pos.toNat
  require (decide (1 ≤ depth ∧ depth ≤ 15)) ⟨.corrupt, 0, 0, t.val, depth⟩
  require (decide (q + 2 + 3 * depth ≤ v.size.toNat)) ⟨.ioBounds, q, (2 + 3 * depth : Nat), k.val, v.size.toNat⟩
  let codes ← pentaxCodes s v (q + 2) depth
  let entries ← pentaxEntries s v (q + 2 + 2 * depth) 0 codes
  pentaxBuild t k (q + 2 + 3 * depth) entries s

section
variable {s : State} {t : TableIx} {k : StreamIx} {depth : Nat} {code len : Nat → Nat}

section
variable (hvalid : s.streams[k].valid = true)
include hvalid

theorem htLoadPentax_of_short (h : s.streams[k].size.toNat < s.streams[k].pos.toNat + 2) :
    htLoadPentax t k s =
      .error (.raised ⟨.ioBounds, s.streams[k].pos.toNat, 2, k.val, s.streams[k].size.toNat⟩) :=
  Eff.bind_of_ok (schk_valid hvalid) (Eff.bind_of_error (require_of_not (decide_eq_false h.not_ge)))

theorem htLoadPentax_of_head (hlegal : s.streams[k].legal s.par = true)
    (h : s.streams[k].pos.toNat + 2 ≤ s.streams[k].size.toNat) :
    htLoadPentax t k s = pentaxLoad t k (cursorWord s s.streams[k] 0) s := by
  obtain ⟨hwindow, -⟩ := (StreamSlot.legal_iff hvalid).mp hlegal
  have hread := windowValue_word (s := s) (v := s.streams[k]) (o := 0) (by omega)
  exact Eff.bind_of_ok (schk_valid hvalid) (Eff.bind_of_ok (require_of (decide_eq_true h)) (Eff.bind_of_ok hread rfl))

end

theorem pentaxLoad_of_bad_depth (h : depth = 0 ∨ 15 < depth) :
    pentaxLoad t k depth s = .error (.raised ⟨.corrupt, 0, 0, t.val, depth⟩) :=
  Eff.bind_of_error (require_of_not (decide_eq_false (by omega)))

variable (hlow : 1 ≤ depth) (hhigh : depth ≤ 15)
include hlow hhigh

theorem pentaxLoad_of_short (h : s.streams[k].size.toNat < s.streams[k].pos.toNat + 2 + 3 * depth) :
    pentaxLoad t k depth s = .error (.raised
      ⟨.ioBounds, s.streams[k].pos.toNat, (2 + 3 * depth : Nat), k.val, s.streams[k].size.toNat⟩) :=
  Eff.bind_of_ok (require_of (decide_eq_true ⟨hlow, hhigh⟩))
    (Eff.bind_of_error (require_of_not (decide_eq_false h.not_ge)))

section
variable (hvalid : s.streams[k].valid = true) (hlegal : s.streams[k].legal s.par = true)
  (hsize : s.streams[k].pos.toNat + 2 + 3 * depth ≤ s.streams[k].size.toNat)
  (hdata : ∀ i < depth, code i = cursorWord s s.streams[k] (2 + 2 * i) ∧
    len i = (cursorByte s s.streams[k] (2 + 2 * depth + i)).toNat)
include hvalid hlegal hsize hdata

/-- With the codes read, the entries decide. -/
theorem pentaxLoad_of_codes :
    pentaxLoad t k depth s =
      pentaxEntries s s.streams[k] (s.streams[k].pos.toNat + (2 + 2 * depth + 0)) 0 ((List.range' 0 depth).map code) >>=
        fun entries => pentaxBuild t k (s.streams[k].pos.toNat + 2 + 3 * depth) entries s := by
  obtain ⟨hwindow, -⟩ := (StreamSlot.legal_iff hvalid).mp hlegal
  have hcodes := pentaxCodes_ok (s := s) (v := s.streams[k]) (o := 2) (i := 0) (n := depth) (code := code) (by omega)
    fun j hj => (hdata j (by omega)).1
  rw [show s.streams[k].pos.toNat + (2 + 2 * depth + 0) = s.streams[k].pos.toNat + 2 + 2 * depth by omega]
  exact Eff.bind_of_ok (require_of (decide_eq_true ⟨hlow, hhigh⟩)) (Eff.bind_of_ok (require_of (decide_eq_true hsize))
    (Eff.bind_of_ok hcodes rfl))

theorem pentaxLoad_of_bad_length {i : Nat} (hi : i < depth) (hrange : ∀ j < i, 1 ≤ len j ∧ len j ≤ 12)
    (hbad : len i = 0 ∨ 12 < len i) :
    pentaxLoad t k depth s = .error (.raised ⟨.corrupt, 0, 0, i, len i⟩) := by
  obtain ⟨hwindow, -⟩ := (StreamSlot.legal_iff hvalid).mp hlegal
  rw [pentaxLoad_of_codes hlow hhigh hvalid hlegal hsize hdata]
  exact Eff.bind_of_error (pentaxEntries_of_bad_length (by omega) (fun j hj => (hdata j (by omega)).2) (Nat.zero_le i)
    (by omega) hrange hbad)

theorem pentaxLoad_of_lengths (hrange : ∀ i < depth, 1 ≤ len i ∧ len i ≤ 12) :
    pentaxLoad t k depth s = pentaxBuild t k (s.streams[k].pos.toNat + 2 + 3 * depth)
      (pentaxList code len depth) s := by
  obtain ⟨hwindow, -⟩ := (StreamSlot.legal_iff hvalid).mp hlegal
  rw [pentaxLoad_of_codes hlow hhigh hvalid hlegal hsize hdata, pentaxList, List.range_eq_range']
  exact Eff.bind_of_ok (pentaxEntries_ok_of_lengths (by omega) (fun j hj => (hdata j (by omega)).2)
    fun j hj => hrange j (by omega)) rfl

end
end

section
variable {s : State} {t : TableIx} {k : StreamIx} {pos : Nat} {entries : List PentaxEntry}

theorem pentaxBuild_of_tie (h : ¬ entries.Pairwise (fun e f => e.pre ≠ f.pre)) :
    ∃ e f, f.pre = e.pre ∧ [e, f].Sublist entries ∧
      pentaxBuild t k pos entries s = .error (.raised ⟨.corrupt, 0, e.ix, f.ix, e.pre⟩) := by
  obtain ⟨⟨e, f⟩, hmem, hreported⟩ := reportedTie_mem (draw := s.draws) (mt tiedPairs_eq_nil.mp h)
  obtain ⟨hpre, hsub⟩ := mem_tiedPairs.mp hmem
  refine ⟨e, f, hpre, hsub, ?_⟩
  rw [pentaxBuild, hreported]
  rfl

theorem pentaxBuild_of_distinct (h : entries.Pairwise (fun e f => e.pre ≠ f.pre)) :
    pentaxBuild t k pos entries s =
      loadTable t (pentaxCounts entries) (pentaxValues entries) s >>= fun r => .ok (r.setPos k pos) := by
  rw [pentaxBuild, tiedPairs_eq_nil.mpr h]
  rfl

end

/-- Settles O44: each check's error is one path; with the entries read, a tie, an oversubscribed length or the loaded
table decides. -/
theorem pentaxTableComesFromTheStream : Obligations.PentaxTableComesFromTheStream := by
  intro s t k depth code len hp v pos u16At entries key space fails
  refine ⟨fun hv => finishPrimitive_of_raised (Eff.bind_of_error (schk_invalid hv)),
    fun hv hshort => finishPrimitive_of_raised (htLoadPentax_of_short hv hshort), fun hv hlegal hhead hdepth => ?_⟩
  have hload : htLoadPentax t k s = pentaxLoad t k depth s := by
    rw [hdepth]
    exact htLoadPentax_of_head hv hlegal hhead
  have hfails : ∀ e, pentaxLoad t k depth s = .error (.raised e) → fails e := fun e he =>
    finishPrimitive_of_raised (hload.trans he)
  refine ⟨fun hbad => hfails _ (pentaxLoad_of_bad_depth hbad),
    fun hlow hhigh hshort => hfails _ (pentaxLoad_of_short hlow hhigh hshort), fun hlow hhigh hsize hdata =>
    ⟨fun i hi hrange hbad => hfails _ (pentaxLoad_of_bad_length hlow hhigh hv hlegal hsize hdata hi hrange hbad),
      fun hrange => ?_⟩⟩
  have hbuild := pentaxLoad_of_lengths (t := t) hlow hhigh hv hlegal hsize hdata hrange
  have hcounts : ∀ l < 16, (loadedTable (pentaxCounts (pentaxList code len depth))
      (pentaxValues (pentaxList code len depth))).countOf (l + 1) = entries (l + 1) :=
    fun l hl => countOf_pentaxCounts (by omega) _ hl
  have hspace := fun l hl => codeSpace_of_counts (n := entries) (l := l) hcounts hl
  have hties : (pentaxList code len depth).Pairwise (fun e f => e.pre ≠ f.pre) ↔
      ∀ i j, i < j → j < depth → key i ≠ key j := pairwise_map_range
  refine ⟨fun ⟨i, j, hij, hj, htie⟩ => ?_, fun hdistinct => ?_⟩
  · obtain ⟨e, f, hpre, hsub, hraise⟩ := pentaxBuild_of_tie (s := s) (t := t) (k := k) (pos := pos + 2 + 3 * depth)
      fun hpairwise => hties.mp hpairwise i j hij hj htie
    obtain ⟨i, j, hij, hj, rfl, rfl⟩ := places_of_sublist_map_range hsub
    exact ⟨i, j, hij, hj, hpre.symm, hfails _ (hbuild.trans hraise)⟩
  rw [pentaxBuild_of_distinct (hties.mpr hdistinct)] at hbuild
  refine ⟨fun l hl hfits hover => hfails _ (hbuild.trans ?_), fun hfits => ?_⟩
  · have hraise := loadTable_of_oversubscribed (t := t) hp hl
      (fun k hk => (hspace k (by omega)).trans_le (hfits k hk)) (hover.trans_eq (hspace l hl).symm)
    rw [hspace l hl] at hraise
    exact Eff.bind_of_error hraise
  · obtain ⟨h, hok, hloaded⟩ := loadTable_of_fits (t := t) hp fun l hl => (hspace l hl).trans_le (hfits l hl)
    have hvalue := hloaded.valueAt (by rw [pentaxValues_length]; omega)
    refine ⟨h, finishPrimitive_of_ok (hload.trans (hbuild.trans (Eff.bind_of_ok hok ?_))), hloaded.state,
      hloaded.nvalues.trans pentaxValues_length, hloaded.dng16, fun l hl =>
      ⟨(hloaded.count _).trans (hcounts l hl), (hloaded.first l hl).trans (firstCode_of_counts hcounts hl.le),
        (hloaded.index l hl).trans (codesBelow_of_counts hcounts hl.le)⟩, fun i hi => ?_, fun i hi => ?_,
      fun i j hij hj => ?_⟩
    · rw [← ofNat_toNat_add_nat, ← Nat.add_assoc]
      rfl
    · rw [hvalue]
      exact pentaxValues_getD_lt (by omega) hi
    · rw [hvalue, List.getD_eq_default _ _ (pentaxValues_length.trans_le hi)]
    · rw [hvalue, hvalue]
      exact pentaxValues_increasing (by omega) (hties.mpr hdistinct) hij hj

end Sys2Proof.Machine

/-! SUPPORT. LJ_DECODE read backwards: a run that completed passed its checks, and its samples are those of the
differences it read; and what the differences depend on (spec 44_ljpeg.md R190, R193). -/

namespace Sys2Proof.Machine

/-! ## Reading bits and differences does not see the host registers -/

section
variable (s : State) (g : HostRegs) (ix : PumpIx) (p : Pump)

theorem readInBytes_regs (raced : List Nat) (a n : Nat) :
    readInBytes { s with regs := g } raced a n = readInBytes s raced a n := by
  induction n generalizing a with
  | zero => rfl
  | succ n ih =>
    simp only [readInBytes, ih]
    rfl

theorem fetchWord_regs : fetchWord { s with regs := g } p = fetchWord s p := by
  simp only [fetchWord, nextWord, wordBytes, readInBytes_regs]

theorem fill_regs : fill { s with regs := g } p = fill s p := by
  rw [fill, fetchWord_regs]
  rfl

theorem pget_regs (n : Nat) : pget { s with regs := g } ix p n = pget s ix p n := by
  rw [pget, fill_regs]
  rfl

theorem hsymFrom_regs (t : TableIx) (fuel l code : Nat) :
    hsymFrom { s with regs := g } t ix fuel l code p = hsymFrom s t ix fuel l code p := by
  induction fuel generalizing l code p with
  | zero => rfl
  | succ fuel ih => simp only [hsymFrom, pget_regs, ih]

theorem hdiff_regs (t : TableIx) : hdiff { s with regs := g } t ix p = hdiff s t ix p := by
  simp only [hdiff, hsym, pskip, hsymFrom_regs, pget_regs]

theorem readDiffs_regs (l : List TableIx) : readDiffs { s with regs := g } ix l p = readDiffs s ix l p := by
  induction l generalizing p with
  | nil => rfl
  | cons t l ih => simp only [readDiffs, hdiff_regs, ih]

end

/-! ## What the checks of a completed run say -/

section
variable {s : State} {p : PumpIx} {tabs : List TableIx}

theorem ljSampling_loop_ok {n : Nat} (h : forUp (ljSampling s) n 0 () = .ok ()) :
    ∀ i < n, s.regs.ljHi i = 1 ∧ s.regs.ljVi i = 1 := by
  rw [← Nat.zero_add n]
  refine forUp_invariant (fun n _ => ∀ i < n, s.regs.ljHi i = 1 ∧ s.regs.ljVi i = 1)
    (fun _ hi => absurd hi (Nat.not_lt_zero _)) (fun j _ _ _ _ hbefore hj i hi => ?_) h
  rcases Nat.lt_succ_iff_lt_or_eq.mp hi with hlt | rfl
  · exact hbefore i hlt
  · exact of_decide_eq_true (require_ok.mp hj)

theorem ljTable_ok {i : Nat} {t : TableIx} (h : ljTable s i = .ok t) :
    t.val = s.regs.ljTblOf i ∧ s.tables[t].state = .ready := by
  unfold ljTable at h
  split at h
  case h_1 hslot =>
    obtain ⟨_, hready, hret⟩ := Eff.bind_ok.mp h
    obtain rfl := Except.ok.inj hret
    exact ⟨(slotOf_some.mp hslot).1, (tchk_ok.mp hready).1⟩
  case h_2 => cases h

theorem ljTables_ok {n k : Nat} (h : ljTables s n k = .ok tabs) :
    tabs.length = n ∧
      ∀ i (hi : i < tabs.length), (tabs[i]).val = s.regs.ljTblOf (k + i) ∧ s.tables[tabs[i]].state = .ready := by
  induction n generalizing k tabs with
  | zero =>
    obtain rfl := Except.ok.inj h
    exact ⟨rfl, fun _ hi => absurd hi (Nat.not_lt_zero _)⟩
  | succ n ih =>
    obtain ⟨t, ht, h⟩ := Eff.bind_ok.mp h
    obtain ⟨l, hl, hret⟩ := Eff.bind_ok.mp h
    obtain rfl := Except.ok.inj hret
    obtain ⟨hlength, hslots⟩ := ih hl
    refine ⟨congrArg (· + 1) hlength, fun i hi => ?_⟩
    cases i with
    | zero => exact ljTable_ok ht
    | succ i =>
      have hslot := hslots i (Nat.lt_of_succ_lt_succ hi)
      rwa [Nat.add_assoc, Nat.add_comm 1 i] at hslot

/-- The checks, read backwards (44_ljpeg.md R190). -/
theorem ljAccepts_of_checks (hv : s.pumps[p].valid = true) (h : ljCheck s = .ok tabs) : LjAccepts s p tabs := by
  simp only [ljCheck, Eff.bind_ok, require_ok, decide_eq_true_eq] at h
  obtain ⟨_, hcomps, _, hpsv, _, hsampling, _, htables, _, himage, _, htile, _, hframe, _, hplace, hret⟩ := h
  obtain rfl := Except.ok.inj hret
  obtain ⟨hcount, hslots⟩ := ljTables_ok htables
  exact ⟨⟨hcomps, hpsv, ljSampling_loop_ok hsampling⟩, hv, hcount, fun i hi => by simpa using hslots i hi,
    imgChk_ok.mp himage, htile, hframe, hplace⟩

/-- The tables of an accepted run are those LJ_TBL names, whatever the tile. -/
theorem LjAccepts.tables_eq {s' : State} {tabs' : List TableIx} (ha : LjAccepts s p tabs) (ha' : LjAccepts s' p tabs')
    (hn : s'.regs.ljN = s.regs.ljN) (htbl : ∀ i, s'.regs.ljTblOf i = s.regs.ljTblOf i) : tabs' = tabs :=
  List.ext_getElem (by rw [ha.count, ha'.count, hn]) fun i hi' hi => Fin.ext (by
    rw [(ha.slots i hi).1, (ha'.slots i hi').1, htbl])

/-! ## What a completed run read and stored -/

/-- Rows that decode have read every difference, and stored the tile's samples. -/
theorem LjAccepts.diffs_of_rows (ha : LjAccepts s p tabs) {x : LjRun}
    (h : forUp (ljRow s p tabs) s.regs.ljTh 0 ⟨s.pumps[p], s.outMem, s.regs.ljPreds, s.regs.ljPreds, 0⟩ = .ok x) :
    ∃ ds, readDiffs s p (ljOrder s.regs tabs) s.pumps[p] = .ok (ds, x.pump) ∧
      ∀ r c, r < s.regs.ljTh → c < s.regs.ljTw → outSample x.out (ljCell s.regs r c) = ljSample s.regs ds r c := by
  rw [readDiffs_eq_readAll]
  cases hread : readAll (fun t => hdiff s t p) (ljOrder s.regs tabs) s.pumps[p] with
  | ok v =>
    obtain ⟨ds, q⟩ := v
    obtain ⟨Q, hQ, rfl, hreads⟩ := reading_of_ok hread
    obtain ⟨y, hy, -, hpump, hstored⟩ := (ljRows_ends ha.ljTile ha.count hreads le_rfl hQ).answers fun _ => id
    obtain rfl : y = x := Except.ok.inj (hy.symm.trans h)
    exact ⟨ds, by rw [hpump], fun r c hr hc => hstored.done r c hr hc (ha.last_place hr hc)⟩
  | error e =>
    obtain ⟨_, Q, K, hQ, hK, hreads⟩ := reading_of_error hread
    obtain ⟨_, hy, -⟩ := (ljRows_ends ha.ljTile ha.count hreads hK.le hQ).stops fun _ hx => hK.ne hx.1
    cases hy.symm.trans h

/-- A completed LJ_DECODE was accepted, and its differences decode: they say what it left. -/
theorem diffs_of_exec_ljDecode {t : State} (hraced : s.outRaced = []) (ht : exec (.ljDecode p) s = .next t)
    (herr : t.status.err = false) :
    ∃ tabs ds q, LjAccepts s p tabs ∧ readDiffs s p (ljOrder s.regs tabs) s.pumps[p] = .ok (ds, q) ∧
      t.pumps = s.pumps.set p q ∧
      ∀ r c, r < s.regs.ljTh → c < s.regs.ljTw → outSample t.outMem (ljCell s.regs r c) = ljSample s.regs ds r c := by
  obtain ⟨u, hrun, rfl⟩ | ⟨_, -, rfl⟩ := finishMacro_next.mp ht
  · obtain ⟨v, hpump, hrun⟩ := Eff.bind_ok.mp hrun
    obtain ⟨tabs, hcheck, hrun⟩ := Eff.bind_ok.mp hrun
    obtain ⟨x, hrows, hret⟩ := Eff.bind_ok.mp hrun
    obtain rfl := Except.ok.inj hret
    obtain ⟨hvalid, rfl⟩ := pchk_ok.mp hpump
    have ha := ljAccepts_of_checks hvalid hcheck
    obtain ⟨ds, hds, hsamples⟩ := ha.diffs_of_rows hrows
    refine ⟨tabs, ds, x.pump, ha, hds, rfl, fun r c hr hc => ?_⟩
    simpa [hraced, settleRaced] using hsamples r c hr hc
  · cases herr

end

/-- Settles O46: both runs read the same differences in the same order, which give their pump and samples. -/
theorem ljDecodeConsumesTheWholeFrameRow : Obligations.LjDecodeConsumesTheWholeFrameRow := by
  intro s t t' p xy wh s' hxy hwh hraced _ ht ht' herr herr'
  obtain ⟨tabs, ds, q, ha, hds, hpumps, hsamples⟩ := diffs_of_exec_ljDecode hraced ht herr
  obtain ⟨tabs', ds', q', ha', hds', hpumps', hsamples'⟩ := diffs_of_exec_ljDecode (s := s') hraced ht' herr'
  have hth : s'.regs.ljTh = s.regs.ljTh := congrArg BitVec.toNat hwh
  have hty : s'.regs.ljTy = s.regs.ljTy := congrArg BitVec.toNat hxy
  obtain rfl : tabs' = tabs := ha.tables_eq ha' rfl fun _ => rfl
  have horder : ljOrder s'.regs tabs' = ljOrder s.regs tabs' := by
    rw [ljOrder, hth]
    rfl
  rw [readDiffs_regs, horder] at hds'
  obtain ⟨rfl, rfl⟩ := Prod.mk.inj (Except.ok.inj (hds.symm.trans hds'))
  refine ⟨hpumps.trans hpumps'.symm, fun r c hr hc hc' => ?_⟩
  calc outSample t.outMem (ljCell s.regs r c)
    _ = ljSample s.regs ds r c := hsamples r c hr hc
    _ = outSample t'.outMem (ljCell s'.regs r c) := (hsamples' r c (hth ▸ hr) hc').symm
    _ = outSample t'.outMem (outIdx s.regs (s.regs.ljTy + r) (s'.regs.ljTx + c)) := by rw [ljCell, hty]; rfl

end Sys2Proof.Machine

/-! SUPPORT. SV0_STRIPES: the offsets it reads, the stripes between them, and the first offset that does not increase
(spec 46_samsung.md R210, R215). -/

namespace Sys2Proof.Machine

/-! ## Offsets and stripes (46_samsung.md R210) -/

section
variable {s : State} {v : StreamSlot} {o : Nat → Nat} {i n : Nat}

theorem stripeOffsets_ok (hin : v.off.toNat + v.pos.toNat + 4 * (i + n) ≤ s.par.inSize)
    (ho : ∀ r < i + n, o r = assembled v.be 4 (fun j => cursorByte s v (4 * r + j))) :
    stripeOffsets s v (v.pos.toNat + 4 * i) n = .ok ((List.range' i n).map o) := by
  induction n generalizing i with
  | zero => rfl
  | succ n ih =>
    have hread : windowValue s v (v.pos.toNat + 4 * i) 4 = .ok (o i) := by
      rw [windowValue_ok (by omega), ho i (by omega)]
      simp only [cursorByte, Nat.add_assoc]
    have hrest := ih (i := i + 1) (by omega) fun r hr => ho r (by omega)
    exact Eff.bind_of_ok hread (Eff.bind_of_ok hrest rfl)

/-- The stripe of row r, from its offset to the next. -/
def stripeAt (rawOff : Nat) (o : Nat → Nat) (r : Nat) : Stripe :=
  ⟨BitVec.ofNat 32 (rawOff + o r), BitVec.ofNat 32 (o (r + 1) - o r)⟩

/-- The offset a row's own is compared with: the next row's, or the sentinel. -/
theorem nextOffset (o : Nat → Nat) (i n : Nat) : ((List.range' i n).map o).headD (o (i + n)) = o i := by
  cases n <;> rfl

variable {rawOff : Nat}

theorem stripesFrom_of_increasing (h : ∀ r < i + n, o r < o (r + 1)) :
    stripesFrom rawOff (o (i + n)) i ((List.range' i n).map o) = .ok ((List.range' i n).map (stripeAt rawOff o)) := by
  induction n generalizing i with
  | zero => rfl
  | succ n ih =>
    have hrest := ih (i := i + 1) fun r hr => h r (by omega)
    rw [show i + (n + 1) = i + 1 + n by omega, List.range'_succ, List.map_cons, stripesFrom, nextOffset]
    exact Eff.bind_of_ok (require_of (decide_eq_true (h i (by omega)))) (Eff.bind_of_ok hrest rfl)

theorem stripesFrom_of_bad_offset {r : Nat} (hi : i ≤ r) (hr : r < i + n) (h : ∀ k < r, o k < o (k + 1))
    (hbad : o (r + 1) ≤ o r) :
    stripesFrom rawOff (o (i + n)) i ((List.range' i n).map o) =
      .error (.raised ⟨.corrupt, r, 0, 0, o (r + 1)⟩) := by
  induction n generalizing i with
  | zero => omega
  | succ n ih =>
    rw [show i + (n + 1) = i + 1 + n by omega, List.range'_succ, List.map_cons, stripesFrom, nextOffset]
    rcases Nat.eq_or_lt_of_le hi with rfl | hlt
    · exact Eff.bind_of_error (require_of_not (decide_eq_false hbad.not_gt))
    · exact Eff.bind_of_ok (require_of (decide_eq_true (h i hlt))) (Eff.bind_of_error (ih hlt (by omega)))

end

/-! ## The command (46_samsung.md R210, R215) -/

theorem Params.sv0MaxRows_eq {par : Params} (h : par.decided = true) : par.sv0MaxRows = 65535 := by
  obtain ⟨-, -, -, -, -, -, -, -, hmax⟩ := Params.decided_iff.mp h
  exact hmax

/-- An error of SV0_STRIPES' pseudocode is entered with SV0.ready cleared. -/
theorem exec_sv0Stripes_of_raised {s : State} {a b : StreamIx} {e : ErrInfo}
    (h : sv0Stripes a b s.clearReady = .error (.raised e)) :
    exec (.sv0Stripes a b) s = .next (s.clearReady.enterError e) := finishPrimitive_of_raised h

section
variable {s : State} {a b : StreamIx} (ha : s.streams[a].valid = true) (hb : s.streams[b].valid = true)
include ha hb

theorem sv0Stripes_of_no_rows (h : s.regs.imgH.toNat = 0) :
    sv0Stripes a b s = .error (.raised ⟨.corrupt, 0, 0, 0, 0⟩) := by
  have hinfo : (⟨.corrupt, s.regs.imgH.toNat, 0, 0, 0⟩ : ErrInfo) = ⟨.corrupt, 0, 0, 0, 0⟩ := by rw [h]; rfl
  rw [← hinfo]
  exact Eff.bind_of_ok (schk_valid ha) (Eff.bind_of_ok (schk_valid hb)
    (Eff.bind_of_error (require_of_not (decide_eq_false (not_not_intro h)))))

variable (hp : s.par.decided = true) (h1 : 1 ≤ s.regs.imgH.toNat)
include hp h1

theorem sv0Stripes_of_many_rows (h : 65535 < s.regs.imgH.toNat) :
    sv0Stripes a b s = .error (.raised ⟨.unsupported, s.regs.imgH.toNat, 0, 0, 0⟩) := by
  rw [← Params.sv0MaxRows_eq hp] at h
  exact Eff.bind_of_ok (schk_valid ha) (Eff.bind_of_ok (schk_valid hb)
    (Eff.bind_of_ok (require_of (decide_eq_true (Nat.ne_of_gt h1)))
      (Eff.bind_of_error (require_of_not (decide_eq_false h.not_ge)))))

variable (hmax : s.regs.imgH.toNat ≤ 65535)
include hmax

theorem sv0Stripes_of_short
    (h : s.streams[a].size.toNat < s.streams[a].pos.toNat + 4 * s.regs.imgH.toNat) :
    sv0Stripes a b s = .error (.raised ⟨.ioBounds, s.streams[a].pos.toNat, (4 * s.regs.imgH.toNat : Nat), a.val,
      s.streams[a].size.toNat⟩) := by
  rw [← Params.sv0MaxRows_eq hp] at hmax
  exact Eff.bind_of_ok (schk_valid ha) (Eff.bind_of_ok (schk_valid hb)
    (Eff.bind_of_ok (require_of (decide_eq_true (Nat.ne_of_gt h1)))
      (Eff.bind_of_ok (require_of (decide_eq_true hmax))
        (Eff.bind_of_error (require_of_not (decide_eq_false h.not_ge))))))

/-- With the offsets read, the stripes between them decide. -/
theorem sv0Stripes_of_offsets {o : Nat → Nat} (hlegal : s.streams[a].legal s.par = true)
    (hsize : s.streams[a].pos.toNat + 4 * s.regs.imgH.toNat ≤ s.streams[a].size.toNat)
    (ho : ∀ r < s.regs.imgH.toNat,
      o r = assembled s.streams[a].be 4 (fun i => cursorByte s s.streams[a] (4 * r + i))) :
    sv0Stripes a b s =
      stripesFrom s.streams[b].off.toNat s.streams[b].size.toNat 0 ((List.range' 0 s.regs.imgH.toNat).map o) >>=
        fun l => .ok { s.setPos a (s.streams[a].pos.toNat + 4 * s.regs.imgH.toNat) with sv0 := ⟨true, l, []⟩ } := by
  obtain ⟨hwindow, -⟩ := (StreamSlot.legal_iff ha).mp hlegal
  have hoffsets := stripeOffsets_ok (i := 0) (n := s.regs.imgH.toNat) (by omega) fun r hr => ho r (by omega)
  rw [← Params.sv0MaxRows_eq hp] at hmax
  exact Eff.bind_of_ok (schk_valid ha) (Eff.bind_of_ok (schk_valid hb)
    (Eff.bind_of_ok (require_of (decide_eq_true (Nat.ne_of_gt h1)))
      (Eff.bind_of_ok (require_of (decide_eq_true hmax))
        (Eff.bind_of_ok (require_of (decide_eq_true hsize)) (Eff.bind_of_ok hoffsets rfl)))))

end

/-- Settles O49: each check's error is one path; with the offsets read, they increase or the first that does not
raises. -/
theorem stripesComeFromIncreasingOffsets : Obligations.StripesComeFromIncreasingOffsets := by
  intro s a b o hp v raw h fails
  have hfails : ∀ e, sv0Stripes a b s.clearReady = .error (.raised e) → fails e := fun _ => exec_sv0Stripes_of_raised
  refine ⟨fun ha => hfails _ (Eff.bind_of_error (schk_invalid ha)),
    fun ha hb => hfails _ (Eff.bind_of_ok (schk_valid ha) (Eff.bind_of_error (schk_invalid hb))), fun ha hb =>
    ⟨fun h0 => hfails _ (sv0Stripes_of_no_rows ha hb h0),
      fun hmany => hfails _ (sv0Stripes_of_many_rows ha hb hp (Nat.one_le_of_lt hmany) hmany),
      fun h1 hmax hshort => hfails _ (sv0Stripes_of_short ha hb hp h1 hmax hshort),
      fun hlegal h1 hmax hsize ho hlast => ?_⟩⟩
  have hstripes := sv0Stripes_of_offsets (s := s.clearReady) ha hb hp h1 hmax hlegal hsize ho
  rw [show s.clearReady.streams[b].size.toNat = o (0 + h) by rw [Nat.zero_add]; exact hlast.symm] at hstripes
  refine ⟨fun hinc => finishPrimitive_of_ok ?_, fun r hr hinc hbad => hfails _ ?_⟩
  · rw [hstripes, ← ofNat_toNat_add_nat, List.range_eq_range']
    exact Eff.bind_of_ok (stripesFrom_of_increasing fun r hr => hinc r (by omega)) rfl
  · rw [hstripes]
    exact Eff.bind_of_error (stripesFrom_of_bad_offset (Nat.zero_le r) (hr.trans_eq (Nat.zero_add h).symm) hinc hbad)

end Sys2Proof.Machine

/-! SUPPORT. SV0_DECODE on stripes of zero bytes: every read delivers 0, the lengths stay, and every sample is the seed
(spec 42_bitpump.md R141, R146; 46_samsung.md R211-R214). -/

namespace Sys2Proof.Machine

/-! ## Fetches from a window of zero bytes (42_bitpump.md R141) -/

/-- Every byte a pump can read of its window is 0. -/
def ZeroWindow (s : State) (p : Pump) : Prop := ∀ j < p.size.toNat, p.byteAt s j = .ok 0#8

section
variable {s : State} {p q : Pump}

theorem Pump.SameWindow.zeroWindow (h : p.SameWindow q) (hz : ZeroWindow s p) : ZeroWindow s q := by
  unfold ZeroWindow Pump.byteAt at hz ⊢
  rw [h.off, h.size, h.raced]
  exact hz

theorem nextByte_of_zeroWindow (hz : ZeroWindow s p) : Eff.Gives (fun x => x.1 = 0#8) (nextByte s p) := by
  unfold nextByte
  split
  · exact Eff.gives_ok rfl
  split
  · exact Eff.gives_ok rfl
  · rw [hz _ (by omega), Eff.ok_bind, if_neg fun h => absurd h.2 (by decide)]
    exact Eff.gives_ok rfl

theorem readInBytes_of_zeroWindow (hz : ZeroWindow s p) {n j : Nat} (hn : j + n ≤ p.size.toNat) :
    readInBytes s p.raced (p.off.toNat + j) n = .ok (List.replicate n 0#8) := by
  induction n generalizing j with
  | zero => rfl
  | succ n ih => exact Eff.bind_of_ok (hz j (by omega)) (Eff.bind_of_ok (ih (j := j + 1) (by omega)) rfl)

theorem leValue_replicate_zero (n : Nat) : leValue (List.replicate n 0#8) = 0 := by
  induction n with
  | zero => rfl
  | succ n ih =>
    rw [List.replicate_succ, leValue, ih]
    rfl

theorem nextWord_of_zeroWindow (hz : ZeroWindow s p) : Eff.Gives (fun x => x.1 = 0#32) (nextWord s p) := by
  unfold nextWord
  split
  · exact Eff.gives_ok rfl
  · rw [wordBytes, readInBytes_of_zeroWindow hz (by omega), Eff.ok_bind, leValue_replicate_zero]
    exact Eff.gives_ok rfl

end

/-! ## Reads from a window of zero bytes (42_bitpump.md R146) -/

/-- A legal pump on a window of `size` zero bytes, with at most `used` of its bits delivered. -/
structure ZeroPump (s : State) (size used : Nat) (p : Pump) : Prop where
  fits : p.Fits s.par
  window : ZeroWindow s p
  cache : ∀ b ∈ p.cache, b = false
  size_eq : p.size.toNat = size
  consumed : p.consumed.toNat ≤ used

theorem bitsVal_of_false {b : Bits} (h : ∀ x ∈ b, x = false) : bitsVal b = 0 := by
  induction b with
  | nil => rfl
  | cons x b ih =>
    obtain rfl := h x List.mem_cons_self
    exact ih fun y hy => h y (List.mem_cons_of_mem _ hy)

section
variable {s : State} {ix : PumpIx} {size used n : Nat} {p q : Pump}

theorem ZeroPump.mono {used' : Nat} (h : ZeroPump s size used p) (hle : used ≤ used') : ZeroPump s size used' p :=
  { h with consumed := h.consumed.trans hle }

/-- A fetch of zero bits. -/
theorem ZeroPump.fetched {c : Bits} (h : ZeroPump s size used p) (hq : Fetched s.par n p q) (hc : ∀ b ∈ c, b = false)
    (hlen : c.length = n) (hroom : p.cache.length + n ≤ 64) :
    ZeroPump s size used { q with cache := q.cache ++ c } ∧
      (q.cache ++ c).length = p.cache.length + n := by
  have hgrown := grown_of_fetched h.fits hq hlen hroom
  refine ⟨⟨hgrown.fits, hgrown.window.zeroWindow h.window, fun b hb => ?_, ?_, ?_⟩, hgrown.grown⟩
  · rcases List.mem_append.mp hb with hold | hnew
    · exact h.cache b (hq.cache ▸ hold)
    · exact hc b hnew
  · exact (congrArg BitVec.toNat hgrown.window.size).trans h.size_eq
  · exact (congrArg BitVec.toNat hgrown.consumed).trans_le h.consumed

theorem can_fetchByte_zero (h : ZeroPump s size used p) (hroom : p.cache.length ≤ 56) :
    Eff.Can [] (fun q => ZeroPump s size used q ∧ q.cache.length = p.cache.length + 8) (fetchByte s p) :=
  Eff.can_bind (can_nextByte h.fits).and_ok fun x ⟨hfetched, hx⟩ =>
    h.fetched hfetched (by rw [nextByte_of_zeroWindow h.window x hx]; decide) (bits8_length x.1) (by omega)

theorem can_fetchWord_zero (h : ZeroPump s size used p) (hm : p.mode = .msb32) (hroom : p.cache.length ≤ 32) :
    Eff.Can [] (ZeroPump s size used) (fetchWord s p) :=
  Eff.can_bind (can_nextWord h.fits hm).and_ok fun x ⟨hfetched, hx⟩ =>
    (h.fetched hfetched (by rw [nextWord_of_zeroWindow h.window x hx]; decide) (bits32_length x.1) (by omega)).1

theorem can_fetchFourBytes_zero (h : ZeroPump s size used p) (hroom : p.cache.length < 32) :
    Eff.Can [] (ZeroPump s size used) (fetchFourBytes s p) :=
  Eff.can_mono (can_forUp (body := fun _ q => fetchByte s q)
      (fun j q => ZeroPump s size used q ∧ q.cache.length = p.cache.length + 8 * j) 4 0 p ⟨h, rfl⟩
      fun j q _ hj hq => Eff.can_mono (can_fetchByte_zero hq.1 (by omega)) (fun _ hc => hc)
        fun r hr => ⟨hr.1, by omega⟩)
    (fun _ hc => hc) fun _ hq => hq.1

theorem can_fill_zero (h : ZeroPump s size used p) : Eff.Can [] (ZeroPump s size used) (fill s p) := by
  unfold fill
  rw [Params.fillThreshold_eq h.fits.build]
  split
  · exact h
  · split
    · exact can_fetchWord_zero h ‹_› (by omega)
    · exact can_fetchFourBytes_zero h (by omega)
    · exact can_fetchFourBytes_zero h (by omega)

/-- Bits within a window may be delivered in every mode. -/
theorem mayDeliver_of_le {par : Params} (h : p.consumed.toNat + n ≤ 8 * p.size.toNat) : p.mayDeliver par n := by
  unfold Pump.mayDeliver Pump.dataBits
  cases p.mode with
  | jpeg => exact .inl rfl
  | msb => exact .inr (h.trans (Nat.le_add_right _ _))
  | msb32 =>
    right
    dsimp only
    omega

/-- A read within a window of zero bytes delivers 0. -/
theorem pget_zero (h : ZeroPump s size used p) (hn : used + n ≤ 8 * size) :
    ∃ q, pget s ix p n = .ok (0, q) ∧ ZeroPump s size (used + n) q := by
  obtain ⟨r, hfill, hr⟩ := Eff.can_nil.mp (can_fill_zero h)
  have hconsumed := hr.consumed
  have hmay : r.mayDeliver s.par n := mayDeliver_of_le (by rw [hr.size_eq]; omega)
  have hvalue : bitsVal (r.cache.take n) = 0 := bitsVal_of_false fun b hb => hr.cache b (List.mem_of_mem_take hb)
  refine ⟨r.deliver n, ?_, deliver_fits n hr.fits, hr.window, fun b hb => hr.cache b (List.mem_of_mem_drop hb),
    hr.size_eq, ?_⟩
  · rw [pget, hfill, Eff.ok_bind, overreads_eq_false_iff.mpr hmay, hvalue]
    rfl
  · calc (r.consumed + BitVec.ofNat 36 n).toNat
      _ ≤ r.consumed.toNat + n := by
        rw [BitVec.toNat_add, BitVec.toNat_ofNat]
        omega
      _ ≤ used + n := Nat.add_le_add_right hconsumed n

theorem readNumbers_zero {l : List Nat} (h : ZeroPump s size used p) (hl : used + l.sum ≤ 8 * size) :
    ∃ q, readNumbers s ix l p = .ok (List.replicate l.length 0, q) ∧ ZeroPump s size (used + l.sum) q := by
  induction l generalizing p used with
  | nil => exact ⟨p, rfl, h⟩
  | cons n l ih =>
    rw [List.sum_cons] at hl ⊢
    obtain ⟨r, hget, hr⟩ := pget_zero (ix := ix) h (n := n) (by omega)
    obtain ⟨q, hrest, hq⟩ := ih hr (by omega)
    exact ⟨q, readNumbers_cons_ok.mpr ⟨0, r, _, hget, hrest, rfl⟩, hq.mono (by omega)⟩

/-- SV0_DECODE's pump on a stripe of zero bytes in IN (46_samsung.md R211; log 27). -/
theorem stripePump_zero {mode : PumpMode} {x : Stripe} (hp : s.par.decided = true)
    (hin : x.off.toNat + x.size.toNat ≤ s.par.inSize)
    (hzero : ∀ a, x.off.toNat ≤ a → a < x.off.toNat + x.size.toNat → inByte s a = 0#8 ∧ a ∉ s.sv0.raced) :
    ZeroPump s x.size.toNat 0 (stripePump s mode x) where
  fits := stripePump_fits hp hin
  window j hj := by
    have hj : j < x.size.toNat := hj
    obtain ⟨hbyte, hquiet⟩ := hzero (x.off.toNat + j) (by omega) (by omega)
    refine readIn_ok.mpr ⟨?_, hbyte.symm.trans ?_⟩
    · show x.off.toNat + j < s.par.inSize
      omega
    · simp [inByte, stripePump, freshPump, hquiet]
  cache := nofun
  size_eq := rfl
  consumed := le_rfl

end

/-! ## A group of zero bits (46_samsung.md R212, R213) -/

section
variable {s : State} {p : PumpIx} {size r g : Nat} {x : SvRun}

theorem adjustments_zero (lens : List Nat) {nums : List Nat} (h : ∀ v ∈ nums, v = 0) :
    ∀ a ∈ adjustments lens nums, a = 0 := by
  induction lens generalizing nums with
  | nil => exact nofun
  | cons b lens ih =>
    cases b with
    | zero => simpa [adjustments] using ih h
    | succ b =>
      have hhead : nums.headD 0 = 0 := by
        cases nums with
        | nil => rfl
        | cons v nums => exact h v List.mem_cons_self
      rw [adjustments, hhead, if_pos (Nat.two_pow_pos b)]
      exact List.forall_mem_cons.mpr ⟨rfl, ih fun v hv => h v (List.mem_of_mem_tail hv)⟩

theorem getD_of_zeros {l : List Int} (h : ∀ a ∈ l, a = 0) (i : Nat) : l.getD i 0 = 0 := by
  rw [List.getD_eq_getElem?_getD]
  cases hi : l[i]? with
  | none => rfl
  | some a => exact h a (List.mem_of_getElem? hi)

/-- The adjustments of a group take at most 112 bits while the lengths are a row's first. -/
theorem initialLengths_bits (r : Nat) :
    ((groupLengths (svInitialLengths r)).filter (fun n => decide (n ≠ 0))).sum ≤ 112 := by
  unfold svInitialLengths
  split <;> decide

theorem initialLengths_length (r : Nat) : (svInitialLengths r).length = 4 := by
  unfold svInitialLengths
  split <;> rfl

theorem initialLengths_range (r : Nat) : ∀ l ∈ svInitialLengths r, 0 ≤ l ∧ l ≤ 16 := by
  unfold svInitialLengths
  split <;> decide

/-- Opcodes 0 keep the lengths. -/
theorem adaptedLengths_zero (r : Nat) : adaptedLengths [0, 0, 0, 0] (svInitialLengths r) [] = svInitialLengths r := by
  unfold svInitialLengths
  split <;> decide

/-- A row of zero bits stands before group g: the image's samples before it are the seed. -/
structure SeedRow (s : State) (size r g : Nat) (x : SvRun) : Prop where
  pump : ZeroPump s size (121 * g) x.pump
  len : x.len = svInitialLengths r
  seed : ∀ r' c, c < s.regs.imgW.toNat → r' < r ∨ (r' = r ∧ c < 16 * g) →
    outSample x.out (outIdx s.regs r' c) = 128#16

theorem groupPredictor_seed {col : Nat} (hcol : col < s.regs.imgW.toNat) (c : Nat)
    (h : ∀ c' < col, outSample x.out (outIdx s.regs r c') = 128#16) :
    groupPredictor s.regs x.out 0 r col c = 128 := by
  rw [groupPredictor, if_neg Nat.zero_ne_one]
  split
  · rfl
  · rw [h _ (by omega)]
    rfl

/-- Group g reads 0 for its direction, its opcodes and its adjustments, and stores the seed. -/
theorem svGroup_seed (hi : imageOk s) (hr : r < s.regs.imgH.toNat) (hg : 16 * g < s.regs.imgW.toNat)
    (hsize : 121 * (g + 1) ≤ 8 * size) (h : SeedRow s size r g x) :
    ∃ y, svGroup s p r g x = .ok y ∧ SeedRow s size r (g + 1) y := by
  obtain ⟨pump, out, len⟩ := x
  obtain ⟨hpump, rfl, hseed⟩ := h
  have hopBits : [2, 2, 2, 2].sum = 8 := rfl
  have hbits := initialLengths_bits r
  obtain ⟨q, hdir, hq⟩ := pget_zero (ix := p) (n := 1) hpump (by omega)
  obtain ⟨q', hops, hq'⟩ := readNumbers_zero (ix := p) (l := [2, 2, 2, 2]) hq (by omega)
  obtain ⟨q'', hnums, hq''⟩ := readNumbers_zero (ix := p)
    (l := (groupLengths (svInitialLengths r)).filter (fun n => decide (n ≠ 0))) hq' (by omega)
  have hadapt := forUp_svAdapt_all (s := s) (p := p) (r := r) (col := 16 * g) (ops := [0, 0, 0, 0])
    (x := ⟨pump, out, svInitialLengths r⟩) (news := []) (q := q') (q' := q') (initialLengths_length r) rfl rfl
    (by rw [adaptedLengths_zero]; exact initialLengths_range r)
  rw [adaptedLengths_zero] at hadapt
  obtain ⟨m, hsamples, hstored, hrest⟩ := svSamples_of_reads (x := ⟨q', out, svInitialLengths r⟩) (dir := 0)
    hi hr hg nofun hnums
  refine ⟨_, (svGroup_of_reads hdir hops).trans (Eff.bind_of_ok hadapt hsamples), hq''.mono (by omega), rfl,
    fun r' c hc hbefore => ?_⟩
  by_cases hin : r' = r ∧ 16 * g ≤ c
  · obtain ⟨rfl, hge⟩ := hin
    obtain ⟨d, rfl⟩ := Nat.exists_eq_add_of_le hge
    rw [hstored d (by omega) hc, svValue,
      getD_of_zeros (adjustments_zero _ fun v hv => List.eq_of_mem_replicate hv),
      groupPredictor_seed hg d fun c' hc' => hseed _ _ (by omega) (.inr ⟨rfl, hc'⟩)]
    rfl
  · rw [hrest _ fun d _ hd he => hin ?_]
    · exact hseed r' c hc (by omega)
    · have hcell := outIdx_inj hi hc hd he
      omega

end

/-! ## Rows and the image (46_samsung.md R211, R214) -/

section
variable {s : State} {p : PumpIx} {mode : PumpMode}

/-- A row on a stripe of zero bytes long enough for its groups leaves the seed in every column. -/
theorem svRow_seed {r : Nat} {x : Stripe} {y : Pump × OutMemory} (hi : imageOk s) (hr : r < s.regs.imgH.toNat)
    (hstripe : s.sv0.stripes[r]? = some x) (hpump : ZeroPump s x.size.toNat 0 (stripePump s mode x))
    (hsize : 121 * ((s.regs.imgW.toNat + 15) / 16) ≤ 8 * x.size.toNat)
    (hseed : ∀ r' c, c < s.regs.imgW.toNat → r' < r → outSample y.2 (outIdx s.regs r' c) = 128#16) :
    ∃ z, svRow s p mode r y = .ok z ∧
      ∀ r' c, c < s.regs.imgW.toNat → r' < r + 1 → outSample z.2 (outIdx s.regs r' c) = 128#16 := by
  have hstart : SeedRow s x.size.toNat r 0 ⟨stripePump s mode x, y.2, svInitialLengths r⟩ :=
    ⟨hpump, rfl, fun r' c hc hbefore => hseed r' c hc (by omega)⟩
  obtain ⟨z, hloop, hz⟩ := Eff.can_nil.mp (can_forUp (SeedRow s x.size.toNat r) ((s.regs.imgW.toNat + 15) / 16) 0 _
    hstart fun g z _ hg hz => Eff.can_nil.mpr (svGroup_seed (p := p) hi hr (by omega) (by omega) hz))
  refine ⟨(z.pump, z.out), ?_, fun r' c hc hr' => hz.seed r' c hc (by omega)⟩
  rw [svRow_of_stripe hstripe, ← svInitialLengths_eq]
  exact Eff.bind_of_ok hloop rfl

/-- The fix-up moves samples of the image within the image. -/
theorem fixupSource_inImage {g : HostRegs} {r c : Nat} (hr : r < g.imgH.toNat) (hc : c < g.imgW.toNat) :
    ∃ r' c', r' < g.imgH.toNat ∧ c' < g.imgW.toNat ∧ fixupSource g r c = outIdx g r' c' := by
  unfold fixupSource
  split
  · exact ⟨r + 1, c - 1, by omega, by omega, rfl⟩
  split
  · exact ⟨r - 1, c + 1, by omega, by omega, rfl⟩
  · exact ⟨r, c, hr, hc, rfl⟩

end

/-- Settles O52: every row stores the seed, and the fix-up only moves samples within the image. -/
theorem zeroStripesDecodeToTheSeed : Obligations.ZeroStripesDecodeToTheSeed := by
  intro s p mode g hready hi hrows hlegal hstripes
  obtain ⟨-, hp⟩ := Params.legal_iff.mp hlegal
  obtain ⟨⟨q, m⟩, hloop, hseed⟩ := Eff.can_nil.mp (can_forUp (body := svRow s p mode)
    (fun r y => ∀ r' c, c < g.imgW.toNat → r' < r → outSample y.2 (outIdx g r' c) = 128#16) g.imgH.toNat 0
    (s.pumps[p], s.outMem) (fun _ _ _ hr' => absurd hr' (Nat.not_lt_zero _)) fun r y _ hr hy => by
      have hrow : r < s.sv0.stripes.length := by omega
      obtain ⟨hinside, hsize, hzero⟩ := hstripes _ (List.getElem_mem hrow)
      obtain ⟨-, hin⟩ : _ ∧ _ := of_decide_eq_true hinside
      exact Eff.can_nil.mpr (svRow_seed hi (hr.trans_eq (Nat.zero_add _)) (List.getElem?_eq_getElem hrow)
        (stripePump_zero hp hin hzero) hsize hy))
  obtain ⟨-, hdecode⟩ := sv0DecodeSwapsOnceAfterTheRows s p mode
  obtain ⟨-, -, -, hcomplete⟩ := hdecode hready
  obtain ⟨m', hexec, hfixed, -⟩ := hcomplete q m hi hrows hloop
  refine ⟨_, hexec, rfl, rfl, rfl, fun r c hr hc hraced => (hfixed r c hr hc hraced).trans ?_⟩
  obtain ⟨r', c', hr', hc', hsource⟩ := fixupSource_inImage hr hc
  rw [hsource]
  exact hseed r' c' hc' (by omega)

end Sys2Proof.Machine

/-! SUPPORT. The Fuji context between its samples: FJ_INIT's depths, the strips' place in the raw width, and the ranges
of QT, of the pair index and of WRAP (spec 47_fuji.md R230-R232, R236-R239). -/

namespace Sys2Proof.Machine

/-! ## Strips (47_fuji.md R237, R238) -/

theorem HostRegs.rawWidth_lt (g : HostRegs) : g.rawWidth < 2 ^ 16 := (g.fjGeom1.extractLsb' 0 16).isLt

/-- The raw width ends in the last strip: each strip before it lies whole within the raw width. -/
structure HostRegs.StripsFit (g : HostRegs) : Prop where
  size_ne_zero : g.blockSize ≠ 0
  count_ne_zero : g.blocksInRow ≠ 0
  last_starts : g.blockSize * (g.blocksInRow - 1) < g.rawWidth
  last_ends : g.rawWidth ≤ g.blockSize * g.blocksInRow

/-- The width of strip i, the rest of the raw width for the last (47_fuji.md R237). -/
def HostRegs.stripWidth (g : HostRegs) (i : Nat) : Nat :=
  if i = g.blocksInRow - 1 then g.rawWidth - g.blockSize * (g.blocksInRow - 1) else g.blockSize

section
variable {g : HostRegs} {i : Nat} (hg : g.StripsFit)
include hg

theorem HostRegs.stripWidth_pos : 1 ≤ g.stripWidth i := by
  have hsize := hg.size_ne_zero
  have hlast := hg.last_starts
  unfold HostRegs.stripWidth
  split <;> omega

/-- A strip before the last ends where the next begins, which the raw width reaches; the last ends with the raw
width. -/
theorem HostRegs.strip_ends_in_row (hi : i < g.blocksInRow) : g.blockSize * i + g.stripWidth i ≤ g.rawWidth := by
  have hlast := hg.last_starts
  unfold HostRegs.stripWidth
  split
  next h => subst h; omega
  next h =>
    calc g.blockSize * i + g.blockSize = g.blockSize * (i + 1) := (Nat.mul_succ _ _).symm
      _ ≤ g.blockSize * (g.blocksInRow - 1) := Nat.mul_le_mul_left _ (by omega)
      _ ≤ g.rawWidth := hlast.le

end

section
variable {s : State} {i : Nat}

theorem stripCheck_of_fit (hg : s.regs.StripsFit) (hi : i < s.regs.blocksInRow) : stripCheck s i = .ok () :=
  Eff.bind_of_ok (require_of (decide_eq_true ⟨hg.size_ne_zero, hg.count_ne_zero⟩))
    (Eff.bind_of_ok (require_of (decide_eq_true ⟨hg.last_starts, hg.last_ends⟩)) (require_of (decide_eq_true hi)))

theorem stripCheck_of_zero (h : s.regs.blockSize = 0 ∨ s.regs.blocksInRow = 0) :
    stripCheck s i = .error (.raised ⟨.corrupt, s.regs.blocksInRow, s.regs.blockSize, 0, 0⟩) :=
  Eff.bind_of_error (require_of_not (decide_eq_false (by omega)))

theorem stripCheck_of_bad_width (hbs : s.regs.blockSize ≠ 0) (hn : s.regs.blocksInRow ≠ 0)
    (h : s.regs.rawWidth ≤ s.regs.blockSize * (s.regs.blocksInRow - 1) ∨
      s.regs.blockSize * s.regs.blocksInRow < s.regs.rawWidth) :
    stripCheck s i = .error (.raised ⟨.corrupt, s.regs.blocksInRow, s.regs.blockSize, 0, s.regs.rawWidth⟩) :=
  Eff.bind_of_ok (require_of (decide_eq_true ⟨hbs, hn⟩))
    (Eff.bind_of_error (require_of_not (decide_eq_false (by omega))))

theorem stripCheck_past_last (hg : s.regs.StripsFit) (hi : s.regs.blocksInRow ≤ i) :
    stripCheck s i = .error (.raised ⟨.corrupt, 0, 0, i, s.regs.blocksInRow⟩) :=
  Eff.bind_of_ok (require_of (decide_eq_true ⟨hg.size_ne_zero, hg.count_ne_zero⟩))
    (Eff.bind_of_ok (require_of (decide_eq_true ⟨hg.last_starts, hg.last_ends⟩))
      (require_of_not (decide_eq_false hi.not_gt)))

end

section
variable {s : State} {i : BitVec 16}

theorem exec_strip_of_check (h : stripCheck s i.toNat = .ok ()) :
    exec (.fjStripWidth i) s = .next { s with res := BitVec.ofNat 32 (s.regs.stripWidth i.toNat) }.complete ∧
    exec (.fjStripOffset i) s = .next { s with res := BitVec.ofNat 32 (s.regs.blockSize * i.toNat) }.complete := by
  rw [← State.setRes_natCast, ← State.setRes_natCast]
  exact ⟨finishPrimitive_of_ok (Eff.bind_of_ok h rfl), finishPrimitive_of_ok (Eff.bind_of_ok h rfl)⟩

theorem exec_strip_of_check_error {e : ErrInfo} (h : stripCheck s i.toNat = .error (.raised e)) :
    exec (.fjStripWidth i) s = .next (s.enterError e) ∧ exec (.fjStripOffset i) s = .next (s.enterError e) :=
  ⟨finishPrimitive_of_raised (Eff.bind_of_error h), finishPrimitive_of_raised (Eff.bind_of_error h)⟩

end

/-- Settles O57: each error is one of the three checks. Where they pass, a strip ends within the raw width, below 2^16,
so RES holds its width and its offset exactly. -/
theorem stripsPartitionTheRawWidth : Obligations.StripsPartitionTheRawWidth := by
  intro s i
  refine ⟨fun hbs hn hlast hrow hi => ?_, fun h => exec_strip_of_check_error (stripCheck_of_zero h),
    fun hbs hn h => exec_strip_of_check_error (stripCheck_of_bad_width hbs hn h),
    fun hbs hn hlast hrow hi => exec_strip_of_check_error (stripCheck_past_last ⟨hbs, hn, hlast, hrow⟩ hi)⟩
  have hg : s.regs.StripsFit := ⟨hbs, hn, hlast, hrow⟩
  obtain ⟨hwidth, hoffset⟩ := exec_strip_of_check (stripCheck_of_fit hg hi)
  have hpos := HostRegs.stripWidth_pos (i := i.toNat) hg
  have hends := HostRegs.strip_ends_in_row hg hi
  have hsmall := s.regs.rawWidth_lt
  have hw : (BitVec.ofNat 32 (s.regs.stripWidth i.toNat)).toNat = s.regs.stripWidth i.toNat :=
    Nat.mod_eq_of_lt (by omega)
  have ho : (BitVec.ofNat 32 (s.regs.blockSize * i.toNat)).toNat = s.regs.blockSize * i.toNat :=
    Nat.mod_eq_of_lt (by omega)
  exact ⟨_, _, hwidth, hoffset, hw, ho, hpos.trans_eq hw.symm, (congrArg₂ (· + ·) ho hw).trans_le hends⟩

/-! ## Gradients (47_fuji.md R231) -/

/-- What both depths share: the three inner quantization points, and a largest sample value one below total_values
(47_fuji.md R230). -/
structure Fuji.HasDepth (f : Fuji) : Prop where
  q1 : f.q 1 = 18
  q2 : f.q 2 = 67
  q3 : f.q 3 = 276
  total : (f.totalValues : Int) = f.q 4 + 1

theorem Fuji.hasDepth_of_sameSetup {f : Fuji} (h : f.sameSetup fuji14 = true ∨ f.sameSetup fuji12 = true) :
    f.HasDepth := by
  rcases h with h | h
  · obtain ⟨-, hqp, htotal, -⟩ := of_decide_eq_true h
    constructor <;> simp only [Fuji.q, hqp, htotal] <;> rfl
  · obtain ⟨-, hqp, htotal, -⟩ := of_decide_eq_true h
    constructor <;> simp only [Fuji.q, hqp, htotal] <;> rfl

theorem Fuji.HasDepth.quantize_eq {f : Fuji} (h : f.HasDepth) (d : Int) :
    f.quantize d =
      if d ≤ -276 then -4 else if d ≤ -67 then -3 else if d ≤ -18 then -2 else if d < 0 then -1
      else if d = 0 then 0 else if d < 18 then 1 else if d < 67 then 2 else if d < 276 then 3 else 4 := by
  rw [Fuji.quantize, h.q1, h.q2, h.q3]

/-- QT gives one of nine values, whatever the quantization points. -/
theorem Fuji.quantize_range (f : Fuji) (d : Int) : -4 ≤ f.quantize d ∧ f.quantize d ≤ 4 := by
  unfold Fuji.quantize
  split_ifs <;> decide

/-- Two of nine values make one of 81 gradients. -/
theorem Fuji.gradient_range (f : Fuji) (d e : Int) : -40 ≤ f.gradient d e ∧ f.gradient d e ≤ 40 := by
  have hd := f.quantize_range d
  have he := f.quantize_range e
  unfold Fuji.gradient
  omega

theorem gradIndex_val {grad : Int} (hlow : -40 ≤ grad) (hhigh : grad ≤ 40) : ((gradIndex grad).val : Int) = |grad| := by
  rw [Int.abs_eq_natAbs, gradIndex, Fin.val_ofNat, Nat.mod_eq_of_lt (by omega)]

/-! ## WRAP (47_fuji.md R239) -/

theorem Fuji.q_nonneg (f : Fuji) (i : Fin 5) : 0 ≤ f.q i := Int.natCast_nonneg _

/-- WRAP ends in a clamp, whatever the context. -/
theorem Fuji.wrap_range (f : Fuji) (v : Int) : 0 ≤ f.wrap v ∧ f.wrap v ≤ f.q 4 := by
  have := f.q_nonneg 4
  simp only [Fuji.wrap]
  split_ifs <;> omega

/-- A value that one turn does not bring up to 0 is clamped there. -/
theorem Fuji.wrap_of_lt {f : Fuji} {v : Int} (h : v < -(f.totalValues : Int)) : f.wrap v = 0 := by
  simp only [Fuji.wrap]
  rw [if_pos (by omega : v < 0), if_neg (by omega)]

section
variable {f : Fuji} {v : Int} (hf : (f.totalValues : Int) = f.q 4 + 1)
include hf

/-- A value that one turn does not bring down to the largest sample is clamped there. -/
theorem Fuji.wrap_of_ge (h : 2 * (f.totalValues : Int) ≤ v) : f.wrap v = f.q 4 := by
  have := f.q_nonneg 4
  simp only [Fuji.wrap]
  rw [if_neg (by omega : ¬v < 0), if_pos (by omega : f.q 4 < v), if_pos (by omega), min_eq_right (by omega)]

/-- A value already in the range stands. -/
theorem Fuji.wrap_of_mem (h0 : 0 ≤ v) (h : v < f.totalValues) : f.wrap v = v := by
  simp only [Fuji.wrap]
  rw [if_neg (by omega : ¬v < 0), if_neg (by omega : ¬f.q 4 < v), if_pos h0, min_eq_left (by omega)]

/-- One turn up or down is the remainder where it ends in the range. -/
theorem Fuji.wrap_eq_emod (hlow : -(f.totalValues : Int) ≤ v) (hhigh : v < 2 * f.totalValues) :
    f.wrap v = v % f.totalValues := by
  rcases lt_or_ge v 0 with hneg | hnonneg
  · calc f.wrap v = v + f.totalValues := by
          simp only [Fuji.wrap]
          rw [if_pos hneg, if_pos (by omega), min_eq_left (by omega)]
      _ = (v + f.totalValues) % f.totalValues := (Int.emod_eq_of_lt (by omega) (by omega)).symm
      _ = v % f.totalValues := Int.add_emod_right v _
  rcases lt_or_ge v f.totalValues with hin | hover
  · exact (Fuji.wrap_of_mem hf hnonneg hin).trans (Int.emod_eq_of_lt hnonneg hin).symm
  · calc f.wrap v = v - f.totalValues := by
          simp only [Fuji.wrap]
          rw [if_neg hnonneg.not_gt, if_pos (by omega), if_pos (by omega), min_eq_left (by omega)]
      _ = (v - f.totalValues) % f.totalValues := (Int.emod_eq_of_lt (by omega) (by omega)).symm
      _ = v % f.totalValues := Int.sub_emod_right v _

end

/-- Settles O54: the ranges hold of every context; the thresholds and WRAP's turn need FJ_INIT's numbers. -/
theorem gradientsAndWrapStayInRange : Obligations.GradientsAndWrapStayInRange := by
  intro f d e v hsetup
  have hdepth := Fuji.hasDepth_of_sameSetup hsetup
  obtain ⟨hlow, hhigh⟩ := f.gradient_range d e
  obtain ⟨hwrapLow, hwrapHigh⟩ := f.wrap_range v
  exact ⟨hdepth.quantize_eq d, hlow, hhigh, gradIndex_val hlow hhigh, hwrapLow, hwrapHigh,
    Fuji.wrap_eq_emod hdepth.total, Fuji.wrap_of_lt, Fuji.wrap_of_ge hdepth.total⟩

/-! ## Setup and the end of a strip (47_fuji.md R230, R232, R236) -/

section
variable {s : State} {rb : BitVec 5}

theorem exec_fjInit_14 (h : rb.toNat = 14) : exec (.fjInit rb) s = .next { s with fuji := fuji14 }.complete :=
  finishPrimitive_of_ok (if_pos h)

theorem exec_fjInit_12 (h : rb.toNat = 12) : exec (.fjInit rb) s = .next { s with fuji := fuji12 }.complete :=
  finishPrimitive_of_ok ((if_neg (by omega)).trans (if_pos h))

theorem exec_fjInit_other (h14 : rb.toNat ≠ 14) (h12 : rb.toNat ≠ 12) :
    exec (.fjInit rb) s = .next (s.enterError ⟨.corrupt, 0, 0, 0, rb.toNat⟩) :=
  finishPrimitive_of_raised ((if_neg h14).trans (if_neg h12))

end

section
variable {s : State} (hf : s.fuji.valid = true)
include hf

theorem exec_fjGradReset_of_valid : exec .fjGradReset s = .next { s with fuji := s.fuji.gradReset }.complete :=
  finishPrimitive_of_ok (Eff.bind_of_ok (require_of hf) rfl)

theorem exec_fjEndStrip_of_no_errors (h : s.fuji.errcnt = 0) : exec .fjEndStrip s = .next s.complete :=
  finishPrimitive_of_ok (Eff.bind_of_ok (require_of hf) (Eff.bind_of_ok (require_of (decide_eq_true h)) rfl))

theorem exec_fjEndStrip_of_errors (h : s.fuji.errcnt ≠ 0) :
    exec .fjEndStrip s = .next (s.enterError ⟨.corrupt, 0, 0, 0, s.fuji.errcnt.toNat⟩) :=
  finishPrimitive_of_raised (Eff.bind_of_ok (require_of hf) (Eff.bind_of_error (require_of_not (decide_eq_false h))))

end

/-- Both commands begin with the check of the context. -/
theorem exec_fujiStrip_of_invalid {s : State} (hf : s.fuji.valid = false) :
    exec .fjGradReset s = .next (s.enterError ⟨.state, 0, 0, 0, 0⟩) ∧
    exec .fjEndStrip s = .next (s.enterError ⟨.state, 0, 0, 0, 0⟩) :=
  have hcheck : fujiValid s = .error (.raised ⟨.state, 0, 0, 0, 0⟩) := require_of_not hf
  ⟨finishPrimitive_of_raised (Eff.bind_of_error hcheck), finishPrimitive_of_raised (Eff.bind_of_error hcheck)⟩

/-- Settles O53: FJ_INIT by its depth, the other two by the context's check and the error count. -/
theorem fujiSetupAndStripEnd : Obligations.FujiSetupAndStripEnd := fun _ _ =>
  ⟨exec_fjInit_14, exec_fjInit_12, exec_fjInit_other,
    fun hf => ⟨exec_fjGradReset_of_valid hf, exec_fjEndStrip_of_no_errors hf, exec_fjEndStrip_of_errors hf⟩,
    exec_fujiStrip_of_invalid⟩

end Sys2Proof.Machine

/-! SUPPORT. The codes a well-formed command can raise: its pseudocode raises those of its row, as its check of the
immediate passes (spec 30_encoding.md R84, 60_exceptions.md R260, R262). -/

namespace Sys2Proof.Machine

/-! ## The check of the immediate (30_encoding.md R84 item 4) -/

/-- On a legal immediate the check raises nothing, E_ILLEGAL included. -/
theorem may_requireLegal {codes : List ErrCode} {s : State} {ok : Bool} (h : ok = true) :
    Eff.Only codes (requireLegal s ok) := by
  rw [requireLegal, require_of h]
  trivial

/-! The six commands with such an immediate, by the checks after it. -/

section
variable {w : Writes} {s : State}

theorem may_bsHasPrefix_of_legal {k : StreamIx} {n : BitVec 4} (hn : prefixLengthOk n = true) (hw : w.res = true) :
    Eff.May [.state] (Frame w s) (bsHasPrefix k n s) :=
  Eff.may_bind (may_requireLegal hn) fun _ _ => Eff.may_bind (may_schk (by simp)) fun _ _ =>
    Eff.may_bind may_prefixMatches fun _ _ => (Frame.refl w s).setRes hw _

theorem may_bsSkipPrefix_of_legal {k : StreamIx} {n : BitVec 4} (hn : prefixLengthOk n = true) (hk : k ∈ w.streams)
    (hw : w.res = true) : Eff.May [.state] (Frame w s) (bsSkipPrefix k n s) := by
  refine Eff.may_bind (may_requireLegal hn) fun _ _ => Eff.may_bind (may_schk (by simp)) fun _ _ =>
    Eff.may_bind may_prefixMatches fun hit _ => ?_
  cases hit
  · exact (Frame.refl w s).setRes hw _
  · exact ((Frame.refl w s).setPos hk _).setRes hw _

theorem may_bpGetBits_of_legal {p : PumpIx} {n : BitVec 6} (hn : bitCountOk n = true) (hp : p ∈ w.pumps)
    (hw : w.res = true) : Eff.May [.state, .ioBounds] (Frame w s) (bpGetBits p n s) :=
  Eff.may_bind (may_requireLegal hn) fun _ _ => Eff.may_bind (may_pchk (by simp)) fun _ _ =>
    Eff.may_bind (may_pget (by simp)) fun _ _ => ((Frame.refl w s).setPump hp _).setRes hw _

theorem may_bpPeekBits_of_legal {p : PumpIx} {n : BitVec 6} (hn : bitCountOk n = true) (hp : p ∈ w.pumps)
    (hw : w.res = true) : Eff.May [.state] (Frame w s) (bpPeekBits p n s) :=
  Eff.may_bind (may_requireLegal hn) fun _ _ => Eff.may_bind (may_pchk (by simp)) fun _ _ =>
    Eff.may_bind may_ppeek fun _ _ => ((Frame.refl w s).setPump hp _).setRes hw _

theorem may_bpSkipBits_of_legal {p : PumpIx} {n : BitVec 6} (hn : bitCountOk n = true) (hp : p ∈ w.pumps) :
    Eff.May [.state, .ioBounds] (Frame w s) (bpSkipBits p n s) :=
  Eff.may_bind (may_requireLegal hn) fun _ _ => Eff.may_bind (may_pchk (by simp)) fun _ _ =>
    Eff.may_bind (may_pskip (by simp)) fun _ _ => (Frame.refl w s).setPump hp _

theorem may_htSetValues_of_legal {t : TableIx} {k : StreamIx} {n : BitVec 9} (hn : valueCountOk n = true)
    (ht : t ∈ w.tables) (hk : k ∈ w.streams) :
    Eff.May [.state, .ioBounds, .corrupt] (Frame w s) (htSetValues t k n s) :=
  Eff.may_bind (may_requireLegal hn) fun _ _ => Eff.may_bind (may_require (by simp)) fun _ _ =>
    Eff.may_bind (may_schk (by simp)) fun _ _ => Eff.may_bind (may_require (by simp)) fun _ _ =>
    Eff.may_bind (may_needRemaining (by simp)) fun _ _ => Eff.may_bind may_windowBytes fun _ _ =>
    ((Frame.refl w s).setTable ht _).setPos hk _

end

/-! ## The codes of a command (60_exceptions.md R262) -/

section
variable {i : Instr} {s s' t : State} {r : Eff State}

/-- A primitive command run with ERR = 0 that ends in error ends with a code its pseudocode raises. -/
theorem finishPrimitive_code (hs : s.status.err = false) (hr : Eff.May (allowedCodes i) (Frame (writesOf i) s) r)
    (ht : finishPrimitive s' r = .next t) (herr : t.status.err = true) : t.err.code ∈ allowedCodes i := by
  obtain ⟨u, rfl, rfl⟩ | ⟨e, rfl, rfl⟩ := finishPrimitive_next.mp ht
  · rw [State.complete_status, Frame.status hr, hs] at herr
    cases herr
  · exact hr

/-- The same of a decoding command. -/
theorem finishMacro_code {p : PumpIx} (hs : s.status.err = false)
    (hr : Eff.May (allowedCodes i) (Frame (writesOf i) s) r) (ht : finishMacro s' p r = .next t)
    (herr : t.status.err = true) : t.err.code ∈ allowedCodes i := by
  obtain ⟨u, rfl, rfl⟩ | ⟨e, rfl, rfl⟩ := finishMacro_next.mp ht
  · rw [State.complete_status, State.settleMacro_status, Frame.status hr, hs] at herr
    cases herr
  · exact hr

end

/-- Settles O17: each command's pseudocode raises the codes of its row, and the six that check their immediate pass the
check. -/
theorem onlyTheListedCodesAreRaised : Obligations.OnlyTheListedCodesAreRaised := by
  intro i s t hwf hs ht herr
  have one : ∀ {n : Nat} (k : Fin n), k ∈ [k] := fun k => List.mem_singleton_self k
  cases i with
  | nop => exact finishPrimitive_code (s' := s) (r := .ok s) hs (Frame.refl _ s) ht herr
  | bsInit k be => exact finishPrimitive_code hs (may_bsInit (one k)) ht herr
  | bsGetU8 k | bsGetU16 k | bsGetU32 k | bsGetI32 k | bsGetF32 k =>
    exact finishPrimitive_code hs (may_streamGet (one k) rfl) ht herr
  | bsPeekU8 k | bsPeekU16 k | bsPeekU32 k => exact finishPrimitive_code hs (may_streamPeek rfl) ht herr
  | bsSkip k => exact finishPrimitive_code hs (may_bsSkip (one k)) ht herr
  | bsGetStream src dst =>
    exact finishPrimitive_code hs (may_bsGetStream (by simp [writesOf]) (by simp [writesOf])) ht herr
  | bsGetSubstream src dst => exact finishPrimitive_code hs (may_bsGetSubstream (one dst)) ht herr
  | bsHasPrefix k n => exact finishPrimitive_code hs (may_bsHasPrefix_of_legal hwf rfl) ht herr
  | bsSkipPrefix k n => exact finishPrimitive_code hs (may_bsSkipPrefix_of_legal hwf (one k) rfl) ht herr
  | bsRebase k => exact finishPrimitive_code hs (may_bsRebase (one k)) ht herr
  | bsCheck k => exact finishPrimitive_code hs may_bsCheck ht herr
  | bpInit p k mode => exact finishPrimitive_code hs (may_bpInit (one p)) ht herr
  | bpFill p => exact finishPrimitive_code hs (may_bpFill (one p)) ht herr
  | bpGetBits p n => exact finishPrimitive_code hs (may_bpGetBits_of_legal hwf (one p) rfl) ht herr
  | bpPeekBits p n => exact finishPrimitive_code hs (may_bpPeekBits_of_legal hwf (one p) rfl) ht herr
  | bpSkipBits p n => exact finishPrimitive_code hs (may_bpSkipBits_of_legal hwf (one p)) ht herr
  | htReset h =>
    exact finishPrimitive_code (s' := s) (r := .ok (s.setTable h .reset)) hs
      ((Frame.refl (writesOf (.htReset h)) s).setTable (one h) _) ht herr
  | htSetCounts h => exact finishPrimitive_code hs (may_htSetCounts (one h)) ht herr
  | htSetValues h k n => exact finishPrimitive_code hs (may_htSetValues_of_legal hwf (one h) (one k)) ht herr
  | htSetup h dng16 => exact finishPrimitive_code hs (may_htSetup (one h)) ht herr
  | htDecodeSym h p => exact finishPrimitive_code hs (may_htDecodeSym (one p) rfl) ht herr
  | htDecodeDiff h p => exact finishPrimitive_code hs (may_htDecodeDiff (one p) rfl) ht herr
  | htLoadPentaxLegacy h => exact finishPrimitive_code hs (may_loadLegacy (one h)) ht herr
  | htLoadPentax h k => exact finishPrimitive_code hs (may_htLoadPentax (one h) (one k)) ht herr
  | ljDecode p => exact finishMacro_code hs (may_ljDecode (one p) rfl) ht herr
  | pxDecode p h => exact finishMacro_code hs (may_pxDecode (one p) rfl) ht herr
  | sv0Stripes offs raw =>
    exact finishPrimitive_code hs (may_sv0Stripes ((Frame.refl _ s).withSv0 rfl _) (one offs) rfl) ht herr
  | sv0Decode p mode => exact finishMacro_code hs (may_sv0Decode (one p) rfl rfl) ht herr
  | fjInit rb => exact finishPrimitive_code hs (may_fjInit rfl) ht herr
  | fjGradReset => exact finishPrimitive_code hs (may_fjGradReset rfl) ht herr
  | fjSampleEven p j => exact finishPrimitive_code hs (may_fjSampleEven (one p) rfl rfl) ht herr
  | fjSampleOdd p j => exact finishPrimitive_code hs (may_fjSampleOdd (one p) rfl rfl) ht herr
  | fjEndStrip => exact finishPrimitive_code hs may_fjEndStrip ht herr
  | fjStripWidth strip => exact finishPrimitive_code hs (may_fjStripWidth rfl) ht herr
  | fjStripOffset strip => exact finishPrimitive_code hs (may_fjStripOffset rfl) ht herr

end Sys2Proof.Machine

/-! SUPPORT. The state after reset, slot by slot (spec 70_reset_and_hazards.md R292). -/

namespace Sys2Proof.Machine

/-! ## Slots and arrays -/

theorem State.reset_stream (k : StreamIx) : State.reset.streams[k] = .reset := Vector.getElem_replicate _

theorem State.reset_pump (p : PumpIx) : State.reset.pumps[p] = .reset := Vector.getElem_replicate _

theorem State.reset_table (t : TableIx) : State.reset.tables[t] = .reset := Vector.getElem_replicate _

/-- An entry of an array filled with the value an entry outside it has. -/
theorem getD_getElem?_replicate {α : Type} (n i : Nat) (a : α) : (Vector.replicate n a)[i]?.getD a = a := by
  rw [Vector.getElem?_replicate]
  split <;> rfl

@[simp] theorem HuffTable.reset_countOf (l : Nat) : HuffTable.reset.countOf l = 0 :=
  congrArg BitVec.toNat (getD_getElem?_replicate _ _ _)

@[simp] theorem HuffTable.reset_firstOf (l : Nat) : HuffTable.reset.firstOf l = 0 := getD_getElem?_replicate _ _ _

@[simp] theorem HuffTable.reset_indexOf (l : Nat) : HuffTable.reset.indexOf l = 0 := getD_getElem?_replicate _ _ _

@[simp] theorem HuffTable.reset_valueAt (i : Nat) : HuffTable.reset.valueAt i = 0 := getD_getElem?_replicate _ _ _

@[simp] theorem GradArray.filled_pair (g : GradPair) (j : GradSet) (i : Fin 41) : (GradArray.filled g).pair j i = g := by
  simp [GradArray.filled, GradArray.pair]

/-! ## The register map -/

/-- The register map after reset: ID and PARAM read their constants, every other register 0. -/
theorem readReg_reset (r : HostReg) :
    readReg State.reset r =
      match r with
      | .id => 0x42530001#32
      | .param => 0xFFFF0424#32
      | _ => 0 := by
  cases r with
  | sOff k | sSize k | sPos k | sCfg k =>
    rw [readReg, State.reset_stream]
    rfl
  | pOff p | pSize p | pInpos p | pStat p | pEndpos p | pConsumed p | pCacheHi p | pCacheLo p =>
    rw [readReg, State.reset_pump]
    rfl
  | tStat t =>
    rw [readReg, State.reset_table]
    rfl
  | _ => rfl

/-- Settles O13, register by register and slot by slot. -/
theorem resetValues : Obligations.ResetValues := by
  refine ⟨readReg_reset, State.reset_stream, State.reset_pump, fun t => ?_, rfl,
    ⟨rfl, rfl, fun i => Vector.getElem_replicate _, rfl, rfl, rfl, rfl, rfl, fun j g => ⟨GradArray.filled_pair _ j g,
      GradArray.filled_pair _ j g⟩⟩, rfl, rfl⟩
  rw [State.reset_table]
  exact ⟨rfl, rfl, rfl, fun l _ _ => ⟨HuffTable.reset_countOf l, HuffTable.reset_firstOf l, HuffTable.reset_indexOf l⟩,
    HuffTable.reset_valueAt⟩

/-! ## The invariant -/

/-- An invalid stream is legal in a block of any size. -/
theorem StreamSlot.reset_legal (par : Params) : StreamSlot.reset.legal par = true := rfl

/-- An invalid pump with an empty cache is legal in a block of any size. -/
theorem Pump.reset_legal (par : Params) : Pump.reset.legal par = true := by
  simp [Pump.legal, Pump.reset]

/-- Settles O58: invalid slots, empty tables and empty memories are legal in a block of the reset parameters. -/
theorem resetIsSafe : Obligations.ResetIsSafe where
  par := by decide
  status := rfl
  errCode := iff_of_true rfl rfl
  regs := by decide
  streams := fun k => State.reset_stream k ▸ StreamSlot.reset_legal _
  pumps := fun p => State.reset_pump p ▸ Pump.reset_legal _
  tables := fun t => State.reset_table t ▸ HuffTable.reset_legal
  sv0 := by decide
  fuji := rfl
  inMem := rfl
  inSize := rfl
  outMem := rfl
  outSize := rfl
  outRaced := nofun

end Sys2Proof.Machine
